-- ==== Sys2Proof/Word.lean ====
section
/-! DEFINITION. The words of the machine: widths that the spec fixes, and nothing else. -/

namespace Sys2Proof

/-- One byte of memory. -/
abbrev Byte := BitVec 8

/-- One lane of a line, one instruction word (R58). -/
abbrev Word32 := BitVec 32

/-- One scalar register, one memory double word (R19). -/
abbrev Word := BitVec 64

/-- A scalar value with its poison bit (R19, R247). -/
structure SVal where
  v : Word
  p : Bool
  deriving DecidableEq, Repr

/-- The clear zero, which x0 always reads as (R19). -/
abbrev SVal.zero : SVal := { v := 0, p := false }

end Sys2Proof
end

