-- ==== Sys2Proof/Config.lean ====
section
/-! DEFINITION. What the spec leaves to the implementation, and the free values.
Every constant here has no body: nothing can be proved about its value, so every claim holds for all values. -/

namespace Sys2Proof.Config

/-- The `k`-th free value: what a place holds after the spec has called its contents undefined (R406, DESIGN CHOICE log 6). -/
opaque freeValue : Nat → BitVec 64

/-- A free value where the fuel of a special function runs out before the rounding is decided
(DEDUCED log 12): function code, mode code, and the operand bits. -/
opaque freeResult : Nat → Nat → Nat → Nat → BitVec 32

/-- The digest that the fuses of vendor slot `k` hold (slots 0-3; R394). -/
opaque vendorDigest : Nat → BitVec 256

/-- The digest of the operator key, once it is fused (R394). -/
opaque operatorDigest : BitVec 256

/-- The moduli of the public keys that the SYC is given to try a signature with (R394; DESIGN CHOICE log 79). -/
opaque publicKeys : List Nat

/-- The module left its maker and its operator with the operator key fused, and with these vendor slots revoked
(R394; DESIGN CHOICE log 79). -/
opaque operatorFused : Bool
opaque revokedSlots : BitVec 4

/-- The next HNONCE after a given one (R377). -/
opaque nextNonce : BitVec 64 → BitVec 64

/-- The identity key's signature over a report of 192 bytes (R396), as 384 bytes in one number. -/
opaque identitySign : List (BitVec 8) → BitVec 3072

/-- Byte `k` of the identity certificate (R396). -/
opaque identityCert : Nat → BitVec 8

/-- What the host answers to a read through its outbound aperture: port, offset, and the count of such reads (R16, R304). -/
opaque hostAperture : Nat → Nat → Nat → BitVec 8

/-- What another package answers to a read: package, address, and the count of such reads (R12, DESIGN CHOICE log 13). -/
opaque remoteRead : Nat → Nat → Nat → BitVec 8

/-- Whether that answer is poisoned. -/
opaque remotePois : Nat → Nat → Nat → Bool

/-- What a sensor of the module shows at a clock: 0 the input voltage in 10 mV, 1 the coolant inlet in degrees (R424, DESIGN CHOICE log 14). -/
opaque sensor : Nat → Nat → BitVec 16

/-- Flits that a Duthar lane has carried by a clock: lane, clock (R412; DESIGN CHOICE log 14). -/
opaque flits : Nat → Nat → Nat

/-- Spare lanes of a UCIe module beyond its 64 (R412: as UCIe 3.0 lane repair provides; DESIGN CHOICE log 32). -/
opaque ucieSpares : Nat → Nat

/-- The slice that homes a cached line, among the live dies' slices (R292): physical line address, live-die mask (DESIGN CHOICE log 65). -/
opaque homeSlice : Nat → BitVec 6 → Nat

end Sys2Proof.Config
end

