-- ==== Sys2Proof/Syntax.lean ====
section
/-! DEFINITION. The instructions and events of the Plovlen P6: one constructor of `Instr` per row of spec/opcode_table.json. -/

namespace Sys2Proof

/-- A scalar register number x0-x31 (R19). -/
abbrev Reg := Fin 32
/-- A vector register number v0-v63 (R27). -/
abbrev VReg := Fin 64
/-- A mask register number m0-m7 (R27). -/
abbrev MReg := Fin 8
/-- A tensor-table entry number t0-t127 (R163). -/
abbrev TEnt := Fin 128

/-- Element types, as the X word's format codes number them (R71). -/
inductive ElemTy
  | f32 | bf16 | bx8 | bx4 | i32 | n32 | i16 | n16 | i8 | n8 | i4 | n4
  deriving DecidableEq, Repr

/-- Rounding modes (R71, R89). -/
inductive Rnd
  | rne | rz | rup | rdn
  deriving DecidableEq, Repr

/-- Scopes (R35, R336). -/
inductive Scope
  | core | quad | die | pkg | pod
  deriving DecidableEq, Repr

/-- Ordering codes (R336). -/
inductive Ordr
  | none | acq (s : Scope) | rel (s : Scope) | ar (s : Scope)
  deriving DecidableEq, Repr

/-- Access sizes of scalar loads and stores (R336). -/
inductive Size
  | b | h | w | d
  deriving DecidableEq, Repr

/-- Conditions of `cmp` and `vcmp` (R79). -/
inductive Cond
  | eq | ne | lt | ge | ltn | gen
  deriving DecidableEq, Repr

/-- Atomic operations (R344). -/
inductive AtomOp
  | add | and | or | xor | swap | min | max | minn | maxn
  deriving DecidableEq, Repr

/-- The engine queues; also the timeline counters, in the order of their codes (R20, R339). -/
inductive Eng
  | lq | ve | sq | lp | wq | cq
  deriving DecidableEq, Repr

/-- Control and status registers (R276). -/
inductive Csr
  | pkgno | cctl | cflags | cbase | carvew | jobid | lidx | tvec | tepc | frec | clock | chto
  deriving DecidableEq, Repr

/-- An operand of a sequencer word: a scalar register, a constant-bank word (8-byte index), or a literal (R73-R76). -/
inductive SOpd
  | reg (n : Reg) | const (k : Fin 8192) | lit (v : BitVec 32)
  deriving DecidableEq, Repr

/-- An operand of an engine word (R73-R76). -/
inductive EOpd
  | vec (n : VReg) | reg (n : Reg) | const (k : Fin 8192) | lit (v : BitVec 32)
  deriving DecidableEq, Repr

/-- Token bits of a VE or LP word (R69). -/
structure Tok where
  wl : Bool
  wr : Bool
  sl : Bool
  sr : Bool
  deriving DecidableEq, Repr

/-- Token bits of an LQ or SQ word, which has one neighbour: wait, signal, and the partner select bit (R23, R70). -/
structure Tok1 where
  w : Bool
  s : Bool
  lp : Bool
  deriving DecidableEq, Repr

/-- The fields of the X word that every VE instruction has (R71). -/
structure Mods where
  ty : ElemTy
  mask : MReg
  sat : Bool
  rnd : Rnd
  deriving DecidableEq, Repr

/-- The arming word of `loopb`: the skew of each armed queue (R258). -/
structure Arming where
  lq : Option (Fin 8)
  ve : Option (Fin 8)
  sq : Option (Fin 8)
  lp : Option (Fin 8)
  wq : Option (Fin 8)
  cq : Option (Fin 8)
  deriving DecidableEq, Repr

/-- A core: 128 x socket + 4 x quad + core (R402). -/
abbrev CoreId := Fin 768
/-- A quad: 32 x socket + quad (R285). -/
abbrev QuadId := Fin 192

/-- A sequencer: AS or XS of a core (R19). -/
structure SeqId where
  core : CoreId
  xs : Bool
  deriving DecidableEq, Repr

/-- What can wait on a frontier, a cell or a token: a sequencer, or the oldest unfinished entry of a queue. -/
inductive Waiter
  | seq (q : SeqId) | eng (c : CoreId) (e : Eng)
  deriving DecidableEq, Repr

/-- How a master's request travels, which decides how a refusal is answered (R304, R376): a posted or a non-posted request of
PCIe or CXL.io, one of CXL.mem, a message of MCTP. -/
inductive Travel
  | posted | nonPosted | cxlMem | mctp
  deriving DecidableEq, Repr

/-- A request that came in at one of `n` ports, and how it travels (R376). -/
structure FromPort (n : Nat) where
  port : Fin n
  how : Travel
  deriving DecidableEq, Repr

/-- Who writes a register: a master port, a store of the management context, or the SYC's own firmware (R13, R373, R380). -/
inductive Writer
  | master (p : Fin 4) (how : Travel) | mgmt | syc
  deriving DecidableEq, Repr

/-- For whom a write to another package is acknowledged (R333). -/
inductive AckFor
  | core (c : CoreId) | crier (k : Fin 48)
  deriving DecidableEq, Repr

/-- One element as a contribution carries it: bits and poison (R122). -/
structure CElem where
  v : BitVec 64
  p : Bool
  deriving DecidableEq, Repr

/-- What the firing of another member brings to this package's crier (R191, R195, R198). -/
structure Firing where
  pkg : Fin 256
  sig : BitVec 32
  op : Fin 16
  nel : BitVec 16
  cmp : Bool
  pair : Fin 8
  shp : BitVec 32
  fault : Option (BitVec 8)
  exitTab : BitVec 4320
  elems : List CElem
  deriving DecidableEq, Repr

/-- What another member sends at an assay point (R208). -/
structure AssayMsg where
  pkg : Fin 256
  digest : BitVec 128
  poison : Bool
  deriving DecidableEq, Repr

/-- A fault as an instruction raises it: class, detail word, address, walk reason and level (R399). -/
structure FaultInfo where
  cls : BitVec 8
  detail : BitVec 64
  addr : BitVec 64
  reason : BitVec 8
  level : BitVec 3
  deriving DecidableEq, Repr

/-- What another package asks of this one (R12, R289). -/
inductive RemoteReq
  | read (pa : BitVec 48) (n : Fin 129)
  | write (pa : BitVec 48) (bytes : List (BitVec 8)) (poison : Bool)
  | atomic (pa : BitVec 48) (op : AtomOp) (f32 : Bool) (wide : Bool) (v : BitVec 64)
  | cas (pa : BitVec 48) (wide : Bool) (expect v : BitVec 64)
  deriving DecidableEq, Repr

/-- Where an uncorrectable error is found (R302). -/
inductive ErrPlace
  | mem (pa : BitVec 48)
  | l1 (c : CoreId) (pa : BitVec 48)
  | cell (c : CoreId) (cell : Fin 196608)
  | vgran (c : CoreId) (r : VReg) (g : Fin 32)
  /-- in the metadata of a compressed block (R298) -/
  | cmpBlock (pa : BitVec 48)
  /-- in a flit whose replays on a port have run out, on its way to an address -/
  | flit (port : Fin 48) (pa : BitVec 48)
  deriving DecidableEq, Repr

/-- A corrected error: a unit of the mismatch histograms, or an HBM word with its place (R412, R413). -/
inductive CorrErr
  | unit (kind : Fin 5) (index : Fin 16777216)
  | hbm (chan : Fin 384) (bank row col : Nat)
  deriving DecidableEq, Repr

/-- How a host port trains (R40, R378). -/
inductive PortMode
  | pcie | cxl
  deriving DecidableEq, Repr

/-- What a bring-up step finds (R425, R395): a firmware image as its bytes, the dies that passed and the stack indices that
trained, the end of the bring-up service, and with the rest of the training one image for each crier. -/
inductive BootResult
  | image (bytes : List (BitVec 8))
  | trained (passed : BitVec 6) (live : BitVec 12)
  | service
  | full (live : BitVec 12) (images : List (List (BitVec 8)))
  deriving DecidableEq, Repr

/-- The steps of the machine: the encoded instructions, then the events (spec/opcode_table.json). -/
inductive Instr
  -- sequencer arithmetic (R249-R255)
  | nop
  | add (d : Reg) (a b : SOpd)
  | sub (d : Reg) (a b : SOpd)
  | mul (d : Reg) (a b : SOpd)
  | mulh (d : Reg) (a b : SOpd)
  | mulhn (d : Reg) (a b : SOpd)
  | div (d : Reg) (a b : SOpd)
  | divn (d : Reg) (a b : SOpd)
  | rem (d : Reg) (a b : SOpd)
  | remn (d : Reg) (a b : SOpd)
  | and (d : Reg) (a b : SOpd)
  | or (d : Reg) (a b : SOpd)
  | xor (d : Reg) (a b : SOpd)
  | andn (d : Reg) (a b : SOpd)
  | orn (d : Reg) (a b : SOpd)
  | shl (d : Reg) (a b : SOpd)
  | shr (d : Reg) (a b : SOpd)
  | sra (d : Reg) (a b : SOpd)
  | rol (d : Reg) (a b : SOpd)
  | ror (d : Reg) (a b : SOpd)
  | min (d : Reg) (a b : SOpd)
  | max (d : Reg) (a b : SOpd)
  | minn (d : Reg) (a b : SOpd)
  | maxn (d : Reg) (a b : SOpd)
  | clz (d : Reg) (a : SOpd)
  | ctz (d : Reg) (a : SOpd)
  | popc (d : Reg) (a : SOpd)
  | bfx (d : Reg) (a b : SOpd) (wid : Fin 64)
  | bfi (d : Reg) (a b : SOpd) (wid : Fin 64)
  | sel (d : Reg) (a b : SOpd) (c : Reg)
  | cmp (cc : Cond) (d : Reg) (a b : SOpd)
  | lea (d : Reg) (a b : SOpd) (sh : Fin 8)
  | lit (d : Reg) (a : SOpd)
  | litWide (d : Reg) (lo hi : Word32)
  -- control (R256-R261)
  | br (off : BitVec 25)
  | bcZ (a : Reg) (off : BitVec 20)
  | bcNz (a : Reg) (off : BitVec 20)
  | call (off : BitVec 25)
  | ret (a : Reg)
  | jr (a : Reg)
  | loopb (a : Reg) (off : BitVec 20) (arm : Arming)
  | loopIteration (c : CoreId) (e : Eng)
  | loopx (d : Reg) (a : SOpd)
  | bopush (a : SOpd)
  | bobc (a : Reg) (off : BitVec 20)
  -- tasks (R262-R271)
  | launch (d a : Reg) (b : SOpd)
  | spawn (d a : Reg) (b : SOpd)
  | join (d a : Reg)
  | suspendAs (a b : Reg) (an : Fin 17)
  | suspendXs
  | suspendComplete (c : CoreId)
  | commit (d : Reg)
  | retire
  | streamEnd (q : SeqId)
  | cancel (d : Reg) (a : SOpd)
  | yield
  -- traps, control registers, waiting (R272-R281)
  | trap (code : Fin 64)
  | eret
  | csrr (d : Reg) (c : Csr)
  | csrw (c : Csr) (a : SOpd)
  | carve (a : SOpd)
  | fencei
  | wait (d a : Reg) (b : SOpd)
  | waitEnd (q : SeqId) (written : Bool)
  -- memory and synchronisation (R340-R365)
  | ld (d a : Reg) (disp : BitVec 32) (sz : Size) (acq : Option Scope)
  | st (d a : Reg) (disp : BitVec 32) (sz : Size) (rel : Option Scope) (asy : Bool)
  | ldfe (d a : Reg) (disp : BitVec 32) (sz : Size) (clear : Bool)
  | stfe (d a : Reg) (disp : BitVec 32) (sz : Size)
  | fullEmptyWaitEnd (w : Waiter)
  | fence (o : Ordr)
  | promote (d a : Reg) (disp : BitVec 32) (s : Scope)
  | taggedLineEviction (pa : BitVec 48)
  | amo (op : AtomOp) (d a : Reg) (b : SOpd) (sz : Size) (o : Ordr) (nr : Bool)
  | cas (d a : Reg) (b : SOpd) (sz : Size) (o : Ordr)
  | famo (op : AtomOp) (d a : Reg) (b : SOpd) (o : Ordr) (nr : Bool)
  | amofence (s : Scope)
  | nrAtomicHomeFault (c : CoreId)
  | tlwait (t : Eng) (a : SOpd) (s : Scope)
  | tlwaitReturn (q : SeqId)
  | tlread (d : Reg) (t : Eng)
  | fopen (a : Reg)
  | fpub (a : Reg) (b : SOpd) (s : Scope)
  | fchase (d a : Reg) (b : SOpd) (s : Scope)
  | chaseSatisfied (w : Waiter)
  | fclose (a : Reg) (s : Scope)
  | fhalt (a : Reg)
  | fread (d a : Reg)
  | bar (b : Fin 32) (a : SOpd)
  | barw (b : Fin 32)
  | barwWake (q : SeqId)
  | bars (b : Fin 32) (a : SOpd)
  | hbar (s : Scope) (a : SOpd)
  | hbarPhaseEnd (q : SeqId) (outside : Nat)
  | hoff (d c a : Reg) (b : SOpd)
  | take (d a : Reg) (b : SOpd)
  | takeReturn (q : SeqId)
  | ckpt (d : Reg)
  | fereset (a : Reg) (b : SOpd)
  | pref (a : Reg) (disp : BitVec 32) (home : Bool)
  | cwb (a : Reg) (b : SOpd)
  | cinv (a : Reg) (b : SOpd)
  | permit (a : Reg) (b : SOpd) (s : Scope)
  -- shapes, tensor table, leases (R165-R172)
  | shld (sh : Fin 16) (a : Reg) (disp : BitVec 32)
  | shst (sh : Fin 16) (a : Reg) (disp : BitVec 32)
  | shset (sh : Fin 16) (a : SOpd) (f : Fin 22)
  | shget (d : Reg) (sh : Fin 16) (f : Fin 22)
  | tdef (t : TEnt) (sh : Fin 16)
  | tdrop (t : TEnt)
  | tget (sh : Fin 16) (t : TEnt)
  | lease (a : SOpd)
  | unlease
  | loomLeaseDraw (q : QuadId)
  -- groups, assay, crier load (R198-R211)
  | cgrp (d a : Reg) (g : Fin 64)
  | asyreg (a : Reg) (b : SOpd) (g : Fin 64)
  | asyfence (d : Reg) (g : Fin 64)
  | assayPointEnd (ctx g : Fin 64) (others : List AssayMsg)
  | asyget (d : Reg) (a : SOpd) (g : Fin 64)
  | crload (d a : Reg) (b : SOpd)
  | crierResume (k : Fin 48)
  -- vector engine (R133)
  | vadd (t : Tok) (d : VReg) (a b : EOpd) (m : Mods)
  | vsub (t : Tok) (d : VReg) (a b : EOpd) (m : Mods)
  | vmul (t : Tok) (d : VReg) (a b : EOpd) (m : Mods)
  | vfma (t : Tok) (d : VReg) (a b c : EOpd) (m : Mods)
  | vdiv (t : Tok) (d : VReg) (a b : EOpd) (m : Mods)
  | vsqrt (t : Tok) (d : VReg) (a : EOpd) (m : Mods)
  | vabs (t : Tok) (d : VReg) (a : EOpd) (m : Mods)
  | vneg (t : Tok) (d : VReg) (a : EOpd) (m : Mods)
  | vmin (t : Tok) (d : VReg) (a b : EOpd) (m : Mods)
  | vmax (t : Tok) (d : VReg) (a b : EOpd) (m : Mods)
  | vand (t : Tok) (d : VReg) (a b : EOpd) (m : Mods)
  | vor (t : Tok) (d : VReg) (a b : EOpd) (m : Mods)
  | vxor (t : Tok) (d : VReg) (a b : EOpd) (m : Mods)
  | vshl (t : Tok) (d : VReg) (a b : EOpd) (m : Mods)
  | vshr (t : Tok) (d : VReg) (a b : EOpd) (m : Mods)
  | vsra (t : Tok) (d : VReg) (a b : EOpd) (m : Mods)
  | vcmp (t : Tok) (cc : Cond) (d : MReg) (a b : EOpd) (m : Mods)
  | vsel (t : Tok) (d : VReg) (a b : EOpd) (c : MReg) (ty : ElemTy)
  | vmov (t : Tok) (d : VReg) (a : EOpd) (m : Mods)
  | vbcast (t : Tok) (d : VReg) (a : VReg) (b : EOpd) (m : Mods)
  | vperm (t : Tok) (d a b : VReg) (m : Mods)
  | vslide (t : Tok) (d a : VReg) (b : EOpd) (c : Option VReg) (m : Mods)
  | vredsum (t : Tok) (d a : VReg) (m : Mods)
  | vredmax (t : Tok) (d a : VReg) (m : Mods)
  | vredmin (t : Tok) (d a : VReg) (m : Mods)
  | vscan (t : Tok) (d a : VReg) (m : Mods)
  | vdot (t : Tok) (d a b : VReg) (g : Fin 6) (m : Mods)
  | vwmul (t : Tok) (d a b : VReg) (m : Mods)
  | vcvt (t : Tok) (d a : VReg) (st : ElemTy) (h : Bool) (m : Mods)
  | vcvtef (t : Tok) (d a c : VReg) (st : ElemTy) (h : Bool) (m : Mods)
  | vexp2 (t : Tok) (d : VReg) (a : EOpd) (m : Mods)
  | vlog2 (t : Tok) (d : VReg) (a : EOpd) (m : Mods)
  | vrcp (t : Tok) (d : VReg) (a : EOpd) (m : Mods)
  | vrsqrt (t : Tok) (d : VReg) (a : EOpd) (m : Mods)
  | vtmin (t : Tok) (d : VReg) (a : EOpd) (mask : MReg)
  | vtmex (t : Tok) (d a : VReg) (m : Mods)
  | vtmerge (t : Tok) (d a b : VReg) (mask : MReg)
  | tmtab (t : Tok) (a : Reg) (pair : Fin 8)
  | tmshape (t : Tok) (a : EOpd)
  | vsortk (t : Tok) (d a b : VReg) (m : Mods)
  | vsegsum (t : Tok) (d a b : VReg) (c : MReg) (m : Mods)
  | vpushc (t : Tok) (d : MReg) (a : VReg) (w : Fin 3) (ty : ElemTy) (mask : MReg)
  | vpopc (t : Tok) (d : VReg) (c : MReg) (w : Fin 3) (ty : ElemTy)
  | vchain (t : Tok) (d a : TEnt) (b : EOpd) (c : Option TEnt) (sat : Bool) (rnd : Rnd)
  | mlog (t : Tok) (d a b : MReg) (tt : Fin 16)
  | mpopc (t : Tok) (d : VReg) (a : MReg) (ty : ElemTy)
  | mfirst (t : Tok) (d : VReg) (a : MReg) (ty : ElemTy)
  -- load queue (R347)
  | vld (t : Tok1) (d : VReg) (a : Reg) (disp : BitVec 32) (ty : ElemTy) (mask : MReg) (plane : Option Reg)
  | vldg (t : Tok1) (d : VReg) (a : Reg) (b : VReg) (ty : ElemTy) (mask : MReg)
  | vldt (t : Tok1) (d : VReg) (a : TEnt) (b : EOpd) (lw : Fin 3) (ty : ElemTy)
  | vldfe (t : Tok1) (d : VReg) (a : Reg) (disp : BitVec 32) (clear : Bool) (ty : ElemTy)
  -- store queue (R347)
  | vst (t : Tok1) (d : VReg) (a : Reg) (disp : BitVec 32) (ty : ElemTy) (mask : MReg) (plane : Option Reg) (asy : Bool)
  | vsts (t : Tok1) (d : VReg) (a : Reg) (b : VReg) (ty : ElemTy) (mask : MReg) (asy : Bool)
  | vstt (t : Tok1) (d : VReg) (a : TEnt) (b : EOpd) (lw : Fin 3) (asy close : Bool) (ty : ElemTy)
  | vstfe (t : Tok1) (d : VReg) (a : Reg) (disp : BitVec 32) (ty : ElemTy)
  | vamo (t : Tok1) (op : AtomOp) (d : VReg) (a : Reg) (b : VReg) (c : EOpd) (ty : ElemTy) (mask : MReg) (nr : Bool)
  -- Loom (R177)
  | chainb (t : Tok)
  | chaine (t : Tok) (slots : Fin 512) (sig : Word32)
  | mma (t : Tok) (d : Fin 8) (a b : TEnt) (o : EOpd) (ty : ElemTy)
  | mmaz (t : Tok) (d : Fin 8) (a b : TEnt) (o : EOpd) (ty : ElemTy)
  | accz (t : Tok) (d : Fin 8)
  | accst (t : Tok) (d : Fin 8) (a : TEnt) (o : EOpd) (close : Bool) (ty : ElemTy) (sat : Bool) (rnd : Rnd)
  | accld (t : Tok) (d : Fin 8) (a : TEnt) (o : EOpd) (ty : ElemTy)
  | chainTooLong (c : CoreId)
  -- walker (R359)
  | cpy (d a : TEnt) (b : EOpd) (bind : Option (Fin 32)) (close : Bool)
  | cpym (a b : Reg) (c : EOpd) (bind : Option (Fin 32))
  | cpyf (d : TEnt) (b c : EOpd) (bind : Option (Fin 32)) (close : Bool)
  | trig (a : Reg) (b : EOpd) (s : Scope)
  | trigFire (c : CoreId)
  | walkerFault (c : CoreId)
  -- criers (R200)
  | ttset (a : EOpd) (b : Reg)
  | tready (a b : EOpd)
  | cred (a : EOpd)
  | cqAck (c : CoreId)
  | tileFire (ctx : Fin 64) (tile : Fin 4096)
  | collectiveReduce (ctx : Fin 64) (tile : Fin 4096) (others : List Firing)
  -- engines and faults
  | engineEntryStart (c : CoreId) (e : Eng)
  | engineEntryComplete (c : CoreId) (e : Eng)
  | tokenPushDeferred (c : CoreId) (e : Eng)
  | lineFetch (q : SeqId) (stale : Bool)
  | faultDelivery (q : SeqId) (f : FaultInfo)
  | asyncFaultDelivery (q : SeqId)
  -- scheduling
  | workRequest (q : QuadId)
  | launchEnqueue (k : Nat)
  | triggeredLaunchFire (k : Nat)
  | continuationResume (ctx : Fin 64) (k : Nat)
  | taskRetire (c : CoreId)
  | taskPreempt (c : CoreId)
  | progressWatchdogExpiry (c : CoreId)
  | chaseTimeout (w : Waiter)
  -- hosts, fabric, ports
  | hostWrite (via : FromPort 2) (pa : BitVec 48) (bytes : List (BitVec 8))
  | hostRead (via : FromPort 2) (pa : BitVec 48) (n : Nat)
  | hostSnoop (port : Fin 2) (pa : BitVec 48)
  | remoteRequest (pkg : Fin 256) (r : RemoteReq)
  | remoteAck (a : AckFor)
  | linkReplay (port : Fin 48)
  | hostPortTraining (port : Fin 2) (mode : PortMode)
  -- owner and registers
  | claimWrite (via : FromPort 4) (port : Fin 4) (v : Word)
  | ownerElectionEnd
  | ownerLoss
  | hgoWrite (w : Writer) (v : Word)
  | attgoWrite (w : Writer) (v : Word)
  | smapWrite (w : Writer) (idx : Fin 12) (v : Word)
  | segwWrite (w : Writer) (n : Fin 3) (v : Word)
  | queueDescriptorWrite (w : Writer) (q : Fin 256) (word : Fin 4) (v : Word)
  | contextDescriptorWrite (w : Writer) (c : Fin 64) (v : Word)
  | poolDescriptorWrite (w : Writer) (p : Fin 16) (word : Fin 2) (v : Word)
  | pkgsetWrite (w : Writer) (v : Word)
  | tlbiWrite (w : Writer) (v : Word)
  | tlbiComplete
  | tlbsRead (w : Writer)
  | pwrRead (w : Writer)
  | svnsetWrite (w : Writer) (v : Word)
  | registerWrite (w : Writer) (syc : Bool) (off : BitVec 34) (v : Word)
  -- dies, checkpoints, errors
  | dieQuiesce (w : Writer) (s : Fin 6) (v : Word)
  | dieFence (s : Fin 6)
  | dieQuiesceDeadline (s : Fin 6)
  | dieTrainingComplete (s : Fin 6) (failed : Bool)
  | dieReadmit (w : Writer) (s : Fin 6) (v : Word)
  | dieFailure (s : Fin 6)
  | rollback (w : Writer) (v : Word)
  | logFullForcedClose (ctx : Fin 64)
  | correctedError (e : CorrErr)
  | classifierEntryExpiry (chan : Fin 384) (k : Fin 64)
  | uncorrectableError (e : ErrPlace)
  | laneSpareSwitch (kind : Fin 2) (index : Fin 16777216)
  -- power and bring-up
  | packageTrip
  | throttle (pin : BitVec 16) (tj : BitVec 8)
  | packageReset
  | bringUpStep (r : BootResult)
  | ready
  | hstatUpdate
  | reportReady
  | rollbackDone
  | smapRewriteComplete
  | hbmChannelRepairEnd (chan : Fin 384)
  | sliceRehomingComplete (s : Fin 6)
  | throttleEnd (pin : BitVec 16) (tj : BitVec 8)
  | masterLinkChange (p : Fin 4) (up : Bool)
  deriving DecidableEq, Repr

end Sys2Proof
end

