-- ==== Sys2Proof/Decode.lean ====
section
/-! DEFINITION. From the words of an instruction to `Instr`, with every check of R82 in its order, and back.
A first word and its continuation words come as numbers below 2^32; the header code of the lane picks the class. -/

namespace Sys2Proof

/-- Who receives a first word: the sequencer that fetched it, or an engine class (R59). -/
inductive Cls
  | seq (xs : Bool) | lq | ve | sq | lp | wq | cq
  deriving DecidableEq, Repr

/-- What the decoder answers: an instruction, or the class and CAUSE of the fault, with the position of
the word at fault among the instruction's words (R82, R84, DEDUCED log 15). -/
inductive Dec
  | ok (i : Instr)
  | bad (cls cause k : Nat)
  deriving DecidableEq, Repr

/-- Bits [lo + n - 1 : lo] of a word. -/
def fld (w lo n : Nat) : Nat := w / 2 ^ lo % 2 ^ n

/-! ## Codes -/

/-- Element types by format code (R71). -/
def tyOf : Nat → Option ElemTy
  | 0 => some .f32 | 1 => some .bf16 | 2 => some .bx8 | 3 => some .bx4
  | 4 => some .i32 | 5 => some .n32 | 6 => some .i16 | 7 => some .n16
  | 8 => some .i8 | 9 => some .n8 | 10 => some .i4 | 11 => some .n4
  | _ => none

/-- The format code of a type (R71). -/
def ElemTy.code : ElemTy → Nat
  | .f32 => 0 | .bf16 => 1 | .bx8 => 2 | .bx4 => 3 | .i32 => 4 | .n32 => 5
  | .i16 => 6 | .n16 => 7 | .i8 => 8 | .n8 => 9 | .i4 => 10 | .n4 => 11

/-- The type of a checked code. -/
def tyD (n : Nat) : ElemTy := (tyOf n).getD .f32

/-- The width of an element in bits (R85). -/
def ElemTy.width : ElemTy → Nat
  | .f32 | .i32 | .n32 => 32
  | .bf16 | .i16 | .n16 => 16
  | .bx8 | .i8 | .n8 => 8
  | .bx4 | .i4 | .n4 => 4

/-- The type group F (R133). -/
def ElemTy.isF : ElemTy → Bool
  | .f32 | .bf16 => true
  | _ => false

/-- The type group B (R133). -/
def ElemTy.isB : ElemTy → Bool
  | .bx8 | .bx4 => true
  | _ => false

/-- The type group I (R133). -/
def ElemTy.isI (t : ElemTy) : Bool := !t.isF && !t.isB

/-- The two's complement types (R92). -/
def ElemTy.isSigned : ElemTy → Bool
  | .i32 | .i16 | .i8 | .i4 => true
  | _ => false

/-- Rounding modes by code (R71). -/
def rndOf : Nat → Rnd
  | 0 => .rne | 1 => .rz | 2 => .rup | _ => .rdn

def Rnd.code : Rnd → Nat
  | .rne => 0 | .rz => 1 | .rup => 2 | .rdn => 3

/-- Scopes by scope code (R336). -/
def scopeOf : Nat → Option Scope
  | 0 => some .core | 1 => some .quad | 2 => some .die | 3 => some .pkg | 4 => some .pod
  | _ => none

def Scope.code : Scope → Nat
  | .core => 0 | .quad => 1 | .die => 2 | .pkg => 3 | .pod => 4

def scopeD (n : Nat) : Scope := (scopeOf n).getD .core

/-- Ordering codes (R336). -/
def ordrOf (n : Nat) : Ordr :=
  if n = 0 then .none
  else if n ≤ 5 then .acq (scopeD (n - 1))
  else if n ≤ 10 then .rel (scopeD (n - 6))
  else .ar (scopeD (n - 11))

def Ordr.code : Ordr → Nat
  | .none => 0 | .acq s => 1 + s.code | .rel s => 6 + s.code | .ar s => 11 + s.code

def sizeOf : Nat → Size
  | 0 => .b | 1 => .h | 2 => .w | _ => .d

def Size.code : Size → Nat
  | .b => 0 | .h => 1 | .w => 2 | .d => 3

def condOf : Nat → Option Cond
  | 0 => some .eq | 1 => some .ne | 2 => some .lt | 3 => some .ge | 4 => some .ltn | 5 => some .gen
  | _ => none

def Cond.code : Cond → Nat
  | .eq => 0 | .ne => 1 | .lt => 2 | .ge => 3 | .ltn => 4 | .gen => 5

def atomOf : Nat → Option AtomOp
  | 0 => some .add | 1 => some .and | 2 => some .or | 3 => some .xor | 4 => some .swap
  | 5 => some .min | 6 => some .max | 7 => some .minn | 8 => some .maxn
  | _ => none

def AtomOp.code : AtomOp → Nat
  | .add => 0 | .and => 1 | .or => 2 | .xor => 3 | .swap => 4 | .min => 5 | .max => 6 | .minn => 7 | .maxn => 8

/-- Timeline counter codes (R339). -/
def engOf : Nat → Option Eng
  | 0 => some .lq | 1 => some .ve | 2 => some .sq | 3 => some .lp | 4 => some .wq | 5 => some .cq
  | _ => none

def Eng.code : Eng → Nat
  | .lq => 0 | .ve => 1 | .sq => 2 | .lp => 3 | .wq => 4 | .cq => 5

/-- CSR numbers (R276). -/
def csrOf : Nat → Option Csr
  | 0 => some .pkgno | 1 => some .cctl | 2 => some .cflags | 3 => some .cbase | 4 => some .carvew
  | 5 => some .jobid | 6 => some .lidx | 7 => some .tvec | 8 => some .tepc | 9 => some .frec
  | 10 => some .clock | 11 => some .chto
  | _ => none

def Csr.code : Csr → Nat
  | .pkgno => 0 | .cctl => 1 | .cflags => 2 | .cbase => 3 | .carvew => 4 | .jobid => 5
  | .lidx => 6 | .tvec => 7 | .tepc => 8 | .frec => 9 | .clock => 10 | .chto => 11

/-- The CSRs that `csrw` accepts (R276). -/
def Csr.writable : Csr → Bool
  | .cctl | .cflags | .tvec | .tepc => true
  | _ => false

/-- The operations that `amo` accepts (R344). -/
def AtomOp.amoOk (_ : AtomOp) : Bool := true

/-- The operations that `famo` accepts (R344). -/
def AtomOp.famoOk : AtomOp → Bool
  | .add | .min | .max => true
  | _ => false

/-- The operations that `vamo` accepts on a type (R344). -/
def AtomOp.vamoOk (t : ElemTy) : AtomOp → Bool
  | .add | .swap => t = .i32 || t = .n32 || t = .f32
  | .and | .or | .xor => t = .i32 || t = .n32
  | .min | .max => t = .i32 || t = .f32
  | .minn | .maxn => t = .n32

/-! ## Operands -/

/-- A register number of a field already checked. -/
def regOf (n : Nat) : Reg := Fin.ofNat 32 n
def vregOf (n : Nat) : VReg := Fin.ofNat 64 n
def mregOf (n : Nat) : MReg := Fin.ofNat 8 n

/-- A field of `n` bits read as two's complement, in 32 bits. -/
def sx32 (v n : Nat) : BitVec 32 := (BitVec.ofNat n v).signExtend 32

/-- An escape: the field names a V word (R74); `w` is the width of the field. -/
def isEsc (w kind f : Nat) : Bool :=
  (kind == 2 && f == 2 ^ w - 1) || (kind == 3 && f == 2 ^ (w - 1))

/-- The operand of a sequencer field of kind 01, 10 or 11 (R73, R74). -/
def sOpd (kind f v : Nat) : SOpd :=
  match kind with
  | 2 => .const (Fin.ofNat 8192 (if f = 31 then v / 8 else f))
  | 3 => .lit (if f = 16 then BitVec.ofNat 32 v else sx32 f 5)
  | _ => .reg (regOf f)

/-- The operand of an engine field (R73, R74). -/
def eOpd (kind f v : Nat) : EOpd :=
  match kind with
  | 0 => .vec (vregOf f)
  | 1 => .reg (regOf f)
  | 2 => .const (Fin.ofNat 8192 (if f = 63 then v / 8 else f))
  | _ => .lit (if f = 32 then BitVec.ofNat 32 v else sx32 f 6)

/-- What a form's entry lists for an operand field: unused, or a file with its size and the kinds S, K, L. -/
inductive OpdSpec
  | un
  | kinds (file : Option Nat) (s k l : Bool)
  deriving DecidableEq, Repr

/-- Check 8 of R82 on one operand: 0, or the CAUSE. -/
def OpdSpec.check (o : OpdSpec) (kind f : Nat) (v : Option Nat) : Nat :=
  match o with
  | .un => 0
  | .kinds file s k l =>
    match kind with
    | 0 => match file with
      | none => 0x12
      | some lim => if f < lim then 0 else 0x13
    | 1 => if s then (if f < 32 then 0 else 0x13) else 0x12
    | 2 => if k then
        match v with
        | none => 0
        | some v => if v % 8 = 0 ∧ v < 65536 then 0 else 0x16
      else 0x12
    | _ => if l then 0 else 0x12

/-- Check 9 on one operand: an unused operand field is zero. -/
def OpdSpec.unusedOk (o : OpdSpec) (kind f : Nat) : Bool :=
  match o with
  | .un => kind == 0 && f == 0
  | _ => true

def skl : OpdSpec := .kinds none true true true
def sOnly : OpdSpec := .kinds none true false false
def lOnly : OpdSpec := .kinds none false false true
def sl : OpdSpec := .kinds none true false true
def sk : OpdSpec := .kinds none true true false
def fileOf (n : Nat) : OpdSpec := .kinds (some n) false false false
def vskl : OpdSpec := .kinds (some 64) true true true

/-! ## Sequencer words -/

/-- The fields of a Q word with its operands and its further words (R65, R77). -/
structure QWord where
  d : Nat
  fn : Nat
  a : SOpd
  b : SOpd
  fa : Nat
  ka : Nat
  more : List Nat

/-- One row of the forms tables R249, R339, R165 and R200. -/
structure QRow where
  dLim : Option Nat := some 32
  a : OpdSpec := .un
  b : OpdSpec := .un
  further : Nat := 0
  /-- Listed values: the CAUSE of an unlisted one, with the word it stands in, or (0, 0). -/
  vals : QWord → Nat × Nat := fun _ => (0, 0)
  /-- The bits of fn that the entry defines, and what else must be zero. -/
  fnUsed : Nat := 0
  zero : QWord → Bool := fun _ => true
  make : QWord → Instr

/-- A listed value, or CAUSE 0x14 at the first word. -/
def need (p : Bool) : Nat × Nat := if p then (0, 0) else (0x14, 0)

def qArith (f : Reg → SOpd → SOpd → Instr) : QRow :=
  { a := skl, b := skl, make := fun w => f (regOf w.d) w.a w.b }

def qUnary (f : Reg → SOpd → Instr) : QRow :=
  { a := skl, make := fun w => f (regOf w.d) w.a }

/-- The register of an S operand. -/
def SOpd.r : SOpd → Reg
  | .reg n => n
  | _ => 0

/-- The literal of an L operand. -/
def SOpd.l : SOpd → BitVec 32
  | .lit v => v
  | _ => 0

/-- A tensor entry number from its 5-bit field and fn[1:0] (R165). -/
def tOf (lo fn : Nat) : TEnt := Fin.ofNat 128 (lo % 32 + 32 * (fn % 4))

/-- The form of each Q opcode (R79); `xs` is the sequencer, `rest` the 25 bits below the opcode. -/
def qRow (xs : Bool) (op rest : Nat) : Option QRow :=
  match op with
  | 0x00 => some { dLim := none, make := fun _ => .nop }
  | 0x01 => some (qArith .add)
  | 0x02 => some (qArith .sub)
  | 0x03 => some (qArith .mul)
  | 0x04 => some (qArith .mulh)
  | 0x05 => some (qArith .mulhn)
  | 0x06 => some (qArith .div)
  | 0x07 => some (qArith .divn)
  | 0x08 => some (qArith .rem)
  | 0x09 => some (qArith .remn)
  | 0x0A => some (qArith .and)
  | 0x0B => some (qArith .or)
  | 0x0C => some (qArith .xor)
  | 0x0D => some (qArith .andn)
  | 0x0E => some (qArith .orn)
  | 0x0F => some (qArith .shl)
  | 0x10 => some (qArith .shr)
  | 0x11 => some (qArith .sra)
  | 0x12 => some (qArith .rol)
  | 0x13 => some (qArith .ror)
  | 0x14 => some (qArith .min)
  | 0x15 => some (qArith .max)
  | 0x16 => some (qArith .minn)
  | 0x17 => some (qArith .maxn)
  | 0x18 => some (qUnary .clz)
  | 0x19 => some (qUnary .ctz)
  | 0x1A => some (qUnary .popc)
  | 0x1B => some { a := skl, b := skl, fnUsed := 63, make := fun w => .bfx (regOf w.d) w.a w.b (Fin.ofNat 64 w.fn) }
  | 0x1C => some { a := skl, b := skl, fnUsed := 63, make := fun w => .bfi (regOf w.d) w.a w.b (Fin.ofNat 64 w.fn) }
  | 0x1D => some { a := skl, b := skl, fnUsed := 63, vals := fun w => need (w.fn < 32),
                   make := fun w => .sel (regOf w.d) w.a w.b (regOf w.fn) }
  | 0x1E => some { a := skl, b := skl, fnUsed := 63, vals := fun w => need (w.fn ≤ 5),
                   make := fun w => .cmp ((condOf w.fn).getD .eq) (regOf w.d) w.a w.b }
  | 0x1F => some { a := skl, b := skl, fnUsed := 63, vals := fun w => need (w.fn < 8),
                   make := fun w => .lea (regOf w.d) w.a w.b (Fin.ofNat 8 w.fn) }
  | 0x20 => some { a := skl, further := rest % 2, fnUsed := 63,
                   vals := fun w => need (w.fn < 2 && (w.fn == 0 || (w.ka == 3 && w.fa == 16))),
                   make := fun w => if w.fn = 0 then .lit (regOf w.d) w.a
                     else .litWide (regOf w.d) w.a.l (BitVec.ofNat 32 (w.more.headD 0)) }
  | 0x25 => some { dLim := none, a := sOnly, make := fun w => .ret w.a.r }
  | 0x26 => some { dLim := none, a := sOnly, make := fun w => .jr w.a.r }
  | 0x28 => some (qUnary .loopx)
  | 0x29 => some { dLim := none, a := skl, make := fun w => .bopush w.a }
  | 0x2B => some { a := sOnly, b := skl, make := fun w => .launch (regOf w.d) w.a.r w.b }
  | 0x2C => some { a := sOnly, b := skl, make := fun w => .spawn (regOf w.d) w.a.r w.b }
  | 0x2D => some { a := sOnly, make := fun w => .join (regOf w.d) w.a.r }
  | 0x2E =>
    if xs then some { dLim := none, make := fun _ => .suspendXs }
    else some { dLim := none, a := sOnly, b := sOnly, fnUsed := 31,
                vals := fun w => need (w.fn % 32 ≤ 16),
                make := fun w => .suspendAs w.a.r w.b.r (Fin.ofNat 17 w.fn) }
  | 0x2F => some { make := fun w => .commit (regOf w.d) }
  | 0x30 => some { dLim := none, make := fun _ => .retire }
  | 0x31 => some (qUnary .cancel)
  | 0x32 => some { dLim := none, make := fun _ => .yield }
  | 0x33 => some { dLim := none, fnUsed := 63, make := fun w => .trap (Fin.ofNat 64 w.fn) }
  | 0x34 => some { dLim := none, make := fun _ => .eret }
  | 0x35 => some { fnUsed := 63, vals := fun w => need (csrOf w.fn).isSome,
                   make := fun w => .csrr (regOf w.d) ((csrOf w.fn).getD .pkgno) }
  | 0x36 => some { dLim := none, a := skl, fnUsed := 63,
                   vals := fun w => need ((csrOf w.fn).any Csr.writable),
                   make := fun w => .csrw ((csrOf w.fn).getD .pkgno) w.a }
  | 0x37 => some { dLim := none, a := skl, make := fun w => .carve w.a }
  | 0x38 => some { dLim := none, make := fun _ => .fencei }
  | 0x39 => some { a := sOnly, b := skl, make := fun w => .wait (regOf w.d) w.a.r w.b }
  | 0x40 => some { a := sOnly, b := lOnly, fnUsed := 31, vals := fun w => need (fld w.fn 2 3 ≤ 5),
                   make := fun w => .ld (regOf w.d) w.a.r w.b.l (sizeOf (w.fn % 4))
                     (if fld w.fn 2 3 = 0 then none else some (scopeD (fld w.fn 2 3 - 1))) }
  | 0x41 => some { a := sOnly, b := lOnly, fnUsed := 63, vals := fun w => need (fld w.fn 2 3 ≤ 5),
                   make := fun w => .st (regOf w.d) w.a.r w.b.l (sizeOf (w.fn % 4))
                     (if fld w.fn 2 3 = 0 then none else some (scopeD (fld w.fn 2 3 - 1))) (fld w.fn 5 1 == 1) }
  | 0x42 => some { a := sOnly, b := lOnly, fnUsed := 7,
                   make := fun w => .ldfe (regOf w.d) w.a.r w.b.l (sizeOf (w.fn % 4)) (fld w.fn 2 1 == 1) }
  | 0x43 => some { a := sOnly, b := lOnly, fnUsed := 3,
                   make := fun w => .stfe (regOf w.d) w.a.r w.b.l (sizeOf (w.fn % 4)) }
  | 0x44 => some { dLim := none, fnUsed := 60, vals := fun w => need (fld w.fn 2 4 != 0),
                   make := fun w => .fence (ordrOf (fld w.fn 2 4)) }
  | 0x45 => some { a := sOnly, b := lOnly, fnUsed := 7,
                   vals := fun w => need (2 ≤ w.fn % 8 && w.fn % 8 ≤ 4),
                   make := fun w => .promote (regOf w.d) w.a.r w.b.l (scopeD (w.fn % 8)) }
  | 0x46 => some { a := sOnly, b := skl, further := 1, fnUsed := 63,
                   vals := fun w =>
                     if w.fn % 4 < 2 then (0x14, 0)
                     else if (atomOf (w.more.headD 0 % 16)).isNone then (0x14, 9)
                     else if fld (w.more.headD 0) 4 1 == 1 && fld w.fn 2 4 != 0 then (0x14, 9) else (0, 0),
                   zero := fun w => w.more.headD 0 / 32 == 0 && (fld (w.more.headD 0) 4 1 == 0 || w.d == 0),
                   make := fun w => .amo ((atomOf (w.more.headD 0 % 16)).getD .add) (regOf w.d) w.a.r w.b
                     (sizeOf (w.fn % 4)) (ordrOf (fld w.fn 2 4)) (fld (w.more.headD 0) 4 1 == 1) }
  | 0x47 => some { a := sOnly, b := skl, fnUsed := 63, vals := fun w => need (2 ≤ w.fn % 4),
                   make := fun w => .cas (regOf w.d) w.a.r w.b (sizeOf (w.fn % 4)) (ordrOf (fld w.fn 2 4)) }
  | 0x48 => some { a := sOnly, b := skl, further := 1, fnUsed := 63,
                   vals := fun w =>
                     if w.fn % 4 != 2 then (0x14, 0)
                     else if !(atomOf (w.more.headD 0 % 16)).any AtomOp.famoOk then (0x14, 9)
                     else if fld (w.more.headD 0) 4 1 == 1 && fld w.fn 2 4 != 0 then (0x14, 9) else (0, 0),
                   zero := fun w => w.more.headD 0 / 32 == 0 && (fld (w.more.headD 0) 4 1 == 0 || w.d == 0),
                   make := fun w => .famo ((atomOf (w.more.headD 0 % 16)).getD .add) (regOf w.d) w.a.r w.b
                     (ordrOf (fld w.fn 2 4)) (fld (w.more.headD 0) 4 1 == 1) }
  | 0x49 => some { dLim := none, fnUsed := 7, vals := fun w => need (w.fn % 8 ≤ 4),
                   make := fun w => .amofence (scopeD (w.fn % 8)) }
  | 0x4A => some { dLim := none, a := skl, fnUsed := 63,
                   vals := fun w => need (fld w.fn 3 3 ≤ 4 && w.fn % 8 ≤ 5),
                   make := fun w => .tlwait ((engOf (w.fn % 8)).getD .lq) w.a (scopeD (fld w.fn 3 3)) }
  | 0x4B => some { fnUsed := 7, vals := fun w => need (w.fn % 8 ≤ 5),
                   make := fun w => .tlread (regOf w.d) ((engOf (w.fn % 8)).getD .lq) }
  | 0x4C => some { dLim := none, a := sOnly, make := fun w => .fopen w.a.r }
  | 0x4D => some { dLim := none, a := sOnly, b := skl, fnUsed := 7, vals := fun w => need (w.fn % 8 ≤ 4),
                   make := fun w => .fpub w.a.r w.b (scopeD (w.fn % 8)) }
  | 0x4E => some { a := sOnly, b := skl, fnUsed := 7, vals := fun w => need (w.fn % 8 ≤ 4),
                   make := fun w => .fchase (regOf w.d) w.a.r w.b (scopeD (w.fn % 8)) }
  | 0x4F => some { dLim := none, a := sOnly, fnUsed := 7, vals := fun w => need (w.fn % 8 ≤ 4),
                   make := fun w => .fclose w.a.r (scopeD (w.fn % 8)) }
  | 0x50 => some { dLim := none, a := sOnly, make := fun w => .fhalt w.a.r }
  | 0x51 => some { a := sOnly, make := fun w => .fread (regOf w.d) w.a.r }
  | 0x52 => some { a := skl, make := fun w => .bar (regOf w.d) w.a }
  | 0x53 => some { make := fun w => .barw (regOf w.d) }
  | 0x54 => some { a := skl, make := fun w => .bars (regOf w.d) w.a }
  | 0x55 => some { dLim := none, a := skl, fnUsed := 7, vals := fun w => need (1 ≤ w.fn % 8 && w.fn % 8 ≤ 4),
                   make := fun w => .hbar (scopeD (w.fn % 8)) w.a }
  | 0x56 => some { a := sOnly, b := skl, fnUsed := 31,
                   make := fun w => .hoff (regOf w.d) (regOf w.fn) w.a.r w.b }
  | 0x57 => some { a := sOnly, b := skl, make := fun w => .take (regOf w.d) w.a.r w.b }
  | 0x58 => some { make := fun w => .ckpt (regOf w.d) }
  | 0x59 => some { dLim := none, a := sOnly, b := skl, make := fun w => .fereset w.a.r w.b }
  | 0x5A => some { dLim := none, a := sOnly, b := lOnly, fnUsed := 1,
                   make := fun w => .pref w.a.r w.b.l (w.fn % 2 == 1) }
  | 0x5B => some { dLim := none, a := sOnly, b := skl, make := fun w => .cwb w.a.r w.b }
  | 0x5C => some { dLim := none, a := sOnly, b := skl, make := fun w => .cinv w.a.r w.b }
  | 0x5D => some { dLim := some 16, a := sOnly, b := lOnly, make := fun w => .shld (Fin.ofNat 16 w.d) w.a.r w.b.l }
  | 0x5E => some { dLim := some 16, a := sOnly, b := lOnly, make := fun w => .shst (Fin.ofNat 16 w.d) w.a.r w.b.l }
  | 0x5F => some { dLim := some 16, a := skl, fnUsed := 63,
                   vals := fun w => if w.fn ≤ 21 then (0, 0) else (0x13, 0),
                   make := fun w => .shset (Fin.ofNat 16 w.d) w.a (Fin.ofNat 22 w.fn) }
  | 0x60 => some { a := fileOf 16, fnUsed := 63, vals := fun w => if w.fn ≤ 21 then (0, 0) else (0x13, 0),
                   make := fun w => .shget (regOf w.d) (Fin.ofNat 16 w.fa) (Fin.ofNat 22 w.fn) }
  | 0x61 => some { a := fileOf 16, fnUsed := 63, vals := fun w => if w.fn < 4 then (0, 0) else (0x13, 0),
                   make := fun w => .tdef (tOf w.d w.fn) (Fin.ofNat 16 w.fa) }
  | 0x62 => some { fnUsed := 63, vals := fun w => if w.fn < 4 then (0, 0) else (0x13, 0),
                   make := fun w => .tdrop (tOf w.d w.fn) }
  | 0x63 => some { dLim := some 16, a := fileOf 32, fnUsed := 63,
                   vals := fun w => if w.fn < 4 then (0, 0) else (0x13, 0),
                   make := fun w => .tget (Fin.ofNat 16 w.d) (tOf w.fa w.fn) }
  | 0x64 => some { dLim := none, a := skl, make := fun w => .lease w.a }
  | 0x65 => some { dLim := none, make := fun _ => .unlease }
  | 0x66 => some { a := sOnly, fnUsed := 63, make := fun w => .cgrp (regOf w.d) w.a.r (Fin.ofNat 64 w.fn) }
  | 0x67 => some { dLim := none, a := sOnly, b := skl, fnUsed := 63,
                   make := fun w => .asyreg w.a.r w.b (Fin.ofNat 64 w.fn) }
  | 0x68 => some { fnUsed := 63, make := fun w => .asyfence (regOf w.d) (Fin.ofNat 64 w.fn) }
  | 0x69 => some { a := skl, fnUsed := 63, make := fun w => .asyget (regOf w.d) w.a (Fin.ofNat 64 w.fn) }
  | 0x6A => some { a := sOnly, b := skl, make := fun w => .crload (regOf w.d) w.a.r w.b }
  | 0x6B => some { dLim := none, a := sOnly, b := skl, fnUsed := 7, vals := fun w => need (w.fn % 8 ≤ 4),
                   make := fun w => .permit w.a.r w.b (scopeD (w.fn % 8)) }
  | _ => none

/-- A Q word, checked in the order of R82. An escape pattern in an operand field that the form does not use counts as an escape, so
such a word is a count mismatch (CAUSE 0x11) where its V word is missing (R77; DESIGN CHOICE log 82). -/
def decodeQ (r : QRow) (w : Nat) (cs : List Nat) : Dec :=
  let ka := fld w 18 2
  let fa := fld w 13 5
  let kb := fld w 11 2
  let fb := fld w 6 5
  let d := fld w 20 5
  let fn := fld w 0 6
  let ea := isEsc 5 ka fa
  let eb := isEsc 5 kb fb
  let e := ea.toNat + eb.toNat
  if cs.length ≠ e + r.further then .bad 2 0x11 0
  else
    let va := if ea then some (cs.headD 0) else none
    let vb := if eb then some ((cs.drop ea.toNat).headD 0) else none
    let q : QWord := { d := d, fn := fn, a := sOpd ka fa (va.getD 0), b := sOpd kb fb (vb.getD 0),
                       fa := fa, ka := ka, more := cs.drop e }
    let ca := r.a.check ka fa va
    let cb := r.b.check kb fb vb
    if r.dLim.any (· ≤ d) then .bad 2 0x13 0
    else if ca ≠ 0 then .bad 2 ca (if ca = 0x16 then 1 else 0)
    else if cb ≠ 0 then .bad 2 cb (if cb = 0x16 then 1 + ea.toNat else 0)
    else if (r.vals q).1 ≠ 0 then .bad 2 (r.vals q).1 (if (r.vals q).2 = 0 then 0 else cs.length)
    else if !(r.dLim.isSome || d == 0) || !r.a.unusedOk ka fa || !r.b.unusedOk kb fb
        || fn &&& (63 - r.fnUsed) != 0 then .bad 3 0x20 0
    else if !r.zero q then .bad 3 0x20 (if r.further = 0 then 0 else if q.more.headD 0 / 32 == 0 then 0 else cs.length)
    else .ok (r.make q)

/-- One queue's fields of the arming word (R258). -/
def armOf (w k : Nat) : Option (Fin 8) :=
  if fld w (4 * k + 3) 1 = 1 then some (Fin.ofNat 8 (fld w (4 * k) 3)) else none

/-- The arming word (R258). -/
def armingOf (w : Nat) : Arming :=
  { lq := armOf w 0, ve := armOf w 1, sq := armOf w 2, lp := armOf w 3, wq := armOf w 4, cq := armOf w 5 }

/-- An unarmed queue has skew zero (R258). -/
def armZero (w k : Nat) : Bool := fld w (4 * k + 3) 1 == 1 || fld w (4 * k) 3 == 0

/-- `loopb`: a C word with its arming word (R258). -/
def decodeLoopb (w : Nat) (cs : List Nat) : Dec :=
  let off := fld w 0 20
  match cs with
  | [arm] =>
    if off = 0 ∨ 2 ^ 19 ≤ off then .bad 2 0x14 0
    else if arm &&& 0x888888 = 0 then .bad 2 0x14 1
    else if arm / 2 ^ 24 ≠ 0 ∨ !((List.range 6).all (armZero arm)) then .bad 3 0x20 1
    else .ok (.loopb (regOf (fld w 20 5)) (BitVec.ofNat 20 off) (armingOf arm))
  | _ => .bad 2 0x11 0

/-- A sequencer word (R79). -/
def decodeSeq (xs : Bool) (w : Nat) (cs : List Nat) : Dec :=
  let op := fld w 25 7
  let lone (i : Instr) : Dec := if cs.isEmpty then .ok i else .bad 2 0x11 0
  match op with
  | 0x21 => lone (.br (BitVec.ofNat 25 w))
  | 0x22 => lone (.bcZ (regOf (fld w 20 5)) (BitVec.ofNat 20 w))
  | 0x23 => lone (.bcNz (regOf (fld w 20 5)) (BitVec.ofNat 20 w))
  | 0x24 => lone (.call (BitVec.ofNat 25 w))
  | 0x27 => decodeLoopb w cs
  | 0x2A => lone (.bobc (regOf (fld w 20 5)) (BitVec.ofNat 20 w))
  | _ =>
    match qRow xs op (w % 2 ^ 25) with
    | none => .bad 2 0x10 0
    | some r => decodeQ r w cs

/-! ## Engine words -/

/-- The fields of an E word with its X word and operands (R69, R71, R72). -/
structure EWord where
  tok : Nat
  d : Nat
  a : EOpd
  b : EOpd
  c : EOpd
  fa : Nat
  fb : Nat
  fc : Nat
  ty : ElemTy
  mask : Nat
  sat : Bool
  rnd : Rnd
  fn : Nat
  /-- operand b has a V word, which stands at this position -/
  bAt : Option Nat
  more : List Nat

def EWord.m (w : EWord) : Mods := { ty := w.ty, mask := mregOf w.mask, sat := w.sat, rnd := w.rnd }

/-- Token bits of a VE or LP word (R69). -/
def EWord.t (w : EWord) : Tok :=
  { wl := fld w.tok 3 1 == 1, wr := fld w.tok 2 1 == 1, sl := fld w.tok 1 1 == 1, sr := fld w.tok 0 1 == 1 }

/-- The register of an operand of kind V, S. -/
def EOpd.v : EOpd → VReg
  | .vec n => n
  | _ => 0
def EOpd.r : EOpd → Reg
  | .reg n => n
  | _ => 0
def EOpd.l : EOpd → BitVec 32
  | .lit v => v
  | _ => 0

/-- One row of the forms tables R133, R347, R177, R359 and R200. -/
structure ERow where
  dLim : Option Nat := some 64
  a : OpdSpec := .un
  b : OpdSpec := .un
  c : OpdSpec := .un
  /-- The entry always has an X word (R77). -/
  needX : Bool := false
  further : Nat := 0
  ty : ElemTy → Bool := fun _ => true
  mask : ElemTy → Bool := fun _ => false
  sat : ElemTy → Bool := fun _ => false
  rnd : ElemTy → Rnd → Bool := fun _ r => r = .rne
  fnUsed : Nat := 0
  /-- A source type in fn[3:0] (R78). -/
  src : Bool := false
  vals : EWord → Nat := fun _ => 0
  /-- The position of the word whose field `vals` refuses with a CAUSE, where the X word stands at `k1` (R84). -/
  valAt : EWord → Nat → Nat → Nat := fun _ cause k1 => if cause = 0x14 then k1 else 0
  zero : EWord → Bool := fun _ => true
  /-- The field that `zero` refuses stands in the first word. -/
  zeroFirst : Bool := false
  make : EWord → Instr

def yesT : ElemTy → Bool := fun _ => true
def isFI (t : ElemTy) : Bool := !t.isB
def anyRnd : ElemTy → Rnd → Bool := fun _ _ => true
def rndF (t : ElemTy) (r : Rnd) : Bool := t.isF || r = .rne
def isF32 (t : ElemTy) : Bool := t = .f32
def is4B (t : ElemTy) : Bool := t = .f32 || t = .i32 || t = .n32
def permTy (t : ElemTy) : Bool := t = .f32 || t = .bf16 || t = .i32 || t = .n32 || t = .i16 || t = .n16
def absTy (t : ElemTy) : Bool := t.isF || t.isSigned

/-- A pair or quad base (R43, R127). -/
def aligned (n w : Nat) : Nat := if n % w = 0 then 0 else 0x13

def vOnly : OpdSpec := fileOf 64

/-- Element-wise operations with two operands. -/
def veBin (ty : ElemTy → Bool) (sat : ElemTy → Bool) (rnd : ElemTy → Rnd → Bool)
    (f : Tok → VReg → EOpd → EOpd → Mods → Instr) : ERow :=
  { a := vskl, b := vskl, ty := ty, mask := yesT, sat := sat, rnd := rnd,
    make := fun w => f w.t (vregOf w.d) w.a w.b w.m }

/-- Element-wise operations with one operand. -/
def veUn (ty : ElemTy → Bool) (sat : ElemTy → Bool) (rnd : ElemTy → Rnd → Bool)
    (f : Tok → VReg → EOpd → Mods → Instr) : ERow :=
  { a := vskl, ty := ty, mask := yesT, sat := sat, rnd := rnd, make := fun w => f w.t (vregOf w.d) w.a w.m }

/-- Operations on one register. -/
def veReg (ty : ElemTy → Bool) (sat : ElemTy → Bool) (rnd : ElemTy → Rnd → Bool)
    (f : Tok → VReg → VReg → Mods → Instr) : ERow :=
  { a := vOnly, ty := ty, mask := yesT, sat := sat, rnd := rnd, make := fun w => f w.t (vregOf w.d) w.a.v w.m }

/-- Elements per register (R85). -/
def ElemTy.count (t : ElemTy) : Nat := 4096 / t.width

/-- The registers of a `vdot` destination (R141). -/
def vdotW (t : ElemTy) (lg : Nat) : Nat := Nat.max 1 (t.count / 2 ^ lg / 128)

/-- The element width ratio of a conversion (R143). -/
def rho (s d : ElemTy) : Nat := Nat.max s.width d.width / Nat.min s.width d.width

/-- The pairs and modes of error-feedback conversion (R99). -/
def efPair (s d : ElemTy) : Bool :=
  (s = .f32 && (d = .bf16 || d.isB)) || (s = .bf16 && d.isB)

/-- The operand of a conversion that spans several registers (R143). -/
def cvtBase (w : EWord) : Nat := if (tyD (w.fn % 16)).width < w.ty.width then w.d else w.fa

/-- Listed values of `vcvt` and `vcvtef` (R97, R99, R143, R144). -/
def cvtVals (ef : Bool) (w : EWord) : Nat :=
  let s := tyD (w.fn % 16)
  let g := Nat.min (rho s w.ty) 4
  if (if ef then !efPair s w.ty else s = w.ty) then 0x14
  else if fld w.fn 4 1 = 1 ∧ rho s w.ty ≠ 8 then 0x14
  else if cvtBase w % g ≠ 0 then 0x13
  else if ef ∧ w.fc % g ≠ 0 then 0x13
  else if ef ∧ w.fc ≤ w.d ∧ w.d < w.fc + g then 0x13
  else 0

/-- The word at fault: `c` stands in the X word (R71, R84). -/
def cvtAt (w : EWord) (cause k1 : Nat) : Nat :=
  if cause = 0x14 ∨ cvtBase w % Nat.min (rho (tyD (w.fn % 16)) w.ty) 4 = 0 then k1 else 0

/-- A mask-register destination or operand (R133). -/
def maskFile : OpdSpec := fileOf 8

/-- The vector engine's forms (R80, R133). -/
def veRow (op fn : Nat) (ty : ElemTy) : Option ERow :=
  match op with
  | 0x01 => some (veBin isFI yesT rndF .vadd)
  | 0x02 => some (veBin isFI yesT rndF .vsub)
  | 0x03 => some (veBin isFI yesT rndF .vmul)
  | 0x04 => some { a := vskl, b := vskl, c := vskl, needX := true, ty := isFI, mask := yesT, sat := yesT, rnd := rndF,
                   make := fun w => .vfma w.t (vregOf w.d) w.a w.b w.c w.m }
  | 0x05 => some (veBin ElemTy.isF yesT anyRnd .vdiv)
  | 0x06 => some (veUn ElemTy.isF yesT anyRnd .vsqrt)
  | 0x07 => some (veUn absTy ElemTy.isSigned (fun _ r => r = .rne) .vabs)
  | 0x08 => some (veUn absTy ElemTy.isSigned (fun _ r => r = .rne) .vneg)
  | 0x09 => some (veBin isFI (fun _ => false) (fun _ r => r = .rne) .vmin)
  | 0x0A => some (veBin isFI (fun _ => false) (fun _ r => r = .rne) .vmax)
  | 0x0B => some (veBin isFI (fun _ => false) (fun _ r => r = .rne) .vand)
  | 0x0C => some (veBin isFI (fun _ => false) (fun _ r => r = .rne) .vor)
  | 0x0D => some (veBin isFI (fun _ => false) (fun _ r => r = .rne) .vxor)
  | 0x0E => some (veBin ElemTy.isI yesT (fun _ r => r = .rne) .vshl)
  | 0x0F => some (veBin ElemTy.isI (fun _ => false) (fun _ r => r = .rne) .vshr)
  | 0x10 => some (veBin ElemTy.isI (fun _ => false) (fun _ r => r = .rne) .vsra)
  | 0x11 => some { dLim := some 8, a := vskl, b := vskl, ty := isFI, mask := yesT, fnUsed := 7,
                   vals := fun w => if w.fn % 8 ≤ 5 ∧ ¬ (4 ≤ w.fn % 8 ∧ w.ty.isF) then 0 else 0x14,
                   make := fun w => .vcmp w.t ((condOf (w.fn % 8)).getD .eq) (mregOf w.d) w.a w.b w.m }
  | 0x12 => some { a := vskl, b := vskl, c := maskFile, needX := true, ty := isFI,
                   make := fun w => .vsel w.t (vregOf w.d) w.a w.b (mregOf w.fc) w.ty }
  | 0x13 => some { a := if ty.isB then vOnly else vskl, mask := isFI,
                   make := fun w => .vmov w.t (vregOf w.d) w.a w.m }
  | 0x14 => some { a := vOnly, b := sl, ty := isFI, mask := yesT,
                   make := fun w => .vbcast w.t (vregOf w.d) w.a.v w.b w.m }
  | 0x15 => some { a := vOnly, b := vOnly, ty := permTy, mask := yesT,
                   make := fun w => .vperm w.t (vregOf w.d) w.a.v w.b.v w.m }
  | 0x16 => some { a := vOnly, b := sl, c := if fn % 2 = 1 then vOnly else .un, ty := isFI, mask := yesT, fnUsed := 1,
                   make := fun w => .vslide w.t (vregOf w.d) w.a.v w.b
                     (if w.fn % 2 = 1 then some w.c.v else none) w.m }
  | 0x17 => some (veReg isFI ElemTy.isI rndF .vredsum)
  | 0x18 => some (veReg isFI (fun _ => false) (fun _ r => r = .rne) .vredmax)
  | 0x19 => some (veReg isFI (fun _ => false) (fun _ r => r = .rne) .vredmin)
  | 0x1A => some (veReg isFI ElemTy.isI rndF .vscan)
  | 0x1B => some { a := vOnly, b := vOnly, ty := fun t => t ≠ .i32 && t ≠ .n32, mask := yesT, sat := ElemTy.isI, fnUsed := 7,
                   vals := fun w => if 5 < w.fn % 8 ∨ 4 < vdotW w.ty (w.fn % 8) then 0x14
                     else aligned w.d (vdotW w.ty (w.fn % 8)),
                   make := fun w => .vdot w.t (vregOf w.d) w.a.v w.b.v (Fin.ofNat 6 (w.fn % 8)) w.m }
  | 0x1C => some { a := vOnly, b := vOnly, ty := fun t => t = .bf16 || t.isB || (t.isI && t ≠ .i32 && t ≠ .n32),
                   mask := yesT, rnd := fun t r => !t.isI || r = .rne,
                   vals := fun w => aligned w.d (if w.ty.isB then 4 else 2),
                   make := fun w => .vwmul w.t (vregOf w.d) w.a.v w.b.v w.m }
  | 0x1D => some { a := vOnly, mask := isFI, sat := yesT, rnd := anyRnd, fnUsed := 31, src := true,
                   vals := cvtVals false,
                   make := fun w => .vcvt w.t (vregOf w.d) w.a.v (tyD (w.fn % 16)) (fld w.fn 4 1 == 1) w.m }
  | 0x1E => some { a := vOnly, c := vOnly, needX := true, mask := isFI, fnUsed := 31, src := true,
                   rnd := fun _ r => r = .rne || r = .rz, vals := cvtVals true, valAt := cvtAt,
                   make := fun w => .vcvtef w.t (vregOf w.d) w.a.v w.c.v (tyD (w.fn % 16)) (fld w.fn 4 1 == 1) w.m }
  | 0x1F => some (veUn ElemTy.isF yesT anyRnd .vexp2)
  | 0x20 => some (veUn ElemTy.isF yesT anyRnd .vlog2)
  | 0x21 => some (veUn ElemTy.isF yesT anyRnd .vrcp)
  | 0x22 => some (veUn ElemTy.isF yesT anyRnd .vrsqrt)
  | 0x23 => some { a := vskl, ty := isF32, mask := yesT, vals := fun w => aligned w.d 2,
                   make := fun w => .vtmin w.t (vregOf w.d) w.a (mregOf w.mask) }
  | 0x24 => some { a := vOnly, ty := ElemTy.isF, mask := yesT, sat := yesT, rnd := anyRnd,
                   vals := fun w => aligned w.fa 2,
                   make := fun w => .vtmex w.t (vregOf w.d) w.a.v w.m }
  | 0x25 => some { a := vOnly, b := vOnly, ty := isF32, mask := yesT,
                   vals := fun w => if w.d % 2 = 0 ∧ w.fa % 2 = 0 ∧ w.fb % 2 = 0 then 0 else 0x13,
                   make := fun w => .vtmerge w.t (vregOf w.d) w.a.v w.b.v (mregOf w.mask) }
  | 0x26 => some { dLim := none, a := sOnly, b := lOnly, ty := isF32,
                   vals := fun w => if 1 ≤ w.b.l.toNat ∧ w.b.l.toNat ≤ 7 then 0 else 0x14,
                   valAt := fun w _ _ => w.bAt.getD 0,
                   make := fun w => .tmtab w.t w.a.r (Fin.ofNat 8 w.b.l.toNat) }
  | 0x27 => some { dLim := none, a := sk, ty := isF32, make := fun w => .tmshape w.t w.a }
  | 0x28 => some { a := vOnly, b := vOnly, ty := permTy, mask := yesT, vals := fun w => aligned w.d 2,
                   make := fun w => .vsortk w.t (vregOf w.d) w.a.v w.b.v w.m }
  | 0x29 => some { a := vOnly, b := vOnly, c := maskFile, needX := true, ty := permTy, mask := yesT,
                   sat := ElemTy.isI, rnd := rndF,
                   make := fun w => .vsegsum w.t (vregOf w.d) w.a.v w.b.v (mregOf w.fc) w.m }
  | 0x2A => some { dLim := some 8, a := vOnly, ty := is4B, mask := yesT, fnUsed := 3,
                   vals := fun w => if w.fn % 4 = 3 then 0x14 else aligned w.fa (2 ^ (w.fn % 4)),
                   make := fun w => .vpushc w.t (mregOf w.d) w.a.v (Fin.ofNat 3 (w.fn % 4)) w.ty (mregOf w.mask) }
  | 0x2B => some { c := maskFile, needX := true, ty := is4B, fnUsed := 3,
                   vals := fun w => if w.fn % 4 = 3 then 0x14 else aligned w.d (2 ^ (w.fn % 4)),
                   make := fun w => .vpopc w.t (vregOf w.d) (mregOf w.fc) (Fin.ofNat 3 (w.fn % 4)) w.ty }
  | 0x2C => some { a := vOnly, b := sk, c := if fn % 2 = 1 then vOnly else .un, ty := isF32, sat := yesT, rnd := anyRnd,
                   fnUsed := 15, zero := fun w => w.fn % 2 == 1 || fld w.fn 3 1 == 0,
                   make := fun w => .vchain w.t (Fin.ofNat 128 (w.d + 64 * fld w.fn 1 1))
                     (Fin.ofNat 128 (w.fa + 64 * fld w.fn 2 1)) w.b
                     (if w.fn % 2 = 1 then some (Fin.ofNat 128 (w.fc + 64 * fld w.fn 3 1)) else none) w.sat w.rnd }
  | 0x2D => some { dLim := some 8, a := maskFile, b := maskFile, ty := isF32, fnUsed := 15,
                   make := fun w => .mlog w.t (mregOf w.d) (mregOf w.fa) (mregOf w.fb) (Fin.ofNat 16 w.fn) }
  | 0x2E => some { a := maskFile, make := fun w => .mpopc w.t (vregOf w.d) (mregOf w.fa) w.ty }
  | 0x2F => some { a := maskFile, make := fun w => .mfirst w.t (vregOf w.d) (mregOf w.fa) w.ty }
  | _ => none

/-- A bit of fn that completes a tensor-table entry number (R177, R347, R359). -/
def tEnt (f bit : Nat) : TEnt := Fin.ofNat 128 (f + 64 * bit)

/-- Token bits of an LQ word (R23, R70). -/
def lTok (w : EWord) (lp : Bool) : Tok1 := { w := fld w.tok 2 1 == 1, s := fld w.tok 0 1 == 1, lp := lp }
/-- Token bits of an SQ word (R23, R70). -/
def sTok (w : EWord) (lp : Bool) : Tok1 := { w := fld w.tok 3 1 == 1, s := fld w.tok 1 1 == 1, lp := lp }

/-- The load queue's forms (R347); `lp` is the partner select. -/
def lqRow (op : Nat) (ty : ElemTy) (lp : Bool) : Option ERow :=
  match op with
  | 1 => some { a := sOnly, b := lOnly, c := if ty.isB then sOnly else .un, mask := isFI,
                make := fun w => .vld (lTok w lp) (vregOf w.d) w.a.r w.b.l w.ty (mregOf w.mask)
                  (if w.ty.isB then some w.c.r else none) }
  | 2 => some { a := sOnly, b := vOnly, ty := is4B, mask := yesT,
                make := fun w => .vldg (lTok w lp) (vregOf w.d) w.a.r w.b.v w.ty (mregOf w.mask) }
  | 3 => some { a := vOnly, b := skl, fnUsed := 7,
                vals := fun w => if fld w.fn 1 2 = 3 then 0x14 else aligned w.d (2 ^ fld w.fn 1 2),
                make := fun w => .vldt (lTok w lp) (vregOf w.d) (tEnt w.fa (w.fn % 2)) w.b (Fin.ofNat 3 (fld w.fn 1 2)) w.ty }
  | 4 => some { a := sOnly, b := lOnly, ty := isFI, fnUsed := 1,
                make := fun w => .vldfe (lTok w lp) (vregOf w.d) w.a.r w.b.l (w.fn % 2 == 1) w.ty }
  | _ => none

/-- The store queue's forms (R347). -/
def sqRow (op : Nat) (ty : ElemTy) (lp : Bool) : Option ERow :=
  match op with
  | 1 => some { a := sOnly, b := lOnly, c := if ty.isB then sOnly else .un, mask := isFI, fnUsed := 1,
                make := fun w => .vst (sTok w lp) (vregOf w.d) w.a.r w.b.l w.ty (mregOf w.mask)
                  (if w.ty.isB then some w.c.r else none) (w.fn % 2 == 1) }
  | 2 => some { a := sOnly, b := vOnly, ty := is4B, mask := yesT, fnUsed := 1,
                make := fun w => .vsts (sTok w lp) (vregOf w.d) w.a.r w.b.v w.ty (mregOf w.mask) (w.fn % 2 == 1) }
  | 3 => some { a := vOnly, b := skl, fnUsed := 31,
                vals := fun w => if fld w.fn 1 2 = 3 then 0x14 else aligned w.d (2 ^ fld w.fn 1 2),
                make := fun w => .vstt (sTok w lp) (vregOf w.d) (tEnt w.fa (w.fn % 2)) w.b (Fin.ofNat 3 (fld w.fn 1 2))
                  (fld w.fn 3 1 == 1) (fld w.fn 4 1 == 1) w.ty }
  | 4 => some { a := sOnly, b := lOnly, ty := isFI,
                make := fun w => .vstfe (sTok w lp) (vregOf w.d) w.a.r w.b.l w.ty }
  | 5 => some { a := sOnly, b := vOnly, c := vskl, needX := true, ty := is4B, mask := yesT, fnUsed := 31,
                vals := fun w => if (atomOf (w.fn % 16)).any (AtomOp.vamoOk w.ty) then 0 else 0x14,
                zero := fun w => fld w.fn 4 1 == 0 || w.d == 0, zeroFirst := true,
                make := fun w => .vamo (sTok w lp) ((atomOf (w.fn % 16)).getD .add) (vregOf w.d) w.a.r w.b.v w.c w.ty
                  (mregOf w.mask) (fld w.fn 4 1 == 1) }
  | _ => none

/-- The operand types of `mma` and `mmaz` (R177). -/
def mmaTy (t : ElemTy) : Bool :=
  t = .bf16 || t = .bx8 || t = .bx4 || t = .i8 || t = .n8 || t = .i4 || t = .n4

/-- The Loom's forms (R177). -/
def lpRow (op : Nat) : Option ERow :=
  match op with
  | 1 => some { dLim := none, ty := isF32, make := fun w => .chainb w.t }
  | 2 => some { dLim := none, needX := true, further := 1, ty := isF32, fnUsed := 511,
                make := fun w => .chaine w.t (Fin.ofNat 512 w.fn) (BitVec.ofNat 32 (w.more.headD 0)) }
  | 3 => some { dLim := some 8, a := vOnly, b := vOnly, c := skl, needX := true, ty := mmaTy, fnUsed := 3,
                make := fun w => .mma w.t (mregOf w.d) (tEnt w.fa (w.fn % 2)) (tEnt w.fb (fld w.fn 1 1)) w.c w.ty }
  | 4 => some { dLim := some 8, a := vOnly, b := vOnly, c := skl, needX := true, ty := mmaTy, fnUsed := 3,
                make := fun w => .mmaz w.t (mregOf w.d) (tEnt w.fa (w.fn % 2)) (tEnt w.fb (fld w.fn 1 1)) w.c w.ty }
  | 5 => some { dLim := some 8, ty := isF32, make := fun w => .accz w.t (mregOf w.d) }
  | 6 => some { dLim := some 8, a := vOnly, c := skl, needX := true, sat := yesT, rnd := anyRnd, fnUsed := 5,
                make := fun w => .accst w.t (mregOf w.d) (tEnt w.fa (w.fn % 2)) w.c (fld w.fn 2 1 == 1) w.ty w.sat w.rnd }
  | 7 => some { dLim := some 8, a := vOnly, c := skl, needX := true, fnUsed := 1,
                make := fun w => .accld w.t (mregOf w.d) (tEnt w.fa (w.fn % 2)) w.c w.ty }
  | _ => none

/-- The barrier that a walker command binds (R359). -/
def bindOf (fn : Nat) : Option (Fin 32) := if fld fn 3 1 = 1 then some (Fin.ofNat 32 (fld fn 4 5)) else none

/-- A binding's number is zero where none is bound (R359, R78). -/
def bindZero (fn : Nat) : Bool := fld fn 3 1 == 1 || fld fn 4 5 == 0

/-- The walker's forms (R359). -/
def wqRow (op : Nat) : Option ERow :=
  match op with
  | 1 => some { a := vOnly, b := skl, ty := isF32, fnUsed := 511, zero := fun w => bindZero w.fn,
                make := fun w => .cpy (tEnt w.d (w.fn % 2)) (tEnt w.fa (fld w.fn 1 1)) w.b (bindOf w.fn) (fld w.fn 2 1 == 1) }
  | 2 => some { dLim := none, a := sOnly, b := sOnly, c := skl, needX := true, ty := isF32, fnUsed := 504,
                zero := fun w => bindZero w.fn,
                make := fun w => .cpym w.a.r w.b.r w.c (bindOf w.fn) }
  | 3 => some { b := skl, c := skl, needX := true, ty := isF32, fnUsed := 509, zero := fun w => bindZero w.fn,
                make := fun w => .cpyf (tEnt w.d (w.fn % 2)) w.b w.c (bindOf w.fn) (fld w.fn 2 1 == 1) }
  | 4 => some { dLim := none, a := sOnly, b := skl, ty := isF32, fnUsed := 7,
                vals := fun w => if w.fn % 8 ≤ 4 then 0 else 0x14,
                make := fun w => .trig w.a.r w.b (scopeD (w.fn % 8)) }
  | _ => none

/-- The criers' forms (R200). -/
def cqRow (op : Nat) : Option ERow :=
  match op with
  | 1 => some { dLim := none, a := skl, b := sOnly, ty := isF32, make := fun w => .ttset w.a w.b.r }
  | 2 => some { dLim := none, a := skl, b := skl, ty := isF32, make := fun w => .tready w.a w.b }
  | 3 => some { dLim := none, a := skl, ty := isF32, make := fun w => .cred w.a }
  | _ => none

/-- The form of an engine word (R81): its class, its op field, and what the row depends on. -/
def eRow (k : Cls) (op fn : Nat) (ty : ElemTy) : Option ERow :=
  match k with
  | .ve => veRow op fn ty
  | .lq => lqRow (op % 32) ty (32 ≤ op)
  | .sq => sqRow (op % 32) ty (32 ≤ op)
  | .lp => lpRow op
  | .wq => wqRow op
  | .cq => cqRow op
  | .seq _ => none

/-- Checks 6 and 7 of R82: the class and CAUSE, or (0, 0). -/
def tokCheck (k : Cls) (tok : Nat) : Nat × Nat :=
  match k with
  | .lq => if tok &&& 0xA = 0 then (0, 0) else (2, 0x15)
  | .sq => if tok &&& 0x5 = 0 then (0, 0) else (2, 0x15)
  | .wq | .cq => if tok = 0 then (0, 0) else (3, 0x22)
  | _ => (0, 0)

/-- Kinds S, K and L are illegal for an operand of a block type on VE (R126). -/
def blockKind (k : Cls) (ty : ElemTy) (o : OpdSpec) (kind : Nat) : Bool :=
  k == .ve && ty.isB && o != .un && kind != 0

/-- Checks 5 to 9 of R82 on an engine word whose words are counted; `k1` is the position of the X word. -/
def decodeE2 (k : Cls) (r : ERow) (w : Nat) (x : Nat) (hasX : Bool) (va vb vc : Option Nat) (more : List Nat)
    : Dec :=
  let ka := fld w 14 2
  let fa := fld w 8 6
  let kb := fld w 6 2
  let fb := fld w 0 6
  let d := fld w 16 6
  let tok := fld w 28 4
  let fn := fld x 0 14
  let kc := fld x 14 2
  let fc := fld x 16 6
  let ty := tyD (fld x 28 4)
  let rnd := rndOf (fld x 22 2)
  let q : EWord := { tok := tok, d := d, a := eOpd ka fa (va.getD 0), b := eOpd kb fb (vb.getD 0),
                     c := eOpd kc fc (vc.getD 0), fa := fa, fb := fb, fc := fc, ty := ty, mask := fld x 25 3,
                     sat := fld x 24 1 == 1, rnd := rnd, fn := fn,
                     bAt := vb.map fun _ => 1 + hasX.toNat + va.isSome.toNat, more := more }
  let k1 := hasX.toNat
  let ca := r.a.check ka fa va
  let cb := r.b.check kb fb vb
  let cc := r.c.check kc fc vc
  if 12 ≤ fld x 28 4 ∨ (r.src ∧ 12 ≤ fn % 16) then .bad 3 0x21 1
  else if (tokCheck k tok).1 ≠ 0 then .bad (tokCheck k tok).1 (tokCheck k tok).2 0
  else if r.dLim.any (· ≤ d) then .bad 2 0x13 0
  else if ca ≠ 0 then .bad 2 ca (if ca = 0x16 then 1 + k1 else 0)
  else if blockKind k ty r.a ka then .bad 2 0x12 0
  else if cb ≠ 0 then .bad 2 cb (if cb = 0x16 then 1 + k1 + va.isSome.toNat else 0)
  else if blockKind k ty r.b kb then .bad 2 0x12 0
  else if cc ≠ 0 then .bad 2 cc (if cc = 0x16 then 1 + k1 + va.isSome.toNat + vb.isSome.toNat else 1)
  else if blockKind k ty r.c kc then .bad 2 0x12 1
  else if !r.ty ty then .bad 2 0x14 k1
  else if fld x 25 3 ≠ 0 ∧ !r.mask ty then .bad 2 0x14 k1
  else if fld x 24 1 = 1 ∧ !r.sat ty then .bad 2 0x14 k1
  else if !r.rnd ty rnd then .bad 2 0x14 k1
  else if r.vals q ≠ 0 then .bad 2 (r.vals q) (r.valAt q (r.vals q) k1)
  else if !(r.dLim.isSome || d == 0) || !r.a.unusedOk ka fa || !r.b.unusedOk kb fb || (r.zeroFirst && !r.zero q) then .bad 3 0x20 0
  else if !r.c.unusedOk kc fc || fn &&& (16383 - r.fnUsed) != 0 || !r.zero q then .bad 3 0x20 k1
  else .ok (r.make q)

/-- An engine word (R69-R72, R77). -/
def decodeE (k : Cls) (w : Nat) (cs : List Nat) : Dec :=
  let op := fld w 22 6
  match eRow k op 0 .f32 with
  | none => .bad 2 0x10 0
  | some r0 =>
    let ea := isEsc 6 (fld w 14 2) (fld w 8 6)
    let eb := isEsc 6 (fld w 6 2) (fld w 0 6)
    let e := ea.toNat + eb.toNat
    let hasX := r0.needX || cs.length != e
    let x := if hasX then cs.headD 0 else 0
    let ec := hasX && isEsc 6 (fld x 14 2) (fld x 16 6)
    let cnt := if hasX then 1 + e + ec.toNat + r0.further else e
    if cs.length ≠ cnt then .bad 2 0x11 0
    else
      let vs := cs.drop hasX.toNat
      let va := if ea then some (vs.headD 0) else none
      let vs := vs.drop ea.toNat
      let vb := if eb then some (vs.headD 0) else none
      let vs := vs.drop eb.toNat
      let vc := if ec then some (vs.headD 0) else none
      let more := vs.drop ec.toNat
      match eRow k op (fld x 0 14) (tyD (fld x 28 4)) with
      | none => .bad 2 0x10 0
      | some r => decodeE2 k r w x hasX va vb vc more

/-- The decoder: total on any words, refusing by class and CAUSE (R82). -/
def decode (k : Cls) (w : Nat) (cs : List Nat) : Dec :=
  match k with
  | .seq xs => decodeSeq xs w cs
  | _ => decodeE k w cs

/-- The classes in the order in which a bare table word is tried: the table names no header code (DESIGN CHOICE log 5). -/
def tableClasses : List Cls := [.seq false, .seq true, .cq, .lp, .wq, .lq, .sq, .ve]

/-- The first class, and the number of continuation words, with which a first word decodes. -/
def tableTry (w : Nat) (cs : List Nat) : List Cls → Option (Cls × Nat × Instr)
  | [] => none
  | k :: ks =>
    let attempt (n : Nat) : Option (Cls × Nat × Instr) :=
      match decode k w (cs.take n) with
      | .ok i => some (k, n, i)
      | .bad .. => none
    (attempt 0).orElse fun _ => (attempt 1).orElse fun _ => (attempt 2).orElse fun _ =>
      (attempt 3).orElse fun _ => tableTry w cs ks

/-- The words of an instruction whose table bits are `w`: the first word, then three more. -/
def tableWords (w : Nat) : Nat × List Nat :=
  (w % 2 ^ 32, [w / 2 ^ 32 % 2 ^ 32, w / 2 ^ 64 % 2 ^ 32, w / 2 ^ 96 % 2 ^ 32])

/-- What the decoder reads from a table word (bits above `nbits` are zero). -/
def decodeTableWord (nbits w : Nat) : Option Instr :=
  let tw := tableWords (w % 2 ^ nbits)
  (tableTry tw.1 tw.2 tableClasses).map (fun t => t.2.2)

/-! ## The encoder: the shortest words of an instruction (R45, R77) -/

/-- An operand as fields: kind, field, and its V word. -/
structure Fields where
  kind : Nat
  f : Nat
  v : List Nat

/-- An operand field left unused (R78). -/
def noOpd : Fields := { kind := 0, f := 0, v := [] }

/-- A kind-00 field. -/
def fileF (n : Nat) : Fields := { kind := 0, f := n, v := [] }

/-- An operand in a 5-bit field (R74). -/
def SOpd.enc : SOpd → Fields
  | .reg n => { kind := 1, f := n.val, v := [] }
  | .const k => if k.val < 31 then { kind := 2, f := k.val, v := [] } else { kind := 2, f := 31, v := [k.val * 8] }
  | .lit v =>
    if -15 ≤ v.toInt ∧ v.toInt ≤ 15 then { kind := 3, f := v.toNat % 32, v := [] }
    else { kind := 3, f := 16, v := [v.toNat] }

/-- An operand in a 6-bit field (R74). -/
def EOpd.enc : EOpd → Fields
  | .vec n => { kind := 0, f := n.val, v := [] }
  | .reg n => { kind := 1, f := n.val, v := [] }
  | .const k => if k.val < 63 then { kind := 2, f := k.val, v := [] } else { kind := 2, f := 63, v := [k.val * 8] }
  | .lit v =>
    if -31 ≤ v.toInt ∧ v.toInt ≤ 31 then { kind := 3, f := v.toNat % 64, v := [] }
    else { kind := 3, f := 32, v := [v.toNat] }

/-- A Q word (R65). -/
def encQ (op d : Nat) (a b : Fields) (fn : Nat) (more : List Nat) : List Nat :=
  (op * 2 ^ 25 + d * 2 ^ 20 + a.kind * 2 ^ 18 + a.f * 2 ^ 13 + b.kind * 2 ^ 11 + b.f * 2 ^ 6 + fn)
    :: (a.v ++ b.v ++ more)

/-- A displacement (R335). -/
def dispF (v : BitVec 32) : Fields := (SOpd.lit v).enc

/-- Fields of the X word but for operand c. -/
structure XF where
  ty : ElemTy := .f32
  mask : Nat := 0
  sat : Bool := false
  rnd : Rnd := .rne
  fn : Nat := 0
  deriving DecidableEq

def Mods.xf (m : Mods) (fn : Nat) : XF := { ty := m.ty, mask := m.mask.val, sat := m.sat, rnd := m.rnd, fn := fn }

/-- An E word with what follows it (R69, R71, R77); `force` says that the form always has its X word. -/
def encE (tok op d : Nat) (a b c : Fields) (x : XF) (force : Bool) (more : List Nat) : List Nat :=
  (tok * 2 ^ 28 + op * 2 ^ 22 + d * 2 ^ 16 + a.kind * 2 ^ 14 + a.f * 2 ^ 8 + b.kind * 2 ^ 6 + b.f) ::
    ((if force || x != {} || c.kind != 0 || c.f != 0 then
        [x.ty.code * 2 ^ 28 + x.mask * 2 ^ 25 + x.sat.toNat * 2 ^ 24 + x.rnd.code * 2 ^ 22
          + c.f * 2 ^ 16 + c.kind * 2 ^ 14 + x.fn]
      else []) ++ (a.v ++ b.v ++ c.v ++ more))

def Tok.enc (t : Tok) : Nat := t.wl.toNat * 8 + t.wr.toNat * 4 + t.sl.toNat * 2 + t.sr.toNat
def Tok1.encL (t : Tok1) : Nat := t.w.toNat * 4 + t.s.toNat
def Tok1.encS (t : Tok1) : Nat := t.w.toNat * 8 + t.s.toNat * 2
/-- The partner select bit in the op field (R70). -/
def Tok1.op (t : Tok1) (op : Nat) : Nat := op + 32 * t.lp.toNat

/-- The arming word (R258). -/
def armE (o : Option (Fin 8)) (k : Nat) : Nat := match o with
  | none => 0
  | some s => (8 + s.val) * 2 ^ (4 * k)
def Arming.enc (a : Arming) : Nat :=
  armE a.lq 0 + armE a.ve 1 + armE a.sq 2 + armE a.lp 3 + armE a.wq 4 + armE a.cq 5

def bindE (o : Option (Fin 32)) : Nat := match o with
  | none => 0
  | some b => 8 + 16 * b.val

/-- The class that an encoded instruction's first word is routed to; an event has none. -/
def Instr.cls : Instr → Option Cls
  | .nop | .add .. | .sub .. | .mul .. | .mulh .. | .mulhn .. | .div .. | .divn .. | .rem .. | .remn ..
  | .and .. | .or .. | .xor .. | .andn .. | .orn .. | .shl .. | .shr .. | .sra .. | .rol .. | .ror ..
  | .min .. | .max .. | .minn .. | .maxn .. | .clz .. | .ctz .. | .popc .. | .bfx .. | .bfi .. | .sel ..
  | .cmp .. | .lea .. | .lit .. | .litWide .. | .br .. | .bcZ .. | .bcNz .. | .call .. | .ret .. | .jr ..
  | .loopb .. | .loopx .. | .bopush .. | .bobc .. | .launch .. | .spawn .. | .join .. | .suspendAs ..
  | .commit .. | .retire | .cancel .. | .yield | .trap .. | .eret | .csrr .. | .csrw .. | .carve .. | .fencei
  | .wait .. | .ld .. | .st .. | .ldfe .. | .stfe .. | .fence .. | .promote .. | .amo .. | .cas .. | .famo ..
  | .amofence .. | .tlwait .. | .tlread .. | .fopen .. | .fpub .. | .fchase .. | .fclose .. | .fhalt ..
  | .fread .. | .bar .. | .barw .. | .bars .. | .hbar .. | .hoff .. | .take .. | .ckpt .. | .fereset ..
  | .pref .. | .cwb .. | .cinv .. | .permit .. | .shld .. | .shst .. | .shset .. | .shget .. | .tdef ..
  | .tdrop .. | .tget .. | .lease .. | .unlease | .cgrp .. | .asyreg .. | .asyfence .. | .asyget ..
  | .crload .. => some (.seq false)
  | .suspendXs => some (.seq true)
  | .vadd .. | .vsub .. | .vmul .. | .vfma .. | .vdiv .. | .vsqrt .. | .vabs .. | .vneg .. | .vmin .. | .vmax ..
  | .vand .. | .vor .. | .vxor .. | .vshl .. | .vshr .. | .vsra .. | .vcmp .. | .vsel .. | .vmov .. | .vbcast ..
  | .vperm .. | .vslide .. | .vredsum .. | .vredmax .. | .vredmin .. | .vscan .. | .vdot .. | .vwmul ..
  | .vcvt .. | .vcvtef .. | .vexp2 .. | .vlog2 .. | .vrcp .. | .vrsqrt .. | .vtmin .. | .vtmex .. | .vtmerge ..
  | .tmtab .. | .tmshape .. | .vsortk .. | .vsegsum .. | .vpushc .. | .vpopc .. | .vchain .. | .mlog ..
  | .mpopc .. | .mfirst .. => some .ve
  | .vld .. | .vldg .. | .vldt .. | .vldfe .. => some .lq
  | .vst .. | .vsts .. | .vstt .. | .vstfe .. | .vamo .. => some .sq
  | .chainb .. | .chaine .. | .mma .. | .mmaz .. | .accz .. | .accst .. | .accld .. => some .lp
  | .cpy .. | .cpym .. | .cpyf .. | .trig .. => some .wq
  | .ttset .. | .tready .. | .cred .. => some .cq
  | _ => none

/-- An encoded instruction, told from an event (spec/opcode_table.json gives an event no encoding). -/
def Instr.encoded (i : Instr) : Bool := i.cls.isSome

def encAr (op : Nat) (d : Reg) (a b : SOpd) : List Nat := encQ op d.val a.enc b.enc 0 []
def encUn (op : Nat) (d : Reg) (a : SOpd) : List Nat := encQ op d.val a.enc noOpd 0 []
def sReg (r : Reg) : Fields := (SOpd.reg r).enc
def eReg (r : Reg) : Fields := (EOpd.reg r).enc
def accF (s : Option Scope) : Nat := match s with
  | none => 0
  | some s => 1 + s.code

def encVB (op : Nat) (t : Tok) (d : VReg) (a b : EOpd) (m : Mods) : List Nat :=
  encE t.enc op d.val a.enc b.enc noOpd (m.xf 0) false []
def encVU (op : Nat) (t : Tok) (d : VReg) (a : EOpd) (m : Mods) : List Nat :=
  encE t.enc op d.val a.enc noOpd noOpd (m.xf 0) false []
def encVR (op : Nat) (t : Tok) (d a : VReg) (m : Mods) : List Nat :=
  encE t.enc op d.val (fileF a.val) noOpd noOpd (m.xf 0) false []
def encVRR (op : Nat) (t : Tok) (d a b : VReg) (m : Mods) : List Nat :=
  encE t.enc op d.val (fileF a.val) (fileF b.val) noOpd (m.xf 0) false []
def planeF (p : Option Reg) : Fields := match p with
  | none => noOpd
  | some r => eReg r

/-- The words of an instruction, shortest form; an event has no words. -/
def encode : Instr → List Nat
  | .nop => [0]
  | .add d a b => encAr 0x01 d a b
  | .sub d a b => encAr 0x02 d a b
  | .mul d a b => encAr 0x03 d a b
  | .mulh d a b => encAr 0x04 d a b
  | .mulhn d a b => encAr 0x05 d a b
  | .div d a b => encAr 0x06 d a b
  | .divn d a b => encAr 0x07 d a b
  | .rem d a b => encAr 0x08 d a b
  | .remn d a b => encAr 0x09 d a b
  | .and d a b => encAr 0x0A d a b
  | .or d a b => encAr 0x0B d a b
  | .xor d a b => encAr 0x0C d a b
  | .andn d a b => encAr 0x0D d a b
  | .orn d a b => encAr 0x0E d a b
  | .shl d a b => encAr 0x0F d a b
  | .shr d a b => encAr 0x10 d a b
  | .sra d a b => encAr 0x11 d a b
  | .rol d a b => encAr 0x12 d a b
  | .ror d a b => encAr 0x13 d a b
  | .min d a b => encAr 0x14 d a b
  | .max d a b => encAr 0x15 d a b
  | .minn d a b => encAr 0x16 d a b
  | .maxn d a b => encAr 0x17 d a b
  | .clz d a => encUn 0x18 d a
  | .ctz d a => encUn 0x19 d a
  | .popc d a => encUn 0x1A d a
  | .bfx d a b w => encQ 0x1B d.val a.enc b.enc w.val []
  | .bfi d a b w => encQ 0x1C d.val a.enc b.enc w.val []
  | .sel d a b c => encQ 0x1D d.val a.enc b.enc c.val []
  | .cmp cc d a b => encQ 0x1E d.val a.enc b.enc cc.code []
  | .lea d a b sh => encQ 0x1F d.val a.enc b.enc sh.val []
  | .lit d a => encQ 0x20 d.val a.enc noOpd 0 []
  | .litWide d lo hi => encQ 0x20 d.val { kind := 3, f := 16, v := [lo.toNat] } noOpd 1 [hi.toNat]
  | .br off => [0x21 * 2 ^ 25 + off.toNat]
  | .bcZ a off => [0x22 * 2 ^ 25 + a.val * 2 ^ 20 + off.toNat]
  | .bcNz a off => [0x23 * 2 ^ 25 + a.val * 2 ^ 20 + off.toNat]
  | .call off => [0x24 * 2 ^ 25 + off.toNat]
  | .ret a => encQ 0x25 0 (sReg a) noOpd 0 []
  | .jr a => encQ 0x26 0 (sReg a) noOpd 0 []
  | .loopb a off arm => [0x27 * 2 ^ 25 + a.val * 2 ^ 20 + off.toNat, arm.enc]
  | .loopx d a => encUn 0x28 d a
  | .bopush a => encQ 0x29 0 a.enc noOpd 0 []
  | .bobc a off => [0x2A * 2 ^ 25 + a.val * 2 ^ 20 + off.toNat]
  | .launch d a b => encQ 0x2B d.val (sReg a) b.enc 0 []
  | .spawn d a b => encQ 0x2C d.val (sReg a) b.enc 0 []
  | .join d a => encQ 0x2D d.val (sReg a) noOpd 0 []
  | .suspendAs a b an => encQ 0x2E 0 (sReg a) (sReg b) an.val []
  | .suspendXs => encQ 0x2E 0 noOpd noOpd 0 []
  | .commit d => encQ 0x2F d.val noOpd noOpd 0 []
  | .retire => encQ 0x30 0 noOpd noOpd 0 []
  | .cancel d a => encUn 0x31 d a
  | .yield => encQ 0x32 0 noOpd noOpd 0 []
  | .trap c => encQ 0x33 0 noOpd noOpd c.val []
  | .eret => encQ 0x34 0 noOpd noOpd 0 []
  | .csrr d c => encQ 0x35 d.val noOpd noOpd c.code []
  | .csrw c a => encQ 0x36 0 a.enc noOpd c.code []
  | .carve a => encQ 0x37 0 a.enc noOpd 0 []
  | .fencei => encQ 0x38 0 noOpd noOpd 0 []
  | .wait d a b => encQ 0x39 d.val (sReg a) b.enc 0 []
  | .ld d a disp sz acq => encQ 0x40 d.val (sReg a) (dispF disp) (accF acq * 4 + sz.code) []
  | .st d a disp sz rel asy => encQ 0x41 d.val (sReg a) (dispF disp) (asy.toNat * 32 + accF rel * 4 + sz.code) []
  | .ldfe d a disp sz clear => encQ 0x42 d.val (sReg a) (dispF disp) (clear.toNat * 4 + sz.code) []
  | .stfe d a disp sz => encQ 0x43 d.val (sReg a) (dispF disp) sz.code []
  | .fence o => encQ 0x44 0 noOpd noOpd (o.code * 4) []
  | .promote d a disp s => encQ 0x45 d.val (sReg a) (dispF disp) s.code []
  | .amo op d a b sz o nr => encQ 0x46 d.val (sReg a) b.enc (o.code * 4 + sz.code) [nr.toNat * 16 + op.code]
  | .cas d a b sz o => encQ 0x47 d.val (sReg a) b.enc (o.code * 4 + sz.code) []
  | .famo op d a b o nr => encQ 0x48 d.val (sReg a) b.enc (o.code * 4 + 2) [nr.toNat * 16 + op.code]
  | .amofence s => encQ 0x49 0 noOpd noOpd s.code []
  | .tlwait t a s => encQ 0x4A 0 a.enc noOpd (s.code * 8 + t.code) []
  | .tlread d t => encQ 0x4B d.val noOpd noOpd t.code []
  | .fopen a => encQ 0x4C 0 (sReg a) noOpd 0 []
  | .fpub a b s => encQ 0x4D 0 (sReg a) b.enc s.code []
  | .fchase d a b s => encQ 0x4E d.val (sReg a) b.enc s.code []
  | .fclose a s => encQ 0x4F 0 (sReg a) noOpd s.code []
  | .fhalt a => encQ 0x50 0 (sReg a) noOpd 0 []
  | .fread d a => encQ 0x51 d.val (sReg a) noOpd 0 []
  | .bar b a => encQ 0x52 b.val a.enc noOpd 0 []
  | .barw b => encQ 0x53 b.val noOpd noOpd 0 []
  | .bars b a => encQ 0x54 b.val a.enc noOpd 0 []
  | .hbar s a => encQ 0x55 0 a.enc noOpd s.code []
  | .hoff d c a b => encQ 0x56 d.val (sReg a) b.enc c.val []
  | .take d a b => encQ 0x57 d.val (sReg a) b.enc 0 []
  | .ckpt d => encQ 0x58 d.val noOpd noOpd 0 []
  | .fereset a b => encQ 0x59 0 (sReg a) b.enc 0 []
  | .pref a disp home => encQ 0x5A 0 (sReg a) (dispF disp) home.toNat []
  | .cwb a b => encQ 0x5B 0 (sReg a) b.enc 0 []
  | .cinv a b => encQ 0x5C 0 (sReg a) b.enc 0 []
  | .permit a b s => encQ 0x6B 0 (sReg a) b.enc s.code []
  | .shld sh a disp => encQ 0x5D sh.val (sReg a) (dispF disp) 0 []
  | .shst sh a disp => encQ 0x5E sh.val (sReg a) (dispF disp) 0 []
  | .shset sh a f => encQ 0x5F sh.val a.enc noOpd f.val []
  | .shget d sh f => encQ 0x60 d.val (fileF sh.val) noOpd f.val []
  | .tdef t sh => encQ 0x61 (t.val % 32) (fileF sh.val) noOpd (t.val / 32) []
  | .tdrop t => encQ 0x62 (t.val % 32) noOpd noOpd (t.val / 32) []
  | .tget sh t => encQ 0x63 sh.val (fileF (t.val % 32)) noOpd (t.val / 32) []
  | .lease a => encQ 0x64 0 a.enc noOpd 0 []
  | .unlease => encQ 0x65 0 noOpd noOpd 0 []
  | .cgrp d a g => encQ 0x66 d.val (sReg a) noOpd g.val []
  | .asyreg a b g => encQ 0x67 0 (sReg a) b.enc g.val []
  | .asyfence d g => encQ 0x68 d.val noOpd noOpd g.val []
  | .asyget d a g => encQ 0x69 d.val a.enc noOpd g.val []
  | .crload d a b => encQ 0x6A d.val (sReg a) b.enc 0 []
  | .vadd t d a b m => encVB 0x01 t d a b m
  | .vsub t d a b m => encVB 0x02 t d a b m
  | .vmul t d a b m => encVB 0x03 t d a b m
  | .vfma t d a b c m => encE t.enc 0x04 d.val a.enc b.enc c.enc (m.xf 0) true []
  | .vdiv t d a b m => encVB 0x05 t d a b m
  | .vsqrt t d a m => encVU 0x06 t d a m
  | .vabs t d a m => encVU 0x07 t d a m
  | .vneg t d a m => encVU 0x08 t d a m
  | .vmin t d a b m => encVB 0x09 t d a b m
  | .vmax t d a b m => encVB 0x0A t d a b m
  | .vand t d a b m => encVB 0x0B t d a b m
  | .vor t d a b m => encVB 0x0C t d a b m
  | .vxor t d a b m => encVB 0x0D t d a b m
  | .vshl t d a b m => encVB 0x0E t d a b m
  | .vshr t d a b m => encVB 0x0F t d a b m
  | .vsra t d a b m => encVB 0x10 t d a b m
  | .vcmp t cc d a b m => encE t.enc 0x11 d.val a.enc b.enc noOpd (m.xf cc.code) false []
  | .vsel t d a b c ty => encE t.enc 0x12 d.val a.enc b.enc (fileF c.val) { ty := ty } true []
  | .vmov t d a m => encVU 0x13 t d a m
  | .vbcast t d a b m => encE t.enc 0x14 d.val (fileF a.val) b.enc noOpd (m.xf 0) false []
  | .vperm t d a b m => encVRR 0x15 t d a b m
  | .vslide t d a b c m =>
    match c with
    | none => encE t.enc 0x16 d.val (fileF a.val) b.enc noOpd (m.xf 0) false []
    | some c => encE t.enc 0x16 d.val (fileF a.val) b.enc (fileF c.val) (m.xf 1) false []
  | .vredsum t d a m => encVR 0x17 t d a m
  | .vredmax t d a m => encVR 0x18 t d a m
  | .vredmin t d a m => encVR 0x19 t d a m
  | .vscan t d a m => encVR 0x1A t d a m
  | .vdot t d a b g m => encE t.enc 0x1B d.val (fileF a.val) (fileF b.val) noOpd (m.xf g.val) false []
  | .vwmul t d a b m => encVRR 0x1C t d a b m
  | .vcvt t d a st h m => encE t.enc 0x1D d.val (fileF a.val) noOpd noOpd (m.xf (st.code + 16 * h.toNat)) false []
  | .vcvtef t d a c st h m =>
    encE t.enc 0x1E d.val (fileF a.val) noOpd (fileF c.val) (m.xf (st.code + 16 * h.toNat)) true []
  | .vexp2 t d a m => encVU 0x1F t d a m
  | .vlog2 t d a m => encVU 0x20 t d a m
  | .vrcp t d a m => encVU 0x21 t d a m
  | .vrsqrt t d a m => encVU 0x22 t d a m
  | .vtmin t d a mask => encE t.enc 0x23 d.val a.enc noOpd noOpd { mask := mask.val } false []
  | .vtmex t d a m => encVR 0x24 t d a m
  | .vtmerge t d a b mask => encE t.enc 0x25 d.val (fileF a.val) (fileF b.val) noOpd { mask := mask.val } false []
  | .tmtab t a pair => encE t.enc 0x26 0 (eReg a) { kind := 3, f := pair.val, v := [] } noOpd {} false []
  | .tmshape t a => encE t.enc 0x27 0 a.enc noOpd noOpd {} false []
  | .vsortk t d a b m => encVRR 0x28 t d a b m
  | .vsegsum t d a b c m => encE t.enc 0x29 d.val (fileF a.val) (fileF b.val) (fileF c.val) (m.xf 0) true []
  | .vpushc t d a w ty mask =>
    encE t.enc 0x2A d.val (fileF a.val) noOpd noOpd { ty := ty, mask := mask.val, fn := w.val } false []
  | .vpopc t d c w ty => encE t.enc 0x2B d.val noOpd noOpd (fileF c.val) { ty := ty, fn := w.val } true []
  | .vchain t d a b c sat rnd =>
    let f := 2 * (d.val / 64) + 4 * (a.val / 64)
    match c with
    | none => encE t.enc 0x2C (d.val % 64) (fileF (a.val % 64)) b.enc noOpd { sat := sat, rnd := rnd, fn := f } false []
    | some c => encE t.enc 0x2C (d.val % 64) (fileF (a.val % 64)) b.enc (fileF (c.val % 64))
        { sat := sat, rnd := rnd, fn := f + 8 * (c.val / 64) + 1 } false []
  | .mlog t d a b tt => encE t.enc 0x2D d.val (fileF a.val) (fileF b.val) noOpd { fn := tt.val } false []
  | .mpopc t d a ty => encE t.enc 0x2E d.val (fileF a.val) noOpd noOpd { ty := ty } false []
  | .mfirst t d a ty => encE t.enc 0x2F d.val (fileF a.val) noOpd noOpd { ty := ty } false []
  | .vld t d a disp ty mask p =>
    encE t.encL (t.op 1) d.val (eReg a) (EOpd.lit disp).enc (planeF p) { ty := ty, mask := mask.val } false []
  | .vldg t d a b ty mask =>
    encE t.encL (t.op 2) d.val (eReg a) (fileF b.val) noOpd { ty := ty, mask := mask.val } false []
  | .vldt t d a b lw ty =>
    encE t.encL (t.op 3) d.val (fileF (a.val % 64)) b.enc noOpd { ty := ty, fn := a.val / 64 + 2 * lw.val } false []
  | .vldfe t d a disp clear ty =>
    encE t.encL (t.op 4) d.val (eReg a) (EOpd.lit disp).enc noOpd { ty := ty, fn := clear.toNat } false []
  | .vst t d a disp ty mask p asy =>
    encE t.encS (t.op 1) d.val (eReg a) (EOpd.lit disp).enc (planeF p)
      { ty := ty, mask := mask.val, fn := asy.toNat } false []
  | .vsts t d a b ty mask asy =>
    encE t.encS (t.op 2) d.val (eReg a) (fileF b.val) noOpd { ty := ty, mask := mask.val, fn := asy.toNat } false []
  | .vstt t d a b lw asy close ty =>
    encE t.encS (t.op 3) d.val (fileF (a.val % 64)) b.enc noOpd
      { ty := ty, fn := a.val / 64 + 2 * lw.val + 8 * asy.toNat + 16 * close.toNat } false []
  | .vstfe t d a disp ty => encE t.encS (t.op 4) d.val (eReg a) (EOpd.lit disp).enc noOpd { ty := ty } false []
  | .vamo t op d a b c ty mask nr =>
    encE t.encS (t.op 5) d.val (eReg a) (fileF b.val) c.enc
      { ty := ty, mask := mask.val, fn := op.code + 16 * nr.toNat } true []
  | .chainb t => encE t.enc 1 0 noOpd noOpd noOpd {} false []
  | .chaine t slots sig => encE t.enc 2 0 noOpd noOpd noOpd { fn := slots.val } true [sig.toNat]
  | .mma t d a b o ty =>
    encE t.enc 3 d.val (fileF (a.val % 64)) (fileF (b.val % 64)) o.enc
      { ty := ty, fn := a.val / 64 + 2 * (b.val / 64) } true []
  | .mmaz t d a b o ty =>
    encE t.enc 4 d.val (fileF (a.val % 64)) (fileF (b.val % 64)) o.enc
      { ty := ty, fn := a.val / 64 + 2 * (b.val / 64) } true []
  | .accz t d => encE t.enc 5 d.val noOpd noOpd noOpd {} false []
  | .accst t d a o close ty sat rnd =>
    encE t.enc 6 d.val (fileF (a.val % 64)) noOpd o.enc
      { ty := ty, sat := sat, rnd := rnd, fn := a.val / 64 + 4 * close.toNat } true []
  | .accld t d a o ty => encE t.enc 7 d.val (fileF (a.val % 64)) noOpd o.enc { ty := ty, fn := a.val / 64 } true []
  | .cpy d a b bind close =>
    encE 0 1 (d.val % 64) (fileF (a.val % 64)) b.enc noOpd
      { fn := d.val / 64 + 2 * (a.val / 64) + 4 * close.toNat + bindE bind } false []
  | .cpym a b c bind => encE 0 2 0 (eReg a) (eReg b) c.enc { fn := bindE bind } true []
  | .cpyf d b c bind close =>
    encE 0 3 (d.val % 64) noOpd b.enc c.enc { fn := d.val / 64 + 4 * close.toNat + bindE bind } true []
  | .trig a b s => encE 0 4 0 (eReg a) b.enc noOpd { fn := s.code } false []
  | .ttset a b => encE 0 1 0 a.enc (eReg b) noOpd {} false []
  | .tready a b => encE 0 2 0 a.enc b.enc noOpd {} false []
  | .cred a => encE 0 3 0 a.enc noOpd noOpd {} false []
  | _ => []

end Sys2Proof
end

