-- ==== Sys2Proof/Machine/State.lean ====
section
/-! DEFINITION. The state of one package of a Plovlen P6 pod, as plain data, and the state after reset.
Every field names the rule of spec/ that gives it; INVENTORY.md lists the same fields with their reset values. -/

namespace Sys2Proof.Machine

open Sys2Proof

/-- A sparse map from numbers: keys strictly rising, no entry equal to what an unlisted key reads as
(the functions on it are in Machine/Store.lean). -/
abbrev SMap (α : Type) := List (Nat × α)

/-- A set of numbers, strictly rising. -/
abbrev NSet := List Nat

/-! ## Scalars, vectors -/

/-- A vector register: 4,096 bits, its exponent tag, a poison bit per 16 bytes (R27, R85, R95). -/
structure VRegVal where
  bits : BitVec 4096
  tag : BitVec 512
  pois : BitVec 32
  deriving DecidableEq, Repr

/-- A tensor-table entry as captured at routing: the record, or none where the entry is undefined (R164). -/
abbrev TensCap := Option (BitVec 512)

/-! ## Translation -/

/-- A checked leaf: physical page base, page size code, and the attributes of R285. -/
structure Leaf where
  base : Nat
  sz : Nat
  home : Nat
  ms : Bool
  cmp : Bool
  hc : Bool
  ckp : Bool
  ex : Bool
  wr : Bool
  rd : Bool
  slice : Nat
  deriving DecidableEq, Repr

/-- A TLB entry: context, first virtual address of the page, and its leaf (R385). -/
structure TlbEntry where
  ctx : Nat
  va : Nat
  leaf : Leaf
  deriving DecidableEq, Repr

/-- A walk-cache pointer: context, level and virtual prefix bits, and the physical address of the next table (R385). -/
structure WalkEntry where
  ctx : Nat
  level : Nat
  va : Nat
  next : Nat
  deriving DecidableEq, Repr

/-! ## Fault records (R399) -/

/-- A fault record as a value: the eight words but for SEQ, which the queue or area write fills in. -/
structure FRec where
  cls : BitVec 8
  ctx : Nat
  src : Nat
  async : Bool
  level : BitVec 3
  reason : BitVec 8
  job : Word
  point : Word
  place : Word
  addr : Word
  detail : Word
  clock : Nat
  deriving DecidableEq, Repr

/-! ## Sequencers -/

/-- A line as fetched: address, its 32 bytes, and whether a byte was poisoned (R58, R64). -/
structure FLine where
  addr : Nat
  bytes : BitVec 256
  pois : Bool
  deriving DecidableEq, Repr

/-- What a sequencer stands in (R245). -/
inductive WaitKind
  /-- no stall -/
  | none
  /-- the target queue is full (R21) -/
  | queueFull
  /-- a page fill or a home is held: context EN = 0, SMAP rewrite, channel repair (R379, R13, R417) -/
  | held
  /-- `bobc` on an empty queue, `bopush` into a full one (R261) -/
  | outcome
  /-- `loopb` naming an armed queue (R236) -/
  | armed
  /-- `join` (R265) -/
  | join
  /-- `suspend` waiting for the other sequencer, or to complete (R266) -/
  | suspend
  /-- `carve` at the team's barrier (R242) -/
  | carve
  /-- `amofence` (R346) -/
  | amofence
  /-- a release that waits for acknowledgements (R314, R333) -/
  | release
  /-- `wait` (R281) -/
  | waitLine
  /-- `ldfe`, `stfe` (R341) -/
  | cell
  /-- `tlwait` (R354) -/
  | timeline
  /-- `fchase` (R356) -/
  | chase
  /-- `barw`, `bars` after its arrival (R357) -/
  | barrier
  /-- `hbar` after its arrival (R358) -/
  | hbar
  /-- `take` (R364) -/
  | take
  /-- `asyfence` (R208) -/
  | assay
  /-- `crload` (R211) -/
  | crier
  /-- `asyfence` behind another point of its group (R208) -/
  | pointBusy
  deriving DecidableEq, Repr

/-- What a sequencer is doing for its task (R212, R266, R269). -/
inductive SeqStatus
  | live | stopped | suspended
  deriving DecidableEq, Repr

/-- A sequencer (R19). -/
structure Seqr where
  /-- x0-x31 (R19) -/
  regs : SMap SVal
  /-- line and lane of the next word to route; lane 8 is past the end of the line (R19, R62) -/
  pcLine : BitVec 52
  pcLane : Nat
  /-- the lane at which the line was entered (R62) -/
  entry : Nat
  /-- the line being routed (R58) -/
  line : Option FLine
  /-- lines fetched earlier and not discarded by `fencei` (R64, R280) -/
  ibuf : SMap FLine
  /-- the fetch TLB (R385) -/
  fetchTlb : List TlbEntry
  status : SeqStatus
  /-- handler mode (R272, R277) -/
  handler : Bool
  tvec : Word
  tepc : Word
  frec : Word
  /-- outgoing branch outcomes, oldest first (R25) -/
  outq : List Bool
  /-- PEND of each named barrier (R357) -/
  pend : SMap (BitVec 16)
  wait : WaitKind
  waitSince : Nat
  waitArg : Nat
  /-- records aimed at this sequencer, oldest first (R401) -/
  asyncRecs : List FRec
  /-- the last bundle armed in this task (R260) -/
  lastBundle : Option Nat
  /-- the bundle whose body is being routed (R258) -/
  openBundle : Option Nat
  /-- a poisoned register slot was loaded at task start (R219) -/
  slotPois : Bool
  /-- the instruction in hand, its words, its lane, and the point after it (the model's latches) -/
  cur : Option Instr
  ir : List Nat
  irLane : Nat
  next : Word
  /-- constant-bank operands of the instruction in hand, as captured at routing, by number (R75) -/
  kvals : SMap SVal
  /-- the clock of the last entry of handler mode (R418) -/
  handlerAt : Nat
  /-- a record has gone to the record area, and handler mode is entered, with this resume point, once its release completes (R272,
  R402) -/
  entering : Option Word
  deriving DecidableEq, Repr

/-! ## Engine queues -/

/-- How far an entry has come. -/
inductive Phase
  /-- routed and waiting for its turn (R20) -/
  | waiting
  /-- started: it holds its wait tokens; its effect waits for a chase, a cell, a trigger or a hold (R24, R322) -/
  | started
  /-- its effect is made; it has not completed (R24) -/
  | done
  deriving DecidableEq, Repr

/-- A byte that a store wrote: its address, the byte, which of its bits were written, and its poison (R207, R429). -/
structure Stored where
  addr : Nat
  byte : BitVec 8
  mask : BitVec 8
  pois : Bool
  deriving DecidableEq, Repr

/-- An engine entry with all it captured at routing (R22, R75, R146, R164). -/
structure Entry where
  num : Nat
  instr : Instr
  /-- first word and continuations, for the chain signature (R174) -/
  words : List Nat
  xs : Bool
  a : SVal
  b : SVal
  c : SVal
  ta : TensCap
  tb : TensCap
  tc : TensCap
  /-- `tms` and TMQ as captured (R146) -/
  tms : Word
  tmq : Bool
  /-- constants K0-K7 of `vchain` (R152) -/
  ks : BitVec 256
  ksPois : BitVec 8
  hasKs : Bool
  phase : Phase
  /-- the bundle and iteration that produced it (R236) -/
  iter : Option (Nat × Nat)
  /-- the position of a Loom command in its chain, `chainb` being 1; 0 before it is known (R169, R174) -/
  pos : Nat
  /-- whole units written and bytes delivered so far, where the effect goes unit by unit (R155, R360) -/
  units : Nat
  bytes : Nat
  /-- flags to be ORed at completion (R91) -/
  flags : BitVec 4
  /-- bytes stored with `.asy`, added to the digest at completion (R207) -/
  asy : List Stored
  /-- the clock at which it first blocked, where it blocks (R366) -/
  since : Option Nat
  /-- the vector registers that its effect has changed, as they stood before it (R125) -/
  olds : SMap VRegVal
  /-- its place, from 1, among the entries that have changed vector registers and not completed; 0 where it has changed none (R125) -/
  wrote : Nat
  deriving DecidableEq, Repr

/-- The eight token FIFOs of a core, by producer and consumer (R23). -/
inductive Fifo
  | lqVe | veLq | lqLp | lpLq | veSq | sqVe | lpSq | sqLp
  deriving DecidableEq, Repr

/-- An engine queue (R20). -/
structure EQueue where
  /-- entries waiting and started, in queue order -/
  ents : List Entry
  /-- the number of the next entry -/
  nextNum : Nat
  /-- timeline counter, bits [62:0] (R354) -/
  tl : Nat
  /-- halted flag, bit 63 (R132, R354) -/
  halted : Bool
  /-- entries completed beyond `tl` (R353) -/
  ahead : NSet
  /-- the bundle armed in this queue (R236) -/
  armed : Option Nat
  /-- signal tokens of completed entries that wait for room, oldest first; since when, of which command, at which position of
  its chain, with how many units written, routed by which sequencer (R24, R132, R169) -/
  held : List Fifo
  heldSince : Nat
  heldNum : Nat
  heldPos : Nat
  heldUnits : Nat
  heldXs : Bool
  /-- the queue holds a faulted entry (R404) -/
  faulted : Bool
  deriving DecidableEq, Repr

/-- One queue's part of a bundle (R236). -/
structure BArm where
  skew : Nat
  template : List Entry
  /-- iterations produced whole, entries produced of the next one, entries completed -/
  produced : Nat
  pos : Nat
  completed : Nat
  /-- entries completed, by iteration (R237) -/
  byIter : SMap Nat
  deriving DecidableEq, Repr

/-- A loop bundle (R236-R239, R258). -/
structure Bundle where
  id : Nat
  xs : Bool
  count : Nat
  /-- point of the `loopb` in the format of R62, and the line of its end label -/
  point : Word
  words : List Nat
  endLine : Nat
  routing : Bool
  /-- the last iteration, as cut by `loopx` -/
  last : Nat
  ended : Bool
  arms : SMap BArm
  /-- pushes minus pops of each FIFO per iteration -/
  toks : List Int
  /-- words of the body walked so far, and the first refusal found: CAUSE, header code, position (R239) -/
  bodyPos : Nat
  bad : Option (Nat × Nat × Nat)
  deriving DecidableEq, Repr

/-- Tokens in the eight FIFOs of a core, each at most 16 (R23). -/
structure Fifos where
  lqVe : Nat
  veLq : Nat
  lqLp : Nat
  lpLq : Nat
  veSq : Nat
  sqVe : Nat
  lpSq : Nat
  sqLp : Nat
  deriving DecidableEq, Repr

/-- A named barrier (R357). -/
structure Bar where
  phase : BitVec 16
  need : Nat
  arr : Nat
  failed : Bool
  failBytes : Nat
  /-- a bound walker command has arrived in this phase (R326, R357) -/
  walked : Bool
  deriving DecidableEq, Repr

/-! ## Core -/

/-- An L1 line: valid sectors, data, dirty mask, sector poison; whose write made it dirty, through a page with CKP or not (R290, R408). -/
structure L1Line where
  valid : BitVec 2
  data : BitVec 1024
  dirty : BitVec 128
  pois : BitVec 2
  ckp : Bool
  ctx : Nat
  deriving DecidableEq, Repr

/-- A trigger of a launch: counter address, threshold, acquire scope (R263). -/
structure Trigger where
  cnt : Nat
  thr : Nat
  sc : Scope
  deriving DecidableEq, Repr

/-- An enqueue buffered before commit, or handed over: a launch record or a task record (R229, R262, R264). -/
structure Enq where
  spawn : Bool
  img : BitVec 2048
  /-- poison of the record's 64-byte sectors -/
  pois : BitVec 4
  queue : Nat
  ctx : Nat
  trig : Option Trigger
  deriving DecidableEq, Repr

/-- A suspension under way: record area, watched word, AN, and the resume points (R266, R267). -/
structure Susp where
  area : Nat
  word : Nat
  an : Nat
  /-- the record is written; the release is not complete (R266) -/
  wrote : Bool
  /-- every step but the last is done: the record is written, and the watch waits for room in its table (R266) -/
  done : Bool
  deriving DecidableEq, Repr

/-- The task on a core (R212, R216). -/
structure Task where
  ctx : Nat
  queue : Nat
  /-- ring index of its held slot -/
  slot : Nat
  jobid : Word
  lidx : Word
  frame : SVal
  join : Nat
  /-- number of this run of a task, for tile tags (R173) -/
  inst : Nat
  /-- start number shared by the team members that started together (R38, R225) -/
  team : Nat
  /-- that number of its team's first start, which its record keeps when it returns (R225) -/
  crew : Nat
  committed : Bool
  commitAt : Nat
  /-- the clock from which the progress watchdog counts its limit (R231) -/
  watchAt : Nat
  /-- what the first commit returned: current, or stale (R228, R268) -/
  commitStale : Option Bool
  /-- cancel mark to set at retirement (R228) -/
  cancel : Bool
  buffered : List Enq
  suspA : Option Susp
  /-- resume points of the two suspends -/
  nextA : Word
  nextX : Word
  /-- waiting at the team's `carve` with this C code (R242) -/
  carve : Option (Bool × Nat)
  /-- a pre-emption that met a handled fault takes the task at `eret` (R418) -/
  preempt : Bool
  /-- the task has left this core, and entries that had started still run here (R230, R400) -/
  gone : Bool
  deriving DecidableEq, Repr

/-- A return-free atomic routed and not yet performed at its home (R329). -/
structure NrOp where
  pa : Nat
  ctx : Nat
  op : AtomOp
  f32 : Bool
  wide : Bool
  v : SVal
  ckp : Bool
  va : Nat
  /-- `pa` is a scratchpad offset of the core -/
  scratch : Bool
  deriving DecidableEq, Repr

/-- A core (R19-R28). -/
structure Core where
  task : Option Task
  as : Seqr
  xs : Seqr
  carvew : Word
  cflags : BitVec 4
  tmq : Bool
  vregs : SMap VRegVal
  mregs : SMap (BitVec 1024)
  sregs : SMap (BitVec 512)
  /-- defined tensor-table entries (R163) -/
  ttab : SMap (BitVec 512)
  tms : Word
  /-- loaded table pairs 1-7 as their 540 bytes (R148) -/
  tmTabs : SMap (BitVec 4320)
  /-- the conditional-stream switch: words with poison (R151) -/
  stream : List (BitVec 32 × Bool)
  /-- array bytes by bank x 32768 + byte; full and poison bits by cell (R26, R295, R297) -/
  scratch : List Host.Cell
  scFull : NSet
  scPois : NSet
  l1 : SMap L1Line
  /-- write-notice list by sector, its overflow mark, and the wide bit (R291) -/
  notices : NSet
  noticeOver : Bool
  wide : Bool
  lq : EQueue
  ve : EQueue
  sq : EQueue
  lp : EQueue
  wq : EQueue
  cq : EQueue
  fifos : Fifos
  bars : SMap Bar
  bundles : List Bundle
  nextBundle : Nat
  tickets : Nat
  nrOut : List NrOp
  nrFail : Option (BitVec 8 × BitVec 8)
  /-- writes to other packages not yet acknowledged (R333) -/
  remoteOut : Nat
  lastCtx : Option Nat
  coreTlb : List TlbEntry
  /-- the first free number of the entry in hand, where entries in flight have changed vector registers (R125, DESIGN CHOICE log 6):
  the model's latch within one step -/
  race : Option Nat
  deriving DecidableEq, Repr

/-! ## Quad and die -/

/-- An accumulator tile: elements by 256 m + n, poison by 64 m + n / 4, its tag, and the base of its free values
after a hallmark fault (R30, R173, R180, R406). -/
structure Tile where
  elems : SMap (BitVec 32)
  pois : NSet
  tag : Option (Nat × Nat)
  undef : Option Nat
  deriving DecidableEq, Repr

/-- A frontier that an `accst` of the chain published (R175, R176). -/
structure ChainFront where
  fw : Nat
  fsc : Nat
  close : Bool
  deriving DecidableEq, Repr

/-- The open chain of a Loom (R174). -/
structure Chain where
  core : Nat
  inst : Nat
  slots : Nat
  crc : BitVec 32
  fronts : List ChainFront
  tiles : NSet
  deriving DecidableEq, Repr

/-- A quad: its Loom, its lottery, its TLB (R29-R32, R171, R385). -/
structure Quad where
  qlx : BitVec 32
  holder : Option Nat
  leaseAt : Nat
  leaseCmds : Nat
  tiles : SMap Tile
  chain : Option Chain
  quadTlb : List TlbEntry
  walkCache : List WalkEntry
  deriving DecidableEq, Repr

/-- A compute die (R223, R231, R366, R387, R414). -/
structure Die where
  cbind : BitVec 16
  clus : Bool
  pwd : BitVec 5
  chto : BitVec 32
  dl : BitVec 24
  state : Nat
  saved : BitVec 16
  lost : Nat
  /-- the class that last gave this die a task (R223) -/
  rrClass : Option Nat
  quiesceAt : Nat
  /-- passed its self-test at bring-up (R425) -/
  passed : Bool
  /-- its slices are out of the home hash (R292) -/
  unhashed : Bool
  deriving DecidableEq, Repr

/-! ## Contexts, queues, scheduling -/

/-- A replica group (R186, R198, R208, R210). -/
structure Group where
  members : List Nat
  sig : BitVec 32
  key0 : BitVec 64
  key1 : BitVec 128
  digest : BitVec 128
  pois : Bool
  points : BitVec 32
  verdict : BitVec 256
  lastCount : Nat
  faulted : Bool
  /-- an assay point in progress: the sequencer that waits, the run of the task it runs, its snapshot (R208) -/
  point : Option (SeqId × Nat × BitVec 128 × Bool)
  deriving DecidableEq, Repr

/-- An assay region (R205). -/
structure Region where
  base : Nat
  len : Nat
  group : Nat
  deriving DecidableEq, Repr

/-- A tile-table entry with its firing state (R188, R191). -/
structure TileEnt where
  img : BitVec 512
  /-- armed with this generation, not yet fired -/
  armed : Option Nat
  /-- fired and not yet complete: this rank's contribution -/
  fired : Option Firing
  /-- the result is written at DST, and CFW waits for the acknowledgements of those writes (R193, R333) -/
  landed : Bool
  deriving DecidableEq, Repr

/-- A continuation watch (R266). -/
structure Watch where
  area : Nat
  word : Nat
  queue : Nat
  jobid : Word
  join : Nat
  deriving DecidableEq, Repr

/-- A context (R379, R392, R393, R403, R407). -/
structure Ctx where
  en : Bool
  mgmt : Bool
  root : BitVec 32
  jtb : BitVec 35
  fqBase : BitVec 48
  fqLog2 : Nat
  fqTail : BitVec 32
  fqHead : BitVec 32
  fqVec : BitVec 16
  fqIe : Bool
  fqLost : BitVec 32
  frb : BitVec 52
  fseq : BitVec 16
  ckEn : Bool
  ckLogb : BitVec 32
  ckLog2 : Nat
  ckIntv : BitVec 32
  ckUsed : Nat
  ckForced : BitVec 32
  /-- lines logged in this interval (R408) -/
  ckLines : NSet
  k0 : BitVec 64
  k1 : BitVec 128
  tiles : SMap TileEnt
  groups : SMap Group
  regions : SMap Region
  watches : List Watch
  deriving DecidableEq, Repr

/-- What a popped slot is until it is freed (R222), with the number of the first start of its record's team (R225). -/
inductive SlotState
  | held (crew : Nat) | returned (crew : Nat)
  deriving DecidableEq, Repr

/-- A queue with its descriptor (R221, R222, R410). -/
structure Queue where
  ctx : Nat
  base : BitVec 52
  tail : BitVec 32
  head : BitVec 32
  free : BitVec 32
  en : Bool
  log2n : Nat
  cls : Nat
  tickets : Nat
  /-- slots that are held or returned, by index -/
  slots : SMap SlotState
  /-- HEAD, TAIL, FREE and the slots at the last interval close (R410, R411) -/
  snap : Option (BitVec 32 × BitVec 32 × BitVec 32 × SMap SlotState)
  deriving DecidableEq, Repr

/-- A launch in the queue engine: the index of the next task, its trigger, its gate, whether its counter has been raised (R214, R215, R209). -/
structure Pending where
  enq : Enq
  next : Nat
  trig : Option Trigger
  gate : Option Nat
  counted : Bool
  deriving DecidableEq, Repr

/-- A record that waits for a slot; continuations go first (R220, R264). -/
structure HeldRec where
  cont : Bool
  img : BitVec 2048
  pois : BitVec 4
  queue : Nat
  deriving DecidableEq, Repr

/-- A hierarchical barrier of a level, a place, a context and a job id (R358). -/
structure HBar where
  level : Scope
  place : Nat
  ctx : Nat
  job : Nat
  need : Nat
  arr : Nat
  waiters : List SeqId
  deriving DecidableEq, Repr

/-- A pool descriptor (R388). -/
structure Pool where
  en : Bool
  ctx : Nat
  pfb : BitVec 32
  npg : BitVec 16
  bmap : BitVec 45
  deriving DecidableEq, Repr

/-- A crier: the digest and SVN of its running image, and a load in progress (R211, R395); it is seen from outside, as what its
firmware does (DESIGN CHOICE log 85). -/
structure Crier where
  digest : BitVec 256
  svn : BitVec 16
  verified : Bool
  /-- the sequencer that loads, the run of its task, the context and the address of the image -/
  load : Option (SeqId × Nat × Nat × Nat)
  tlb : List TlbEntry
  /-- writes to other packages not yet acknowledged (R193, R333) -/
  remoteOut : Nat
  deriving DecidableEq, Repr

/-- A stack index of the socket map (R13, R392). -/
structure SMapEnt where
  socket : BitVec 5
  rewrite : Option (BitVec 5)
  deriving DecidableEq, Repr

/-- A unit of the mismatch histograms; for a Duthar lane also the flit numbers of its last mismatches, newest first (R412). -/
structure Hist where
  count : BitVec 32
  state : BitVec 2
  recent : List Nat
  deriving DecidableEq, Repr

/-- An entry of an HBM channel's classifier (R413). -/
structure ClassEnt where
  bank : Nat
  row : Nat
  col : Nat
  count : Nat
  at_ : Nat
  deriving DecidableEq, Repr

/-- A claim register (R374). -/
structure Claim where
  prio : BitVec 8
  claim : Bool
  link : Bool
  deriving DecidableEq, Repr

/-- The system controller (R374-R377, R394-R396, R424, R425). -/
structure Syc where
  state : Nat
  cause : Nat
  pin : BitVec 16
  pmax : BitVec 16
  tj : BitVec 8
  thr : Bool
  pwrthr : Bool
  pcapEn : Bool
  pcap : BitVec 12
  /-- a cap written while throttling: the 1 ms window of the write, with the enable and the cap that rule until its end (R427) -/
  capOld : Option (Nat × Bool × BitVec 12)
  segw : List (BitVec 4)
  /-- HBM stacks that have trained, by socket (R392, R425) -/
  trained : BitVec 32
  /-- the training of state 4 is over (R425) -/
  full : Bool
  claims : List Claim
  epoch : BitVec 16
  ownerValid : Bool
  ownerPort : BitVec 2
  /-- the clock at which an election began (R375) -/
  electionAt : Option Nat
  hnonce : BitVec 64
  hstat : BitVec 64
  hgoBusy : Bool
  hreq : BitVec 4096
  fatb : BitVec 22
  cmdb : BitVec 27
  crmb : BitVec 27
  svnMin : List (BitVec 16)
  svnRun : List (BitVec 16)
  imgDigest : List (BitVec 256)
  revoked : BitVec 4
  opFused : Bool
  nonce : BitVec 256
  attgo : Bool
  /-- the nonce as it stood when ATTGO was written -/
  attNonce : BitVec 256
  report : BitVec 4608
  refusals : Nat
  /-- where each uncorrectable error arose, oldest first (R302) -/
  errLog : List ErrPlace
  hist : SMap Hist
  classif : SMap (List ClassEnt)
  deriving DecidableEq, Repr

/-- A change of a frontier word, one indivisible step at its home (R321, R175, R193). -/
inductive FrontOp
  | fopen
  /-- COUNT becomes the larger of itself and `k` -/
  | publish (k : Nat)
  | close
  | halt
  /-- CLOSED, unless HALTED is set -/
  | closeLive
  /-- COUNT + 1 -/
  | bump
  deriving DecidableEq, Repr

/-- A change of a completion counter (R215, R228): add tasks, subtract one (with the mark of a drop), set the cancel mark. -/
inductive CtrOp
  | add (n : Nat)
  | sub (drop : Bool)
  | mark
  deriving DecidableEq, Repr

/-- What the package has sent to the outside (DESIGN CHOICE log 13). -/
inductive OutMsg
  | completion (port : Nat) (ok : Bool) (bytes : List (BitVec 8))
  | snoopMiss (port : Nat)
  | backInvalidate (pa : Nat)
  | msix (port : Nat) (vec : BitVec 16)
  | mctp (port : Nat) (ctx : Nat)
  /-- the answer to a refused write that is not posted (R376) -/
  | refusal (port : Nat) (how : Travel)
  | readReply (port : Nat) (v : Word)
  | remoteReply (pkg : Nat) (ok : Bool) (bytes : List (BitVec 8)) (pois : Bool)
  | remoteWrite (pa : Nat) (bytes : List (BitVec 8)) (pois : Bool)
  /-- the bits of `mask` in one byte (R429) -/
  | remoteMasked (pa : Nat) (byte mask : BitVec 8) (pois : Bool)
  | remoteAtomic (pa : Nat) (op : AtomOp) (f32 wide : Bool) (v : Word)
  | remoteCas (pa : Nat) (wide : Bool) (expect v : Word)
  | remoteFront (pa : Nat) (ops : List FrontOp)
  | remoteCounter (pa : Nat) (op : CtrOp)
  | hostWrite (port : Nat) (off : Nat) (bytes : List (BitVec 8))
  | firing (ctx : Nat) (tile : Nat) (f : Firing)
  | assay (ctx : Nat) (g : Nat) (digest : BitVec 128) (pois : Bool)
  | replay (port : Nat)
  | segwInUse (n : Nat)
  deriving DecidableEq, Repr

/-- Who acts in a step: a sequencer, or an event (DESIGN CHOICE log 3). -/
inductive Act
  | seq (q : SeqId)
  | event (i : Instr)
  deriving DecidableEq, Repr

/-- One planned step: the clocks that pass before it, and who acts (DESIGN CHOICE log 3, DESIGN CHOICE log 4). -/
structure Agendum where
  dt : Nat
  act : Act
  deriving DecidableEq, Repr

/-- An agent that translates (R385). -/
inductive Agent
  | fetch (q : SeqId)
  | core (c : Nat)
  /-- the Loom or the walker of the quad, on the core's behalf -/
  | quadUnit (c : Nat)
  | crier (k : Nat)
  | qengine
  deriving DecidableEq, Repr

/-- An access that a hold delays after the step that asked for it has ended (R13, R379, R417). -/
inductive LateOp
  /-- HALTED on a frontier word for a writer whose record has been written, with the scope of its publication (R318, R428) -/
  | halt (a : Agent) (q : SeqId) (ctx : Nat) (job : Word) (fw src : Nat) (point : Word) (ops : List FrontOp)
      (rel : Option Scope)
  /-- a completion counter (R215) -/
  | counter (ctx : Nat) (job : Word) (va : Nat) (op : CtrOp)
  /-- a line that must leave a core's L1 (R389) -/
  | evict (core line : Nat)
  deriving DecidableEq, Repr

/-- What `wait` watches (R281): the sequencer, the line by its number (a scratchpad line counts from 2 ^ 48), and whether a
write to it has become visible. -/
structure LineWait where
  seq : SeqId
  line : Nat
  hit : Bool
  deriving DecidableEq, Repr

/-! ## The machine -/

/-- The state of one package. -/
structure State where
  /-- clocks since package reset (R276) -/
  clock : Nat
  cores : SMap Core
  quads : SMap Quad
  dies : SMap Die
  ctxs : SMap Ctx
  queues : SMap Queue
  /-- CLX of each class (R224) -/
  clx : SMap (BitVec 32)
  launches : List Pending
  heldRecs : List HeldRec
  /-- memory of this package by place, that is by HBM socket or second-tier segment and offset (R11-R16), and its
  sector poison (R302) -/
  mem : List Host.Cell
  mpois : NSet
  /-- releaser tags by line (R315) -/
  relTags : SMap Nat
  /-- the context of the last `fopen` by physical address of the word, with the waiter it ran on (R326) -/
  openers : SMap (Nat × SeqId)
  /-- the lines that `wait` watches (R281) -/
  waits : List LineWait
  hbars : List HBar
  criers : SMap Crier
  pools : SMap Pool
  smap : SMap SMapEnt
  pkg : BitVec 8
  /-- TLB invalidation in progress, and DROP (R386) -/
  tlbi : Option Word
  tlbDrop : Bool
  /-- RBS: STATUS, lines restored; the context and FORCE of a rollback in progress (R410) -/
  rbsStatus : BitVec 2
  rbsLines : BitVec 32
  rollback : Option Nat
  /-- HBM channels whose requests are held (R417) -/
  chanHeld : NSet
  /-- modes of the host ports that have trained (R40) -/
  ports : SMap PortMode
  syc : Syc
  /-- which agent moves next (DESIGN CHOICE log 3) -/
  agenda : List Agendum
  turn : Nat
  /-- the sequencer that the step is about (DESIGN CHOICE log 3) -/
  focus : SeqId
  /-- the counter of free values (DESIGN CHOICE log 6) -/
  free : Nat
  nextInst : Nat
  outbox : List OutMsg
  /-- records that follow a writer's own record (R428): the model's latch within one step -/
  lateRecs : List (SeqId × FRec)
  /-- records whose fault-queue slot stands in a held place, in their order (R13, R403, R417) -/
  fqHeld : List FRec
  /-- other accesses that a hold delays, in their order (R13, R379, R417) -/
  late : List LateOp
  /-- register writes of a store to I/O space, oldest first; they are the very next steps (R380, DESIGN CHOICE log 20) -/
  regWrites : List Instr
  deriving DecidableEq, Repr

/-- Why the machine stops. Every fault that the spec describes is a next state, with its record written; the one
stop is a planned event that names no part of the package. -/
inductive Fault
  /-- Raised by `step` where the agenda names a task slot, launch or unit that the package does not hold: no such
  event exists on the hardware. Safe: the machine stops where the hardware has nothing to do. -/
  | noSuchUnit
  deriving DecidableEq, Repr

/-- Why the model has no meaning for a step. -/
inductive Refusal
  /-- An arm of `exec` without a meaning yet; no arm has it. Safe. -/
  | notModelled (mnemonic : String)
  /-- Raised by `step` where the agenda plans an encoded instruction as an event: an instruction comes only from
  the stream of a sequencer (R58). Safe. -/
  | outsideStream
  deriving DecidableEq, Repr

/-! ## Reset -/

/-- A sequencer after reset (DESIGN CHOICE log 1). -/
def Seqr.reset : Seqr :=
  { regs := [], pcLine := 0, pcLane := 1, entry := 1, line := none, ibuf := [], fetchTlb := [], status := .stopped,
    handler := false, tvec := 0, tepc := 0, frec := 0, outq := [], pend := [], wait := .none, waitSince := 0,
    waitArg := 0, asyncRecs := [], lastBundle := none, openBundle := none, slotPois := false, cur := none, ir := [],
    irLane := 1, next := 0, kvals := [], handlerAt := 0, entering := none }

/-- An engine queue after reset and at every task start (R219). -/
def EQueue.reset : EQueue :=
  { ents := [], nextNum := 1, tl := 0, halted := false, ahead := [], armed := none, held := [], heldSince := 0,
    heldNum := 0, heldPos := 0, heldUnits := 0, heldXs := false, faulted := false }

/-- The token FIFOs after reset and at every task start (R219). -/
def Fifos.reset : Fifos :=
  { lqVe := 0, veLq := 0, lqLp := 0, lpLq := 0, veSq := 0, sqVe := 0, lpSq := 0, sqLp := 0 }

/-- A vector register of zeros. -/
def VRegVal.zero : VRegVal := { bits := 0, tag := 0, pois := 0 }

/-- A named barrier at task start (R357). -/
def Bar.reset : Bar := { phase := 0, need := 0, arr := 0, failed := false, failBytes := 0, walked := false }

/-- A core after reset (DESIGN CHOICE log 1). -/
def Core.reset : Core :=
  { task := none, as := Seqr.reset, xs := Seqr.reset, carvew := 0, cflags := 0, tmq := false, vregs := [], mregs := [],
    sregs := [], ttab := [], tms := 0, tmTabs := [], stream := [], scratch := [], scFull := [], scPois := [], l1 := [],
    notices := [], noticeOver := false, wide := false, lq := EQueue.reset, ve := EQueue.reset, sq := EQueue.reset,
    lp := EQueue.reset, wq := EQueue.reset, cq := EQueue.reset, fifos := Fifos.reset, bars := [], bundles := [],
    nextBundle := 0, tickets := 0, nrOut := [], nrFail := none, remoteOut := 0, lastCtx := none, coreTlb := [], race := none }

/-- A tile after reset (DESIGN CHOICE log 1). -/
def Tile.reset : Tile := { elems := [], pois := [], tag := none, undef := none }

/-- Quad `k` of the package after reset: QLX is its number in its die plus 1 (R171). -/
def Quad.reset (k : Nat) : Quad :=
  { qlx := BitVec.ofNat 32 (k % 32 + 1), holder := none, leaseAt := 0, leaseCmds := 0, tiles := [], chain := none,
    quadTlb := [], walkCache := [] }

/-- A die after reset (R231, R366, R387, R414; the rest DESIGN CHOICE log 1). -/
def Die.reset : Die :=
  { cbind := 0, clus := false, pwd := 16, chto := 100000, dl := 2000, state := 0, saved := 0, lost := 0, rrClass := none,
    quiesceAt := 0, passed := false, unhashed := false }

/-- A context after reset (R379, R392, R393; the rest DESIGN CHOICE log 1). -/
def Ctx.reset : Ctx :=
  { en := false, mgmt := false, root := 0, jtb := 0, fqBase := 0, fqLog2 := 4, fqTail := 0, fqHead := 0, fqVec := 0,
    fqIe := false, fqLost := 0, frb := 0, fseq := 0, ckEn := false, ckLogb := 0, ckLog2 := 0, ckIntv := 0, ckUsed := 0,
    ckForced := 0, ckLines := [], k0 := 0, k1 := 0, tiles := [], groups := [], regions := [], watches := [] }

/-- A queue after reset (DESIGN CHOICE log 1). -/
def Queue.reset : Queue :=
  { ctx := 0, base := 0, tail := 0, head := 0, free := 0, en := false, log2n := 4, cls := 0, tickets := 0, slots := [],
    snap := none }

/-- CLX of class `c` after reset (R224). -/
def clxReset (c : Nat) : BitVec 32 := BitVec.ofNat 32 (c + 1)

/-- SMAP of index `i` after reset (R13, R392). -/
def SMapEnt.reset (i : Nat) : SMapEnt := { socket := BitVec.ofNat 5 (6 + i), rewrite := none }

/-- A pool after reset (DESIGN CHOICE log 1). -/
def Pool.reset : Pool := { en := false, ctx := 0, pfb := 0, npg := 0, bmap := 0 }

/-- A crier after reset (DESIGN CHOICE log 1). -/
def Crier.reset : Crier := { digest := 0, svn := 0, verified := false, load := none, tlb := [], remoteOut := 0 }

/-- A histogram entry with nothing counted (R412). -/
def Hist.reset : Hist := { count := 0, state := 0, recent := [] }

/-- The SYC after reset: in its boot ROM (R425), PCAP.EN 0 (R424), SEGW0-2 at segments 0-2 (R15), FATB, CMDB and
CRMB 0 (R393); what the fuses hold is the module's own (DESIGN CHOICE log 79); the rest DESIGN CHOICE log 1. -/
def Syc.reset : Syc :=
  { state := 0, cause := 0, pin := 0, pmax := 0, tj := 0, thr := false, pwrthr := false,
    pcapEn := false, pcap := 1200, capOld := none, segw := [0, 1, 2], trained := 0, full := false,
    claims := List.replicate 4 { prio := 0, claim := false, link := false },
    epoch := 0, ownerValid := false, ownerPort := 0, electionAt := none, hnonce := 0, hstat := 0, hgoBusy := false,
    hreq := 0, fatb := 0, cmdb := 0, crmb := 0, svnMin := [0, 0, 0], svnRun := [0, 0], imgDigest := [0, 0],
    revoked := Config.revokedSlots, opFused := Config.operatorFused, nonce := 0, attgo := false, attNonce := 0, report := 0,
    refusals := 0, errLog := [], hist := [],
    classif := [] }

/-- The package right after reset. -/
def State.reset : State :=
  { clock := 0, cores := [], quads := [], dies := [], ctxs := [], queues := [], clx := [], launches := [], heldRecs := [],
    mem := [], mpois := [], relTags := [], openers := [], waits := [], hbars := [], criers := [], pools := [], smap := [], pkg := 0,
    tlbi := none, tlbDrop := false, rbsStatus := 0, rbsLines := 0, rollback := none, chanHeld := [],
    ports := [], syc := Syc.reset, agenda := [], turn := 0, focus := { core := 0, xs := false }, free := 0,
    nextInst := 1, outbox := [], lateRecs := [], fqHeld := [], late := [], regWrites := [] }

end Sys2Proof.Machine
end

