-- ==== Sys2Proof/Machine/Store.lean ====
section
/-! DEFINITION. Sparse maps and sets in their one canonical form, bytes, and the reads and writes of the parts of `State`. -/

namespace Sys2Proof

/-- The depth of a queue (R20). -/
def Eng.depth : Eng → Nat
  | .lq | .ve | .sq => 64
  | .lp => 32
  | .wq | .cq => 16

/-- The header code of an engine queue (R59). -/
def Eng.hdr : Eng → Nat
  | .lq => 3 | .ve => 4 | .sq => 5 | .lp => 6 | .wq => 7 | .cq => 8

/-- The SRC code of an engine queue in a fault record (R399). -/
def Eng.src : Eng → Nat
  | .lq => 2 | .ve => 3 | .sq => 4 | .lp => 5 | .wq => 6 | .cq => 7

end Sys2Proof

namespace Sys2Proof.Machine

open Sys2Proof

/-- The other sequencer of a core. -/
def otherSeq (q : SeqId) : SeqId := { q with xs := !q.xs }


/-- The answer of a step. -/
abbrev Out := Host.Outcome State Fault Refusal

/-! ## Sparse maps -/

/-- What a map reads as at a key. -/
def sget {α : Type} (m : SMap α) (k : Nat) (dflt : α) : α :=
  match m with
  | [] => dflt
  | (k', v) :: m => if k' = k then v else sget m k dflt

/-- Whether a map lists a key. -/
def shas {α : Type} (m : SMap α) (k : Nat) : Bool := m.any (·.1 == k)

/-- Take a key out. -/
def sdel {α : Type} (m : SMap α) (k : Nat) : SMap α :=
  match m with
  | [] => []
  | (k', v) :: m => if k' = k then sdel m k else (k', v) :: sdel m k

/-- Put a value at its place in the order of keys. -/
def sput {α : Type} (m : SMap α) (k : Nat) (v : α) : SMap α :=
  match m with
  | [] => [(k, v)]
  | (k', v') :: m =>
    if k < k' then (k, v) :: (k', v') :: m
    else if k = k' then (k, v) :: m
    else (k', v') :: sput m k v

/-- Write a value: the value that an unlisted key reads as takes the entry out. -/
def sset {α : Type} [DecidableEq α] (m : SMap α) (k : Nat) (v dflt : α) : SMap α :=
  if v = dflt then sdel m k else sput m k v

/-- The canonical form: keys strictly rising from `lo`, no entry equal to what an unlisted key reads as. -/
def swfFrom {α : Type} [DecidableEq α] (dflt : Nat → α) : Nat → SMap α → Bool
  | _, [] => true
  | lo, (k, v) :: m => decide (lo ≤ k) && decide (v ≠ dflt k) && swfFrom dflt (k + 1) m

/-- The canonical form of a map. -/
abbrev swf {α : Type} [DecidableEq α] (dflt : Nat → α) (m : SMap α) : Bool := swfFrom dflt 0 m

/-! ## Sets -/

/-- Put a number in. -/
def nins (s : NSet) (k : Nat) : NSet :=
  match s with
  | [] => [k]
  | a :: s => if k < a then k :: a :: s else if k = a then a :: s else a :: nins s k

/-- Take a number out. -/
def ndel (s : NSet) (k : Nat) : NSet :=
  match s with
  | [] => []
  | a :: s => if a = k then ndel s k else a :: ndel s k

/-- Put in or take out. -/
def nput (s : NSet) (k : Nat) (b : Bool) : NSet := if b then nins s k else ndel s k

/-! ## Bytes (little-endian, R5) -/

/-- The low `n` bytes of a number, lowest first. -/
def toBytes : Nat → Nat → List Byte
  | 0, _ => []
  | n + 1, v => BitVec.ofNat 8 v :: toBytes n (v / 256)

/-- The number that bytes spell, lowest first. -/
def ofBytes : List Byte → Nat
  | [] => 0
  | b :: bs => b.toNat + 256 * ofBytes bs

/-- The addresses a, a + 1, …, a + n - 1. -/
def addrs (a n : Nat) : List Nat := (List.range n).map (a + ·)

/-! ## Physical memory (R11; an unlisted byte reads 0, DESIGN CHOICE log 2) -/

/-- What an unlisted byte reads as (DESIGN CHOICE log 2). -/
def memInit : Byte := 0

/-- Write one byte of memory, by place. -/
def memSet (m : List Host.Cell) (pa : Nat) (b : Byte) : List Host.Cell := sset m pa b memInit

/-- The canonical form of memory. -/
abbrev Memory.wf (m : List Host.Cell) : Bool := swf (fun _ => memInit) m

/-- Write bytes at rising places. -/
def memSetAll (m : List Host.Cell) (pa : Nat) : List Byte → List Host.Cell
  | [] => m
  | b :: bs => memSetAll (memSet m pa b) (pa + 1) bs

/-! ## Parts of the state -/

def State.core (s : State) (c : Nat) : Core := sget s.cores c Core.reset
def State.setCore (s : State) (c : Nat) (v : Core) : State := { s with cores := sset s.cores c v Core.reset }

def State.quad (s : State) (q : Nat) : Quad := sget s.quads q (Quad.reset q)
def State.setQuad (s : State) (q : Nat) (v : Quad) : State := { s with quads := sset s.quads q v (Quad.reset q) }

def State.die (s : State) (d : Nat) : Die := sget s.dies d Die.reset
def State.setDie (s : State) (d : Nat) (v : Die) : State := { s with dies := sset s.dies d v Die.reset }

def State.ctx (s : State) (c : Nat) : Ctx := sget s.ctxs c Ctx.reset
def State.setCtx (s : State) (c : Nat) (v : Ctx) : State := { s with ctxs := sset s.ctxs c v Ctx.reset }

def State.queue (s : State) (q : Nat) : Queue := sget s.queues q Queue.reset
def State.setQueue (s : State) (q : Nat) (v : Queue) : State := { s with queues := sset s.queues q v Queue.reset }

def State.clxOf (s : State) (c : Nat) : BitVec 32 := sget s.clx c (clxReset c)
def State.setClx (s : State) (c : Nat) (v : BitVec 32) : State := { s with clx := sset s.clx c v (clxReset c) }

def State.pool (s : State) (p : Nat) : Pool := sget s.pools p Pool.reset
def State.setPool (s : State) (p : Nat) (v : Pool) : State := { s with pools := sset s.pools p v Pool.reset }

def State.crier (s : State) (k : Nat) : Crier := sget s.criers k Crier.reset
def State.setCrier (s : State) (k : Nat) (v : Crier) : State := { s with criers := sset s.criers k v Crier.reset }

def State.smapOf (s : State) (i : Nat) : SMapEnt := sget s.smap i (SMapEnt.reset i)
def State.setSmap (s : State) (i : Nat) (v : SMapEnt) : State := { s with smap := sset s.smap i v (SMapEnt.reset i) }

/-- The sequencer of a core. -/
def Core.seqr (c : Core) (xs : Bool) : Seqr := if xs then c.xs else c.as
def Core.setSeqr (c : Core) (xs : Bool) (q : Seqr) : Core := if xs then { c with xs := q } else { c with as := q }

/-- A sequencer of the package. -/
def State.seqr (s : State) (q : SeqId) : Seqr := (s.core q.core.val).seqr q.xs
def State.setSeqr (s : State) (q : SeqId) (v : Seqr) : State :=
  s.setCore q.core.val ((s.core q.core.val).setSeqr q.xs v)

/-- Change one core. -/
def State.onCore (s : State) (c : Nat) (f : Core → Core) : State := s.setCore c (f (s.core c))
/-- Change one sequencer. -/
def State.onSeqr (s : State) (q : SeqId) (f : Seqr → Seqr) : State := s.setSeqr q (f (s.seqr q))
/-- Change one quad. -/
def State.onQuad (s : State) (q : Nat) (f : Quad → Quad) : State := s.setQuad q (f (s.quad q))
/-- Change one die. -/
def State.onDie (s : State) (d : Nat) (f : Die → Die) : State := s.setDie d (f (s.die d))
/-- Change one context. -/
def State.onCtx (s : State) (c : Nat) (f : Ctx → Ctx) : State := s.setCtx c (f (s.ctx c))
/-- Change one queue. -/
def State.onQueue (s : State) (q : Nat) (f : Queue → Queue) : State := s.setQueue q (f (s.queue q))

/-- The engine queue of a core. -/
def Core.eq (c : Core) : Eng → EQueue
  | .lq => c.lq | .ve => c.ve | .sq => c.sq | .lp => c.lp | .wq => c.wq | .cq => c.cq
def Core.setEq (c : Core) (e : Eng) (q : EQueue) : Core :=
  match e with
  | .lq => { c with lq := q } | .ve => { c with ve := q } | .sq => { c with sq := q }
  | .lp => { c with lp := q } | .wq => { c with wq := q } | .cq => { c with cq := q }

/-- The six engine queues. -/
def allEngs : List Eng := [.lq, .ve, .sq, .lp, .wq, .cq]

/-- Quad and die of a core (R402). -/
def quadOf (c : Nat) : Nat := c / 4
def dieOf (c : Nat) : Nat := c / 128

/-- Vector, mask and shape registers and tensor entries of a core (R27). -/
def Core.vreg (c : Core) (r : Nat) : VRegVal := sget c.vregs r VRegVal.zero
/-- The units of a register that a reader sees before a write, by the bits of a free value: a granule with its poison bit, and the
exponent tag as a further unit (R125). -/
def VRegVal.mix (old cur : VRegVal) (w : BitVec 64) : VRegVal :=
  let p : BitVec 32 := w.setWidth 32
  let m := BitVec.ofNat 4096 (((List.range 32).map fun g => if p.getLsbD g then (2 ^ 128 - 1) * 2 ^ (128 * g) else 0).sum)
  { bits := (old.bits &&& m) ||| (cur.bits &&& ~~~m), tag := if w.getLsbD 32 then old.tag else cur.tag,
    pois := (old.pois &&& p) ||| (cur.pois &&& ~~~p) }

/-- The entries of a core's queues. -/
def Core.entries (c : Core) : List Entry := allEngs.flatMap fun e => (c.eq e).ents

/-- The units in which two values of a register agree, as `mix` numbers them (R125). -/
def VRegVal.agree (a b : VRegVal) : BitVec 64 :=
  let gran (v : VRegVal) (g : Nat) : BitVec 128 × Bool := (v.bits.extractLsb' (128 * g) 128, v.pois.getLsbD g)
  BitVec.ofNat 64 (((List.range 32).map fun g => if gran a g = gran b g then 2 ^ g else 0).sum + (if a.tag = b.tag then 2 ^ 32 else 0))

/-- A vector register as the entry in hand reads it: where writers of it have not completed, each unit is as it stood before one
of those writes, or as it stands, independently of the others (R125). -/
def Core.vsrc (c : Core) (r : Nat) : VRegVal :=
  match c.race with
  | none => c.vreg r
  | some k => c.entries.zipIdx.foldl (fun v n =>
      if shas n.1.olds r then VRegVal.mix (sget n.1.olds r v) v (Config.freeValue (k + 64 * n.2 + r)) else v) (c.vreg r)

/-- The vector registers of which two cores differ, as the first has them. -/
def Core.changedVregs (c d : Core) : SMap VRegVal :=
  if c.vregs = d.vregs then []
  else (List.range 64).filterMap fun r => if c.vreg r = d.vreg r then none else some (r, c.vreg r)

def Core.setVreg (c : Core) (r : Nat) (v : VRegVal) : Core := { c with vregs := sset c.vregs r v VRegVal.zero }
def Core.mreg (c : Core) (r : Nat) : BitVec 1024 := sget c.mregs r 0
def Core.setMreg (c : Core) (r : Nat) (v : BitVec 1024) : Core := { c with mregs := sset c.mregs r v 0 }
def Core.sreg (c : Core) (r : Nat) : BitVec 512 := sget c.sregs r 0
def Core.setSreg (c : Core) (r : Nat) (v : BitVec 512) : Core := { c with sregs := sset c.sregs r v 0 }
def Core.tent (c : Core) (t : Nat) : TensCap := (c.ttab.find? (·.1 == t)).map (·.2)
def Core.bar (c : Core) (b : Nat) : Bar := sget c.bars b Bar.reset
def Core.setBar (c : Core) (b : Nat) (v : Bar) : Core := { c with bars := sset c.bars b v Bar.reset }

/-- Take the next free number (DESIGN CHOICE log 6). -/
def State.bump (s : State) : State := { s with free := s.free + 1 }

/-- Replace the element at an index of a list. -/
def listSet {α : Type} : List α → Nat → α → List α
  | [], _, _ => []
  | _ :: l, 0, v => v :: l
  | a :: l, n + 1, v => a :: listSet l n v

/-- Take the element at an index out of a list. -/
def listDel {α : Type} : List α → Nat → List α
  | [], _ => []
  | _ :: l, 0 => l
  | a :: l, n + 1 => a :: listDel l n

/-- Send something to the outside (DESIGN CHOICE log 13). -/
def State.send (s : State) (m : OutMsg) : State := { s with outbox := s.outbox ++ [m] }

end Sys2Proof.Machine
end

