-- ==== Sys2Proof/Machine/Flags.lean ====
section
/-! DEFINITION. The sticky flags of `cflags` and how a completed entry ORs into them (R91, R278). -/

namespace Sys2Proof.Machine

open Sys2Proof

/-- The flags that an entry raises: inexact, underflow, domain, residual-underflow (R278). -/
structure Flg where
  inx : Bool
  udf : Bool
  dom : Bool
  ruf : Bool
  deriving DecidableEq, Repr

def Flg.none : Flg := { inx := false, udf := false, dom := false, ruf := false }

def Flg.or (a b : Flg) : Flg :=
  { inx := a.inx || b.inx, udf := a.udf || b.udf, dom := a.dom || b.dom, ruf := a.ruf || b.ruf }

/-- The four bits of R278. -/
def Flg.bits (f : Flg) : BitVec 4 :=
  BitVec.ofNat 4 (f.inx.toNat + 2 * f.udf.toNat + 4 * f.dom.toNat + 8 * f.ruf.toNat)

/-- The flags of a list of results. -/
def orAll (l : List Flg) : Flg := l.foldl Flg.or Flg.none

/-- An entry's flags are ORed into `cflags` when it completes (R91). -/
def Core.orFlags (x : Core) (f : BitVec 4) : Core := { x with cflags := x.cflags ||| f }

/-- `csrw cflags, a` clears each bit that is 1 in `a` (R278). -/
def Core.clearFlags (x : Core) (a : Word) : Core := { x with cflags := x.cflags &&& ~~~(a.extractLsb' 0 4) }

end Sys2Proof.Machine
end

