-- ==== Sys2Proof/Machine/Num.lean ====
section
/-! DEFINITION. Exact values and the one rounding of an operation (R86-R92, R109, R111, R112). -/

namespace Sys2Proof.Machine

open Sys2Proof

/-- An exact value: a NaN, an infinity, or ±(m + δ) x 2^e, where δ is 0, or with `st` some number strictly between 0 and 1.
Zero is `m = 0` without `st`, and keeps its sign (R87). -/
inductive Num
  | nan
  | inf (neg : Bool)
  | fin (neg : Bool) (m : Nat) (e : Int) (st : Bool)
  deriving DecidableEq, Repr

def Num.zero (neg : Bool := false) : Num := .fin neg 0 0 false

/-- An integer as an exact value. -/
def Num.ofInt (i : Int) : Num := .fin (decide (i < 0)) i.natAbs 0 false

def Num.isNan : Num → Bool
  | .nan => true
  | _ => false

def Num.isZero : Num → Bool
  | .fin _ 0 _ false => true
  | _ => false

/-! ## Formats (R86) -/

/-- A floating format: significand bits, and whether it is bounded as binary32 is. -/
structure Fmt where
  p : Nat
  bounded : Bool
  deriving DecidableEq, Repr

def fmtF32 : Fmt := { p := 24, bounded := true }
def fmtBf16 : Fmt := { p := 8, bounded := true }
/-- 24 significant bits with an unbounded exponent (R114). -/
def fmt24 : Fmt := { p := 24, bounded := false }

/-- The value of FP32 bits (R86). -/
def numF32 (b : Nat) : Num :=
  let neg := fld b 31 1 == 1
  let ex := fld b 23 8
  let fr := fld b 0 23
  if ex = 255 then (if fr = 0 then .inf neg else .nan)
  else if ex = 0 then .fin neg fr (if fr = 0 then 0 else -149) false
  else .fin neg (fr + 2 ^ 23) ((ex : Int) - 150) false

/-- The value of BF16 bits (R86). -/
def numBf16 (b : Nat) : Num := numF32 (b % 65536 * 65536)

/-! ## Rounding (R89, R90) -/

/-- Round m x 2^e (+ δ) to a multiple of 2^q: the multiple, and whether it differs from the value. -/
def roundQ (mode : Rnd) (neg : Bool) (m : Nat) (e : Int) (st : Bool) (q : Int) : Nat × Bool :=
  if q ≤ e then (m * 2 ^ (e - q).toNat, st)
  else
    let d := (q - e).toNat
    let far := Nat.log2 m + 1 < d
    let n := if far then 0 else m / 2 ^ d
    let r := if far then m else m % 2 ^ d
    let inx := r != 0 || st
    let above := !far && (2 ^ (d - 1) < r || (r == 2 ^ (d - 1) && st))
    let tie := !far && r == 2 ^ (d - 1) && !st
    let up := match mode with
      | .rne => above || (tie && n % 2 == 1)
      | .rz => false
      | .rup => !neg && inx
      | .rdn => neg && inx
    (if up then n + 1 else n, inx)

/-- The exponent of the leading bit. -/
def leadExp (m : Nat) (e : Int) : Int := e + Nat.log2 m

/-- An overflow gives an infinity, or the largest finite value (R89). -/
def overflowInf (mode : Rnd) (neg : Bool) : Bool :=
  match mode with
  | .rne => true
  | .rz => false
  | .rup => !neg
  | .rdn => neg

/-- The largest finite value of a format. -/
def Fmt.max (f : Fmt) (neg : Bool) : Num := .fin neg (2 ^ f.p - 1) (128 - f.p) false

/-- The one rounding of an exact value: the rounded value and its flags (R89, R90). -/
def Fmt.round (f : Fmt) (mode : Rnd) (sat : Bool) (v : Num) : Num × Flg :=
  match v with
  | .nan => (.nan, Flg.none)
  | .inf neg => (.inf neg, Flg.none)
  | .fin neg m e st =>
    if m = 0 ∧ !st then (Num.zero neg, Flg.none)
    else
      let q0 := leadExp m e - (f.p - 1 : Nat)
      if !f.bounded then
        let r := roundQ mode neg m e st q0
        (.fin neg r.1 q0 false, { Flg.none with inx := r.2 })
      else
        let qmin : Int := -126 - (f.p - 1 : Nat)
        let q := if q0 < qmin then qmin else q0
        let r := roundQ mode neg m e st q
        let free := roundQ mode neg m e st q0
        let tiny := leadExp free.1 q0 < -126
        if 127 < leadExp r.1 q ∧ r.1 ≠ 0 then
          (if overflowInf mode neg && !sat then .inf neg else f.max neg, { Flg.none with inx := true })
        else if r.1 = 0 then (Num.zero neg, { Flg.none with inx := r.2, udf := tiny && r.2 })
        else (.fin neg r.1 q false, { Flg.none with inx := r.2, udf := tiny && r.2 })

/-- The bits of a value that the format holds; every NaN is the canonical one (R88). -/
def Fmt.bits (f : Fmt) (v : Num) : Nat :=
  let s (neg : Bool) : Nat := neg.toNat * 2 ^ (f.p + 7)
  match v with
  | .nan => 255 * 2 ^ (f.p - 1) + 2 ^ (f.p - 2)
  | .inf neg => s neg + 255 * 2 ^ (f.p - 1)
  | .fin neg m e _ =>
    if m = 0 then s neg
    else
      let q0 := leadExp m e - (f.p - 1 : Nat)
      let qmin : Int := -126 - (f.p - 1 : Nat)
      let q := if q0 < qmin then qmin else q0
      let n := if q ≤ e then m * 2 ^ (e - q).toNat else m / 2 ^ (q - e).toNat
      if n < 2 ^ (f.p - 1) then s neg + n
      else s neg + (q + (f.p - 1 : Nat) + 127).toNat * 2 ^ (f.p - 1) + (n - 2 ^ (f.p - 1))

/-- Round and encode. -/
def Fmt.fin (f : Fmt) (mode : Rnd) (sat : Bool) (v : Num) : Nat × Flg :=
  let r := f.round mode sat v
  (f.bits r.1, r.2)

/-! ## Exact operations (R88, R109, R134) -/

def Num.neg : Num → Num
  | .nan => .nan
  | .inf n => .inf (!n)
  | .fin n m e st => .fin (!n) m e st

def Num.abs : Num → Num
  | .nan => .nan
  | .inf _ => .inf false
  | .fin _ m e st => .fin false m e st

def Num.mul : Num → Num → Num
  | .nan, _ => .nan
  | _, .nan => .nan
  | .inf a, .inf b => .inf (a != b)
  | .inf a, .fin b m _ _ => if m = 0 then .nan else .inf (a != b)
  | .fin b m _ _, .inf a => if m = 0 then .nan else .inf (a != b)
  | .fin a m e _, .fin b n f _ => .fin (a != b) (m * n) (e + f) false

/-- The signed significand of a value on the grid 2^q, where q ≤ e. -/
def gridInt (neg : Bool) (m : Nat) (e q : Int) : Int :=
  let k : Int := (m * 2 ^ (e - q).toNat : Nat)
  if neg then -k else k

/-- Exact sum; an exact zero takes the sign that R134 states for the mode. -/
def Num.add (mode : Rnd) : Num → Num → Num
  | .nan, _ => .nan
  | _, .nan => .nan
  | .inf a, .inf b => if a = b then .inf a else .nan
  | .inf a, .fin .. => .inf a
  | .fin .., .inf b => .inf b
  | .fin a m e _, .fin b n f _ =>
    if m = 0 ∧ n = 0 then Num.zero (if a = b then a else decide (mode = .rdn))
    else if m = 0 then .fin b n f false
    else if n = 0 then .fin a m e false
    else
      let q := if e ≤ f then e else f
      let k := gridInt a m e q + gridInt b n f q
      if k = 0 then Num.zero (decide (mode = .rdn)) else .fin (decide (k < 0)) k.natAbs q false

/-- num / den x 2^e as a value with at least 64 significant bits. -/
def Num.ofRat (neg : Bool) (num den : Nat) (e : Int) : Num :=
  if num = 0 then Num.zero neg
  else
    let sh := 65 + Nat.log2 den
    let n := num * 2 ^ sh
    .fin neg (n / den) (e - sh) (n % den != 0)

/-- Quotient (R111, R112). -/
def Num.div : Num → Num → Num
  | .nan, _ => .nan
  | _, .nan => .nan
  | .inf _, .inf _ => .nan
  | .inf a, .fin b _ _ _ => .inf (a != b)
  | .fin a _ _ _, .inf b => Num.zero (a != b)
  | .fin a m e _, .fin b n f _ =>
    if n = 0 then (if m = 0 then .nan else .inf (a != b))
    else Num.ofRat (a != b) m n (e - f)

/-- The bits of an integer root, from the highest. -/
def irootGo (k n : Nat) : Nat → Nat → Nat
  | 0, r => r
  | b + 1, r => irootGo k n b (if (r + 2 ^ b) ^ k ≤ n then r + 2 ^ b else r)

/-- The integer k-th root. -/
def iroot (k n : Nat) : Nat := irootGo k n (Nat.log2 n / k + 1) 0

/-- An even exponent. -/
def evenExp (m : Nat) (e : Int) : Nat × Int := if e % 2 = 0 then (m, e) else (2 * m, e - 1)

/-- Square root (R111, R112). -/
def Num.sqrt : Num → Num
  | .nan => .nan
  | .inf neg => if neg then .nan else .inf false
  | .fin neg m e _ =>
    if m = 0 then Num.zero neg
    else if neg then .nan
    else
      let k := evenExp m e
      let n := k.1 * 2 ^ 128
      let r := iroot 2 n
      .fin false r (k.2 / 2 - 64) (r * r != n)

/-- Reciprocal square root (R111, R112). -/
def Num.rsqrt : Num → Num
  | .nan => .nan
  | .inf neg => if neg then .nan else Num.zero
  | .fin neg m e _ =>
    if m = 0 then .inf neg
    else if neg then .nan
    else
      let k := evenExp m e
      let s := 128 + 2 * (Nat.log2 k.1 / 2 + 1)
      let r := iroot 2 (2 ^ s / k.1)
      .fin false r (-(k.2 / 2) - (s / 2 : Nat)) (r * r * k.1 != 2 ^ s)

/-- Reciprocal (R112). -/
def Num.rcp (v : Num) : Num := Num.div (.fin false 1 0 false) v

/-- Numerical order of two values that are not NaNs; -0 equals +0. -/
def Num.lt : Num → Num → Bool
  | .inf true, .inf true => false
  | .inf true, _ => true
  | _, .inf true => false
  | .inf false, _ => false
  | _, .inf false => true
  | .fin a m e _, .fin b n f _ =>
    let q := if e ≤ f then e else f
    decide (gridInt a m e q < gridInt b n f q)
  | _, _ => false

def Num.eqv (a b : Num) : Bool := !a.isNan && !b.isNan && !a.lt b && !b.lt a

def Num.signed : Num → Bool
  | .nan => false
  | .inf n => n
  | .fin n _ _ _ => n

/-- The max node of R109: a NaN wins, and +0 beats -0. -/
def Num.max (a b : Num) : Num :=
  if a.isNan || b.isNan then .nan
  else if a.lt b then b else if b.lt a then a else if a.signed then b else a

/-- The min node of R109. -/
def Num.min (a b : Num) : Num :=
  if a.isNan || b.isNan then .nan
  else if a.lt b then a else if b.lt a then b else if a.signed then a else b

/-! ## Integers (R92, R98) -/

def tyLo (t : ElemTy) : Int := if t.isSigned then -(2 ^ (t.width - 1) : Nat) else 0
def tyHi (t : ElemTy) : Int := if t.isSigned then (2 ^ (t.width - 1) - 1 : Nat) else (2 ^ t.width - 1 : Nat)

/-- The integer that an element's bits spell. -/
def intOf (t : ElemTy) (b : Nat) : Int :=
  let b := b % 2 ^ t.width
  if t.isSigned ∧ 2 ^ (t.width - 1) ≤ b then (b : Int) - (2 ^ t.width : Nat) else b

def clampInt (lo hi v : Int) : Int := if v < lo then lo else if hi < v then hi else v

/-- The low bits of an integer. -/
def wrapInt (w : Nat) (v : Int) : Nat := (v % (2 ^ w : Nat)).toNat

/-- An integer result: wrapped, or clamped with `.sat` (R92). -/
def finInt (t : ElemTy) (sat : Bool) (v : Int) : Nat := wrapInt t.width (if sat then clampInt (tyLo t) (tyHi t) v else v)

/-- A floating or block value to an integer type (R98). An infinity that becomes 0 sets inexact and no underflow: R90 speaks of finite
elements (DEDUCED log 86). -/
def toInt (t : ElemTy) (mode : Rnd) (v : Num) : Nat × Flg :=
  match v with
  | .nan => (0, { Flg.none with inx := true })
  | .inf neg => (wrapInt t.width (if neg then (tyLo t) else (tyHi t)), { Flg.none with inx := true })
  | .fin neg m e st =>
    let r := roundQ mode neg m e st 0
    let k : Int := if neg then -(r.1 : Int) else r.1
    let c := clampInt (tyLo t) (tyHi t) k
    (wrapInt t.width c, { Flg.none with inx := r.2 || c != k, udf := c == 0 && (m != 0 || st) })

/-! ## Elements -/

/-- The floating format of a type, where it has one. -/
def tyFmt (t : ElemTy) : Fmt := if t = .bf16 then fmtBf16 else fmtF32

/-- The value of an element of f32 or bf16. -/
def numOf (t : ElemTy) (b : Nat) : Num := if t = .bf16 then numBf16 b else numF32 b

/-- Elements of `wd` bits spelt as one number. -/
def packBits (wd : Nat) (l : List Nat) : Nat := l.foldr (fun v acc => v % 2 ^ wd + acc * 2 ^ wd) 0

/-- The bits of the canonical quiet NaN (R88). -/
def qnan (t : ElemTy) : Nat := (tyFmt t).bits .nan

/-- A literal in an element type (R76). The spec does not say that a literal's own conversion sets a flag, and it sets none
(DESIGN CHOICE log 73). -/
def litElem (t : ElemTy) (mode : Rnd) (v : Word) : Nat :=
  if t.isF then ((tyFmt t).fin mode false (Num.ofInt v.toInt)).1 else v.toNat % 2 ^ t.width

end Sys2Proof.Machine
end

