-- ==== Sys2Proof/Machine/Phys.lean ====
section
/-! DEFINITION. Physical memory: frames, homes, L1 write-back, the undo log of checkpointed lines, fault records and their queues. -/

namespace Sys2Proof.Machine

open Sys2Proof

/-! ## Physical addresses (R11) -/

def paPkg (pa : Nat) : Nat := pa / 2 ^ 40 % 256
def paIdx (pa : Nat) : Nat := pa / 2 ^ 36 % 16
def paOff (pa : Nat) : Nat := pa % 2 ^ 36

/-- Served inside this package (R12). -/
def State.isLocal (s : State) (pa : Nat) : Bool := paPkg pa == s.pkg.toNat

/-- A Duthar port is up: in full service, its crier runs verified firmware (R395, R423, R426). -/
def State.portUp (s : State) (k : Nat) : Bool := s.syc.state == 5 && (s.crier k).verified

/-- Some Duthar port is up; with every port down no traffic passes between packages (R423, R426; which port carries which
traffic DESIGN CHOICE log 13). -/
def State.fabricUp (s : State) : Bool := (List.range 48).any s.portUp

/-- The HBM channel of an address: 512-byte blocks over 32 channels (R14, DEDUCED log 16). -/
def channelOf (pa : Nat) : Nat := 32 * paIdx pa + paOff pa / 512 % 32

/-- Stack index `i` is live: the stack at its socket has trained (R392). -/
def State.stackLive (s : State) (i : Nat) : Bool := s.syc.trained.getLsbD (s.smapOf i).socket.toNat

/-- Where the bytes of a local address stand: HBM by socket (R13), the second tier by segment (R15). -/
def State.place (s : State) (pa : Nat) : Nat :=
  paOff pa + 2 ^ 36 *
    (if paIdx pa ≤ 11 then (s.smapOf (paIdx pa)).socket.toNat
     else if paIdx pa ≤ 14 then 32 + (s.syc.segw.getD (paIdx pa - 12) 0).toNat
     else 31)

/-- One byte of physical memory of this package. -/
def State.byte (s : State) (pa : Nat) : Byte := if s.isLocal pa then sget s.mem (s.place pa) memInit else memInit

/-- Read `n` bytes. -/
def State.bytes (s : State) (pa n : Nat) : List Byte := (addrs pa n).map s.byte

/-- Traffic to the address is held: its stack index is being rewritten, or its channel is (R13, R417). -/
def State.heldAt (s : State) (pa : Nat) : Bool :=
  s.isLocal pa && paIdx pa ≤ 11 &&
    ((s.smapOf (paIdx pa)).rewrite.isSome || s.chanHeld.contains (channelOf pa))

/-- The sector and the line of an address (R290). -/
def sectorOf (pa : Nat) : Nat := pa / 64
def lineOf (pa : Nat) : Nat := pa / 128

/-- The sector of a local address, by place. -/
def State.secPlace (s : State) (pa : Nat) : Nat := sectorOf (s.place pa)

def State.secPois (s : State) (pa : Nat) : Bool := s.mpois.contains (s.secPlace pa)

/-- Some byte of the range is poisoned. -/
def State.poisAt (s : State) (pa n : Nat) : Bool :=
  (List.range ((pa + n - 1) / 64 - pa / 64 + 1)).any (fun i => s.secPois (64 * (pa / 64 + i)))

/-- Read `n` bytes of physical memory as one number (R5). -/
def State.physNat (s : State) (pa n : Nat) : Nat := ofBytes (s.bytes pa n)

/-! ## The frame attribute table (R287, R393, R426) -/

/-- Where the entry of a frame stands. -/
def State.fatAt (s : State) (pa : Nat) : Nat :=
  let base := s.syc.fatb.toNat * 2 ^ 26
  if s.isLocal pa then base + 4 * (pa / 2 ^ 16 % 2 ^ 24) else base + 2 ^ 26 + 4 * paPkg pa

/-- The entry of a frame, as it stands in the table. -/
def State.fatEntry (s : State) (pa : Nat) : Nat := s.physNat (s.fatAt pa) 4

/-- HOME of a local frame, an unpopulated one (R14) being absent: 0 absent, 1 cached, 2 slice-pinned, 3 uncached, 4 memory-side. -/
def State.frameHome (s : State) (pa : Nat) : Nat :=
  let e := s.fatEntry pa
  let home := e % 8
  let hbm := paIdx pa ≤ 11
  if home = 0 ∨ 5 ≤ home then 0
  else if fld e 5 19 ≠ 0 then 0
  else if (home = 4 ∨ fld e 3 1 = 1) ∧ ¬ hbm then 0
  else if paIdx pa = 15 ∧ home ≠ 3 then 0
  else if hbm ∧ (0xC00000000 ≤ paOff pa ∨ !s.stackLive (paIdx pa)) then 0
  else if s.syc.state ≠ 5 ∧ 2 ≤ paIdx pa ∧ hbm then 0
  else home

/-- A remote package's frames are present (R287), outside bring-up (R426). -/
def State.remotePresent (s : State) (pa : Nat) : Bool :=
  s.fatEntry pa % 8 == 1 && fld (s.fatEntry pa) 5 19 == 0 && s.syc.state == 5

/-- The frame lies in one of the three regions that no program reaches. What the model keeps beside them stands in fields of the state
(R393; DESIGN CHOICE log 96). -/
def State.reserved (s : State) (pa : Nat) : Bool :=
  let inside (base len : Nat) : Bool := base ≤ pa && pa < base + len
  inside (s.syc.fatb.toNat * 2 ^ 26) (2 ^ 26 + 1024) ||
    inside (s.syc.cmdb.toNat * 2 ^ 21) (576 * 2 ^ 20) ||
    inside (s.syc.crmb.toNat * 2 ^ 21) (40 * 2 ^ 20)

/-! ## Pools (R388, R389) -/

/-- The enabled pool that holds a frame. -/
def State.poolOf (s : State) (pa : Nat) : Option Nat :=
  (List.range 16).find? fun p =>
    let d := s.pool p
    d.en && d.pfb.toNat * 65536 ≤ pa && pa < d.pfb.toNat * 65536 + d.npg.toNat * 65536

/-- The address and bit of a pool page's owner bit. -/
def Pool.ownerAt (d : Pool) (pa : Nat) : Nat × Nat :=
  let j := (pa - d.pfb.toNat * 65536) / 65536
  (d.bmap.toNat * 8 + j / 8, j % 8)

/-- The owner bit of a pool page: true is the token cluster. -/
def State.ownerBit (s : State) (d : Pool) (pa : Nat) : Bool :=
  (s.byte (d.ownerAt pa).1).getLsbD (d.ownerAt pa).2

/-! ## Writes of physical memory (R281, R304) -/

/-- A write to lines `lo` to `hi` has become visible: to one core, or to every core (R281; DEDUCED log 59). -/
def hitLines (ws : List LineWait) (core : Option Nat) (lo hi : Nat) : List LineWait :=
  ws.map fun w =>
    if lo ≤ w.line && w.line ≤ hi && (match core with | none => true | some c => w.seq.core.val == c) then { w with hit := true } else w

/-- The frame is host-coherent; a pool frame acts as if it were not (R287, R389). -/
def State.frameHc (s : State) (pa : Nat) : Bool :=
  s.isLocal pa && s.frameHome pa != 0 && fld (s.fatEntry pa) 4 1 == 1 && (s.poolOf pa).isNone

/-- A host that caches device memory loses its copies of lines `lo` to `hi` before a device write to them completes (R304). -/
def State.backInv (s : State) (lo hi : Nat) : State :=
  if s.ports.any (·.2 = .cxl) && s.frameHc (128 * lo) then
    (List.range (hi - lo + 1)).foldl (fun s k => s.send (.backInvalidate ((lo + k) * 128))) s
  else s

/-- Write bytes of physical memory; hosts lose their copies (R304), and what names another package leaves for it (R12). -/
def State.physWrite (s : State) (pa : Nat) (bs : List Byte) : State :=
  if s.isLocal pa then
    let s := s.backInv (lineOf pa) (lineOf (pa + bs.length - 1))
    { s with mem := memSetAll s.mem (s.place pa) bs, waits := hitLines s.waits none (lineOf pa) (lineOf (pa + bs.length - 1)) }
  else s.send (.remoteWrite pa bs false)

/-! ## Fault records (R399, R402, R403) -/

/-- Word 3: where the issuing core is, or socket 31. -/
def placeOf (core : Option Nat) : Word :=
  match core with
  | none => BitVec.ofNat 64 (31 * 2 ^ 16)
  | some c => BitVec.ofNat 64 (c / 128 * 2 ^ 16 + c / 4 % 32 * 2 ^ 8 + c % 4)

/-- The 64 bytes of a record with its SEQ. -/
def FRec.toBytes64 (r : FRec) (seq : BitVec 16) : List Byte :=
  let w0 := seq.toNat * 2 ^ 48 + r.reason.toNat * 2 ^ 40 + r.level.toNat * 2 ^ 37 + r.async.toNat * 2 ^ 36 +
    r.src * 2 ^ 32 + r.ctx % 64 * 2 ^ 8 + r.cls.toNat
  toBytes 8 w0 ++ toBytes 8 r.job.toNat ++ toBytes 8 r.point.toNat ++ toBytes 8 r.place.toNat ++
    toBytes 8 r.addr.toNat ++ toBytes 8 r.detail.toNat ++ toBytes 8 (r.clock % 2 ^ 64) ++ toBytes 8 0

/-! ## Claims and the end of an election (R374, R375) -/

/-- Change the SYC. -/
def State.onSyc (s : State) (f : Syc → Syc) : State := { s with syc := f s.syc }

def Claim.none : Claim := { prio := 0, claim := false, link := false }
def Claim.live (c : Claim) : Bool := c.claim && c.link
def Syc.claimOf (y : Syc) (p : Nat) : Claim := y.claims.getD p Claim.none
def Syc.livePorts (y : Syc) : List Nat := (List.range 4).filter fun p => (y.claimOf p).live

/-- The winner: the lowest PRIO, and then the lowest port. -/
def winner (y : Syc) : List Nat → Option Nat
  | [] => none
  | p :: ps =>
    match winner y ps with
    | none => some p
    | some q => some (if (y.claimOf q).prio < (y.claimOf p).prio then q else p)

/-- Clocks from the beginning of an election to its end (R375). -/
def electionClocks : Nat := 1250000

/-- An election ends: the claims that are LIVE decide (R375). -/
def Syc.elected (y : Syc) : Syc :=
  match winner y y.livePorts with
  | none => { y with electionAt := none }
  | some p => { y with electionAt := none, ownerValid := true, ownerPort := BitVec.ofNat 2 p, epoch := y.epoch + 1 }

/-- An election is due from the clock of its end on (R375, R427). -/
def State.settled (s : State) : State :=
  match s.syc.electionAt with
  | none => s
  | some t => if t + electionClocks ≤ s.clock then s.onSyc Syc.elected else s

/-- What a claim or a change of a link finds decided: in the clock of an election's end it still counts, and later it waits for the
next election (R375). -/
def State.settledBefore (s : State) : State :=
  match s.syc.electionAt with
  | none => s
  | some t => if t + electionClocks < s.clock then s.onSyc Syc.elected else s

/-- Signal the owner that a fault queue's TAIL has advanced (R375, R403). -/
def State.signalOwner (s : State) (ctx : Nat) : State :=
  let y := s.settled.syc
  if (s.ctx ctx).fqIe && y.ownerValid then
    if y.ownerPort.toNat < 2 then s.send (.msix y.ownerPort.toNat (s.ctx ctx).fqVec)
    else s.send (.mctp y.ownerPort.toNat ctx)
  else s

/-- The address of the slot that a context's fault queue fills next. -/
def Ctx.fqSlot (c : Ctx) : Nat := c.fqBase.toNat + 64 * (c.fqTail.toNat % 2 ^ c.fqLog2)

/-- A fault queue that is disabled or full. -/
def Ctx.fqShut (c : Ctx) : Bool := c.fqBase = 0 ∨ c.fqTail - c.fqHead = BitVec.ofNat 32 (2 ^ c.fqLog2)

/-- Write a record to its context's fault queue, or drop it into LOST (R403; DESIGN CHOICE log 66). -/
def State.fqPut (s : State) (r : FRec) : State :=
  let c := s.ctx r.ctx
  if c.fqShut then
    s.setCtx r.ctx { c with fqLost := if c.fqLost = BitVec.allOnes 32 then c.fqLost else c.fqLost + 1 }
  else
    let at_ := c.fqSlot
    let s := s.physWrite at_ (r.toBytes64 c.fseq)
    let s := { s with mpois := ndel s.mpois (s.secPlace at_) }
    (s.setCtx r.ctx { c with fqTail := c.fqTail + 1, fseq := c.fseq + 1 }).signalOwner r.ctx

/-- An asynchronous record of a context stands behind another that was raised before it and still waits at a sequencer (R401). -/
def State.asyncBehind (s : State) (r : FRec) : Bool :=
  let first (o : FRec) : Bool := o.ctx = r.ctx && o.clock < r.clock
  r.async && s.cores.any fun c => c.2.as.asyncRecs.any first || c.2.xs.asyncRecs.any first

/-- A record must wait on its way to the fault queue: behind records that wait already, for its slot's stack index or channel,
or for a record raised before it (R13, R401, R403, R417). -/
def State.fqWaits (s : State) (r : FRec) : Bool :=
  s.fqHeld.any (·.ctx = r.ctx) || (!(s.ctx r.ctx).fqShut && s.heldAt (s.ctx r.ctx).fqSlot) || s.asyncBehind r

/-- Put a record among others in the order of their clocks. -/
def byClock (rs : List FRec) (r : FRec) : List FRec :=
  match rs with
  | [] => [r]
  | o :: rs => if r.clock < o.clock then r :: o :: rs else o :: byClock rs r

/-- A record reaches its context's fault queue, or waits there in the order in which the records were raised (R401). -/
def State.fqWrite (s : State) (r : FRec) : State :=
  if s.fqWaits r then { s with fqHeld := byClock s.fqHeld r } else s.fqPut r

/-- The waiting records go on, in their order. -/
def State.fqResume (s : State) : State := s.fqHeld.foldl (fun s r => s.fqWrite r) { s with fqHeld := [] }

/-- A notice: class 0x00, in a context's fault queue (R398, R408, R412; DEDUCED log 17). -/
def State.notice (s : State) (ctx : Nat) (cause detail : Nat) : State :=
  s.fqWrite { cls := 0, ctx := ctx, src := 11, async := true, level := 0, reason := 0, job := 0, point := 0,
              place := placeOf none, addr := 0, detail := BitVec.ofNat 64 (detail * 2 ^ 32 + cause), clock := s.clock }

/-- The management context, where one is designated (R379). -/
def State.mgmtCtx (s : State) : Option Nat := (List.range 64).find? fun c => (s.ctx c).mgmt

/-- A notice in the management context's fault queue (R412, R425). -/
def State.mgmtNotice (s : State) (cause detail : Nat) : State :=
  match s.mgmtCtx with
  | none => s
  | some c => s.notice c cause detail

/-! ## Checkpoint intervals (R408, R410) -/

/-- Snapshot HEAD, TAIL and FREE of the context's queues (R410). -/
def snapQueues (ctx : Nat) (s : State) : State :=
  { s with queues := (List.range 256).filterMap fun q =>
      let d := s.queue q
      let d := if d.ctx = ctx then { d with snap := some (d.head, d.tail, d.free, d.slots) } else d
      if d = Queue.reset then none else some (q, d) }

/-- Close a context's interval: INTV increments, USED becomes 0, the queues are snapshotted (R408, R410). -/
def State.closeInterval (s : State) (ctx : Nat) : State :=
  snapQueues ctx (s.onCtx ctx fun c => { c with ckIntv := c.ckIntv + 1, ckUsed := 0, ckLines := [] })

/-- Entries that a log holds (R408). -/
def Ctx.logCap (c : Ctx) : Nat := 2 ^ c.ckLog2 / 136

/-- The hardware closes the interval of a context whose log is full (R408; DEDUCED log 18). -/
def State.forceClose (s : State) (ctx : Nat) : State :=
  ((s.closeInterval ctx).onCtx ctx fun c =>
    { c with ckForced := if c.ckForced = BitVec.allOnes 32 then c.ckForced else c.ckForced + 1 }).notice ctx 0xC1 0

/-- A write of the line through a page with CKP is the line's first in its interval (R408). -/
def State.logsLine (s : State) (ctx : Nat) (ckp : Bool) (pa : Nat) : Bool :=
  ckp && (s.ctx ctx).ckEn && !(s.ctx ctx).ckLines.contains (lineOf pa)

/-- The log entry that such a write needs lies in a held place (R13, R417). -/
def State.logHeld (s : State) (ctx : Nat) (ckp : Bool) (pa : Nat) : Bool :=
  let c := s.ctx ctx
  s.logsLine ctx ckp pa && (s.heldAt (c.ckLogb.toNat * 65536) || s.heldAt (c.ckLogb.toNat * 65536 + 136 * c.ckUsed) ||
    s.heldAt (c.ckLogb.toNat * 65536 + 136 * c.ckUsed + 135))

/-- Log a line before its first write in the interval through a page with CKP (R408). -/
def State.logLine (s : State) (ctx : Nat) (ckp : Bool) (pa : Nat) : State :=
  let c := s.ctx ctx
  let line := lineOf pa
  if !s.logsLine ctx ckp pa then s
  else
    let s := if c.logCap ≤ c.ckUsed then s.forceClose ctx else s
    let c := s.ctx ctx
    if c.logCap = 0 then s
    else
      let at_ := c.ckLogb.toNat * 65536 + 136 * c.ckUsed
      let w0 := line * 128 + (s.secPois (128 * line)).toNat + 2 * (s.secPois (128 * line + 64)).toNat
      let s := s.physWrite at_ (toBytes 8 w0 ++ s.bytes (line * 128) 128)
      s.setCtx ctx { c with ckUsed := c.ckUsed + 1, ckLines := nins c.ckLines line }

/-! ## Homes -/

/-- On whose behalf a write is made: the core, the context, whether its page has CKP, and whether its home is
an L2 slice (R291, R408). -/
structure WBy where
  core : Option Nat
  ctx : Nat
  ckp : Bool
  l2 : Bool
  deriving DecidableEq, Repr

/-- Put a written sector on the write-notice lists of the other cores of the quad (R291). -/
def noteWrite (by_ : WBy) (pa : Nat) (s : State) : State :=
  match by_.core with
  | none => s
  | some c =>
    if !by_.l2 then s
    else
      (List.range 4).foldl (fun s k =>
        let o := c / 4 * 4 + k
        if o = c then s
        else s.onCore o fun x =>
          let n := nins x.notices (sectorOf pa)
          if 64 < n.length then { x with noticeOver := true } else { x with notices := n }) s

/-- Poison of a sector after a write of `n` bytes whose source is poisoned or clean (R303). -/
def State.poisAfter (s : State) (pa n : Nat) (p : Bool) : NSet :=
  if p then nins s.mpois (s.secPlace pa)
  else if n = 64 then ndel s.mpois (s.secPlace pa)
  else s.mpois

/-- A write performed at its home; the bytes lie in one sector (R289, R303, R408). -/
def State.homeWrite (s : State) (by_ : WBy) (pa : Nat) (bs : List Byte) (p : Bool) : State :=
  let s := s.logLine by_.ctx by_.ckp pa
  noteWrite by_ pa { s.physWrite pa bs with mpois := s.poisAfter pa bs.length p }

/-- A line of L1 that is not held. -/
def L1Line.none : L1Line := { valid := 0, data := 0, dirty := 0, pois := 0, ckp := false, ctx := 0 }

/-- The lines that a core's L1 holds. -/
def Core.lines (x : Core) : List Nat := x.l1.map (·.1)

def Core.l1Of (c : Core) (line : Nat) : L1Line := sget c.l1 line L1Line.none

/-- The bits of one byte of a line. -/
def L1Line.byte (l : L1Line) (k : Nat) : Byte := l.data.extractLsb' (8 * k) 8

/-- Write one byte of a line. -/
def L1Line.setByte (l : L1Line) (k : Nat) (b : Byte) : L1Line :=
  { l with data := (l.data &&& ~~~(BitVec.ofNat 1024 (255 * 2 ^ (8 * k)))) ||| BitVec.ofNat 1024 (b.toNat * 2 ^ (8 * k)) }

/-- Poison of a sector of a line after `n` bytes of it are written, poisoned or clean (R303). -/
def L1Line.poison (l : L1Line) (sec n : Nat) (p : Bool) : L1Line :=
  let b := BitVec.ofNat 2 (2 ^ sec)
  { l with pois := if p then l.pois ||| b else if n = 64 then l.pois &&& ~~~b else l.pois }

/-- Write the dirty bytes of one sector of a core's line to their home, keeping the line (R290, R303). -/
def State.wbSector (s : State) (c line sec : Nat) : State :=
  let l := (s.core c).l1Of line
  let ks := (List.range 64).filter fun k => l.dirty.getLsbD (64 * sec + k)
  if ks.isEmpty then s
  else
    let pa := line * 128 + 64 * sec
    let by_ : WBy := { core := some c, ctx := l.ctx, ckp := l.ckp, l2 := true }
    let s := (s.logLine l.ctx l.ckp pa).backInv line line
    let mem := ks.foldl (fun m k => memSet m (s.place pa + k) (l.byte (64 * sec + k))) s.mem
    let s := { s with mem := mem, mpois := s.poisAfter pa ks.length (l.pois.getLsbD sec), waits := hitLines s.waits none line line }
    noteWrite by_ pa s

/-- A write to scratchpad offset `o` of a core is visible to the core (R281). -/
def State.hitScratch (s : State) (c o : Nat) : State :=
  { s with waits := hitLines s.waits (some c) (2 ^ 48 + o / 128) (2 ^ 48 + o / 128) }

/-- Write back a line's dirty bytes, keeping the line (R290). -/
def State.wbLine (s : State) (c line : Nat) : State :=
  let l := (s.core c).l1Of line
  if l.dirty = 0 then s
  else
    let s := (s.wbSector c line 0).wbSector c line 1
    s.onCore c fun x =>
      { x with l1 := sset x.l1 line { x.l1Of line with dirty := 0, pois := (x.l1Of line).pois &&& (x.l1Of line).valid } L1Line.none }

/-- Write back every dirty byte of a core's L1 (R291). -/
def State.wbAll (s : State) (c : Nat) : State :=
  (s.core c).lines.foldl (fun s line => s.wbLine c line) s

/-- Drop the clean copy of a sector, keeping its dirty bytes (R291). -/
def Core.invSector (x : Core) (sec : Nat) : Core :=
  if !shas x.l1 (sec / 2) then x
  else
    let l := x.l1Of (sec / 2)
    let l := { l with valid := l.valid &&& ~~~(BitVec.ofNat 2 (2 ^ (sec % 2))) }
    let l := if (l.dirty.extractLsb' (64 * (sec % 2)) 64) = 0 then
        { l with pois := l.pois &&& ~~~(BitVec.ofNat 2 (2 ^ (sec % 2))) } else l
    { x with l1 := sset x.l1 (sec / 2) (if l.valid = 0 ∧ l.dirty = 0 then L1Line.none else l) L1Line.none }

/-- The sectors of a line that hold a dirty byte. -/
def L1Line.dirtySecs (l : L1Line) : BitVec 2 :=
  (if l.dirty.extractLsb' 0 64 = 0 then 0 else 1) ||| (if l.dirty.extractLsb' 64 64 = 0 then 0 else 2)

/-- Invalidate the whole L1, keeping dirty bytes, with their poison, for a later write-back (R291, R303). -/
def Core.invAll (x : Core) : Core :=
  { x with l1 := (x.l1.filter fun p => p.2.dirty ≠ 0).map fun p => (p.1, { p.2 with valid := 0, pois := p.2.pois &&& p.2.dirtySecs }) }

/-- Evict a line: write back, then drop it. -/
def State.evict (s : State) (c line : Nat) : State :=
  (s.wbLine c line).onCore c fun x => { x with l1 := sdel x.l1 line }

/-- Before an access at a home on a core's behalf: the core's own dirty bytes of the line reach it (R290, DESIGN CHOICE log 8). -/
def State.homeSync (s : State) (core : Option Nat) (pa : Nat) : State :=
  match core with
  | none => s
  | some c => s.wbLine c (lineOf pa)

/-- After bytes in one sector have been written or read at a home on a core's behalf, its L1 holds them too, with their
poison (R290, R303). -/
def State.l1Update (s : State) (core : Option Nat) (pa : Nat) (bs : List Byte) (p : Bool) : State :=
  match core with
  | none => s
  | some c =>
    if !shas (s.core c).l1 (lineOf pa) then s
    else s.onCore c fun x =>
      let l := x.l1Of (lineOf pa)
      let l := (bs.zipIdx.foldl (fun l p => l.setByte (pa % 128 + p.2) p.1) l).poison (pa % 128 / 64) bs.length p
      { x with l1 := sset x.l1 (lineOf pa) l L1Line.none }

/-! ## Absent dies (R18, R292, R415) -/

/-- A die that answers "die absent" (R18, R415): fenced, training, ready or failed. -/
def Die.absent (d : Die) : Bool := 2 ≤ d.state

/-- The dies whose slices are in the home hash (R292). -/
def State.hashMask (s : State) : BitVec 6 :=
  (List.range 6).foldl (fun m k => if (s.die k).unhashed then m else m ||| BitVec.ofNat 6 (2 ^ k)) 0

/-- Some die is absent. -/
def State.anyAbsent (s : State) : Bool := (List.range 6).any fun k => (s.die k).absent

/-- The slice that homes a cached line stands on an absent die that has not left the home hash (R18, R292). -/
def State.cachedAbsent (s : State) (line : Nat) : Bool :=
  let d := s.die (Config.homeSlice line s.hashMask % 192 / 32)
  s.anyAbsent && d.absent && !d.unhashed

/-- What stands in the way of writing a line back: a hold on its place or on its log entry, or an absent die. -/
inductive WbStop
  | held | absent
  deriving DecidableEq, Repr

/-- What stands in the way of writing back a line of a core's L1 (R13, R18, R417). -/
def State.wbStop (s : State) (c line : Nat) : Option WbStop :=
  let l := (s.core c).l1Of line
  if l.dirty = 0 then none
  else if s.heldAt (128 * line) || s.logHeld l.ctx l.ckp (128 * line) then some .held
  else if s.isLocal (128 * line) && s.cachedAbsent line then some .absent
  else none

/-- The first obstacle among lines of a core's L1. -/
def State.wbStops (s : State) (c : Nat) (lines : List Nat) : Option WbStop := lines.findSome? (s.wbStop c)

/-- Every dirty line of a core's L1 can be written back now. -/
def State.wbFree (s : State) (c : Nat) : Bool := (s.wbStops c (s.core c).lines).isNone

/-! ## Scratchpad cells (R294-R297) -/

/-- Scratchpad banks and L1 banks of a carve-out word (R26, R218). -/
def carveC (cc : Nat) : Nat := match cc with | 1 => 8 | 2 => 16 | 3 => 32 | 4 => 64 | _ => 0
def Core.cc (x : Core) : Nat := x.carvew.toNat % 8
def Core.banksC (x : Core) : Nat := carveC x.cc
def Core.banksS (x : Core) : Nat := 92 - x.banksC

/-- Where scratchpad offset `o` lies under interleave `k`: bank x 32,768 + byte (R295). -/
def Core.place (x : Core) (o k : Nat) : Nat :=
  if k = 0 then (4 + o / 32768) * 32768 + o % 32768
  else
    let g := o / 2 ^ (k + 5)
    (4 + g % x.banksS) * 32768 + (g / x.banksS) * 2 ^ (k + 5) + o % 2 ^ (k + 5)

def Core.cellByte (x : Core) (p : Nat) : Byte := sget x.scratch p 0
def Core.cellFull (x : Core) (p : Nat) : Bool := x.scFull.contains (p / 16)
def Core.cellPois (x : Core) (p : Nat) : Bool := x.scPois.contains (p / 16)

/-- Write bytes inside one cell: a write of all 16 sets the full bit and decides poison (R297, R303). -/
def Core.cellWrite (x : Core) (p : Nat) (bs : List Byte) (pois : Bool) : Core :=
  let x := { x with scratch := bs.zipIdx.foldl (fun m b => sset m (p + b.2) b.1 0) x.scratch }
  let x := if bs.length = 16 then { x with scFull := nins x.scFull (p / 16) } else x
  if pois then { x with scPois := nins x.scPois (p / 16) }
  else if bs.length = 16 then { x with scPois := ndel x.scPois (p / 16) } else x

/-- The L1 lines that leave a core's array with a new carve-out code: the lowest addresses first, as many as no longer fit
(DESIGN CHOICE log 11). -/
def State.carveLines (s : State) (c cc : Nat) : List Nat :=
  if carveC cc < (s.core c).banksC then ((s.core c).lines.take ((s.core c).l1.length - 256 * carveC cc)) else []

/-- Rearrange the array for a new carve-out code (R28): the L1 lines of banks that leave the L1 are written back and dropped; those banks hold zero, empty and clean cells
afterwards (DESIGN CHOICE log 69); banks that go to the L1 lose their contents and their cells become empty. -/
def State.carveTo (s : State) (c cc : Nat) : State :=
  let old := (s.core c).banksC
  let new := carveC cc
  let s := (s.carveLines c cc).foldl (fun s line => s.evict c line) s
  s.onCore c fun x =>
    let lost (bank : Nat) : Bool := 96 - new ≤ bank && bank < 96 - old
    let x := { x with carvew := (x.carvew &&& ~~~7#64) ||| BitVec.ofNat 64 cc }
    if old < new then
      { x with scratch := x.scratch.filter (fun p => !lost (p.1 / 32768)),
               scFull := x.scFull.filter (fun g => !lost (g / 2048)),
               scPois := x.scPois.filter (fun g => !lost (g / 2048)) }
    else x

end Sys2Proof.Machine
end

