-- ==== Sys2Proof/Machine/RegRead.lean ====
section
/-! DEFINITION. What the registers of SYC space and of interposer configuration space read as
(R374, R392, R393, R396, R403, R407, R410, R412, R414, R424). -/

namespace Sys2Proof.Machine

open Sys2Proof

/-- Eight bytes of a wide register. -/
def wideWord {n : Nat} (v : BitVec n) (off : Nat) : Word := v.extractLsb' (8 * off) 64

/-- Put eight bytes into a wide register. -/
def setWideWord {n : Nat} (v : BitVec n) (off : Nat) (w : Word) : BitVec n :=
  (v &&& ~~~(BitVec.ofNat n ((2 ^ 64 - 1) * 2 ^ (8 * off)))) ||| BitVec.ofNat n (w.toNat * 2 ^ (8 * off))

def w64 (n : Nat) : Word := BitVec.ofNat 64 n

/-- The words of a queue descriptor (R221). -/
def Queue.word (q : Queue) : Nat → Word
  | 0 => w64 (q.ctx * 2 ^ 58 + q.base.toNat)
  | 1 => w64 (q.tail.toNat * 2 ^ 32 + q.head.toNat)
  | 2 => w64 q.free.toNat
  | _ => w64 (q.en.toNat * 2 ^ 17 + q.log2n * 2 ^ 12 + q.cls * 2 ^ 8 + q.tickets)

/-- The words of a context's fault queue descriptor (R403). -/
def Ctx.fqWord (c : Ctx) : Nat → Word
  | 0 => w64 (c.fqLog2 * 2 ^ 52 + c.fqBase.toNat)
  | 1 => w64 (c.fqTail.toNat * 2 ^ 32 + c.fqHead.toNat)
  | 2 => w64 (c.fqVec.toNat * 2 ^ 48 + c.fqIe.toNat * 2 ^ 32 + c.fqLost.toNat)
  | _ => w64 c.frb.toNat

/-- The words of a checkpoint descriptor (R407). -/
def Ctx.ckWord (c : Ctx) : Nat → Word
  | 0 => w64 (c.ckEn.toNat * 2 ^ 63 + c.ckLogb.toNat * 2 ^ 16 + c.ckLog2)
  | 1 => w64 (c.ckIntv.toNat * 2 ^ 32 + c.ckUsed)
  | 2 => w64 c.ckForced.toNat
  | _ => 0

/-- A context descriptor (R379). -/
def Ctx.descr (c : Ctx) : Word := w64 (c.en.toNat * 2 ^ 63 + c.mgmt.toNat * 2 ^ 62 + c.root.toNat * 2 ^ 16)

/-- The words of a pool descriptor (R388). -/
def Pool.word (p : Pool) : Nat → Word
  | 0 => w64 (p.en.toNat * 2 ^ 63 + p.ctx * 2 ^ 52 + p.pfb.toNat * 2 ^ 16)
  | _ => w64 (p.npg.toNat * 2 ^ 48 + p.bmap.toNat * 2 ^ 3)

/-- DCTL and DSTAT (R414). -/
def Die.ctl (d : Die) : Word := w64 (d.dl.toNat * 2 ^ 16)
def Die.stat (d : Die) : Word := w64 (d.saved.toNat * 2 ^ 48 + d.lost * 2 ^ 32 + d.state)

/-- OWNER (R374). -/
def Syc.owner (y : Syc) : Word := w64 (y.epoch.toNat * 2 ^ 32 + y.ownerValid.toNat * 2 ^ 7 + y.ownerPort.toNat)

/-- CLAIMp (R374): LIVE when the claim stands and the link is up. -/
def Claim.word (c : Claim) : Word := w64 (c.prio.toNat * 2 ^ 8 + (c.claim && c.link).toNat * 2 + c.claim.toNat)

/-- A per-socket register. -/
def perSocket (off base : Nat) (f : Nat → Word) : Word := let s := (off - base) / 8; if s < 6 then f s else 0

/-- Interposer configuration space (R392; DEDUCED log 50). -/
def State.ipRead (s : State) (off : Nat) : Word :=
  let inR (lo n : Nat) : Bool := lo ≤ off && off < lo + n
  if inR 0x10000 0x2000 then (s.queue ((off - 0x10000) / 32)).word (off % 32 / 8)
  else if inR 0x20000 0x80 then w64 (s.clxOf ((off - 0x20000) / 8)).toNat
  else if inR 0x20100 0x40 then perSocket off 0x20100 fun k => w64 (s.die k).cbind.toNat
  else if inR 0x20140 0x40 then perSocket off 0x20140 fun k => w64 (s.die k).clus.toNat
  else if inR 0x20200 0x40 then perSocket off 0x20200 fun k => w64 (s.die k).pwd.toNat
  else if inR 0x20300 0x40 then perSocket off 0x20300 fun k => w64 (s.die k).chto.toNat
  else if inR 0x20400 0x200 then w64 ((s.ctx ((off - 0x20400) / 8)).jtb.toNat * 2 ^ 13)
  else if inR 0x20600 0x40 then perSocket off 0x20600 fun k => (s.die k).ctl
  else if inR 0x20640 0x40 then perSocket off 0x20640 fun k => (s.die k).stat
  else if inR 0x20800 0x600 then w64 (s.quad ((off - 0x20800) / 8)).qlx.toNat
  else if inR 0x20E00 0x60 then
    let e := s.smapOf ((off - 0x20E00) / 8)
    w64 ((s.stackLive ((off - 0x20E00) / 8)).toNat * 32 + e.socket.toNat)
  else if off = 0x20F00 then w64 s.pkg.toNat
  else if inR 0x30000 0x200 then (s.ctx ((off - 0x30000) / 8)).descr
  else if inR 0x30400 0x100 then (s.pool ((off - 0x30400) / 16)).word (off % 16 / 8)
  else if off = 0x30808 then w64 (s.tlbi.isSome.toNat + 2 * s.tlbDrop.toNat)
  else if inR 0x31000 0x800 then (s.ctx ((off - 0x31000) / 32)).fqWord (off % 32 / 8)
  else if inR 0x32000 0x800 then (s.ctx ((off - 0x32000) / 32)).ckWord (off % 32 / 8)
  else if off = 0x32808 then w64 (s.rbsLines.toNat * 2 ^ 32 + s.rbsStatus.toNat)
  else 0

/-- The words of a histogram entry (R412); entry `n` shows the `n`-th unit that has counted or is marked (DESIGN CHOICE log 19). -/
def Syc.histWord (y : Syc) (n : Nat) (hi : Bool) : Word :=
  match y.hist[n]? with
  | none => 0
  | some (key, h) =>
    if hi then w64 h.state.toNat
    else w64 (key / 2 ^ 24 * 2 ^ 56 + key % 2 ^ 24 * 2 ^ 32 + h.count.toNat)

/-- SYC space (R374, R393, R396, R412, R424). -/
def State.sycRead (s : State) (off : Nat) : Word :=
  let y := s.syc
  let inR (lo n : Nat) : Bool := lo ≤ off && off < lo + n
  if off = 0 then w64 (y.cause * 2 ^ 8 + y.state)
  else if off = 0x40 then w64 ((Config.sensor 0 s.clock).toNat % 2 ^ 16 * 2 ^ 48 + y.pin.toNat * 2 ^ 32 + y.pmax.toNat * 2 ^ 16)
  else if off = 0x48 then w64 (y.pcapEn.toNat * 2 ^ 12 + y.pcap.toNat)
  else if off = 0x50 then w64 (y.tj.toNat * 2 ^ 56 + (Config.sensor 1 s.clock).toNat % 2 ^ 8 * 2 ^ 48 + y.thr.toNat * 2 + y.pwrthr.toNat)
  else if inR 0x80 24 then w64 (y.segw.getD ((off - 0x80) / 8) 0).toNat
  else if inR 0x100 32 then ((y.claims.getD ((off - 0x100) / 8) { prio := 0, claim := false, link := false })).word
  else if off = 0x120 then s.settled.syc.owner
  else if off = 0x128 then y.hnonce
  else if off = 0x138 then y.hstat
  else if inR 0x200 512 then wideWord y.hreq (off - 0x200)
  else if off = 0x400 then w64 (y.fatb.toNat * 2 ^ 26)
  else if off = 0x408 then w64 (y.cmdb.toNat * 2 ^ 21)
  else if off = 0x410 then w64 (y.crmb.toNat * 2 ^ 21)
  else if inR 0x1000 32 then wideWord y.nonce (off - 0x1000)
  else if off = 0x1020 then w64 y.attgo.toNat
  else if inR 0x1100 576 then wideWord y.report (off - 0x1100)
  else if inR 0x2000 0xE000 then w64 (ofBytes ((List.range 8).map fun k => Config.identityCert (off - 0x2000 + k)))
  else if 0x10000 ≤ off then y.histWord ((off - 0x10000) / 16) (off % 16 / 8 == 1)
  else 0

/-- The effect of a read: PWR clears PMAX, TLBS clears DROP (R386, R424). -/
def State.readEffect (s : State) (syc : Bool) (off : Nat) : State :=
  if syc then (if off = 0x40 then { s with syc := { s.syc with pmax := 0 } } else s)
  else (if off = 0x30808 then { s with tlbDrop := false } else s)

/-- Read the register at an offset, a multiple of 8. -/
def State.regRead (s : State) (syc : Bool) (off : Nat) : Word × State :=
  (if syc then s.sycRead off else s.ipRead off, s.readEffect syc off)

/-- The row of the opcode table that a register write at an offset is (R392, R393, R424). -/
def regEvent (w : Writer) (syc : Bool) (off : Nat) (v : Word) : Instr :=
  let inR (lo n : Nat) : Bool := lo ≤ off && off < lo + n
  if syc then
    if off = 0x130 then .hgoWrite w v
    else if off = 0x1020 then .attgoWrite w v
    else if off = 0x180 then .svnsetWrite w v
    else if inR 0x80 24 then .segwWrite w (Fin.ofNat 3 ((off - 0x80) / 8)) v
    else
      match w with
      | .master p how =>
        if inR 0x100 32 then .claimWrite { port := p, how := how } (Fin.ofNat 4 ((off - 0x100) / 8)) v
        else .registerWrite w true (BitVec.ofNat 34 off) v
      | _ => .registerWrite w true (BitVec.ofNat 34 off) v
  else if inR 0x10000 0x2000 then
    .queueDescriptorWrite w (Fin.ofNat 256 ((off - 0x10000) / 32)) (Fin.ofNat 4 (off % 32 / 8)) v
  else if inR 0x20E00 0x60 then .smapWrite w (Fin.ofNat 12 ((off - 0x20E00) / 8)) v
  else if off = 0x20F00 then .pkgsetWrite w v
  else if inR 0x30000 0x200 then .contextDescriptorWrite w (Fin.ofNat 64 ((off - 0x30000) / 8)) v
  else if inR 0x30400 0x100 then .poolDescriptorWrite w (Fin.ofNat 16 ((off - 0x30400) / 16)) (Fin.ofNat 2 (off % 16 / 8)) v
  else if off = 0x30800 then .tlbiWrite w v
  else if off = 0x32800 then .rollback w v
  else if inR 0x20600 0x30 then
    (match fld v.toNat 0 4 with
     | 1 => .dieQuiesce w (Fin.ofNat 6 ((off - 0x20600) / 8)) v
     | 2 => .dieReadmit w (Fin.ofNat 6 ((off - 0x20600) / 8)) v
     | _ => .registerWrite w false (BitVec.ofNat 34 off) v)
  else .registerWrite w false (BitVec.ofNat 34 off) v

end Sys2Proof.Machine
end

