-- ==== Sys2Proof/Machine/Trans.lean ====
section
/-! DEFINITION. Operations that may stop, and the translation of virtual addresses (R382-R386). -/

namespace Sys2Proof.Machine

open Sys2Proof

/-! ## Operations that may stop -/

/-- Why an operation ends before its effect is whole: a precise fault, or a stall after which it is executed again. -/
inductive Stop
  | fault (f : FaultInfo)
  | stall (k : WaitKind)
  /-- a fault precise at another point: the `loopb` whose body is refused (R239) -/
  | faultAt (point : Word) (f : FaultInfo)
  deriving DecidableEq, Repr

/-- An operation on the state that may stop. -/
abbrev Mx (α : Type) := EStateM Stop State α

/-- The state now. -/
def getS : Mx State := get
/-- Change the state. -/
def modS (f : State → State) : Mx Unit := modify f
/-- Raise a precise fault. -/
def failF {α : Type} (f : FaultInfo) : Mx α := throw (.fault f)
/-- Stall. -/
def stallOn {α : Type} (k : WaitKind) : Mx α := throw (.stall k)

/-- A fault that `Mem` did not raise: class and detail word. -/
def mkFault (cls detail : Nat) : FaultInfo :=
  { cls := BitVec.ofNat 8 cls, detail := BitVec.ofNat 64 detail, addr := 0, reason := 0, level := 0 }

/-- The detail layout of R248, R338, R84 and the others: AUX, INDEX, CAUSE (DEDUCED log 47). -/
def detailOf (aux index cause : Nat) : Nat := aux % 2 ^ 32 * 2 ^ 32 + index % 2 ^ 16 * 2 ^ 16 + cause

/-- Raise a fault with AUX, INDEX and CAUSE. -/
def raise {α : Type} (cls cause : Nat) (index aux : Nat := 0) : Mx α := failF (mkFault cls (detailOf aux index cause))

/-- Raise a fault unless a condition holds. -/
def check (p : Bool) (cls cause : Nat) (index aux : Nat := 0) : Mx Unit :=
  if p then pure () else raise cls cause index aux

/-- A refusal by `Mem`, before the chapter of the instruction gives it a detail word (R56, R383). `map` is the CAUSE
of R288, or 0; `aux` the frame attribute entry checked. -/
structure MemF where
  cls : Nat
  reason : Nat
  level : Nat
  addr : Nat
  map : Nat
  aux : Nat
  deriving DecidableEq, Repr

/-- The chapter's reading of a refusal. -/
abbrev Chap := MemF → FaultInfo

/-- A refusal with a detail word. -/
def MemF.withDetail (f : MemF) (d : Nat) : FaultInfo :=
  { cls := BitVec.ofNat 8 f.cls, detail := BitVec.ofNat 64 d, addr := BitVec.ofNat 64 f.addr,
    reason := BitVec.ofNat 8 f.reason, level := BitVec.ofNat 3 f.level }

/-- Chapter 13, and the accesses that share its codes: mapping faults keep the layout of R288, alignment is 0x9D,
the rest 0x93 (R338; DEDUCED log 43). -/
def chap13 (index : Nat) : Chap := fun f =>
  if f.map ≠ 0 then f.withDetail (detailOf f.aux 0 f.map)
  else if f.cls = 4 then f.withDetail (detailOf 0 index 0x9D)
  else f.withDetail (detailOf 0 index 0x93)

/-- A vector element or a page of a `hoff` run: INDEX names it, whatever the refusal (R338, R349, R363; DEDUCED log 43). -/
def chapElem (index : Nat) : Chap := fun f =>
  f.withDetail (detailOf 0 index (if f.map ≠ 0 then f.map else if f.cls = 4 then 0x9D else 0x93))

/-- Chapter 10: alignment 0x78, poison 0x77, the rest 0x81 (R248). -/
def chap10 (index : Nat) : Chap := fun f =>
  f.withDetail (detailOf 0 index (if f.cls = 4 then 0x78 else if f.cls = 0x0A then 0x77 else 0x81))

/-- A line fetch and a constant-bank read: chapter 13's codes (R75, R338; mapping R288). -/
def chapFetch : Chap := chap13 0

/-- The unit of the vector, Loom and walker chapters: one CAUSE for every refusal by `Mem`, with an index. -/
def chapOne (cause index aux : Nat) : Chap := fun f => f.withDetail (detailOf aux index cause)

/-! ## Who translates (R385) -/

/-- The core on whose behalf an agent acts. -/
def Agent.core? : Agent → Option Nat
  | .fetch q => some q.core.val
  | .core c => some c
  | .quadUnit c => some c
  | .crier _ => none
  | .qengine => none

/-- The permissions an access needs (R384). -/
structure Perm where
  rd : Bool
  wr : Bool
  ex : Bool
  deriving DecidableEq, Repr

def Perm.r : Perm := { rd := true, wr := false, ex := false }
def Perm.w : Perm := { rd := false, wr := true, ex := false }
def Perm.rw : Perm := { rd := true, wr := true, ex := false }
def Perm.x : Perm := { rd := false, wr := false, ex := true }
def Perm.none : Perm := { rd := false, wr := false, ex := false }

/-! ## Tables (R382, R383) -/

/-- The index of a virtual address at a level. -/
def vaIndex (level va : Nat) : Nat :=
  match level with
  | 1 => fld va 39 13
  | 2 => fld va 30 9
  | 3 => fld va 21 9
  | _ => fld va 16 5

/-- The alignment of a table that a pointer at a level names. -/
def tableAlign (level : Nat) : Nat := if level = 3 then 256 else 4096

/-- A table frame must be local and cached or memory-side. -/
def State.tableFrame (s : State) (pa : Nat) : Bool :=
  s.isLocal pa && (s.frameHome pa = 1 || s.frameHome pa = 4)

/-- Bits [va above the index of a level], by which a pointer of that level is found in the walk cache. -/
def vaPrefix (level va : Nat) : Nat :=
  match level with
  | 1 => va / 2 ^ 39
  | 2 => va / 2 ^ 30
  | _ => va / 2 ^ 21

/-- Walk from a table at level `5 - fuel`; answers the leaf's entry and level, and the pointers read. The walk is held with
the traffic of the entry's place, which the error `none` says (R13, R417), and an entry homed on a fenced die answers die-absent (R18). -/
def walkFrom (s : State) (ctx va : Nat) : Nat → Nat → List WalkEntry → Except (Option MemF) (Nat × Nat × List WalkEntry)
  | 0, _, _ => .error (some { cls := 5, reason := 0xB1, level := 4, addr := va, map := 0, aux := 0 })
  | fuel + 1, table, seen =>
    let level := 4 - fuel
    let bad (cls reason : Nat) : Except (Option MemF) (Nat × Nat × List WalkEntry) :=
      .error (some { cls := cls, reason := reason, level := level, addr := va, map := 0, aux := 0 })
    let at_ := table + 8 * vaIndex level va
    if !s.tableFrame at_ then bad 5 0xB2
    else if s.heldAt at_ then .error none
    else if s.frameHome at_ = 1 ∧ s.cachedAbsent (lineOf at_) then bad 0x13 0
    else if s.secPois at_ then bad 0x0A 0xB3
    else
      let e := s.physNat at_ 8
      if fld e 0 1 = 0 then bad 5 0xB0
      else if fld e 1 3 = 0 then
        if level = 4 ∨ fld e 48 16 ≠ 0 ∨ fld e 1 7 ≠ 0 then bad 5 0xB1
        else
          let next := fld e 8 40 * 256
          if next % tableAlign level ≠ 0 then bad 5 0xB2
          else walkFrom s ctx va fuel next ({ ctx := ctx, level := level, va := vaPrefix level va, next := next } :: seen)
      else if level = 1 ∨ fld e 6 2 ≠ 4 - level then bad 5 0xB1
      else .ok (e, level, seen)

/-- The deepest pointer that a walk cache holds for an address. -/
def cachedStart (wc : List WalkEntry) (ctx va root : Nat) : Nat × Nat :=
  let has (level : Nat) := wc.find? fun e => e.ctx = ctx ∧ e.level = level ∧ e.va = vaPrefix level va
  match has 3 with
  | some e => (1, e.next)
  | none =>
    match has 2 with
    | some e => (2, e.next)
    | none =>
      match has 1 with
      | some e => (3, e.next)
      | none => (4, root)

/-- The bytes of a page (R285). -/
def pageSize (sz : Nat) : Nat := match sz with | 0 => 2 ^ 16 | 1 => 2 ^ 21 | _ => 2 ^ 30

/-- The leaf that an entry spells (R285). -/
def leafOf (e : Nat) : Leaf :=
  { base := fld e 16 32 * 65536, sz := fld e 6 2, home := fld e 54 2, ms := fld e 56 1 = 1, cmp := fld e 57 1 = 1,
    hc := fld e 58 1 = 1, ckp := fld e 59 1 = 1, ex := fld e 3 1 = 1, wr := fld e 2 1 = 1, rd := fld e 1 1 = 1,
    slice := fld e 8 8 }

/-- The effective home of a leaf, as the frame attribute table numbers homes; 0 is core-pinned (R285, R287). -/
def Leaf.effHome (l : Leaf) : Nat :=
  match l.home with
  | 0 => if l.ms then 4 else 1
  | 1 => 2
  | 3 => 3
  | _ => 0

/-- The entry is in a legal combination (R285, R286). -/
def leafLegal (e : Nat) : Bool :=
  let l := leafOf e
  fld e 60 4 == 0 && fld e 48 6 == 0 && fld e 4 2 == 0 && l.base % pageSize l.sz == 0 &&
    (if l.home = 1 then decide (l.slice ≤ 191) else l.slice == 0) &&
    (match l.home with
     | 0 => !(l.ms && l.cmp)
     | 1 => !l.ms && l.sz == 0
     | 2 => !l.ms && !l.cmp && !l.hc && !l.ckp && l.sz == 0 && decide (l.base / 65536 ≤ 45)
     | _ => !l.ms && !l.cmp && !l.ckp)

/-- The check of one local frame (R287, R389, R393): the CAUSE of R288, or 0 (DEDUCED log 42). -/
def State.frameCheck (s : State) (l : Leaf) (pa : Nat) : Nat :=
  let home := s.frameHome pa
  let e := s.fatEntry pa
  if home = 0 ∨ s.reserved pa then 0x89
  else if home ≠ l.effHome ∨ fld e 24 8 ≠ l.slice then 0x88
  else if (fld e 3 1 = 1) ≠ l.cmp ∨ ((fld e 4 1 = 1 ∧ (s.poolOf pa).isNone) : Bool) ≠ l.hc then 0x8D
  else 0

/-- The first failure among the frames that a leaf covers. -/
def firstBad (s : State) (l : Leaf) : List Nat → Nat × Nat
  | [] => (0, 0)
  | pa :: ps =>
    let c := s.frameCheck l pa
    if c ≠ 0 then (c, s.fatEntry pa) else firstBad s l ps

/-- The checks of a fill (R286, R287): the CAUSE of R288 and the entry checked, or 0. I/O space takes the uncached home alone,
in every package (R16; its CAUSE DEDUCED log 42). -/
def State.leafCheck (s : State) (e : Nat) : Nat × Nat :=
  let l := leafOf e
  if !leafLegal e then (0x8A, 0)
  else if l.home = 2 then (0, 0)
  else if !s.isLocal l.base then
    if !s.remotePresent l.base then (0x89, s.fatEntry l.base)
    else if !(l.home = 3 || l.ms) || l.cmp || l.hc || l.ckp then (0x8C, s.fatEntry l.base)
    else if paIdx l.base = 15 ∧ l.home ≠ 3 then (0x88, s.fatEntry l.base)
    else (0, 0)
  else firstBad s l ((List.range (pageSize l.sz / 65536)).map fun i => l.base + 65536 * i)

/-- Some frame attribute entry that the checks of a fill read stands in a held place (R13, R417). -/
def State.leafHeld (s : State) (l : Leaf) : Bool :=
  l.home != 2 && (s.smap.any (·.2.rewrite.isSome) || !s.chanHeld.isEmpty) &&
    (if s.isLocal l.base then (List.range (pageSize l.sz / 65536)).any fun i => s.heldAt (s.fatAt (l.base + 65536 * i))
     else s.heldAt (s.fatAt l.base))

/-- SYC space or interposer configuration space (R16). -/
def configSpace (pa : Nat) : Bool := paIdx pa == 15 && (fld pa 34 2 == 0 || fld pa 34 2 == 3)

/-- The permission checks of an access through a leaf (R380, R384): 0, or the reason. -/
def State.permCheck (s : State) (ctx : Nat) (p : Perm) (l : Leaf) : Nat :=
  if (p.rd && !l.rd) || (p.wr && !l.wr) || (p.ex && !l.ex) then 0xB4
  else if l.home ≠ 2 ∧ configSpace l.base ∧ !(s.ctx ctx).mgmt then 0xB5
  else 0

/-! ## TLBs (R385, R386; replacement DESIGN CHOICE log 10) -/

def tlbFind (t : List TlbEntry) (ctx va : Nat) : Option Leaf :=
  (t.find? fun e => e.ctx = ctx ∧ e.va ≤ va ∧ va < e.va + pageSize e.leaf.sz).map (·.leaf)

/-- Put an entry in front and keep the newest `n`. -/
def tlbAdd (n ctx va : Nat) (l : Leaf) (t : List TlbEntry) : List TlbEntry :=
  ({ ctx := ctx, va := va / pageSize l.sz * pageSize l.sz, leaf := l } :: t).take n

/-- What an agent's TLBs hold for an address: the leaf, and whether its own TLB held it. -/
def State.tlbLook (s : State) (a : Agent) (ctx va : Nat) : Option (Leaf × Bool) :=
  match a with
  | .fetch q => (tlbFind (s.seqr q).fetchTlb ctx va).map (·, true)
  | .core c =>
    match tlbFind (s.core c).coreTlb ctx va with
    | some l => some (l, true)
    | none => (tlbFind (s.quad (quadOf c)).quadTlb ctx va).map (·, false)
  | .quadUnit c => (tlbFind (s.quad (quadOf c)).quadTlb ctx va).map (·, true)
  | .crier k => (tlbFind (s.crier k).tlb ctx va).map (·, true)
  | .qengine => none

/-- Fill an agent's TLBs with a checked leaf, and the quad's walk cache with the pointers read. -/
def State.tlbFill (s : State) (a : Agent) (ctx va : Nat) (l : Leaf) (seen : List WalkEntry) : State :=
  let keep (q : Quad) : Quad := { q with walkCache := (seen ++ q.walkCache).take 256 }
  match a with
  | .fetch q =>
    (s.onSeqr q fun x => { x with fetchTlb := tlbAdd 16 ctx va l x.fetchTlb }).onQuad (quadOf q.core.val) keep
  | .core c =>
    (s.onCore c fun x => { x with coreTlb := tlbAdd 64 ctx va l x.coreTlb }).onQuad (quadOf c) fun q =>
      { keep q with quadTlb := if (tlbFind q.quadTlb ctx va).isSome then q.quadTlb else tlbAdd 2048 ctx va l q.quadTlb }
  | .quadUnit c => s.onQuad (quadOf c) fun q => { keep q with quadTlb := tlbAdd 2048 ctx va l q.quadTlb }
  | .crier k => s.setCrier k { s.crier k with tlb := tlbAdd 512 ctx va l (s.crier k).tlb }
  | .qengine => s

/-- Where an agent's walk starts. -/
def State.walkStart (s : State) (a : Agent) (ctx va : Nat) : Nat × Nat :=
  let root := (s.ctx ctx).root.toNat * 65536
  match a.core? with
  | some c => cachedStart (s.quad (quadOf c)).walkCache ctx va root
  | none => (4, root)

/-- What translation decides, with no change of state. -/
inductive TransRes
  | hit (l : Leaf)
  /-- the leaf must be filled, with the pointers read -/
  | fill (l : Leaf) (seen : List WalkEntry)
  | held
  | refused (f : MemF)
  deriving DecidableEq, Repr

/-- Translate an address for an access (R382-R385): every address at or above 2^52 is refused before any walk; a
fill is held while the context's EN is 0 (R379; DEDUCED log 64). -/
def State.translate (s : State) (a : Agent) (ctx : Nat) (p : Perm) (va : Nat) : TransRes :=
  let refuse (reason level : Nat) : TransRes :=
    .refused { cls := 6, reason := reason, level := level, addr := va, map := 0, aux := 0 }
  if 2 ^ 52 ≤ va then .refused { cls := 5, reason := 0xB8, level := 0, addr := va, map := 0, aux := 0 }
  else
    match s.tlbLook a ctx va with
    | some (l, own) =>
      if !own ∧ !(s.ctx ctx).en then .held
      else if s.permCheck ctx p l ≠ 0 then refuse (s.permCheck ctx p l) (4 - l.sz)
      else if own then .hit l
      else .fill l []
    | none =>
      if !(s.ctx ctx).en then .held
      else
        let st := s.walkStart a ctx va
        match walkFrom s ctx va st.1 st.2 [] with
        | .error none => .held
        | .error (some f) => .refused f
        | .ok (e, level, seen) =>
          let l := leafOf e
          if s.permCheck ctx p l ≠ 0 then refuse (s.permCheck ctx p l) level
          else if s.leafHeld l then .held
          else
            let c := s.leafCheck e
            if c.1 ≠ 0 then .refused { cls := 7, reason := 0, level := 0, addr := va, map := c.1, aux := c.2 }
            else .fill l seen

/-- Where an access goes: a scratchpad offset of its core, or a physical address with its leaf. -/
inductive Target
  | scratch (o : Nat)
  | phys (pa : Nat) (l : Leaf)
  deriving DecidableEq, Repr

def Target.effHome : Target → Nat
  | .scratch _ => 0
  | .phys _ l => l.effHome

/-- The target of an address through its leaf. -/
def targetOf (l : Leaf) (va : Nat) : Target :=
  if l.home = 2 then .scratch (l.base + va % pageSize l.sz) else .phys (l.base + va % pageSize l.sz) l

/-- The core-pinned check, made at each access (R294): the agent must be the core's own sequencer, LQ, SQ, VE or
walker, and the page below S/2. -/
def State.pinCheck (s : State) (a : Agent) (loom : Bool) (t : Target) : Bool :=
  match t with
  | .phys _ _ => true
  | .scratch o =>
    match a with
    | .core c => o / 65536 < (s.core c).banksS / 2
    | .quadUnit c => !loom && o / 65536 < (s.core c).banksS / 2
    | .fetch q => o / 65536 < (s.core q.core.val).banksS / 2
    | .crier _ => false
    | .qengine => false

/-- Translate and check at the core: translation, permission and mapping (R56, R383). -/
def resolve (ch : Chap) (a : Agent) (ctx : Nat) (p : Perm) (va : Nat) (loom : Bool := false) : Mx Target := do
  let s ← getS
  let l ← match s.translate a ctx p va with
    | .hit l => pure l
    | .fill l seen => modS (·.tlbFill a ctx va l seen); pure l
    | .held => stallOn .held
    | .refused f => failF (ch f)
  let t := targetOf l va
  if s.pinCheck a loom t then pure t
  else failF (ch { cls := 7, reason := 0, level := 0, addr := va, map := 0x8B, aux := 0 })

end Sys2Proof.Machine
end

