-- ==== Sys2Proof/Machine/Mem.lean ====
section
/-! DEFINITION. Accesses to virtual memory, each served at its effective home (R289), with L1, scratchpad, poison,
pools, other packages, I/O space and the assay digest. -/

namespace Sys2Proof

/-- Whether a scope is `.quad` or wider. -/
def Scope.wideQ : Scope → Bool
  | .core => false
  | _ => true
/-- Whether a scope is `.die` or wider. -/
def Scope.wideD : Scope → Bool
  | .core => false
  | .quad => false
  | _ => true

/-- The ordering of an instruction before its access, and after it (R310). -/
def Ordr.relOf : Ordr → Option Scope
  | .rel s => some s
  | .ar s => some s
  | _ => Option.none
def Ordr.acqOf : Ordr → Option Scope
  | .acq s => some s
  | .ar s => some s
  | _ => Option.none

end Sys2Proof

namespace Sys2Proof.Machine

open Sys2Proof

/-! ## Checks at the home -/

/-- The access reaches an absent die (R18, R292, R415). -/
def State.dieAbsent (s : State) (pa : Nat) (l : Leaf) : Bool :=
  s.anyAbsent && s.isLocal pa &&
    (match l.effHome with
     | 1 => s.cachedAbsent (lineOf pa)
     | 2 => (s.die (l.slice / 32)).absent
     | _ => false)

/-- The reason for which a pool frame refuses an agent (R389): 0 none. A crier is refused with no reason byte; queue
engines and the owner's tables are not checked. -/
def State.poolReason (s : State) (a : Agent) (ctx pa : Nat) : Nat :=
  match s.poolOf pa with
  | none => 0
  | some p =>
    let d := s.pool p
    match a.core? with
    | some c => if d.ctx ≠ ctx then 0xB6 else if s.ownerBit d pa ≠ (s.die (dieOf c)).clus then 0xB7 else 0
    | none => match a with
      | .crier _ => 1
      | _ => 0

/-- The owner bit of a pool frame stands in a held place (R13, R417). -/
def State.ownerHeld (s : State) (pa : Nat) : Bool :=
  match s.poolOf pa with
  | none => false
  | some p => s.heldAt ((s.pool p).ownerAt pa).1

/-- Ownership of a pool page (R389). -/
def poolCheck (ch : Chap) (a : Agent) (ctx va : Nat) (t : Target) : Mx Unit := do
  match t with
  | .scratch _ => pure ()
  | .phys pa _ =>
    let s ← getS
    let r := s.poolReason a ctx pa
    if s.ownerHeld pa then stallOn .held
    else if r = 0 then pure ()
    else failF (ch { cls := 8, reason := if r = 1 then 0 else r, level := 0, addr := va, map := 0, aux := 0 })

/-- Alignment (R335). -/
def alignCheck (ch : Chap) (va al : Nat) : Mx Unit :=
  if va % al = 0 then pure () else failF (ch { cls := 4, reason := 0, level := 0, addr := va, map := 0, aux := 0 })

/-- Holds, absent dies, and a fabric with no port up (R13, R18, R417, R423). -/
def homeCheck (ch : Chap) (va : Nat) (t : Target) : Mx Unit := do
  match t with
  | .scratch _ => pure ()
  | .phys pa l =>
    let s ← getS
    if s.heldAt pa ∨ (!s.isLocal pa ∧ !s.fabricUp) then stallOn .held
    else if s.dieAbsent pa l then
      failF (ch { cls := 0x13, reason := 0, level := 0, addr := va, map := 0, aux := 0 })
    else pure ()

/-! ## L1 (R290, R303; allocation DESIGN CHOICE log 11) -/

/-- Lines that the L1 of a core holds at most (R26). -/
def Core.l1Cap (x : Core) : Nat := 256 * x.banksC

/-- The line that leaves to make room for another. -/
def Core.victim (x : Core) (line : Nat) : Option Nat :=
  if shas x.l1 line ∨ x.l1.length < x.l1Cap then none else x.lines.head?

/-- Make room for a line. -/
def State.l1Room (s : State) (c line : Nat) : State :=
  match (s.core c).victim line with
  | none => s
  | some old => s.evict c old

/-- Lines of a core's L1 are to be written back: the requester stalls on a hold, and takes die-absent from a fenced die
(R13, R18, R417; its detail word DEDUCED log 70). -/
def wbCheck (c : Nat) (lines : List Nat) : Mx Unit := do
  match (← getS).wbStops c lines with
  | none => pure ()
  | some .held => stallOn .held
  | some .absent => raise 0x13 0x93

/-- The line that makes room for another can be written back. -/
def roomCheck (c line : Nat) : Mx Unit := do wbCheck c (((← getS).core c).victim line).toList

/-- Every byte of a sector is dirty: it stands for a whole write of the sector (R303, DESIGN CHOICE log 11). -/
def L1Line.wholeDirty (l : L1Line) (sec : Nat) : Bool := l.dirty.extractLsb' (64 * sec) 64 == BitVec.allOnes 64

/-- The 64 bytes of a sector of a line, laid into its data where no dirty byte stands; the poison of the home joins it unless
every byte is newer, and replaces it where none is (R290, R303). -/
def L1Line.fillSector (l : L1Line) (sec : Nat) (bs : List Byte) (p : Bool) : L1Line :=
  let bit := BitVec.ofNat 2 (2 ^ sec)
  let whole := l.wholeDirty sec
  let newer := l.dirty.extractLsb' (64 * sec) 64 != 0
  let l := bs.zipIdx.foldl (fun l b => if l.dirty.getLsbD (64 * sec + b.2) then l else l.setByte (64 * sec + b.2) b.1) l
  { l with valid := l.valid ||| bit,
           pois := if p ∧ !whole then l.pois ||| bit else if newer then l.pois else l.pois &&& ~~~bit }

/-- Fetch a sector into L1. -/
def State.l1Fill (s : State) (c line sec : Nat) : State :=
  let s := s.l1Room c line
  let bs := s.bytes (128 * line + 64 * sec) 64
  let p := s.secPois (128 * line + 64 * sec)
  s.onCore c fun x => { x with l1 := sset x.l1 line ((x.l1Of line).fillSector sec bs p) L1Line.none }

/-- L1 can answer a read of a sector: it is valid, or all of it is dirty. Dirty bytes alone do not do, since the poison of
the rest of their sector is known at the home only (R303). -/
def L1Line.answers (l : L1Line) (off : Nat) : Bool := l.valid.getLsbD (off / 64) || l.wholeDirty (off / 64)

/-- Read through L1. -/
def State.l1Read (s : State) (c pa n : Nat) : (List Byte × Bool) × State :=
  let line := lineOf pa
  let off := pa % 128
  let s := if ((s.core c).l1Of line).answers off then s else s.l1Fill c line (off / 64)
  let l := (s.core c).l1Of line
  (((List.range n).map fun k => l.byte (off + k), l.pois.getLsbD (off / 64)), s)

/-- Write into L1 (R290, R303). -/
def State.l1Write (s : State) (c ctx : Nat) (ckp : Bool) (pa : Nat) (bs : List Byte) (p : Bool) : State :=
  let line := lineOf pa
  let off := pa % 128
  let s := s.l1Room c line
  s.onCore c fun x =>
    let l := x.l1Of line
    let l := bs.zipIdx.foldl (fun l b => l.setByte (off + b.2) b.1) l
    let d := BitVec.ofNat 128 ((2 ^ bs.length - 1) * 2 ^ off)
    let l := { l with dirty := l.dirty ||| d, ctx := ctx, ckp := ckp }.poison (off / 64) bs.length p
    { x with l1 := sset x.l1 line l L1Line.none }

/-- The access goes through the L1 of this core (R289, R290, R389). -/
def State.usesL1 (s : State) (a : Agent) (pa : Nat) (l : Leaf) : Bool :=
  match a with
  | .core c => l.effHome == 1 && (s.core c).banksC != 0 && (s.poolOf pa).isNone
  | _ => false

/-! ## Other packages and I/O space -/

/-- What another package answers (R12, DESIGN CHOICE log 13). -/
def remoteBytes (pa n count : Nat) : List Byte := (List.range n).map fun k => Config.remoteRead (paPkg pa) (pa % 2 ^ 40 + k) count

/-- A write to another package leaves, and waits for its acknowledgement (R333). -/
def State.remoteSend (s : State) (a : Agent) (m : OutMsg) : State :=
  let s := s.send m
  match a with
  | .crier k => s.setCrier k { s.crier k with remoteOut := (s.crier k).remoteOut + 1 }
  | _ => match a.core? with
    | none => s
    | some c => s.onCore c fun x => { x with remoteOut := x.remoteOut + 1 }

/-- A read of I/O space (R16, R380): registers, or a host's memory. -/
def State.ioRead (s : State) (pa n : Nat) : List Byte × State :=
  let off := pa % 2 ^ 34
  if fld pa 34 2 = 1 ∨ fld pa 34 2 = 2 then
    ((List.range n).map fun k => Config.hostAperture (fld pa 34 2 - 1) (off + k) s.free, s.bump)
  else
    let syc := fld pa 34 2 = 0
    let ws := (List.range ((off % 8 + n + 7) / 8)).map fun i => off / 8 * 8 + 8 * i
    let v := ws.flatMap fun o => toBytes 8 (s.regRead syc o).1.toNat
    (((v.drop (off % 8)).take n), ws.foldl (fun s o => s.readEffect syc o) s)

/-- A write to I/O space: its register writes are the very next steps, in their order (R349, R380; DESIGN CHOICE log 20), or the
bytes leave for the host. -/
def State.ioWrite (s : State) (pa : Nat) (bs : List Byte) : State :=
  let off := pa % 2 ^ 34
  if fld pa 34 2 = 1 ∨ fld pa 34 2 = 2 then s.send (.hostWrite (fld pa 34 2 - 1) off bs)
  else
    let syc := fld pa 34 2 = 0
    let ws := (List.range ((off % 8 + bs.length + 7) / 8)).map fun i => off / 8 * 8 + 8 * i
    let evs := ws.map fun o =>
      let old := toBytes 8 (s.regRead syc o).1.toNat
      let new := old.zipIdx.map fun b => if off ≤ o + b.2 ∧ o + b.2 < off + bs.length then bs.getD (o + b.2 - off) 0 else b.1
      regEvent .mgmt syc o (BitVec.ofNat 64 (ofBytes new))
    { s with regWrites := s.regWrites ++ evs }

/-! ## Reads and writes at a resolved target -/

/-- Read `n` bytes, all in one sector, as a plain access; `il` is the interleave of R295. -/
def readAt (a : Agent) (t : Target) (n : Nat) (il : Nat := 0) : Mx (List Byte × Bool) := do
  let s ← getS
  match t with
  | .scratch o =>
    match a.core? with
    | none => pure ([], false)
    | some c =>
      let x := s.core c
      let ps := (addrs o n).map fun o => x.place o il
      pure (ps.map x.cellByte, ps.any x.cellPois)
  | .phys pa l =>
    if paIdx pa = 15 ∧ s.isLocal pa then
      let r := s.ioRead pa n
      set r.2; pure (r.1, false)
    else if !s.isLocal pa then
      set s.bump; pure (remoteBytes pa n s.free, Config.remotePois (paPkg pa) (pa % 2 ^ 40) s.free)
    else if s.usesL1 a pa l then
      match a.core? with
      | none => pure ([], false)
      | some c =>
        roomCheck c (lineOf pa)
        let s ← getS
        let r := s.l1Read c pa n
        set r.2; pure r.1
    else
      let s := if l.effHome = 1 then s.homeSync a.core? pa else s
      set s; pure (s.bytes pa n, s.poisAt pa n)

/-- Read at the home, past L1 (R316, R345; DEDUCED log 48). What a core reads there its L1 holds from then on, so that no later
read of its own finds an older write (R309). -/
def readHome (a : Agent) (t : Target) (n : Nat) : Mx (List Byte × Bool) := do
  match t, a with
  | .phys pa l, .core c =>
    let r ← readAt (.quadUnit c) t n
    if l.effHome = 1 ∧ (← getS).isLocal pa then modS (·.l1Update (some c) pa r.1 r.2)
    pure r
  | .phys _ _, .fetch q => readAt (.quadUnit q.core.val) t n
  | _, _ => readAt a t n

/-- Cells that a run of bytes meets, each with its bytes. -/
def cellChunks (ps : List (Nat × Byte)) : List (Nat × List Byte) :=
  match ps with
  | [] => []
  | (p, b) :: ps =>
    match cellChunks ps with
    | (q, bs) :: rest => if q = p + 1 ∧ q / 16 = p / 16 then (p, b :: bs) :: rest else (p, [b]) :: (q, bs) :: rest
    | [] => [(p, [b])]

/-- Write bytes, all in one sector; a write that fills a whole cell sets its full bit and is a `Release(.core)` (R297, R318);
`thru` makes the write at the home even where L1 could take it (R314). -/
def writeAt (a : Agent) (ctx : Nat) (t : Target) (bs : List Byte) (p : Bool) (il : Nat := 0) (thru : Bool := false) :
    Mx Unit := do
  let s ← getS
  match t with
  | .scratch o =>
    match a.core? with
    | none => pure ()
    | some c =>
      let x := s.core c
      let ks := cellChunks (bs.zipIdx.map fun b => (x.place (o + b.2) il, b.1))
      if 0 < x.remoteOut ∧ ks.any (·.2.length = 16) then stallOn .release
      else set ((s.setCore c (ks.foldl (fun x k => x.cellWrite k.1 k.2 p) x)).hitScratch c o)
  | .phys pa l =>
    if paIdx pa = 15 ∧ s.isLocal pa then set (s.ioWrite pa bs)
    else if !s.isLocal pa then set (s.remoteSend a (.remoteWrite pa bs p))
    else if s.usesL1 a pa l && !thru then
      match a.core? with
      | none => pure ()
      | some c =>
        roomCheck c (lineOf pa)
        let s ← getS
        let s := s.l1Write c ctx l.ckp pa bs p
        set { s with waits := hitLines s.waits (some c) (lineOf pa) (lineOf pa) }
    else if s.logHeld ctx l.ckp pa then stallOn .held
    else
      let s := if l.effHome = 1 then s.homeSync a.core? pa else s
      let s := s.homeWrite { core := a.core?, ctx := ctx, ckp := l.ckp, l2 := l.effHome = 1 ∨ l.effHome = 2 } pa bs p
      set (if l.effHome = 1 then s.l1Update a.core? pa bs p else s)

/-- Write the bits of `mask` in one byte; the merge with its other bits is one step in the copy that takes the write, which for
another package is its home there (R429). -/
def writeMasked (a : Agent) (ctx : Nat) (t : Target) (b mask : Byte) (p : Bool) (il : Nat := 0) : Mx Unit := do
  let s ← getS
  let far : Option Nat := match t with
    | .phys pa _ => if s.isLocal pa then none else some pa
    | .scratch _ => none
  match far with
  | some pa => set (s.remoteSend a (.remoteMasked pa (b &&& mask) mask p))
  | none =>
    let old ← readAt a t 1 il
    writeAt a ctx t [((old.1.headD 0) &&& ~~~mask) ||| (b &&& mask)] p il

/-- One indivisible read and write at the home (R328): the old value and its poison; nothing is written where the
place is poisoned or `f` answers none. `msg` is what leaves for another package. -/
def rmwAt (a : Agent) (ctx : Nat) (t : Target) (n : Nat) (f : Nat → Option Nat) (msg : Option OutMsg := none) :
    Mx (Nat × Bool) := do
  let r ← readHome a t n
  let old := ofBytes r.1
  if r.2 then pure (old, true)
  else
    match f old with
    | none => pure (old, false)
    | some v =>
      match t, msg with
      | .phys pa _, some m =>
        if !(← getS).isLocal pa then modS (·.remoteSend a m)
        else writeAt a ctx t (toBytes n v) false 0 true
      | _, _ => writeAt a ctx t (toBytes n v) false 0 true
      pure (old, false)

/-! ## Whole accesses -/

/-- The L1 of the core serves the access: it answers the read, or takes the write; the access reaches no home (R289, R290). -/
def State.l1Serves (s : State) (a : Agent) (p : Perm) : Target → Bool
  | .scratch _ => false
  | .phys pa l =>
    match a with
    | .core c => s.isLocal pa && s.usesL1 a pa l && (!p.rd || ((s.core c).l1Of (lineOf pa)).answers (pa % 128))
    | _ => false

/-- The core has a return-free atomic under way in a word that an access of `n` bytes meets: its own later access waits behind it
(R309, R313, R329). -/
def State.nrAhead (s : State) (a : Agent) (t : Target) (n : Nat := 1) : Bool :=
  let meets (o : NrOp) (at_ : Nat) : Bool := at_ / 8 ≤ o.pa / 8 && o.pa / 8 ≤ (at_ + n - 1) / 8
  match a with
  | .core c => (s.core c).nrOut.any fun o =>
      match t with
      | .phys pa _ => !o.scratch && meets o pa
      | .scratch k => o.scratch && meets o k
  | _ => false

/-- An access waits behind the core's own return-free atomic at its place. -/
def nrCheck (a : Agent) (t : Target) (n : Nat := 1) : Mx Unit := do
  if (← getS).nrAhead a t n then stallOn .held else pure ()

/-- An access reaches its home: its holds and its die (R13, R18), and what stands in the way of the core's own dirty bytes of the
line, which reach it first (R290). -/
def homeReach (ch : Chap) (a : Agent) (va : Nat) (t : Target) : Mx Unit := do
  homeCheck ch va t
  match a.core?, t with
  | some c, .phys pa l => if l.effHome = 1 then wbCheck c [lineOf pa] else pure ()
  | _, _ => pure ()

/-- Resolve an access of `n` bytes with every check of `Mem` in the order of R56: translation, permission, mapping, ownership,
alignment; and where it leaves L1, or is made at its `home` whatever L1 holds, the holds and the dies of its home (R13, R18, R292). -/
def accessN (ch : Chap) (a : Agent) (ctx : Nat) (p : Perm) (va al n : Nat) (loom home : Bool) : Mx Target := do
  let t ← resolve ch a ctx p va loom
  poolCheck ch a ctx va t
  alignCheck ch va al
  nrCheck a t n
  if !home && (← getS).l1Serves a p t then pure () else homeReach ch a va t
  pure t

/-- An access whose alignment is its size. -/
def access (ch : Chap) (a : Agent) (ctx : Nat) (p : Perm) (va al : Nat) (loom : Bool := false) : Mx Target :=
  accessN ch a ctx p va al al loom false

/-- An access that is made at its home, past L1 (R314, R316, R345). -/
def accessHome (ch : Chap) (a : Agent) (ctx : Nat) (p : Perm) (va al : Nat) : Mx Target := accessN ch a ctx p va al al false true

/-- Read `n` bytes at a virtual address. -/
def vread (ch : Chap) (a : Agent) (ctx va n al : Nat) (il : Nat := 0) (loom : Bool := false) : Mx (List Byte × Bool) := do
  let t ← access ch a ctx .r va al loom
  readAt a t n il

/-- Write bytes at a virtual address. -/
def vwrite (ch : Chap) (a : Agent) (ctx va al : Nat) (bs : List Byte) (p : Bool) (il : Nat := 0) (thru : Bool := false)
    (loom : Bool := false) : Mx Unit := do
  let t ← access ch a ctx .w va al loom
  writeAt a ctx t bs p il thru

/-! ## The assay digest (R205-R207) -/

/-- F of R206. -/
def hashF (z : Nat) : Nat :=
  let z := (z ^^^ (z / 2 ^ 30)) * 0xBF58476D1CE4E5B9 % 2 ^ 64
  let z := (z ^^^ (z / 2 ^ 27)) * 0x94D049BB133111EB % 2 ^ 64
  z ^^^ (z / 2 ^ 31)

/-- mix of R206. -/
def hashMix (x k : Nat) : Nat := hashF (x * k % 2 ^ 64)

/-- The sector hash (R206) of the sector at virtual address `a` with the 64 bytes `d`. -/
def sectorHash (k0 k1 a : Nat) (d : List Byte) : Nat :=
  ((List.range 8).foldl (fun acc i =>
      acc + (ofBytes ((d.drop (8 * i)).take 8) ^^^ hashMix ((a + 8 * i) % 2 ^ 64) k0) * (k1 ||| 1)) 0) % 2 ^ 128

/-- The group of the region that holds an address. -/
def Ctx.regionOf (c : Ctx) (va : Nat) : Option Nat :=
  (c.regions.find? fun (r : Nat × Region) => r.2.base ≤ va ∧ va < r.2.base + r.2.len).map fun r => r.2.group

def Group.none : Group :=
  { members := [], sig := 0, key0 := 0, key1 := 0, digest := 0, pois := false, points := 0, verdict := 0,
    lastCount := 0, faulted := false, point := Option.none }

/-- What a store writes at `va` with whole bytes. -/
def storedBytes (va : Nat) (bs : List Byte) (p : Bool) : List Stored :=
  bs.zipIdx.map fun b => { addr := va + b.2, byte := b.1, mask := 0xFF, pois := p }

/-- What a store wrote into the byte at `a`: the bits it did not write are zero, and of two writes of a bit the later stands
(R207, R349; DEDUCED log 30). -/
def storedAt (cells : List Stored) (a : Nat) : Byte :=
  cells.foldl (fun b m => if m.addr = a then (b &&& ~~~m.mask) ||| (m.byte &&& m.mask) else b) 0

/-- Add one sector of a store to its group's digest; poison sets the flag instead (R207). -/
def State.digestSector (s : State) (ctx sec : Nat) (cells : List Stored) : State :=
  match (s.ctx ctx).regionOf (64 * sec) with
  | none => s
  | some g =>
    let mine := cells.filter fun c => c.addr / 64 = sec
    s.onCtx ctx fun c =>
      let gr := sget c.groups g Group.none
      let d := (List.range 64).map fun k => storedAt mine (64 * sec + k)
      let gr := if mine.any (·.pois) then { gr with pois := true }
        else { gr with digest := gr.digest + BitVec.ofNat 128 (sectorHash gr.key0.toNat gr.key1.toNat (64 * sec) d) }
      { c with groups := sset c.groups g gr Group.none }

/-- Add a whole store, given as its bytes (R207). -/
def State.digestStore (s : State) (ctx : Nat) (cells : List Stored) : State :=
  ((cells.map (·.addr / 64)).eraseDups).foldl (fun s sec => s.digestSector ctx sec cells) s

/-! ## Releases and acquires (R291, R310, R314, R315) -/

/-- An acquire (R291). -/
def State.acquire (s : State) (c : Nat) (sc : Scope) : State :=
  match sc with
  | .core => s
  | .quad => s.onCore c fun x =>
      let x := if x.noticeOver then x.invAll else x.notices.foldl (fun x sec => x.invSector sec) x
      { x with notices := [], noticeOver := false }
  | _ => s.onCore c fun x => { x.invAll with notices := [], noticeOver := false, wide := true }

/-- A release, where nothing is outstanding (R291, R314). -/
def State.releaseL1 (s : State) (c : Nat) (sc : Scope) : State :=
  if !sc.wideQ then s
  else
    let s := s.wbAll c
    if !(s.core c).wide then s
    else
      let s := (List.range 4).foldl (fun s k =>
        let o := c / 4 * 4 + k
        if o = c then s else s.onCore o fun x => { x with noticeOver := true }) s
      s.onCore c fun x => { x with wide := false }

/-- `Release(s)`: it waits for the acknowledgements of writes to other packages (R314, R333), and its write-backs for what
holds them (R13, R18, R417). -/
def release (c : Nat) (sc : Scope) : Mx Unit := do
  if 0 < ((← getS).core c).remoteOut then stallOn .release
  if sc.wideQ then wbCheck c ((← getS).core c).lines
  modS (·.releaseL1 c sc)

/-- `Acquire(s)`. -/
def acquire (c : Nat) (sc : Scope) : Mx Unit := modS (·.acquire c sc)

/-- The releaser tag that a releasing write to a line leaves or clears (R315). -/
def State.tagRelease (s : State) (c : Nat) (sc : Scope) (t : Target) : State :=
  match t with
  | .scratch _ => s
  | .phys pa l =>
    if l.effHome ≠ 1 ∧ l.effHome ≠ 2 then s
    else if sc.wideD then { s with relTags := sdel s.relTags (lineOf pa) }
    else { s with relTags := sput s.relTags (lineOf pa) c }

/-- The tagged core publishes (R316): every dirty byte of its L1 is written back. -/
def State.publishTag (s : State) (line : Nat) : State :=
  match s.relTags.find? (·.1 == line) with
  | none => s
  | some (_, c) => let s := s.wbAll c; { s with relTags := sdel s.relTags line }

def releaseOpt (c : Nat) (o : Option Scope) : Mx Unit :=
  match o with
  | none => pure ()
  | some sc => release c sc
def acquireOpt (c : Nat) (o : Option Scope) : Mx Unit :=
  match o with
  | none => pure ()
  | some sc => acquire c sc

end Sys2Proof.Machine
end

