-- ==== Sys2Proof/Machine/Sync.lean ====
section
/-! DEFINITION. Fault records on their way (R401-R403), frontier words (R321-R325, R355, R428), and what a queue engine
does with a completion counter (R215). -/

namespace Sys2Proof.Machine

open Sys2Proof

/-! ## Records -/

/-- The value of `jobid` of the task on a core (R276). -/
def State.jobidOf (s : State) (c : Nat) : Word :=
  match (s.core c).task with
  | none => 0
  | some t => t.jobid

/-- The context whose task a core runs. -/
def State.ctxOf (s : State) (c : Nat) : Nat :=
  match (s.core c).task with
  | none => 0
  | some t => t.ctx

/-- The number of the run of the task on a core (R173); 0 without one. -/
def State.instOf (s : State) (c : Nat) : Nat :=
  match (s.core c).task with
  | none => 0
  | some t => t.inst

/-- The record of a fault on a core (R399). -/
def State.mkRec (s : State) (c src : Nat) (point : Word) (async : Bool) (f : FaultInfo) : FRec :=
  { cls := f.cls, ctx := s.ctxOf c, src := src, async := async, level := f.level, reason := f.reason,
    job := s.jobidOf c, point := point, place := placeOf (some c), addr := f.addr, detail := f.detail, clock := s.clock }

/-- A record of a queue engine (R234, R266, R399). -/
def State.qeRec (s : State) (ctx : Nat) (job : Word) (f : FaultInfo) : FRec :=
  { cls := f.cls, ctx := ctx, src := 9, async := true, level := f.level, reason := f.reason,
    job := job, point := 0, place := placeOf none, addr := f.addr, detail := f.detail, clock := s.clock }

/-- A sequencer stands in an instruction that has taken effect: no record is delivered before it has ended (R401). -/
def Seqr.inEffect (x : Seqr) : Bool :=
  match x.wait, x.cur with
  | .barrier, some (.bars ..) => true
  | .hbar, _ => true
  | .assay, _ => true
  | .crier, _ => true
  | .suspend, _ => x.waitArg == 1
  | _, _ => false

/-- A record of that sequencer's could not reach its handler (R401). -/
def Seqr.deaf (x : Seqr) : Bool := x.tvec = 0 ∨ x.handler ∨ x.entering.isSome ∨ x.status = .stopped ∨ x.inEffect

/-- Put a record among those aimed at a sequencer: in the order of their clocks, and within one clock in ascending SRC (R401, R418). -/
def lineUp (rs : List FRec) (r : FRec) : List FRec :=
  match rs with
  | [] => [r]
  | o :: rs => if r.clock < o.clock ∨ (r.clock = o.clock ∧ r.src < o.src) then r :: o :: rs else o :: lineUp rs r

/-- Aim an asynchronous record at a sequencer: it waits there for the next boundary between lanes, or goes straight
to the fault queue where it could not be delivered (R401). -/
def State.aim (s : State) (q : SeqId) (r : FRec) : State :=
  let x := s.seqr q
  if x.deaf then s.fqWrite r else s.setSeqr q { x with asyncRecs := lineUp x.asyncRecs r }

/-! ## Frontier words (R355) -/

def fwCount (w : Nat) : Nat := w % 2 ^ 48
def fwClosed (w : Nat) : Bool := fld w 62 1 == 1
def fwHalted (w : Nat) : Bool := fld w 63 1 == 1

/-- `fopen`: the next generation, COUNT 0, CLOSED and HALTED clear; reserved bits stay (R321, R355). -/
def fwOpen (w : Nat) : Nat := fld w 56 6 * 2 ^ 56 + (fld w 48 8 + 1) % 256 * 2 ^ 48
/-- Publication of COUNT (R321). -/
def fwPublish (k w : Nat) : Nat := w - fwCount w + Nat.max (fwCount w) k
def fwClose (w : Nat) : Nat := if fwClosed w then w else w + 2 ^ 62
def fwHalt (w : Nat) : Nat := if fwHalted w then w else w + 2 ^ 63

/-- What one change makes of a frontier word. -/
def FrontOp.apply (w : Nat) : FrontOp → Nat
  | .fopen => fwOpen w
  | .publish k => fwPublish k w
  | .close => fwClose w
  | .halt => fwHalt w
  | .closeLive => if fwHalted w then w else fwClose w
  | .bump => w - fwCount w + (fwCount w + 1) % 2 ^ 48

/-- Several changes, in one step. -/
def fwApply (ops : List FrontOp) (w : Nat) : Nat := ops.foldl FrontOp.apply w

/-- How a chapter reports what it meets at a frontier word: refusals by `Mem`, a page that holds no frontier word, poison. -/
structure FrontCodes where
  ch : Chap
  page : FaultInfo
  pois : FaultInfo

/-- The codes of chapter 13 (R338). -/
def front13 (index : Nat := 0) : FrontCodes :=
  { ch := chap13 index, page := mkFault 7 (detailOf 0 index 0x91), pois := mkFault 0x0A (detailOf 0 index 0x9A) }

/-- The codes of the record that follows a writer's own: CAUSE 0x91 for the page, 0x93 for any other refusal, 0x9A for poison (R428). -/
def frontSecond : FrontCodes := { front13 with ch := chapOne 0x93 0 0 }

/-- The checks of an access to a frontier word (R355). -/
def frontAccess (fc : FrontCodes) (a : Agent) (ctx : Nat) (p : Perm) (va : Nat) : Mx Target := do
  let t ← resolve fc.ch a ctx p va
  if t.effHome = 3 then failF { fc.page with addr := BitVec.ofNat 64 va }
  poolCheck fc.ch a ctx va t
  alignCheck fc.ch va 8
  nrCheck a t 8
  homeReach fc.ch a va t
  pure t

/-- What a change of a frontier word sends to a home in another package. -/
def frontMsg (t : Target) (ops : List FrontOp) : Option OutMsg :=
  match t with
  | .phys pa _ => some (.remoteFront pa ops)
  | .scratch _ => none

/-- Change a frontier word in one indivisible step at its home (R321); answers the word as it was. -/
def frontRmw (fc : FrontCodes) (a : Agent) (ctx va : Nat) (ops : List FrontOp) : Mx (Nat × Target) := do
  let t ← frontAccess fc a ctx .w va
  let r ← rmwAt a ctx t 8 (fun w => some (fwApply ops w)) (frontMsg t ops)
  if r.2 then failF fc.pois
  pure (r.1, t)

/-- Read a frontier word at its home. -/
def frontRead (fc : FrontCodes) (a : Agent) (ctx va : Nat) : Mx Nat := do
  let t ← frontAccess fc a ctx .r va
  let r ← readHome a t 8
  if r.2 then failF fc.pois
  pure (ofBytes r.1)

/-- Run an operation of a unit that reports by record: its value, its fault, or none where a hold delays it (R13, R379, R417). -/
def tryRun {α : Type} (s : State) (m : Mx α) : Option (Except FaultInfo α) × State :=
  match m s with
  | .ok v s' => (some (.ok v), s')
  | .error (.fault f) s' => (some (.error f), s')
  | .error (.faultAt _ f) s' => (some (.error f), s')
  | .error (.stall _) _ => (none, s)

/-- The release of a writer that faults: it waits as every release does, and what an absent die keeps from its home stays in L1
(R13, R18, R318; DEDUCED log 70). -/
def haltRelease (c : Nat) (sc : Scope) : Mx Unit := do
  let s ← getS
  if 0 < (s.core c).remoteOut || (sc.wideQ && s.wbStops c (s.core c).lines == some .held) then stallOn .release
  if !sc.wideQ || s.wbFree c then modS (·.releaseL1 c sc)
  else modS fun s => ((s.core c).lines.filter fun l => s.wbStop c l = none).foldl (fun s l => s.wbLine c l) s

/-- Set HALTED on a frontier word, after other changes of it; a COUNT that a faulting writer publishes is a `Release(FSC)`, with its
tag (R176, R315, R318, R350, R361, R428). -/
def haltWord (a : Agent) (ctx fw : Nat) (ops : List FrontOp) (rel : Option Scope) : Mx Unit := do
  match a.core?, rel with
  | some c, some sc =>
    haltRelease c sc
    let r ← frontRmw frontSecond a ctx fw (ops ++ [.halt])
    modS (·.tagRelease c sc r.2)
  | _, _ => let _ ← frontRmw frontSecond a ctx fw (ops ++ [.halt])

/-- Set HALTED for a writer; where the word cannot be reached, the second record of R428; where a hold delays the access, it
waits among the late ones. -/
def State.haltTry (s : State) (a : Agent) (q : SeqId) (ctx fw src : Nat) (point : Word) (ops : List FrontOp := [])
    (rel : Option Scope := none) : Option FRec × State :=
  match tryRun s (haltWord a ctx fw ops rel) with
  | (some (.ok _), s) => (none, s)
  | (some (.error fi), s) => (some (s.mkRec q.core.val src point true { fi with addr := BitVec.ofNat 64 fw }), s)
  | (none, s) => (none, { s with late := s.late ++ [.halt a q ctx (s.jobidOf q.core.val) fw src point ops rel] })

/-- Set HALTED for a writer whose own record is already under way (R176, R428). -/
def State.haltFront (s : State) (a : Agent) (q : SeqId) (ctx fw src : Nat) (point : Word) (ops : List FrontOp := []) : State :=
  match s.haltTry a q ctx fw src point ops with
  | (none, s) => s
  | (some r, s) => s.aim q r

/-! ## Completion counters (R215) -/

/-- What a change makes of a completion counter; a count that reaches 0 clears the cancel mark (R215). -/
def CtrOp.apply (w : Nat) : CtrOp → Nat
  | .add n => fld w 63 1 * 2 ^ 63 + (w % 2 ^ 63 + n) % 2 ^ 63
  | .sub drop =>
    let mark := drop || fld w 63 1 == 1
    let n := (w % 2 ^ 63 + (2 ^ 63 - 1)) % 2 ^ 63
    if n = 0 then 0 else mark.toNat * 2 ^ 63 + n
  | .mark => 2 ^ 63 + w % 2 ^ 63

/-- A queue engine changes a completion counter in one step; a poisoned one raises poison-sync. Only a subtraction is a release to
the line (R215, R232, R247, R303, R315, R330). -/
def counterRmw (ctx va : Nat) (op : CtrOp) : Mx Nat := do
  let t ← accessHome (chap10 0) .qengine ctx .rw va 8
  let msg : Option OutMsg := match t with
    | .phys pa _ => some (.remoteCounter pa op)
    | .scratch _ => none
  let r ← rmwAt .qengine ctx t 8 (fun w => some (op.apply w)) msg
  if r.2 then failF { mkFault 0x0A (detailOf 0 0 0x77) with addr := BitVec.ofNat 64 va }
  match op with
  | .sub _ => modS (·.tagRelease 0 .pkg t)
  | _ => pure ()
  pure r.1

/-- The done flag: 1, or 2 when the cancel mark is set (R215). -/
def doneFlag (ctx va : Nat) (mark : Bool) : Mx Unit := do
  let t ← access (chap10 0) .qengine ctx .w (va + 8) 8
  writeAt .qengine ctx t (toBytes 8 (if mark then 2 else 1)) false
  modS (·.tagRelease 0 .pkg t)

/-- A counter's change; the subtraction that reaches 0 writes the done flag (R215). -/
def counterOp (ctx va : Nat) (op : CtrOp) : Mx Unit := do
  let old ← counterRmw ctx va op
  match op with
  | .sub drop => if old % 2 ^ 63 == 1 then doneFlag ctx va (drop || fld old 63 1 == 1)
  | _ => pure ()

/-- A queue engine changes a task's counter, where it has one: a fault becomes a record in the fault queue (DEDUCED log 21),
and a hold makes the change wait among the late ones (R13, R379, R417). -/
def State.joinOp (s : State) (ctx : Nat) (job : Word) (va : Nat) (op : CtrOp) : State :=
  if va = 0 then s
  else
    match tryRun s (counterOp ctx va op) with
    | (some (.ok _), s) => s
    | (some (.error f), s) => s.fqWrite (s.qeRec ctx job f)
    | (none, s) => { s with late := s.late ++ [.counter ctx job va op] }

/-- A queue engine subtracts a task from its counter (R215). -/
def State.joinSub (s : State) (ctx : Nat) (job : Word) (va : Nat) (drop : Bool) : State := s.joinOp ctx job va (.sub drop)

/-- Run an operation of a queue engine: a fault becomes a record in the fault queue (DEDUCED log 21); a hold leaves it to be
tried again. -/
def State.qeRun {α : Type} (s : State) (ctx : Nat) (job : Word) (dflt : α) (m : Mx α) : Option α × State :=
  match tryRun s m with
  | (some (.ok v), s) => (some v, s)
  | (some (.error f), s) => (some dflt, s.fqWrite (s.qeRec ctx job f))
  | (none, s) => (none, s)

/-! ## Queue slots (R222) -/

/-- FREE advances over every leading slot that is no longer held. -/
def advanceFree (slots : SMap SlotState) (head : BitVec 32) : Nat → BitVec 32 → BitVec 32
  | 0, f => f
  | n + 1, f => if f = head ∨ shas slots f.toNat then f else advanceFree slots head n (f + 1)

/-- The queue is full (R222). -/
def Queue.full (d : Queue) : Bool := 2 ^ d.log2n ≤ (d.tail - d.free).toNat

/-- The address of a slot in its ring (R221, R222). -/
def Queue.slotAddr (d : Queue) (idx : Nat) : Nat := d.base.toNat + 256 * (idx % 2 ^ d.log2n)

/-- Write a record of 256 bytes into the slot at TAIL (R220, R222). -/
def pushSlot (q : Nat) (img : BitVec 2048) (pois : BitVec 4) : Mx Unit := do
  let d := (← getS).queue q
  let bs := toBytes 256 img.toNat
  (List.range 4).forM fun k =>
    vwrite (chap10 5) .qengine d.ctx (d.slotAddr d.tail.toNat + 64 * k) 64 ((bs.drop (64 * k)).take 64) (pois.getLsbD k)
  modS (·.onQueue q fun d => { d with tail := d.tail + 1 })

/-- Read the record in a slot. -/
def readSlot (q idx : Nat) : Mx (BitVec 2048 × BitVec 4) := do
  let d := (← getS).queue q
  let rs ← (List.range 4).mapM fun k => vread (chap10 5) .qengine d.ctx (d.slotAddr idx + 64 * k) 64 64
  pure (BitVec.ofNat 2048 (ofBytes (rs.flatMap (·.1))),
    BitVec.ofNat 4 (rs.zipIdx.foldl (fun m r => if r.1.2 then m + 2 ^ r.2 else m) 0))

/-- The record that goes next into a queue: a continuation ahead of any other (R220). -/
def State.nextHeld (s : State) (q : Nat) : Option HeldRec :=
  match s.heldRecs.find? fun h => h.queue == q && h.cont with
  | some h => some h
  | none => s.heldRecs.find? fun h => h.queue == q

/-- Records that wait for a slot go into the slots that have freed (R220), at most `n` of them. -/
def State.drainSome (s : State) (q : Nat) : Nat → State
  | 0 => s
  | n + 1 =>
    match s.nextHeld q with
    | none => s
    | some h =>
      if (s.queue q).full then s
      else
        match s.qeRun (s.queue q).ctx ((h.img.extractLsb' 256 48).setWidth 64) () (pushSlot q h.img h.pois) with
        | (some _, s) => { s with heldRecs := s.heldRecs.erase h }.drainSome q n
        | (none, s) => s

/-- Every record that waits for a slot and finds room goes in. -/
def State.drainHeld (s : State) (q : Nat) : State := s.drainSome q s.heldRecs.length

/-- A line leaves a core's L1, now or, where its write-back has an obstacle, late (R13, R18, R417). -/
def State.evictOrWait (s : State) (c line : Nat) : State :=
  if (s.wbStop c line).isNone then s.evict c line else { s with late := s.late ++ [.evict c line] }

/-- A late access is tried again. -/
def State.retryLate (s : State) (o : LateOp) : State :=
  match o with
  | .counter ctx job va op => s.joinOp ctx job va op
  | .evict c line => s.evictOrWait c line
  | .halt a q ctx job fw src point ops rel =>
    (match tryRun s (haltWord a ctx fw ops rel) with
     | (some (.ok _), s) => s
     | (some (.error fi), s) =>
       let r : FRec := { s.qeRec ctx job { fi with addr := BitVec.ofNat 64 fw } with
         src := src, point := point, place := placeOf a.core? }
       if a.core?.isSome then s.aim q r else s.fqWrite r
     | (none, s) => { s with late := s.late ++ [o] })

/-- A hold has ended: records and accesses that it delayed go on, in their order (R13, R379, R417). -/
def State.lateResume (s : State) : State :=
  let s := s.fqResume
  let s := s.late.foldl State.retryLate { s with late := [] }
  (s.heldRecs.map (·.queue)).eraseDups.foldl State.drainHeld s

/-- Free a held slot. -/
def State.freeSlot (s : State) (q idx : Nat) : State :=
  (s.onQueue q fun d =>
    let slots := sdel d.slots idx
    { d with slots := slots, free := advanceFree slots d.head (d.head - d.free).toNat d.free }).drainHeld q

/-- A discarded task's record returns to its held slot. -/
def State.returnSlot (s : State) (q idx crew : Nat) : State :=
  s.onQueue q fun d => { d with slots := sput d.slots idx (.returned crew) }

/-! ## Generations (R226) -/

/-- Where the generation of a job stands. -/
def State.genAt (s : State) (ctx job : Nat) : Nat := (s.ctx ctx).jtb.toNat * 2 ^ 13 + 2 * (job % 4096)

def State.genOf (s : State) (ctx job : Nat) : Nat := s.physNat (s.genAt ctx job) 2

/-- An access of the package's own to a table at a physical address: held with the traffic of its place (R13, R417), and answered
with die-absent where a fenced die homes it (R18; its detail word DEDUCED log 70). -/
def tableReach (ch : Chap) (pa : Nat) : Mx Unit := do
  let s ← getS
  if s.heldAt pa then stallOn .held
  if s.isLocal pa && s.frameHome pa == 1 && s.cachedAbsent (lineOf pa) then
    failF (ch { cls := 0x13, reason := 0, level := 0, addr := 0, map := 0, aux := 0 })

/-- Read the generation of a job (R226, R228). -/
def readGen (ctx job : Nat) : Mx Nat := do
  tableReach (chap10 0) ((← getS).genAt ctx job)
  pure ((← getS).genOf ctx job)

/-- Write the generation of a job (R270). -/
def writeGen (ctx job g : Nat) : Mx Unit := do
  tableReach (chap10 0) ((← getS).genAt ctx job)
  modS fun s => s.physWrite (s.genAt ctx job) (toBytes 2 g)

end Sys2Proof.Machine
end

