-- ==== Sys2Proof/Machine/Ops.lean ====
section
/-! DEFINITION. Named operations over sequencers and tasks: reading and writing registers, moving on, taking a fault and
returning from it (R272, R274, R400-R402), committing (R228), and the ways in which a task leaves its core. -/

namespace Sys2Proof.Machine

open Sys2Proof

/-! ## Registers and the program counter -/

/-- Read a scalar register: x0 is the clear zero (R19). -/
def Seqr.reg (x : Seqr) (r : Reg) : SVal := if r.val = 0 then SVal.zero else sget x.regs r.val SVal.zero

/-- Write a scalar register: writes to x0 are discarded (R19). -/
def Seqr.setReg (x : Seqr) (r : Reg) (v : SVal) : Seqr :=
  if r.val = 0 then x else { x with regs := sset x.regs r.val v SVal.zero }

def State.reg (s : State) (q : SeqId) (r : Reg) : SVal := (s.seqr q).reg r
def State.setReg (s : State) (q : SeqId) (r : Reg) (v : SVal) : State := s.onSeqr q (·.setReg r v)

/-- A point in the format of R62. -/
def pointOf (line : BitVec 52) (lane : Nat) : Word := BitVec.ofNat 64 (line.toNat + 4 * lane)

/-- The point of the instruction in hand. -/
def Seqr.point (x : Seqr) : Word := pointOf x.pcLine x.pcLane

/-- Next(I): the lane after the instruction's last, or lane 1 of the next line (R255). -/
def Seqr.nextPoint (x : Seqr) : Word :=
  let l := x.pcLane + x.ir.length
  if l ≤ 7 then pointOf x.pcLine l else pointOf (x.pcLine + 32) 1

/-- The sequencer has finished its instruction: the next lane, 8 past the end of the line (R61, R63). -/
def Seqr.advance (x : Seqr) : Seqr :=
  { x with pcLane := Nat.min 8 (x.pcLane + x.ir.length), wait := .none, cur := none, ir := [], kvals := [] }

/-- Go to a point in the format of R62; its line is fetched when it is reached (R62, R64). -/
def Seqr.jump (x : Seqr) (p : Word) : Seqr :=
  { x with pcLine := BitVec.ofNat 52 (p.toNat % 2 ^ 52 / 32 * 32), pcLane := p.toNat / 4 % 8, entry := p.toNat / 4 % 8,
           line := none, wait := .none, cur := none, ir := [], kvals := [] }

/-- Count a word of an open body (R239, R258). -/
def Core.countBody (x : Core) (xs : Bool) : Core :=
  match (x.seqr xs).openBundle with
  | none => x
  | some id => { x with bundles := x.bundles.map fun b => if b.id = id then { b with bodyPos := b.bodyPos + 1 } else b }

def State.advance (s : State) (q : SeqId) : State :=
  s.onCore q.core.val fun x => (x.countBody q.xs).setSeqr q.xs (x.seqr q.xs).advance
def State.jump (s : State) (q : SeqId) (p : Word) : State := s.onSeqr q (·.jump p)

/-- A sequencer stands in a stall; the clock at which it began stays while the reason stays (R245, R366). -/
def State.stalled (s : State) (q : SeqId) (k : WaitKind) : State :=
  s.onSeqr q fun x => if x.wait = k then x else { x with wait := k, waitSince := s.clock }

/-! ## Ending what a core holds -/

/-- Entries that stay when a task leaves: those that had started (R230, R400). -/
def EQueue.leave (e : EQueue) : EQueue := { e with ents := e.ents.filter fun x => x.phase ≠ .waiting, armed := none, held := [] }

def Core.anyEntry (x : Core) : Bool := allEngs.any fun e => !(x.eq e).ents.isEmpty

/-- A sequencer after its task has left. -/
def Seqr.halt (x : Seqr) : Seqr :=
  { x with status := .stopped, handler := false, wait := .none, outq := [], line := none, cur := none, ir := [],
           asyncRecs := [], openBundle := none, slotPois := false, kvals := [], entering := none }

/-- Records aimed at a sequencer that stops go to the fault queue (R401). -/
def State.flushAsync (s : State) (q : SeqId) : State :=
  let rs := (s.seqr q).asyncRecs
  let s := s.onSeqr q fun x => { x with asyncRecs := [] }
  if rs.isEmpty then s else { s with fqHeld := rs.foldl byClock s.fqHeld }.fqResume

/-- HALTED on every frontier that the open chain published and did not close; the lease expires (R172, R176). -/
def State.endChain (s : State) (c : Nat) (q : SeqId) (point : Word) (closed : Bool) : State :=
  let k := quadOf c
  let d := s.quad k
  match d.chain with
  | none => if d.holder = some c then s.setQuad k { d with holder := none } else s
  | some ch =>
    if ch.core ≠ c then s
    else
      let s := s.setQuad k { d with chain := none, holder := none }
      ch.fronts.foldl (fun s f =>
        if closed && f.close then s else s.haltFront (.quadUnit c) q (s.ctxOf c) f.fw 5 point) s

/-- The members of a team's barrier that still run (R242). -/
def State.clearCore (s : State) (c : Nat) : State :=
  let qa : SeqId := { core := Fin.ofNat 768 c, xs := false }
  let qx : SeqId := { core := Fin.ofNat 768 c, xs := true }
  let s := s.endChain c qx 0 false
  let s := (s.flushAsync qa).flushAsync qx
  let s := { s with hbars := s.hbars.map fun (h : HBar) => { h with waiters := h.waiters.filter fun (q : SeqId) => q.core.val ≠ c } }
  s.onCore c fun x =>
    let x := { x with as := x.as.halt, xs := x.xs.halt, lq := x.lq.leave, ve := x.ve.leave, sq := x.sq.leave,
                      lp := x.lp.leave, wq := x.wq.leave, cq := x.cq.leave, fifos := Fifos.reset, bundles := [],
                      stream := [], tickets := 0 }
    if x.anyEntry then { x with task := x.task.map fun t => { t with gone := true, buffered := [], carve := none } }
    else { x with task := none }

/-- A core keeps a task that has left it only while entries of it still run. -/
def State.drainCore (s : State) (c : Nat) : State :=
  s.onCore c fun x =>
    match x.task with
    | some t => if t.gone && !x.anyEntry then { x with task := none } else x
    | none => x

/-- The task becomes faulted (R400, steps 2 to 4): its slot is freed where it is still held, its buffered enqueues are
discarded, its counter is not touched. -/
def State.faultTask (s : State) (c : Nat) : State :=
  match (s.core c).task with
  | none => s.clearCore c
  | some t =>
    let s := if t.committed || t.gone then s else s.freeSlot t.queue t.slot
    s.clearCore c

/-- The task is discarded before its commit, and its record returns to its held slot (R230). -/
def State.discardTask (s : State) (c : Nat) : State :=
  match (s.core c).task with
  | none => s
  | some t => (s.returnSlot t.queue t.slot t.crew).clearCore c

/-- A fault of this very clock: the sequencer has entered its handler or enters it, or a record waits for it (R418). -/
def Seqr.metFault (x : Seqr) (clock : Nat) : Bool :=
  (x.handler && x.handlerAt == clock) || x.entering.isSome || x.asyncRecs.any (·.clock == clock)

/-- A pre-emption of the task on a core (R230, R231): a committed one runs on, and one that meets a fault of this very clock is
taken at the `eret` of its handler (R418). -/
def State.preemptTask (s : State) (c : Nat) : State :=
  let x := s.core c
  match x.task with
  | none => s
  | some t =>
    if t.committed || t.gone then s
    else if x.as.metFault s.clock || x.xs.metFault s.clock then s.onCore c fun x => { x with task := some { t with preempt := true } }
    else s.discardTask c

/-- A pre-emption that met a handled fault takes an uncommitted task when its handler returns (R418). -/
def State.preemptNow (s : State) (c : Nat) : State :=
  match (s.core c).task with
  | some t => if t.preempt && !t.committed then s.discardTask c else s
  | none => s

/-- A record that such a pre-emption met has gone to the fault queue: no handler runs or is about to, and the task is taken (R418). -/
def State.preemptMet (s : State) (c : Nat) : State :=
  let x := s.core c
  let busy (y : Seqr) : Bool := y.handler || y.entering.isSome || !y.asyncRecs.isEmpty
  if busy x.as || busy x.xs then s else s.preemptNow c

/-! ## Taking a fault, and returning from it -/

/-- The address of a sequencer's record in its context's record area (R402). -/
def State.recordAddr (s : State) (q : SeqId) : Nat :=
  (s.ctx (s.ctxOf q.core.val)).frb.toNat + 128 * q.core.val + (if q.xs then 64 else 0)

/-- The record area write of R402: a plain 64-byte store. Its `Release(.core)` is the wait of `enterHandler`. -/
def writeRecord (q : SeqId) (r : FRec) : Mx Unit := do
  let s ← getS
  let c := s.ctx r.ctx
  if c.frb = 0 then failF (mkFault 0 0)
  vwrite (chap13 0) (.core q.core.val) r.ctx (s.recordAddr q) 64 (r.toBytes64 c.fseq) false
  modS (·.onCtx r.ctx fun c => { c with fseq := c.fseq + 1 })

/-- A fault that cannot be delivered (R400). -/
def State.unhandled (s : State) (q : SeqId) (r : FRec) : State := (s.fqWrite r).faultTask q.core.val

/-- The record is written: the sequencer enters handler mode (R272, steps 1 to 4), once the `Release(.core)` that follows the record
is complete, that is once the core's writes to other packages are acknowledged (R333, R402). -/
def State.enterHandler (s : State) (q : SeqId) (resume : Word) : State :=
  let a := w64 (s.recordAddr q)
  if 0 < (s.core q.core.val).remoteOut then
    s.onSeqr q fun x => { x with entering := some resume, wait := .release, waitSince := s.clock }
  else
    s.onSeqr q fun x =>
      { x with frec := a, tepc := resume, handler := true, handlerAt := s.clock, entering := none }.jump (w64 (x.tvec.toNat + 4))

/-- TAKING A FAULT OR A TRAP, precise at a sequencer (R272, R400): the handler where `tvec` ≠ 0, the sequencer is not in
handler mode and the record area can be written, and otherwise unhandled. A hold on the record area stalls. -/
def State.takeFault (s : State) (q : SeqId) (r : FRec) (resume : Word) : State :=
  let x := s.seqr q
  if x.tvec = 0 ∨ x.handler then s.unhandled q r
  else
    match writeRecord q r s with
    | .ok _ s => s.enterHandler q resume
    | .error (.fault _) s => s.unhandled q r
    | .error (.faultAt _ _) s => s.unhandled q r
    | .error (.stall k) _ => s.stalled q k

/-- The record of a precise fault at the instruction in hand. -/
def State.seqRec (s : State) (q : SeqId) (point : Word) (f : FaultInfo) : FRec :=
  s.mkRec q.core.val (if q.xs then 1 else 0) point false f

/-- A precise fault at the instruction in hand: the handler resumes at the instruction itself (R272). -/
def State.precise (s : State) (q : SeqId) (f : FaultInfo) : State :=
  s.takeFault q (s.seqRec q (s.seqr q).point f) (s.seqr q).point

/-- RETURNING: leave handler mode and continue at the target in `tepc`, checked as R257 checks it (R274). -/
def eretAt (q : SeqId) : Mx Unit := do
  let x := (← getS).seqr q
  check x.handler 2 0x7B
  let t := x.tepc.toNat
  if fld t 2 3 = 0 ∨ fld t 0 2 ≠ 0 then raise 4 0x78 0 t
  if fld t 52 12 ≠ 0 then raise 5 0x79 0 t
  modS fun s => (s.onSeqr q fun x => { x with handler := false }.jump x.tepc).preemptNow q.core.val

/-- The outcome of a sequencer instruction's effect: a stall leaves the state as it was, a fault is taken. -/
def runSeq (q : SeqId) (m : Mx Unit) (s : State) : Host.Outcome State Fault Refusal :=
  match m s with
  | .ok _ s' => .next s'
  | .error (.stall k) _ => .next (s.stalled q k)
  | .error (.fault f) s' => .next (s'.precise q f)
  | .error (.faultAt p f) s' => .next (s'.takeFault q (s'.seqRec q p f) p)

/-- An instruction that continues at the next lane. -/
def runNext (q : SeqId) (m : Mx Unit) (s : State) : Host.Outcome State Fault Refusal :=
  runSeq q (do m; modS (·.advance q)) s

/-! ## Commit (R228, R229, R268) -/

/-- The job id and generation of a `jobid` word (R276). -/
def jobOf (j : Word) : Nat := j.toNat % 2 ^ 32
def genField (j : Word) : Nat := fld j.toNat 32 16
/-- LSCOPE of a flags field (R217). -/
def lscopeOf (j : Word) : Scope := if fld j.toNat 53 2 = 1 then .pod else .pkg

/-- The gate of a launch record: its assay group, where it is flagged GATED (R209, R217). -/
def gateOf (spawn : Bool) (flags : Nat) : Option Nat := if !spawn && fld flags 13 1 == 1 then some (fld flags 7 6) else none

/-- Hand an enqueue to the queue engine (R227). -/
def State.handOver (s : State) (e : Enq) : State :=
  { s with launches := s.launches ++
      [{ enq := e, next := 0, trig := e.trig, gate := gateOf e.spawn (fld e.img.toNat 304 16), counted := false }] }

/-- Commit the task of a core; answers whether its generation is stale (R228, R268). -/
def commitTask (c : Nat) : Mx Bool := do
  let s ← getS
  match (s.core c).task with
  | none => pure false
  | some t =>
    match t.commitStale with
    | some b => pure b
    | none =>
      let g ← readGen t.ctx (jobOf t.jobid)
      if g ≠ genField t.jobid then
        modS (·.onCore c fun x => { x with task := some { t with buffered := [], commitStale := some true } })
        pure true
      else
        if !t.buffered.isEmpty then release c .pkg
        modS fun s =>
          let s := s.onCore c fun x =>
            { x with task := some { t with buffered := [], committed := true, commitAt := s.clock, watchAt := s.clock, commitStale := some false } }
          (t.buffered.foldl State.handOver s).freeSlot t.queue t.slot
        pure false

/-- An implicit commit: a stale generation raises cancelled (R228). -/
def implicitCommit (c : Nat) : Mx Unit := do
  if ← commitTask c then raise 0x18 0x75

end Sys2Proof.Machine
end

