-- ==== Sys2Proof/Machine/Operands.lean ====
section
/-! DEFINITION. Operand forms of sequencer words and of engine words: scalar registers, constant-bank words and literals
(R22, R73-R76, R246, R247). -/

namespace Sys2Proof.Machine

open Sys2Proof

/-- The constant base of a core: CB of its carve-out word (R218, R276). -/
def Core.cbase (x : Core) : Nat := fld x.carvew.toNat 16 36 * 65536

/-- A constant-bank word, read through `Mem` at routing (R75; DEDUCED log 44). -/
def constWord (q : SeqId) (k : Fin 8192) : Mx SVal := do
  let s ← getS
  let c := q.core.val
  let r ← vread chapFetch (.core c) (s.ctxOf c) ((s.core c).cbase + 8 * k.val) 8 8
  pure { v := BitVec.ofNat 64 (ofBytes r.1), p := r.2 }

/-- The value of an operand of a sequencer word; a constant as captured at routing, where it has been (R75, R246). -/
def opd (q : SeqId) (o : SOpd) : Mx SVal := do
  match o with
  | .reg r => pure ((← getS).reg q r)
  | .const k =>
    match ((← getS).seqr q).kvals.find? (·.1 == k.val) with
    | some r => pure r.2
    | none => constWord q k
  | .lit v => pure { v := v.signExtend 64, p := false }

/-- A checked operand: poison raises poison-sync with the operand's index (R247). -/
def chk (q : SeqId) (o : SOpd) (index : Nat) : Mx Word := do
  let v ← opd q o
  check (!v.p) 0x0A 0x77 index
  pure v.v

/-- A checked operand of chapter 13 (R337). -/
def chk13 (q : SeqId) (o : SOpd) : Mx Word := do
  let v ← opd q o
  check (!v.p) 0x0A 0x9A
  pure v.v

/-- A checked operand with a class and cause of its own chapter. -/
def chkBy (q : SeqId) (o : SOpd) (cls cause : Nat) (index : Nat := 0) : Mx Word := do
  let v ← opd q o
  check (!v.p) cls cause index
  pure v.v

/-- Write the destination. -/
def wr (q : SeqId) (d : Reg) (v : Word) (p : Bool := false) : Mx Unit := modS (·.setReg q d { v := v, p := p })

/-- The scalar value that an engine word captures: a register, a constant-bank word, a literal; a vector register
captures nothing (R22, R75). -/
def capture (q : SeqId) (o : EOpd) : Mx SVal := do
  match o with
  | .vec _ => pure SVal.zero
  | .reg r => pure ((← getS).reg q r)
  | .const k => constWord q k
  | .lit v => pure { v := v.signExtend 64, p := false }

/-- An address of chapter 13: base and displacement (R335). -/
def addr13 (q : SeqId) (a : Reg) (disp : BitVec 32) : Mx Nat := do
  let b ← chk13 q (.reg a)
  pure (b + disp.signExtend 64).toNat

/-- Bytes of a size (R336). -/
def sizeBytes : Size → Nat
  | .b => 1
  | .h => 2
  | .w => 4
  | .d => 8

end Sys2Proof.Machine
end

