-- ==== Sys2Proof/Machine/Fetch.lean ====
section
/-! DEFINITION. Walking the lanes of a fetched line (R58-R63), decoding with the faults of R82-R84, and what a sequencer
does next. -/

namespace Sys2Proof

/-- The constant-bank word that an operand names. -/
def SOpd.consts : SOpd → List (Fin 8192)
  | .const k => [k]
  | _ => []

/-- The constant-bank operands of a sequencer word (R75). -/
def seqConsts : Instr → List (Fin 8192)
  | .add _ x1 x2 => x1.consts ++ x2.consts
  | .sub _ x1 x2 => x1.consts ++ x2.consts
  | .mul _ x1 x2 => x1.consts ++ x2.consts
  | .mulh _ x1 x2 => x1.consts ++ x2.consts
  | .mulhn _ x1 x2 => x1.consts ++ x2.consts
  | .div _ x1 x2 => x1.consts ++ x2.consts
  | .divn _ x1 x2 => x1.consts ++ x2.consts
  | .rem _ x1 x2 => x1.consts ++ x2.consts
  | .remn _ x1 x2 => x1.consts ++ x2.consts
  | .and _ x1 x2 => x1.consts ++ x2.consts
  | .or _ x1 x2 => x1.consts ++ x2.consts
  | .xor _ x1 x2 => x1.consts ++ x2.consts
  | .andn _ x1 x2 => x1.consts ++ x2.consts
  | .orn _ x1 x2 => x1.consts ++ x2.consts
  | .shl _ x1 x2 => x1.consts ++ x2.consts
  | .shr _ x1 x2 => x1.consts ++ x2.consts
  | .sra _ x1 x2 => x1.consts ++ x2.consts
  | .rol _ x1 x2 => x1.consts ++ x2.consts
  | .ror _ x1 x2 => x1.consts ++ x2.consts
  | .min _ x1 x2 => x1.consts ++ x2.consts
  | .max _ x1 x2 => x1.consts ++ x2.consts
  | .minn _ x1 x2 => x1.consts ++ x2.consts
  | .maxn _ x1 x2 => x1.consts ++ x2.consts
  | .clz _ x1 => x1.consts
  | .ctz _ x1 => x1.consts
  | .popc _ x1 => x1.consts
  | .bfx _ x1 x2 _ => x1.consts ++ x2.consts
  | .bfi _ x1 x2 _ => x1.consts ++ x2.consts
  | .sel _ x1 x2 _ => x1.consts ++ x2.consts
  | .cmp _ _ x1 x2 => x1.consts ++ x2.consts
  | .lea _ x1 x2 _ => x1.consts ++ x2.consts
  | .lit _ x1 => x1.consts
  | .loopx _ x1 => x1.consts
  | .bopush x1 => x1.consts
  | .launch _ _ x1 => x1.consts
  | .spawn _ _ x1 => x1.consts
  | .cancel _ x1 => x1.consts
  | .csrw _ x1 => x1.consts
  | .carve x1 => x1.consts
  | .wait _ _ x1 => x1.consts
  | .amo _ _ _ x1 _ _ _ => x1.consts
  | .cas _ _ x1 _ _ => x1.consts
  | .famo _ _ _ x1 _ _ => x1.consts
  | .tlwait _ x1 _ => x1.consts
  | .fpub _ x1 _ => x1.consts
  | .fchase _ _ x1 _ => x1.consts
  | .bar _ x1 => x1.consts
  | .bars _ x1 => x1.consts
  | .hbar _ x1 => x1.consts
  | .hoff _ _ _ x1 => x1.consts
  | .take _ _ x1 => x1.consts
  | .fereset _ x1 => x1.consts
  | .cwb _ x1 => x1.consts
  | .cinv _ x1 => x1.consts
  | .permit _ x1 _ => x1.consts
  | .shset _ x1 _ => x1.consts
  | .lease x1 => x1.consts
  | .asyreg _ x1 _ => x1.consts
  | .asyget _ x1 _ => x1.consts
  | .crload _ _ x1 => x1.consts
  | _ => []

end Sys2Proof

namespace Sys2Proof.Machine

open Sys2Proof

/-- A lane's word (R58). -/
def FLine.lane (l : FLine) (i : Nat) : Nat := (l.bytes.extractLsb' (32 * i) 32).toNat

/-- Nibble `i` of the header (R59, R60). -/
def FLine.code (l : FLine) (i : Nat) : Nat := l.lane 0 / 2 ^ (4 * i) % 16

/-- End of stream (R60). -/
def FLine.eos (l : FLine) : Bool := l.code 0 % 2 == 1

/-- The line as the words of its lanes. -/
def lineOfWords (addr : Nat) (ws : List Nat) : FLine :=
  { addr := addr, bytes := BitVec.ofNat 256 (ws.foldr (fun w acc => w % 2 ^ 32 + 2 ^ 32 * acc) 0), pois := false }

/-- The class that a header code selects (R59). -/
def clsOf (xs : Bool) : Nat → Option Cls
  | 1 => some (.seq xs)
  | 3 => some .lq
  | 4 => some .ve
  | 5 => some .sq
  | 6 => some .lp
  | 7 => some .wq
  | 8 => some .cq
  | _ => none

/-- Lanes with code 2 that follow directly. -/
def contCount (l : FLine) : Nat → Nat → Nat
  | 0, _ => 0
  | n + 1, i => if 8 ≤ i then 0 else if l.code i = 2 then contCount l n (i + 1) + 1 else 0

/-- What the walk of a line meets next. -/
inductive Walked
  /-- no word is left in the line -/
  | gone
  /-- a fault at the first word in lane `first`; `lane` is the lane at fault (R83, R84) -/
  | bad (first lane cls cause : Nat)
  | word (lane : Nat) (words : List Nat) (k : Cls) (i : Instr)
  deriving DecidableEq, Repr

/-- Walk from a lane (R59, R61, R82). -/
def walkLine (xs : Bool) (l : FLine) : Nat → Nat → Walked
  | 0, _ => .gone
  | n + 1, i =>
    if 8 ≤ i then .gone
    else
      let code := l.code i
      if code = 0 then walkLine xs l n (i + 1)
      else if code = 2 then .bad i i 1 0x03
      else
        match clsOf xs code with
        | none => .bad i i 1 0x01
        | some k =>
          let m := contCount l 7 (i + 1)
          if 4 ≤ m then .bad i (i + 4) 1 0x04
          else
            let cs := (List.range m).map fun j => l.lane (i + 1 + j)
            match decode k (l.lane i) cs with
            | .bad cls cause j => .bad i (i + j) cls cause
            | .ok ins => .word i (l.lane i :: cs) k ins

/-- The detail word of a fault of R82 (R84). -/
def lineDetail (word hdr lane cause : Nat) : Nat := word * 2 ^ 32 + hdr * 2 ^ 11 + lane % 8 * 2 ^ 8 + cause

/-- In bring-up service no word is routed to LP, WQ or CQ (R426). -/
def bringUpRefuses (s : State) (k : Cls) : Bool := s.syc.state < 5 && (k = .lp || k = .wq || k = .cq)

/-- Latch the instruction in hand. -/
def Seqr.latch (x : Seqr) (lane : Nat) (words : List Nat) (i : Instr) : Seqr :=
  let x := { x with pcLane := lane, cur := some i, ir := words, irLane := lane }
  { x with next := x.nextPoint }

/-- Capture the constant-bank operands of the word that is being routed, once (R75; check 10 of R82). -/
def captureConsts (q : SeqId) (i : Instr) : Mx Unit :=
  (seqConsts i).forM fun k => do
    let v ← constWord q k
    modS (·.onSeqr q fun x => { x with kvals := sput x.kvals k.val v })

/-- The word in hand is routed: its constants are captured where that has not been done, and a fault of such a read is raised
at its lane; none while a hold delays the read (R13, R75, R82). -/
def State.routeWord (s : State) (q : SeqId) (i : Instr) : Option (Instr × State) :=
  if !(s.seqr q).kvals.isEmpty then some (i, s)
  else
    match captureConsts q i s with
    | .ok _ s' => some (i, s')
    | .error (.stall _) _ => none
    | .error (.fault f) s' => some (.faultDelivery q f, s')
    | .error (.faultAt _ f) s' => some (.faultDelivery q f, s')

/-- A sequencer at a line in hand: the instruction to execute, or the fault, or the end of the line (R61-R63, R82); none while a
constant-bank read is held. -/
def State.routeLane (s : State) (q : SeqId) (l : FLine) : Option (Instr × State) :=
  let x := s.seqr q
  if 2 ≤ l.code 0 then
    some (.faultDelivery q (mkFault 1 (lineDetail (l.lane 0) 0x10 x.entry 0x02)), s.onSeqr q fun x => { x with pcLane := x.entry })
  else
    match walkLine q.xs l 8 x.pcLane with
    | .gone => some (if l.eos then (.streamEnd q, s) else (.lineFetch q false, s.onSeqr q fun x => { x with pcLane := 8 }))
    | .bad first lane cls cause =>
      if x.slotPois then
        some (.faultDelivery q (mkFault 0x0A (detailOf 0 5 0x77)), s.onSeqr q fun x => { x with pcLane := first, slotPois := false })
      else
        some (.faultDelivery q (mkFault cls (lineDetail (l.lane lane) (l.code lane) lane cause)),
          s.onSeqr q fun x => { x with pcLane := first })
    | .word lane words k i =>
      if x.slotPois then
        some (.faultDelivery q (mkFault 0x0A (detailOf 0 5 0x77)), s.onSeqr q fun x => { x with pcLane := lane, slotPois := false })
      else if bringUpRefuses s k then
        some (.faultDelivery q (mkFault 2 (lineDetail (l.lane lane) (l.code lane) lane 0xD0)),
          s.onSeqr q fun x => { x with pcLane := lane })
      else (s.onSeqr q fun x => x.latch lane words i).routeWord q i

/-- The event that ends a wait, where the wait has one of its own; other stalls execute their instruction again (R245). -/
def wakeOf (q : SeqId) : WaitKind → Option Instr
  | .waitLine => some (.waitEnd q false)
  | .cell => some (.fullEmptyWaitEnd (.seq q))
  | .timeline => some (.tlwaitReturn q)
  | .chase => some (.chaseSatisfied (.seq q))
  | .barrier => some (.barwWake q)
  | .hbar => some (.hbarPhaseEnd q 0)
  | .take => some (.takeReturn q)
  | _ => none

/-- A wait that only another event ends (R208, R211). -/
def waitsOutside : WaitKind → Bool
  | .assay => true
  | .crier => true
  | _ => false

/-- A record waits, and the stall in hand lets it in (R401); one raised in this very clock lets a precise fault of the clock go
first (R418). -/
def asyncDue (clock : Nat) (x : Seqr) : Bool :=
  match x.asyncRecs with
  | [] => false
  | r :: _ => decide (r.clock < clock) && !x.inEffect

/-- What a sequencer does next; none where it has nothing to do. -/
def State.seqNext (s : State) (q : SeqId) : Option (Instr × State) :=
  let x := s.seqr q
  let s := { s with focus := q }
  if x.status = .stopped then none
  else if asyncDue s.clock x then some (.asyncFaultDelivery q, s)
  else if x.entering.isSome then some (.faultDelivery q (mkFault 0 0), s)
  else if x.status = .suspended then none
  else
    match wakeOf q x.wait with
    | some i => some (i, s)
    | none =>
      if waitsOutside x.wait then none
      else
        match x.line with
        | none => some (.lineFetch q false, s)
        | some l => s.routeLane q l

end Sys2Proof.Machine
end

