-- ==== Sys2Proof/Machine/Route.lean ====
section
/-! DEFINITION. Token FIFOs (R23, R24), routing an engine word into its queue (R20-R22), and loop bundles (R236-R239). -/

namespace Sys2Proof.Machine

open Sys2Proof

/-! ## Tokens (R23) -/

def allFifos : List Fifo := [.lqVe, .veLq, .lqLp, .lpLq, .veSq, .sqVe, .lpSq, .sqLp]

def Fifos.get (f : Fifos) : Fifo → Nat
  | .lqVe => f.lqVe | .veLq => f.veLq | .lqLp => f.lqLp | .lpLq => f.lpLq
  | .veSq => f.veSq | .sqVe => f.sqVe | .lpSq => f.lpSq | .sqLp => f.sqLp
def Fifos.set (f : Fifos) (k : Fifo) (n : Nat) : Fifos :=
  match k with
  | .lqVe => { f with lqVe := n } | .veLq => { f with veLq := n } | .lqLp => { f with lqLp := n }
  | .lpLq => { f with lpLq := n } | .veSq => { f with veSq := n } | .sqVe => { f with sqVe := n }
  | .lpSq => { f with lpSq := n } | .sqLp => { f with sqLp := n }

/-- The engines that a FIFO joins: producer, consumer. -/
def Fifo.ends : Fifo → Eng × Eng
  | .lqVe => (.lq, .ve) | .veLq => (.ve, .lq) | .lqLp => (.lq, .lp) | .lpLq => (.lp, .lq)
  | .veSq => (.ve, .sq) | .sqVe => (.sq, .ve) | .lpSq => (.lp, .sq) | .sqLp => (.sq, .lp)

/-- The token bits of an engine instruction. -/
def tokBits : Instr → Option (Tok ⊕ Tok1)
  | .vadd t .. => some (.inl t)
  | .vsub t .. => some (.inl t)
  | .vmul t .. => some (.inl t)
  | .vfma t .. => some (.inl t)
  | .vdiv t .. => some (.inl t)
  | .vsqrt t .. => some (.inl t)
  | .vabs t .. => some (.inl t)
  | .vneg t .. => some (.inl t)
  | .vmin t .. => some (.inl t)
  | .vmax t .. => some (.inl t)
  | .vand t .. => some (.inl t)
  | .vor t .. => some (.inl t)
  | .vxor t .. => some (.inl t)
  | .vshl t .. => some (.inl t)
  | .vshr t .. => some (.inl t)
  | .vsra t .. => some (.inl t)
  | .vcmp t .. => some (.inl t)
  | .vsel t .. => some (.inl t)
  | .vmov t .. => some (.inl t)
  | .vbcast t .. => some (.inl t)
  | .vperm t .. => some (.inl t)
  | .vslide t .. => some (.inl t)
  | .vredsum t .. => some (.inl t)
  | .vredmax t .. => some (.inl t)
  | .vredmin t .. => some (.inl t)
  | .vscan t .. => some (.inl t)
  | .vdot t .. => some (.inl t)
  | .vwmul t .. => some (.inl t)
  | .vcvt t .. => some (.inl t)
  | .vcvtef t .. => some (.inl t)
  | .vexp2 t .. => some (.inl t)
  | .vlog2 t .. => some (.inl t)
  | .vrcp t .. => some (.inl t)
  | .vrsqrt t .. => some (.inl t)
  | .vtmin t .. => some (.inl t)
  | .vtmex t .. => some (.inl t)
  | .vtmerge t .. => some (.inl t)
  | .tmtab t .. => some (.inl t)
  | .tmshape t .. => some (.inl t)
  | .vsortk t .. => some (.inl t)
  | .vsegsum t .. => some (.inl t)
  | .vpushc t .. => some (.inl t)
  | .vpopc t .. => some (.inl t)
  | .vchain t .. => some (.inl t)
  | .mlog t .. => some (.inl t)
  | .mpopc t .. => some (.inl t)
  | .mfirst t .. => some (.inl t)
  | .vld t .. => some (.inr t)
  | .vldg t .. => some (.inr t)
  | .vldt t .. => some (.inr t)
  | .vldfe t .. => some (.inr t)
  | .vst t .. => some (.inr t)
  | .vsts t .. => some (.inr t)
  | .vstt t .. => some (.inr t)
  | .vstfe t .. => some (.inr t)
  | .vamo t .. => some (.inr t)
  | .chainb t => some (.inl t)
  | .chaine t .. => some (.inl t)
  | .mma t .. => some (.inl t)
  | .mmaz t .. => some (.inl t)
  | .accz t .. => some (.inl t)
  | .accst t .. => some (.inl t)
  | .accld t .. => some (.inl t)
  | _ => none

/-- The FIFOs that an entry pops before it starts: from the left, from the right (R24). -/
def waitFifos (e : Eng) (i : Instr) : List Fifo :=
  match e, tokBits i with
  | .ve, some (.inl t) => (if t.wl then [.lqVe] else []) ++ (if t.wr then [.sqVe] else [])
  | .lp, some (.inl t) => (if t.wl then [.lqLp] else []) ++ (if t.wr then [.sqLp] else [])
  | .lq, some (.inr t) => if t.w then [if t.lp then .lpLq else .veLq] else []
  | .sq, some (.inr t) => if t.w then [if t.lp then .lpSq else .veSq] else []
  | _, _ => []

/-- The FIFOs that an entry pushes when it has completed (R24). -/
def signalFifos (e : Eng) (i : Instr) : List Fifo :=
  match e, tokBits i with
  | .ve, some (.inl t) => (if t.sl then [.veLq] else []) ++ (if t.sr then [.veSq] else [])
  | .lp, some (.inl t) => (if t.sl then [.lpLq] else []) ++ (if t.sr then [.lpSq] else [])
  | .lq, some (.inr t) => if t.s then [if t.lp then .lqLp else .lqVe] else []
  | .sq, some (.inr t) => if t.s then [if t.lp then .sqLp else .sqVe] else []
  | _, _ => []

/-! ## Entering a queue (R20, R21) -/

/-- The entry takes the next timeline number of its queue. -/
def Core.enqueue (x : Core) (e : Eng) (n : Entry) : Core :=
  let q := x.eq e
  x.setEq e { q with ents := q.ents ++ [{ n with num := q.nextNum }], nextNum := q.nextNum + 1 }

/-- The queue has no room (R20, R21). -/
def EQueue.full (q : EQueue) (e : Eng) : Bool := e.depth ≤ q.ents.length

/-- What an engine word captures at routing. -/
structure Caps where
  a : SVal
  b : SVal
  c : SVal
  ta : TensCap
  tb : TensCap
  tc : TensCap
  ks : BitVec 256
  ksPois : BitVec 8
  hasKs : Bool
  deriving DecidableEq, Repr

def Caps.none : Caps :=
  { a := SVal.zero, b := SVal.zero, c := SVal.zero, ta := Option.none, tb := Option.none, tc := Option.none,
    ks := 0, ksPois := 0, hasKs := false }

/-- The entry that a routed word becomes (R22, R146, R164). -/
def State.entryOf (s : State) (q : SeqId) (i : Instr) (k : Caps) : Entry :=
  let x := s.core q.core.val
  { num := 0, instr := i, words := (s.seqr q).ir, xs := q.xs, a := k.a, b := k.b, c := k.c, ta := k.ta, tb := k.tb,
    tc := k.tc, tms := x.tms, tmq := x.tmq, ks := k.ks, ksPois := k.ksPois, hasKs := k.hasKs, phase := .waiting,
    iter := none, pos := 0, units := 0, bytes := 0, flags := 0, asy := [], since := none, olds := [], wrote := 0 }

/-! ## Bundles (R236-R239) -/

/-- The body that a sequencer is routing; a handler that runs inside it is no part of it (DEDUCED log 23). -/
def Seqr.inBody (x : Seqr) : Option Nat := if x.handler then none else x.openBundle

def Core.bundle (x : Core) (id : Nat) : Option Bundle := x.bundles.find? (·.id == id)
def Core.setBundle (x : Core) (b : Bundle) : Core :=
  { x with bundles := x.bundles.map fun o => if o.id = b.id then b else o }

/-- Half a queue's depth (R239). -/
def halfDepth (e : Eng) : Nat := e.depth / 2

/-- Count the tokens of a body word. -/
def addToks (toks : List Int) (e : Eng) (i : Instr) : List Int :=
  allFifos.zipIdx.map fun f =>
    toks.getD f.2 0 + (if f.1 ∈ signalFifos e i then 1 else 0) - (if f.1 ∈ waitFifos e i then 1 else 0)

/-- A body word joins its queue's template; the first refusal is kept for the end of the body (R239). -/
def Bundle.addWord (b : Bundle) (e : Eng) (n : Entry) : Bundle :=
  let pos := b.bodyPos + 1
  let note (b : Bundle) (cause : Nat) : Bundle := if b.bad.isSome then b else { b with bad := some (cause, e.hdr, pos) }
  match b.arms.find? (·.1 == e.code) with
  | none => note b 0x71
  | some (_, arm) =>
    let arm := { arm with template := arm.template ++ [n] }
    let b := { b with arms := sput b.arms e.code arm, toks := addToks b.toks e n.instr }
    if halfDepth e < arm.template.length then note b 0x72 else b

/-- A FIFO between armed queues that an iteration leaves unbalanced (R239). -/
def Bundle.unbalanced (b : Bundle) : Option Fifo :=
  (allFifos.zipIdx.find? fun f =>
    shas b.arms f.1.ends.1.code && shas b.arms f.1.ends.2.code && b.toks.getD f.2 0 != 0).map (·.1)

/-- The refusal of a body, when all of it has been routed: CAUSE, header code, position (R239; DEDUCED log 24). -/
def Bundle.refusal (b : Bundle) : Option (Nat × Nat × Nat) :=
  match b.bad with
  | some r => some r
  | none => b.unbalanced.map fun f => (0x71, f.ends.1.hdr, 0)

/-- Take a bundle away with its armed counters. -/
def Core.dropBundle (x : Core) (id : Nat) : Core :=
  let x := allEngs.foldl (fun x e => if (x.eq e).armed = some id then x.setEq e { x.eq e with armed := none } else x) x
  { x with bundles := x.bundles.filter (·.id != id) }

/-- Refuse the open bundle, precise at its `loopb` (R239, R244). -/
def refuseBundle {α : Type} (q : SeqId) (b : Bundle) (cause hdr pos : Nat) : Mx α := do
  modS fun s => s.onCore q.core.val fun x =>
    let x := x.dropBundle b.id
    x.setSeqr q.xs { x.seqr q.xs with openBundle := none }
  throw (.faultAt b.point (mkFault 0x16 (detailOf hdr pos cause)))

/-- A transfer of control inside a body is refused (R239). -/
def noBody (q : SeqId) : Mx Unit := do
  let s ← getS
  match (s.seqr q).inBody with
  | none => pure ()
  | some id =>
    match (s.core q.core.val).bundle id with
    | none => pure ()
    | some b => refuseBundle q b 0x73 1 (b.bodyPos + 1)

/-- An entry of iteration `i` has completed (R236, R237). -/
def BArm.count (a : BArm) (i : Nat) : BArm :=
  { a with completed := a.completed + 1, byIter := sput a.byIter i (sget a.byIter i 0 + 1) }

/-- A queue still has iterations to produce (R232, R236). -/
def Bundle.producing (b : Bundle) : Bool :=
  !b.ended && !b.routing && b.count != 0 && b.arms.any fun a => !a.2.template.isEmpty && decide (a.2.produced ≤ b.last)

/-- A queue's part of a bundle has completed every iteration (R236). -/
def Bundle.armDone (b : Bundle) (arm : BArm) : Bool :=
  b.count == 0 || arm.template.isEmpty || arm.template.length * (b.last + 1) ≤ arm.completed

/-- A bundle whose queues have all completed ends: its queues are armed no longer (R236). -/
def Core.endBundles (x : Core) : Core :=
  x.bundles.foldl (fun x b =>
    if !b.ended && !b.routing && b.arms.all (fun a => b.armDone a.2) then
      let x := allEngs.foldl (fun x e => if (x.eq e).armed = some b.id then x.setEq e { x.eq e with armed := none } else x) x
      x.setBundle { b with ended := true }
    else x) x

/-- The end label is reached: check the body, and let the bundle run (R236, R239, R259). -/
def closeBody (q : SeqId) (b : Bundle) : Mx Unit := do
  match b.refusal with
  | some (cause, hdr, pos) => refuseBundle q b cause hdr pos
  | none =>
    modS fun s => s.onCore q.core.val fun x =>
      let x := (x.setBundle { b with routing := false }).setSeqr q.xs { x.seqr q.xs with openBundle := none }
      x.endBundles

/-- Route an engine word: its operands are captured, and it enters its queue, or joins the open body's template; a full
queue stalls, after the constant-bank reads of check 10 have been made; a halted queue discards it (R21, R22, R75, R82, R236,
R404). -/
def route (e : Eng) (i : Instr) (cap : SeqId → Mx Caps) (s : State) : Host.Outcome State Fault Refusal :=
  let q := s.focus
  let c := q.core.val
  runNext q (do
    let s ← getS
    let x := s.core c
    match (s.seqr q).inBody.bind x.bundle with
    | some b =>
      let k ← cap q
      modS fun s => s.onCore c fun x => x.setBundle (b.addWord e (s.entryOf q i k))
    | none =>
      let k ← cap q
      if !(x.eq e).halted && (x.eq e).full e then stallOn .queueFull
      modS fun s => s.onCore c fun x =>
        if (x.eq e).halted then x.setEq e { x.eq e with nextNum := (x.eq e).nextNum + 1 }
        else x.enqueue e (s.entryOf q i k)) s

/-- Capture scalar operands and table entries (R22, R164). -/
def capABC (a b c : EOpd) (ta tb tc : Option TEnt) (q : SeqId) : Mx Caps := do
  let a ← capture q a
  let b ← capture q b
  let c ← capture q c
  let x := (← getS).core q.core.val
  let t (o : Option TEnt) : TensCap := o.bind fun n => x.tent n.val
  pure { Caps.none with a := a, b := b, c := c, ta := t ta, tb := t tb, tc := t tc }

/-- No operand. -/
def noE : EOpd := .vec 0

/-- Capture up to three operands of an engine word. -/
def caps (a : EOpd := noE) (b : EOpd := noE) (c : EOpd := noE) (ta : Option TEnt := none) (tb : Option TEnt := none)
    (tc : Option TEnt := none) : SeqId → Mx Caps := capABC a b c ta tb tc

end Sys2Proof.Machine
end

