-- ==== Sys2Proof/Machine/Scalar.lean ====
section
/-! DEFINITION. Sequencer arithmetic, logic, bit fields, compares, addresses and literals (R249-R255, R282). -/

namespace Sys2Proof.Machine

open Sys2Proof

/-- The value of a two-operand instruction, with the poison of its sources (R247, R250). -/
def arith2 (d : Reg) (a b : SOpd) (f : Word → Word → Word) (s : State) : Out :=
  let q := s.focus
  runNext q (do
    let x ← opd q a
    let y ← opd q b
    wr q d (f x.v y.v) (x.p || y.p)) s

/-- The value of a one-operand instruction. -/
def arith1 (d : Reg) (a : SOpd) (f : Word → Word) (s : State) : Out :=
  let q := s.focus
  runNext q (do
    let x ← opd q a
    wr q d (f x.v) x.p) s

/-- Division truncates toward zero; by zero all ones; overflow wraps to -2^63 (R251). -/
def divS (x y : Word) : Word := if y = 0 then BitVec.allOnes 64 else BitVec.ofInt 64 (x.toInt.tdiv y.toInt)
def divU (x y : Word) : Word := if y = 0 then BitVec.allOnes 64 else BitVec.ofNat 64 (x.toNat / y.toNat)
/-- The remainder takes the sign of the dividend (R251). -/
def remS (x y : Word) : Word := if y = 0 then x else BitVec.ofInt 64 (x.toInt.tmod y.toInt)
def remU (x y : Word) : Word := if y = 0 then x else BitVec.ofNat 64 (x.toNat % y.toNat)

/-- Zero bits above the highest 1 bit (R250). -/
def clzW (x : Word) : Nat := if x = 0 then 64 else 63 - Nat.log2 x.toNat
/-- Zero bits below the lowest 1 bit (R250). -/
def ctzW (x : Word) : Nat := if x = 0 then 64 else Nat.log2 (x &&& (0 - x)).toNat
/-- Number of 1 bits (R250). -/
def popcW (x : Word) : Nat := (List.range 64).countP fun k => x.getLsbD k

/-- A bit field, zero-extended; bits at 64 or above read as 0 (R252). -/
def bfxW (x : Word) (p w : Nat) : Word := if 64 ≤ p then 0 else BitVec.ofNat 64 (x.toNat / 2 ^ p % 2 ^ w)
/-- Replace a bit field; bits that would land at 64 or above are discarded (R252). -/
def bfiW (old x : Word) (p w : Nat) : Word :=
  if 64 ≤ p then old
  else
    let m := BitVec.ofNat 64 ((2 ^ w - 1) * 2 ^ p)
    (old &&& ~~~m) ||| (BitVec.ofNat 64 (x.toNat % 2 ^ w * 2 ^ p))

/-- The conditions of `cmp` (R253). -/
def condW (c : Cond) (x y : Word) : Bool :=
  match c with
  | .eq => x == y
  | .ne => x != y
  | .lt => decide (x.toInt < y.toInt)
  | .ge => decide (y.toInt ≤ x.toInt)
  | .ltn => decide (x.toNat < y.toNat)
  | .gen => decide (y.toNat ≤ x.toNat)

/-- `nop` has no effect (R282). -/
def execNop (s : State) : Out := runNext s.focus (pure ()) s

/-- add (R250). -/
def execAdd (d : Reg) (a b : SOpd) (s : State) : Out := arith2 d a b (fun x y => x + y) s
/-- sub (R250). -/
def execSub (d : Reg) (a b : SOpd) (s : State) : Out := arith2 d a b (fun x y => x - y) s
/-- mul (R250). -/
def execMul (d : Reg) (a b : SOpd) (s : State) : Out := arith2 d a b (fun x y => x * y) s
/-- mulh (R250). -/
def execMulh (d : Reg) (a b : SOpd) (s : State) : Out := arith2 d a b (fun x y => BitVec.ofInt 64 (x.toInt * y.toInt / 2 ^ 64)) s
/-- mulhn (R250). -/
def execMulhn (d : Reg) (a b : SOpd) (s : State) : Out := arith2 d a b (fun x y => BitVec.ofNat 64 (x.toNat * y.toNat / 2 ^ 64)) s
/-- div (R251). -/
def execDiv (d : Reg) (a b : SOpd) (s : State) : Out := arith2 d a b (fun x y => divS x y) s
/-- divn (R251). -/
def execDivn (d : Reg) (a b : SOpd) (s : State) : Out := arith2 d a b (fun x y => divU x y) s
/-- rem (R251). -/
def execRem (d : Reg) (a b : SOpd) (s : State) : Out := arith2 d a b (fun x y => remS x y) s
/-- remn (R251). -/
def execRemn (d : Reg) (a b : SOpd) (s : State) : Out := arith2 d a b (fun x y => remU x y) s
/-- and (R250). -/
def execAnd (d : Reg) (a b : SOpd) (s : State) : Out := arith2 d a b (fun x y => x &&& y) s
/-- or (R250). -/
def execOr (d : Reg) (a b : SOpd) (s : State) : Out := arith2 d a b (fun x y => x ||| y) s
/-- xor (R250). -/
def execXor (d : Reg) (a b : SOpd) (s : State) : Out := arith2 d a b (fun x y => x ^^^ y) s
/-- andn (R250). -/
def execAndn (d : Reg) (a b : SOpd) (s : State) : Out := arith2 d a b (fun x y => x &&& ~~~y) s
/-- orn (R250). -/
def execOrn (d : Reg) (a b : SOpd) (s : State) : Out := arith2 d a b (fun x y => x ||| ~~~y) s
/-- shl (R250). -/
def execShl (d : Reg) (a b : SOpd) (s : State) : Out := arith2 d a b (fun x y => x <<< (y.toNat % 64)) s
/-- shr (R250). -/
def execShr (d : Reg) (a b : SOpd) (s : State) : Out := arith2 d a b (fun x y => x >>> (y.toNat % 64)) s
/-- sra (R250). -/
def execSra (d : Reg) (a b : SOpd) (s : State) : Out := arith2 d a b (fun x y => x.sshiftRight (y.toNat % 64)) s
/-- rol (R250). -/
def execRol (d : Reg) (a b : SOpd) (s : State) : Out := arith2 d a b (fun x y => x.rotateLeft (y.toNat % 64)) s
/-- ror (R250). -/
def execRor (d : Reg) (a b : SOpd) (s : State) : Out := arith2 d a b (fun x y => x.rotateRight (y.toNat % 64)) s
/-- min (R250). -/
def execMin (d : Reg) (a b : SOpd) (s : State) : Out := arith2 d a b (fun x y => if x.toInt ≤ y.toInt then x else y) s
/-- max (R250). -/
def execMax (d : Reg) (a b : SOpd) (s : State) : Out := arith2 d a b (fun x y => if x.toInt ≤ y.toInt then y else x) s
/-- minn (R250). -/
def execMinn (d : Reg) (a b : SOpd) (s : State) : Out := arith2 d a b (fun x y => if x.toNat ≤ y.toNat then x else y) s
/-- maxn (R250). -/
def execMaxn (d : Reg) (a b : SOpd) (s : State) : Out := arith2 d a b (fun x y => if x.toNat ≤ y.toNat then y else x) s
/-- clz (R250). -/
def execClz (d : Reg) (a : SOpd) (s : State) : Out := arith1 d a (fun x => w64 (clzW x)) s
/-- ctz (R250). -/
def execCtz (d : Reg) (a : SOpd) (s : State) : Out := arith1 d a (fun x => w64 (ctzW x)) s
/-- popc (R250). -/
def execPopc (d : Reg) (a : SOpd) (s : State) : Out := arith1 d a (fun x => w64 (popcW x)) s

/-- `bfx` (R252). -/
def execBfx (d : Reg) (a b : SOpd) (wid : Fin 64) (s : State) : Out := arith2 d a b (fun x y => bfxW x y.toNat (wid.val + 1)) s

/-- `bfi` reads its destination too, poison included (R247, R252). -/
def execBfi (d : Reg) (a b : SOpd) (wid : Fin 64) (s : State) : Out :=
  let q := s.focus
  runNext q (do
    let x ← opd q a
    let y ← opd q b
    let old := (← getS).reg q d
    wr q d (bfiW old.v x.v y.v.toNat (wid.val + 1)) (x.p || y.p || old.p)) s

/-- `sel`: poison comes from the condition and the selected source (R253). -/
def execSel (d : Reg) (a b : SOpd) (c : Reg) (s : State) : Out :=
  let q := s.focus
  runNext q (do
    let x ← opd q a
    let y ← opd q b
    let z := (← getS).reg q c
    let r := if z.v ≠ 0 then x else y
    wr q d r.v (z.p || r.p)) s

/-- `cmp` (R253). -/
def execCmp (cc : Cond) (d : Reg) (a b : SOpd) (s : State) : Out := arith2 d a b (fun x y => if condW cc x y then 1 else 0) s

/-- `lea` (R254). -/
def execLea (d : Reg) (a b : SOpd) (sh : Fin 8) (s : State) : Out := arith2 d a b (fun x y => x + y <<< sh.val) s

/-- `lit` of one operand (R255). -/
def execLit (d : Reg) (a : SOpd) (s : State) : Out := arith1 d a (fun x => x) s

/-- `lit` with a high word: V word + H x 2^32 (R255; DEDUCED log 45). -/
def execLitWide (d : Reg) (lo hi : Word32) (s : State) : Out :=
  let q := s.focus
  runNext q (wr q d (BitVec.ofNat 64 (lo.toNat + hi.toNat * 2 ^ 32))) s

end Sys2Proof.Machine
end

