-- ==== Sys2Proof/Machine/Control.lean ====
section
/-! DEFINITION. Transfers of control, loop bundles and branch outcomes (R256-R261). -/

namespace Sys2Proof.Machine

open Sys2Proof

/-- The target of a J or C word: lane 1 of the line `off` lines on; outside [0, 2^52) is refused before anything else (R68). -/
def lineTarget (q : SeqId) (off : Int) : Mx Word := do
  let t : Int := ((← getS).seqr q).pcLine.toNat + 32 * off
  if t < 0 ∨ (2 ^ 52 : Int) ≤ t then raise 5 0x79
  pure (w64 (t.toNat + 4))

/-- A register-held target: entry lane and low bits, then the high bits (R257; DEDUCED log 46). -/
def regTarget (v : Word) : Mx Unit := do
  let t := v.toNat
  if fld t 2 3 = 0 ∨ fld t 0 2 ≠ 0 then raise 4 0x78 1 t
  if fld t 52 12 ≠ 0 then raise 5 0x79 1 t

/-- Go there: a transfer of control ends no body (R239). -/
def goTo (q : SeqId) (p : Word) : Mx Unit := do
  modS (·.jump q p)

/-- `br` (R256). -/
def execBr (off : BitVec 25) (s : State) : Out :=
  let q := s.focus
  runSeq q (do
    let t ← lineTarget q off.toInt
    noBody q
    goTo q t) s

/-- A branch on a register: target, then poison, then the condition (R68, R247, R256). -/
def condBranch (a : Reg) (off : BitVec 20) (taken : Word → Bool) (s : State) : Out :=
  let q := s.focus
  runSeq q (do
    let t ← lineTarget q off.toInt
    let v ← chk q (.reg a) 1
    noBody q
    if taken v then goTo q t else modS (·.advance q)) s

/-- `bc.z` (R256). -/
def execBcZ (a : Reg) (off : BitVec 20) (s : State) : Out := condBranch a off (· == 0) s
/-- `bc.nz` (R256). -/
def execBcNz (a : Reg) (off : BitVec 20) (s : State) : Out := condBranch a off (· != 0) s

/-- `call`: x30 receives Next (R256). -/
def execCall (off : BitVec 25) (s : State) : Out :=
  let q := s.focus
  runSeq q (do
    let t ← lineTarget q off.toInt
    noBody q
    wr q 30 ((← getS).seqr q).next
    goTo q t) s

/-- A transfer through a register (R257). -/
def regJump (a : Reg) (s : State) : Out :=
  let q := s.focus
  runSeq q (do
    let v ← chk q (.reg a) 1
    regTarget v
    noBody q
    goTo q v) s

/-- `ret` (R257). -/
def execRet (a : Reg) (s : State) : Out := regJump a s
/-- `jr` (R257). -/
def execJr (a : Reg) (s : State) : Out := regJump a s

/-! ## Loop bundles -/

/-- The arms of an arming word (R258). -/
def armsOf (a : Arming) : List (Eng × Nat) :=
  [(Eng.lq, a.lq), (.ve, a.ve), (.sq, a.sq), (.lp, a.lp), (.wq, a.wq), (.cq, a.cq)].filterMap fun p => p.2.map fun k => (p.1, k.val)

/-- A bundle as `loopb` arms it. -/
def newBundle (id : Nat) (xs : Bool) (count : Nat) (point : Word) (words : List Nat) (endLine : Nat)
    (arms : List (Eng × Nat)) : Bundle :=
  { id := id, xs := xs, count := count, point := point, words := words, endLine := endLine, routing := true,
    last := count - 1, ended := false,
    arms := arms.foldl (fun m a => sput m a.1.code { skew := a.2, template := [], produced := 0, pos := 0, completed := 0, byIter := [] }) [],
    toks := List.replicate 8 0, bodyPos := 0, bad := none }

/-- `loopb` (R258, R259): checks, the stall on an armed queue (R236), then the queues are armed and the body is open. It is
no word of its own body (R244). -/
def execLoopb (a : Reg) (off : BitVec 20) (arm : Arming) (s : State) : Out :=
  let q := s.focus
  let c := q.core.val
  runSeq q (do
    let t ← lineTarget q off.toInt
    let n ← chk q (.reg a) 1
    noBody q
    if 2 ^ 32 ≤ n.toNat then raise 2 0x7A 1 n.toNat
    let x := (← getS).core c
    let arms := armsOf arm
    if arms.any fun e => (x.eq e.1).armed.isSome then stallOn .armed
    modS fun s => s.onCore c fun x =>
      let id := x.nextBundle
      let y := x.seqr q.xs
      let b := newBundle id q.xs n.toNat y.point y.ir (t.toNat / 32 * 32) arms
      let x := { x with nextBundle := id + 1, bundles := (x.bundles.filter fun (o : Bundle) => !(o.ended && o.xs == q.xs)) ++ [b] }
      let x := arms.foldl (fun x e => x.setEq e.1 { x.eq e.1 with armed := some id }) x
      x.setSeqr q.xs { y.advance with openBundle := some id, lastBundle := some id }) s

/-- The highest iteration started by any armed queue, plus 1 (R238). -/
def Bundle.started (b : Bundle) : Nat :=
  b.arms.foldl (fun m a => Nat.max m (a.2.produced + (if a.2.pos = 0 then 0 else 1))) 0

/-- `loopx` (R238, R260). A second one of a bundle never raises the last iteration that an earlier one cut, whose squash stands, and a
bundle that has been refused counts as none armed (DESIGN CHOICE log 88). -/
def execLoopx (d : Reg) (a : SOpd) (s : State) : Out :=
  let q := s.focus
  let c := q.core.val
  runNext q (do
    let n ← chk q a 1
    let x := (← getS).core c
    match (x.seqr q.xs).lastBundle.bind x.bundle with
    | none => wr q d (BitVec.allOnes 64)
    | some b =>
      if b.count = 0 then wr q d (BitVec.allOnes 64)
      else if b.ended then wr q d (w64 b.last)
      else
        let last := Nat.min b.last (Nat.max n.toNat (b.started - 1))
        modS fun s => s.onCore c fun x => (x.setBundle { b with last := last }).endBundles
        wr q d (w64 last)) s

/-- A queue may start an iteration: every armed queue has completed iteration i - skew - 1, all its entries of it (R237). -/
def Bundle.mayStart (b : Bundle) (skew i : Nat) : Bool :=
  i ≤ skew || b.arms.all fun a => a.2.template.isEmpty || a.2.template.length ≤ sget a.2.byIter (i - skew - 1) 0

/-- An armed queue produces the next entry of its template (R236, R237; an iteration starts with its first entry, DEDUCED log 24). -/
def execLoopIteration (c : CoreId) (e : Eng) (s : State) : Out :=
  let x := s.core c.val
  match (x.eq e).armed.bind x.bundle with
  | none => .next s
  | some b =>
    match b.arms.find? (·.1 == e.code) with
    | none => .next s
    | some (_, arm) =>
      match arm.template[arm.pos]? with
      | none => .next s
      | some n =>
        if b.routing ∨ b.ended ∨ b.count = 0 ∨ b.last < arm.produced ∨ !b.mayStart arm.skew arm.produced ∨
            (!(x.eq e).halted ∧ (x.eq e).full e) then .next s
        else
          let wrap := arm.pos + 1 = arm.template.length
          let arm' := { arm with pos := if wrap then 0 else arm.pos + 1, produced := if wrap then arm.produced + 1 else arm.produced }
          .next (s.onCore c.val fun x =>
            let x := x.setBundle { b with arms := sput b.arms e.code arm' }
            if (x.eq e).halted then x.setEq e { x.eq e with nextNum := (x.eq e).nextNum + 1 }
            else x.enqueue e { n with iter := some (b.id, arm.produced) })

/-! ## Branch outcomes -/

/-- `bopush` (R25, R261). -/
def execBopush (a : SOpd) (s : State) : Out :=
  let q := s.focus
  runNext q (do
    let v ← chk q a 1
    if 16 ≤ ((← getS).seqr q).outq.length then stallOn .outcome
    modS (·.onSeqr q fun x => { x with outq := x.outq ++ [v != 0] })) s

/-- `bobc`: pops the other sequencer's oldest outcome; an empty queue stalls (R25, R261; no prediction, DEDUCED log 9). -/
def execBobc (a : Reg) (off : BitVec 20) (s : State) : Out :=
  let q := s.focus
  let o : SeqId := { q with xs := !q.xs }
  runSeq q (do
    let t ← lineTarget q off.toInt
    noBody q
    match ((← getS).seqr o).outq with
    | [] => stallOn .outcome
    | b :: rest =>
      modS (·.onSeqr o fun x => { x with outq := rest })
      wr q a (if b then 1 else 0)
      if b then goTo q t else modS (·.advance q)) s

end Sys2Proof.Machine
end

