-- ==== Sys2Proof/Machine/Tasks.lean ====
section
/-! DEFINITION. Instructions that create, suspend, commit, cancel and end tasks (R262-R271). -/

namespace Sys2Proof.Machine

open Sys2Proof

/-! ## Records (R213-R218) -/

/-- A 64-bit word of a record image. -/
def imgWord {n : Nat} (img : BitVec n) (off : Nat) : Nat := (img.extractLsb' (8 * off) 64).toNat

/-- A carve-out word is legal (R26, R218). -/
def carveOk (v : Nat) : Bool := fld v 52 12 == 0 && fld v 3 13 == 0 && fld v 0 3 ≤ 4

/-- An entry line: bits [4:0] and [63:52] zero. -/
def lineOk (v : Nat) : Bool := fld v 0 5 == 0 && fld v 52 12 == 0

/-- The flags of a record (R217). -/
def flagsOf (w32 : Nat) : Nat := fld w32 48 16
def kindOf (flags : Nat) : Nat := fld flags 14 2
def lscopeCode (flags : Nat) : Nat := fld flags 5 2
def anOf (flags : Nat) : Nat := fld flags 0 5

/-- The reserved fields and codes that `launch` refuses with CAUSE 0x7D (R213, R262). -/
def launchRecOk (img : BitVec 2048) : Bool :=
  let f := flagsOf (imgWord img 32)
  lineOk (imgWord img 0) && lineOk (imgWord img 8) && fld (imgWord img 24) 52 12 == 0 && fld (imgWord img 40) 50 14 == 0 &&
    fld (imgWord img 56) 8 56 == 0 && kindOf f == 0 && lscopeCode f ≤ 1 && anOf f == 0 && carveOk (imgWord img 48)

/-- The reserved fields and codes that `spawn` refuses with CAUSE 0x7D (R264). -/
def spawnRecOk (img : BitVec 2048) : Bool :=
  let f := flagsOf (imgWord img 32)
  imgWord img 56 == 0 && ((List.range 8).all fun k => imgWord img (192 + 8 * k) == 0) && kindOf f ≤ 1 && fld f 13 1 == 0 &&
    fld f 7 6 == 0 && lscopeCode f ≤ 1 && anOf f == 0 && lineOk (imgWord img 0) && lineOk (imgWord img 8) &&
    fld (imgWord img 24) 52 12 == 0 && carveOk (imgWord img 48)

/-- Read a record or a block of a sequencer instruction: poison is CAUSE 0x77, INDEX 5 (R262-R264). -/
def readBlock (q : SeqId) (va n al index : Nat) : Mx Nat := do
  let c := q.core.val
  let ch : Chap := fun f => if f.cls = 4 then f.withDetail (detailOf va index 0x78) else chap10 5 f
  let ctx := (← getS).ctxOf c
  let rs ← (List.range ((n + 63) / 64)).mapM fun k => vread ch (.core c) ctx (va + 64 * k) (Nat.min n 64) al
  check (!rs.any (·.2)) 0x0A 0x77 5
  pure (ofBytes (rs.flatMap (·.1)))

/-- The checks on a record's counter address (R213, R262, R264; DEDUCED log 54). -/
def joinCheck (q : SeqId) (join : Nat) : Mx Unit := do
  if join ≠ 0 then
    let c := q.core.val
    let t ← resolve (chap10 5) (.core c) ((← getS).ctxOf c) .rw join
    if t.effHome ≠ 1 ∧ t.effHome ≠ 4 then failF (mkFault 9 0)

/-- The trigger block (R263). -/
def readTrigger (q : SeqId) (va : Nat) : Mx (Option Trigger) := do
  if va = 0 then pure none
  else
    let c := q.core.val
    let w ← readBlock q va 16 16 2
    let w0 := w % 2 ^ 64
    let sc := fld w0 52 4
    if fld w0 56 8 ≠ 0 ∨ (sc ≠ 3 ∧ sc ≠ 4) then raise 3 0x7D 5
    let cnt := fld w0 0 52
    if cnt % 8 ≠ 0 then raise 4 0x78 5 cnt
    let t ← resolve (chap10 5) (.core c) ((← getS).ctxOf c) .r cnt
    if t.effHome = 0 ∨ t.effHome = 3 then failF { mkFault 7 (detailOf cnt 5 0x7F) with addr := w64 cnt }
    pure (some { cnt := cnt, thr := w / 2 ^ 64, sc := scopeD sc })

/-- Buffer an enqueue before commit, or hand it over (R228, R229, R262). -/
def enqueueTask (c : Nat) (e : Enq) : Mx Unit := do
  match ((← getS).core c).task with
  | none => pure ()
  | some t =>
    if !t.committed && t.buffered.length < 16 then
      modS (·.onCore c fun x => { x with task := some { t with buffered := t.buffered ++ [e] } })
    else
      if !t.committed then implicitCommit c
      release c .pkg
      modS (·.handOver e)

/-- `launch` (R262, R263). -/
def execLaunch (d a : Reg) (b : SOpd) (s : State) : Out :=
  let q := s.focus
  let c := q.core.val
  runNext q (do
    let va ← chk q (.reg a) 1
    let vb ← chk q b 2
    let img := BitVec.ofNat 2048 (← readBlock q va.toNat 64 64 1)
    check (launchRecOk img) 3 0x7D 5
    let join := imgWord img 24
    check (join % 16 == 0) 4 0x78 5 join
    let s ← getS
    let ctx := s.ctxOf c
    let qn := imgWord img 56 % 256
    check ((s.queue qn).ctx == ctx) 6 0x7C 5 qn
    joinCheck q join
    let trg ← readTrigger q vb.toNat
    let w := imgWord img 32
    if (← readGen ctx (w % 2 ^ 32)) ≠ fld w 32 16 then wr q d 1
    else
      enqueueTask c { spawn := false, img := img, pois := 0, queue := qn, ctx := ctx, trig := trg }
      wr q d 0) s

/-- The copy of a record that `spawn` enqueues: KIND 1, job id and generation of the spawning task (R264). -/
def spawnCopy (img : BitVec 2048) (jobid : Word) : BitVec 2048 :=
  let f := fld (imgWord img 32) 48 14 + 2 ^ 14
  setWideWord img 32 (w64 (jobid.toNat % 2 ^ 48 + f * 2 ^ 48))

/-- `spawn` (R264). -/
def execSpawn (d a : Reg) (b : SOpd) (s : State) : Out :=
  let q := s.focus
  let c := q.core.val
  runNext q (do
    let va ← chk q (.reg a) 1
    let vb ← chk q b 2
    check (vb.toNat ≤ 255) 2 0x7A 2 vb.toNat
    let img := BitVec.ofNat 2048 (← readBlock q va.toNat 256 64 1)
    check (spawnRecOk img) 3 0x7D 5
    let s ← getS
    let ctx := s.ctxOf c
    check ((s.queue vb.toNat).ctx == ctx) 6 0x7C 2 vb.toNat
    let join := imgWord img 24
    check (join % 16 == 0) 4 0x78 5 join
    joinCheck q join
    let j := (← getS).jobidOf c
    if (← readGen ctx (jobOf j)) ≠ genField j then wr q d 1
    else
      enqueueTask c { spawn := true, img := spawnCopy img j, pois := 0, queue := vb.toNat, ctx := ctx, trig := none }
      wr q d 0) s

/-- `join`: the done flag is read at its home until it is nonzero (R265). -/
def execJoin (d a : Reg) (s : State) : Out :=
  let q := s.focus
  let c := q.core.val
  runNext q (do
    let va ← chk q (.reg a) 1
    check (va.toNat % 16 == 0) 4 0x78 1 va.toNat
    let t ← accessHome (chap10 1) (.core c) ((← getS).ctxOf c) .r (va.toNat + 8) 8
    let r ← readHome (.core c) t 8
    let v := ofBytes r.1
    if v = 0 then stallOn .join
    check (!r.2) 0x0A 0x77 1
    acquire c .pkg
    wr q d (w64 v)) s

/-- Stand at `suspend` (R266). -/
def standSuspend (q : SeqId) : Mx Unit :=
  modS (fun s => s.onSeqr q fun x => { x with status := .suspended, wait := .suspend, waitSince := s.clock, waitArg := 0 })

/-- `suspend` on AS: the checks on both addresses, then the pairing wait (R266, R269). -/
def execSuspendAs (a b : Reg) (an : Fin 17) (s : State) : Out :=
  let q := s.focus
  let c := q.core.val
  runSeq q (do
    let va ← chk q (.reg a) 1
    let vb ← chk q (.reg b) 2
    check (((← getS).seqr (otherSeq q)).status != .stopped) 2 0x7E
    check (va.toNat % 64 == 0) 4 0x78 1 va.toNat
    check (vb.toNat % 8 == 0) 4 0x78 2 vb.toNat
    let t ← resolve (chap10 2) (.core c) ((← getS).ctxOf c) .r vb.toNat
    if t.effHome = 0 ∨ t.effHome = 3 then failF { mkFault 7 (detailOf vb.toNat 2 0x7F) with addr := vb }
    let nx := ((← getS).seqr q).next
    modS (·.onCore c fun x => { x with task := x.task.map fun t =>
      { t with suspA := some { area := va.toNat, word := vb.toNat, an := an.val, wrote := false, done := false }, nextA := nx } })
    standSuspend q) s

/-- `suspend` on XS (R266, R269). -/
def execSuspendXs (s : State) : Out :=
  let q := s.focus
  let c := q.core.val
  runSeq q (do
    check (((← getS).seqr (otherSeq q)).status != .stopped) 2 0x7E
    let nx := ((← getS).seqr q).next
    modS (·.onCore c fun x => { x with task := x.task.map fun t => { t with nextX := nx } })
    standSuspend q) s

/-- The words of the continuation record, with the poison of the register slots (R267). -/
def contRecord (x : Core) (t : Task) (u : Susp) : List (Word × Bool) :=
  let flags := 2 * 2 ^ 14 + lscopeCode (flagsOf t.jobid.toNat) * 2 ^ 5 + u.an
  let fr := x.as.reg 31
  let slot (j : Nat) : Word × Bool :=
    let v := if j < u.an then x.as.reg (regOf (j + 1)) else x.xs.reg (regOf (j - u.an + 1))
    (v.v, v.p)
  [(t.nextA, false), (t.nextX, false), (fr.v, fr.p), (w64 t.join, false),
    (w64 (t.jobid.toNat % 2 ^ 48 + flags * 2 ^ 48), false), (t.lidx, false), (x.carvew, false), (0, false)] ++
    (List.range 16).map slot ++ List.replicate 8 (0, false)

/-- A stale task that stops sets the cancel mark of its counter, once (R228). -/
def State.cancelMark (s : State) (c : Nat) : State :=
  match (s.core c).task with
  | none => s
  | some t =>
    if t.cancel then s
    else (s.onCore c fun x => { x with task := some { t with cancel := true } }).joinOp t.ctx t.jobid t.join .mark

/-- A task retires: release at LSCOPE, its counter, its slot (R232). -/
def retireTask (c : Nat) : Mx Unit := do
  match ((← getS).core c).task with
  | none => pure ()
  | some t =>
    release c (lscopeOf t.jobid)
    modS fun s =>
      let s := s.joinSub t.ctx t.jobid t.join t.cancel
      let s := if t.committed then s else s.freeSlot t.queue t.slot
      s.clearCore c

/-- Write eight words of the record area in one 64-byte store, so that a clean sector loses old poison (R267, R303); in the
scratchpad each 16-byte cell has the poison of its own words. -/
def writeArea (c ctx va : Nat) (ws : List (Word × Bool)) : Mx Unit := do
  let t ← access (chap10 1) (.core c) ctx .w va 64
  match t with
  | .phys _ _ => writeAt (.core c) ctx t (ws.flatMap fun w => toBytes 8 w.1.toNat) (ws.any (·.2))
  | .scratch o =>
    for k in List.range 4 do
      let cell := (ws.drop (2 * k)).take 2
      writeAt (.core c) ctx (.scratch (o + 16 * k)) (cell.flatMap fun w => toBytes 8 w.1.toNat) (cell.any (·.2))

/-- The record of a suspend is written, when every entry has completed; tokens, outcomes and the switch stream are discarded (R266,
R267). -/
def suspendWrite (c : Nat) (t : Task) (u : Susp) : Mx Unit := do
  let ws := contRecord ((← getS).core c) t u
  (List.range 4).forM fun k => writeArea c t.ctx (u.area + 64 * k) ((ws.drop (8 * k)).take 8)
  modS (·.onCore c fun x => { x with
    fifos := Fifos.reset, stream := [], as := { x.as with outq := [], waitArg := 1 }, xs := { x.xs with outq := [], waitArg := 1 },
    task := x.task.map fun t => { t with suspA := some { u with wrote := true } } })

/-- `Release(.pkg)` has to wait: for acknowledgements of other packages, or for what holds a write-back (R13, R333, R417). -/
def State.releaseWaits (s : State) (c : Nat) : Bool :=
  0 < (s.core c).remoteOut || s.wbStops c (s.core c).lines == some .held

/-- The last step of a suspend: the continuation is handed to the queue engine, and the core is left. It waits while 4,096
continuations of the context wait (R266). -/
def State.suspendHand (s : State) (c : Nat) (t : Task) (u : Susp) : State :=
  if 4096 ≤ (s.ctx t.ctx).watches.length then s
  else
    (s.onCtx t.ctx fun k => { k with watches := k.watches ++
      [{ area := u.area, word := u.word, queue := t.queue, jobid := t.jobid, join := t.join }] }).clearCore c

/-- What follows the record: `Release(.pkg)`, and the hand-over (R266). -/
def suspendRelease (c : Nat) : Mx Unit := do
  release c .pkg
  modS fun s =>
    match (s.core c).task with
    | none => s
    | some t =>
      let u := (t.suspA.map fun u => { u with done := true }).getD { area := 0, word := 0, an := 0, wrote := true, done := true }
      (s.onCore c fun x => { x with task := some { t with suspA := some u } }).suspendHand c t u

/-- The end of a suspend, when every entry has completed: it goes as far as nothing holds it (R266). -/
def suspendTask (c : Nat) : Mx Unit := do
  match ((← getS).core c).task with
  | none => pure ()
  | some t =>
    match t.suspA with
    | none => pure ()
    | some u =>
      if u.done then modS (·.suspendHand c t u)
      else if u.wrote then suspendRelease c
      else
        let stale ← commitTask c
        if stale then
          modS (·.cancelMark c)
          retireTask c
        else
          suspendWrite c t u
          if !(← getS).releaseWaits c then suspendRelease c

/-- Both sequencers stand at `suspend`, and every entry has completed (R266). -/
def Core.suspendReady (x : Core) : Bool :=
  x.as.status = .suspended && x.xs.status = .suspended && !x.anyEntry && !x.bundles.any (·.producing)

/-- SUSPEND_COMPLETE (R266, R267): a hold leaves it for later; a fault of the record area is precise
at the AS `suspend`. -/
def execSuspendComplete (c : CoreId) (s : State) : Out :=
  let q : SeqId := { core := c, xs := false }
  let x := s.core c.val
  match x.task with
  | none => .next s
  | some t =>
    if !x.suspendReady ∨ t.gone then .next s
    else
      match suspendTask c.val s with
      | .ok _ s => .next s
      | .error (.stall _) _ => .next s
      | .error (.fault f) s =>
        .next (((s.onSeqr q fun x => { x with status := .live, wait := .none }).onSeqr (otherSeq q) fun x =>
          { x with waitArg := 0 }).precise q f)
      | .error (.faultAt _ f) s => .next (s.precise q f)

/-- `commit` (R228, R268). -/
def execCommit (d : Reg) (s : State) : Out :=
  let q := s.focus
  runNext q (do
    let b ← commitTask q.core.val
    wr q d (if b then 1 else 0)) s

/-- A sequencer stops: `retire` and stream end (R269). -/
def stopSeq (q : SeqId) : Mx Unit := do
  check (((← getS).seqr (otherSeq q)).status != .suspended) 2 0x7E
  let stale ← commitTask q.core.val
  modS fun s =>
    let s := s.flushAsync q
    let s := s.onSeqr q fun x => { x.advance with status := .stopped, line := none }
    if stale then s.cancelMark q.core.val else s

/-- `retire` (R228, R269). -/
def execRetire (s : State) : Out := runSeq s.focus (stopSeq s.focus) s

/-- The line in hand has no lane left and its EOS flag is set (R63). -/
def Seqr.atStreamEnd (x : Seqr) (xs : Bool) : Bool :=
  match x.line with
  | none => false
  | some l => x.status = .live && l.eos && walkLine xs l 8 x.pcLane = .gone

/-- Stream end counts as `retire`; a refused one is recorded at the line with entry lane 0 (R63, R269). -/
def execStreamEnd (q : SeqId) (s : State) : Out :=
  let x := s.seqr q
  if !x.atStreamEnd q.xs then .next s
  else
    match (do noBody q; stopSeq q : Mx Unit) s with
    | .ok _ s => .next s
    | .error (.stall k) _ => .next (s.stalled q k)
    | .error (.fault f) s => .next (s.takeFault q (s.seqRec q (pointOf x.pcLine 0) f) (pointOf x.pcLine 0))
    | .error (.faultAt p f) s => .next (s.takeFault q (s.seqRec q p f) p)

/-- `cancel` (R233, R270). -/
def execCancel (d : Reg) (a : SOpd) (s : State) : Out :=
  let q := s.focus
  let c := q.core.val
  runNext q (do
    let v ← chk q a 1
    implicitCommit c
    let s ← getS
    let ctx := s.ctxOf c
    let job := v.toNat % 2 ^ 32
    let g := ((← readGen ctx job) + 1) % 2 ^ 16
    writeGen ctx job g
    wr q d (w64 g)) s

/-- `yield` (R230, R271). -/
def execYield (s : State) : Out :=
  let q := s.focus
  let c := q.core.val
  runSeq q (do
    check (!((← getS).seqr q).handler) 2 0x7B
    match ((← getS).core c).task with
    | some t => if t.committed then modS (·.advance q) else modS (·.discardTask c)
    | none => modS (·.advance q)) s

end Sys2Proof.Machine
end

