-- ==== Sys2Proof/Machine/System.lean ====
section
/-! DEFINITION. Traps, control registers, carve-out, instruction fetch, waiting, and the delivery of faults
(R64, R242, R272-R281, R400-R402). -/

namespace Sys2Proof.Machine

open Sys2Proof

/-- `trap`: a record of class 0x00, resuming at Next (R273). -/
def execTrap (code : Fin 64) (s : State) : Out :=
  let q := s.focus
  let x := s.seqr q
  if x.handler then runSeq q (raise 2 0x7B) s
  else .next (s.takeFault q (s.seqRec q x.point (mkFault 0 (detailOf code.val 0 0x80))) x.next)

/-- `eret` (R274). In an open body its use is refused as an unbalanced loop before its mode is looked at (DESIGN CHOICE log 94). -/
def execEret (s : State) : Out :=
  let q := s.focus
  runSeq q (do noBody q; eretAt q) s

/-- `cctl` (R277). -/
def Core.cctl (x : Core) : Word := w64 (x.as.handler.toNat * 2 ^ 63 + x.xs.handler.toNat * 2 ^ 62 + x.tmq.toNat)

/-- The value of a control register (R276). -/
def State.csrValue (s : State) (q : SeqId) (k : Csr) : Word :=
  let c := q.core.val
  let x := s.core c
  let y := x.seqr q.xs
  match k with
  | .pkgno => w64 s.pkg.toNat
  | .cctl => x.cctl
  | .cflags => w64 x.cflags.toNat
  | .cbase => w64 x.cbase
  | .carvew => x.carvew
  | .jobid => s.jobidOf c
  | .lidx => match x.task with | none => 0 | some t => t.lidx
  | .tvec => y.tvec
  | .tepc => y.tepc
  | .frec => y.frec
  | .clock => w64 s.clock
  | .chto => w64 (s.die (dieOf c)).chto.toNat

/-- `csrr` (R275, R276). -/
def execCsrr (d : Reg) (c : Csr) (s : State) : Out :=
  let q := s.focus
  runNext q (do wr q d ((← getS).csrValue q c)) s

/-- `csrw` (R275-R278). -/
def execCsrw (c : Csr) (a : SOpd) (s : State) : Out :=
  let q := s.focus
  runNext q (do
    let v ← chk q a 1
    match c with
    | .cctl =>
      check (fld v.toNat 1 61 == 0) 3 0x7D 1 v.toNat
      modS (·.onCore q.core.val fun x => { x with tmq := v.getLsbD 0 })
    | .cflags => modS (·.onCore q.core.val fun x => x.clearFlags v)
    | .tvec =>
      check (lineOk v.toNat) 4 0x78 1 v.toNat
      modS (·.onSeqr q fun x => { x with tvec := v })
    | .tepc => modS (·.onSeqr q fun x => { x with tepc := v })
    | _ => pure ()) s

/-! ## Carve-out (R242, R279) -/

/-- The code of a value of C (R26). -/
def carveCode (v : Nat) : Option Nat :=
  match v with
  | 0 => some 0 | 8 => some 1 | 16 => some 2 | 32 => some 3 | 64 => some 4 | _ => none

/-- The cores on which the current members of a core's team run (R242). -/
def State.teamCores (s : State) (c : Nat) : List Nat :=
  match (s.core c).task with
  | none => []
  | some t => ((List.range 4).map fun k => c / 4 * 4 + k).filter fun o =>
      match (s.core o).task with
      | none => false
      | some u => u.team = t.team && !u.gone

/-- The code with which a member has arrived. -/
def State.carveOf (s : State) (c : Nat) : Option (Bool × Nat) := (s.core c).task.bind (·.carve)

/-- A member leaves the barrier. -/
def State.leaveCarve (s : State) (c : Nat) : State :=
  s.onCore c fun x => { x with task := x.task.map fun t => { t with carve := none } }

/-- The sequencer of core `o` that stands at `carve`. -/
def carveSeq (o : Nat) (xs : Bool) : SeqId := { core := Fin.ofNat 768 o, xs := xs }

/-- The members that have arrived: core, sequencer, and code. -/
def State.carveArrivals (s : State) (c : Nat) : List (Nat × Bool × Nat) :=
  (s.teamCores c).filterMap fun o => (s.carveOf o).map fun a => (o, a.1, a.2)

/-- A member whose team agrees on C: it is applied, and the member goes on; where a line that leaves its L1 has its home in an absent
die, the member faults instead, and its carve-out stays (R18, R28, R242; DESIGN CHOICE log 98). -/
def State.carveMember (s : State) (o : Nat) (xs : Bool) (cc : Nat) : State :=
  if s.wbStops o (s.carveLines o cc) = some .absent then
    (s.leaveCarve o).precise (carveSeq o xs) (mkFault 0x13 (detailOf 0 0 0x93))
  else ((s.carveTo o cc).leaveCarve o).advance (carveSeq o xs)

/-- The barrier has every member: one C is applied on each core, differing values fault at each member (R242). -/
def State.carveMeet (s : State) (c : Nat) : State :=
  let arr := s.carveArrivals c
  if arr.all fun a => a.2.2 = ((s.carveOf c).map (·.2)).getD 0 then arr.foldl (fun s a => s.carveMember a.1 a.2.1 a.2.2) s
  else arr.foldl (fun s a => (s.leaveCarve a.1).precise (carveSeq a.1 a.2.1) (mkFault 0x10 0x76)) s

/-- The barrier has every member, and meets once no line that leaves an L1 is behind a hold (R13, R242). -/
def State.carveMeetOrWait (s : State) (q : SeqId) : State :=
  if (s.carveArrivals q.core.val).any fun a => s.wbStops a.1 (s.carveLines a.1 a.2.2) = some .held then s.stalled q .held
  else s.carveMeet q.core.val

/-- `carve`: arrive, and proceed when every current member of the team has arrived (R242, R279; DESIGN CHOICE log 67). -/
def execCarve (a : SOpd) (s : State) : Out :=
  let q := s.focus
  let c := q.core.val
  match (do
      let v ← chk q a 1
      match carveCode v.toNat with
      | none => raise 3 0x7D 1 v.toNat
      | some k => pure k : Mx Nat) s with
  | .error (.fault f) s' => .next (s'.precise q f)
  | .error (.faultAt _ f) s' => .next (s'.precise q f)
  | .error (.stall k) _ => .next (s.stalled q k)
  | .ok k s =>
    match s.carveOf c with
    | some (xs, _) =>
      if xs ≠ q.xs then .next (s.stalled q .carve)
      else if (s.teamCores c).all fun o => (s.carveOf o).isSome then .next (s.carveMeetOrWait q)
      else .next (s.stalled q .carve)
    | none =>
      let s := s.onCore c fun x => { x with task := x.task.map fun t => { t with carve := some (q.xs, k) } }
      if (s.teamCores c).all fun o => (s.carveOf o).isSome then .next (s.carveMeetOrWait q) else .next (s.stalled q .carve)

/-! ## Fetch and waiting -/

/-- `fencei`: every line fetched beyond the instruction's own is discarded (R280). -/
def execFencei (s : State) : Out := runNext s.focus (modS (·.onSeqr s.focus fun x => { x with ibuf := [] })) s

/-- The line that `wait` watches: none on memory-side and uncached pages, where no write is observed (R281). -/
def watchedLine : Target → Option Nat
  | .scratch o => some (2 ^ 48 + o / 128)
  | .phys pa l => if l.effHome = 3 ∨ l.effHome = 4 then none else some (lineOf pa)

/-- Start or end the watch of a sequencer (R281). -/
def State.watchLine (s : State) (q : SeqId) (line : Option Nat) : State :=
  let rest := s.waits.filter (·.seq ≠ q)
  { s with waits := match line with | some l => { seq := q, line := l, hit := false } :: rest | none => rest }

/-- `wait`: translates its address, then stalls for at most b clocks (R281). `waitArg` holds the limit. -/
def execWait (d a : Reg) (b : SOpd) (s : State) : Out :=
  let q := s.focus
  let c := q.core.val
  runSeq q (do
    let va ← chk q (.reg a) 1
    let n ← chk q b 2
    check (n.toNat < 2 ^ 24) 2 0x7A 2 n.toNat
    let t ← resolve (chap10 1) (.core c) ((← getS).ctxOf c) .r va.toNat
    if n = 0 then
      wr q d 0
      modS (·.advance q)
    else
      modS fun s => (s.onSeqr q fun x => { x with wait := .waitLine, waitSince := s.clock, waitArg := n.toNat }).watchLine q (watchedLine t)) s

/-- WAIT_END: a write to the line, or the eviction of the core's copy where the event says so, ends the wait with 1, its
limit with 0 (R281). -/
def execWaitEnd (q : SeqId) (written : Bool) (s : State) : Out :=
  let x := s.seqr q
  match x.wait, x.cur with
  | .waitLine, some (.wait d _ _) =>
    let w := s.waits.find? (·.seq = q)
    if w.any (·.hit) || (written && w.isSome) then .next (((s.setReg q d { v := 1, p := false }).advance q).watchLine q none)
    else if x.waitSince + x.waitArg ≤ s.clock then .next (((s.setReg q d SVal.zero).advance q).watchLine q none)
    else .next s
  | _, _ => .next s

/-- The next line in sequence, where the line in hand is over (R62). -/
def Seqr.nextLine (x : Seqr) : Nat × Nat :=
  match x.line with
  | none => (x.pcLine.toNat, x.pcLane)
  | some _ => (x.pcLine.toNat + 32, 1)

/-- Fetch a line with one 32-byte read; poison is raised at the entry lane (R64). -/
def fetchLine (q : SeqId) (addr lane : Nat) : Mx FLine := do
  let a : Agent := .fetch q
  let t ← access chapFetch a ((← getS).ctxOf q.core.val) .x addr 32
  let r ← readAt a t 32
  if r.2 then failF (mkFault 0x0A (lineDetail 0 0x10 lane 0x23))
  pure { addr := addr, bytes := BitVec.ofNat 256 (ofBytes r.1), pois := false }

/-- LINE_FETCH: `stale` takes a line fetched earlier, which is allowed until `fencei` (R64, R280); only a line that the sequencer
has really fetched can be an old one (DESIGN CHOICE log 83). The end label of an open body closes it (R236, R259). -/
def execLineFetch (q : SeqId) (stale : Bool) (s : State) : Out :=
  let x := s.seqr q
  let n := x.nextLine
  let ended := match x.line with | none => true | some l => !l.eos && walkLine q.xs l 8 x.pcLane = .gone
  if x.status ≠ .live ∨ !ended ∨ (x.wait ≠ .none ∧ x.wait ≠ .held) then .next s
  else
    match (do
        match x.inBody.bind (s.core q.core.val).bundle with
        | some b => if n.1 == b.endLine && n.2 == 1 then closeBody q b
        | none => pure ()
        if stale && shas x.ibuf n.1 then pure (sget x.ibuf n.1 (lineOfWords 0 []))
        else fetchLine q n.1 n.2 : Mx FLine) s with
    | .ok l s => .next (s.onSeqr q fun x =>
        { x with pcLine := BitVec.ofNat 52 n.1, pcLane := n.2, entry := n.2, line := some l, ibuf := sput x.ibuf n.1 l, wait := .none })
    | .error (.stall k) _ => .next (s.stalled q k)
    | .error (.fault f) s =>
      let p := w64 (n.1 + 4 * n.2)
      .next ((s.onSeqr q fun x => { x with wait := .none }).takeFault q (s.seqRec q p f) p)
    | .error (.faultAt p f) s => .next (s.takeFault q (s.seqRec q p f) p)

/-! ## Delivery -/

/-- FAULT_DELIVERY: the fault that walking the line found, precise at the lane in hand (R83, R272, R400); or the end of a delivery
whose record is written: the handler is entered once the release is complete (R402). -/
def execFaultDelivery (q : SeqId) (f : FaultInfo) (s : State) : Out :=
  let x := s.seqr q
  match x.entering with
  | some p => .next (if 0 < (s.core q.core.val).remoteOut then s else s.enterHandler q p)
  | none => if x.status = .live then .next (s.precise q f) else .next s

/-- Where a sequencer resumes after an asynchronous record: the lane it stands at (R401). -/
def Seqr.boundary (x : Seqr) : Option Word :=
  if x.pcLane ≤ 7 then some x.point
  else match x.line with
    | some l => if l.eos then none else some (pointOf (x.pcLine + 32) 1)
    | none => some (pointOf (x.pcLine + 32) 1)

/-- A stall ends without effect when a record is delivered (R401). -/
def State.endStall (s : State) (q : SeqId) : State :=
  s.onCore q.core.val fun x =>
    let y := x.seqr q.xs
    let x := x.setSeqr q.xs { y with status := .live, wait := .none }
    match x.task with
    | none => x
    | some t =>
      let t := if y.status = .suspended && !q.xs then { t with suspA := none } else t
      let t := match t.carve with
        | some (xs, _) => if xs = q.xs then { t with carve := none } else t
        | none => t
      { x with task := some t }

/-- Another record of the context was raised before this one and has not reached its destination (R401). -/
def State.mustFollow (s : State) (r : FRec) : Bool := s.asyncBehind r || s.fqHeld.any fun o => o.ctx = r.ctx && o.clock < r.clock

/-- The oldest record aimed at a sequencer, taken out, goes to its handler, or to the fault queue; none where its area is held. -/
def State.deliver (s : State) (q : SeqId) (r : FRec) : Option State :=
  let x := s.seqr q
  match x.boundary with
  | none => some (s.fqWrite r)
  | some p =>
    if x.deaf then some (s.fqWrite r)
    else
      match writeRecord q r s with
      | .ok _ s => some ((s.endStall q).enterHandler q p)
      | .error (.stall _) _ => none
      | .error _ s => some (s.fqWrite r)

/-- ASYNC_FAULT_DELIVERY: the oldest record aimed at a sequencer goes to its handler, or to the fault queue (R401, R418);
records of the context that stood behind it go on, and a pre-emption that met it takes the task where no handler does. -/
def execAsyncFaultDelivery (q : SeqId) (s : State) : Out :=
  match (s.seqr q).asyncRecs with
  | [] => .next s
  | r :: rest =>
    if s.mustFollow r then .next s
    else .next (match (s.onSeqr q fun x => { x with asyncRecs := rest }).deliver q r with
      | some t => t.fqResume.preemptMet q.core.val
      | none => s)

end Sys2Proof.Machine
end

