-- ==== Sys2Proof/Machine/SeqMem.lean ====
section
/-! DEFINITION. Sequencer instructions of memory and synchronisation, but for the atomics (R335-R366). -/

namespace Sys2Proof.Machine

open Sys2Proof

/-! ## Loads and stores (R340) -/

/-- A mapping fault with the CAUSE of R288 at an address. -/
def mapFault (cause va : Nat) : FaultInfo := { mkFault 7 cause with addr := BitVec.ofNat 64 va }

/-- `ld` (R340). -/
def execLd (d a : Reg) (disp : BitVec 32) (sz : Size) (acq : Option Scope) (s : State) : Out :=
  let q := s.focus
  let c := q.core.val
  runNext q (do
    let va ← addr13 q a disp
    let n := sizeBytes sz
    let r ← vread (chap13 0) (.core c) ((← getS).ctxOf c) va n n
    if acq.isSome then check (!r.2) 0x0A 0x9A
    acquireOpt c acq
    wr q d (w64 (ofBytes r.1)) r.2) s

/-- `st` (R314, R315, R340); with `.asy` the bytes join the digest of their group (R207). -/
def execSt (d a : Reg) (disp : BitVec 32) (sz : Size) (rel : Option Scope) (asy : Bool) (s : State) : Out :=
  let q := s.focus
  let c := q.core.val
  runNext q (do
    let va ← addr13 q a disp
    let n := sizeBytes sz
    let v := (← getS).reg q d
    if rel.isSome then check (!v.p) 0x0A 0x9A
    let ctx := (← getS).ctxOf c
    let t ← accessN (chap13 0) (.core c) ctx .w va n n false (rel.any (·.wideQ))
    releaseOpt c rel
    let bs := toBytes n v.v.toNat
    match rel with
    | none => writeAt (.core c) ctx t bs v.p
    | some sc =>
      writeAt (.core c) ctx t bs v.p 0 sc.wideQ
      modS (·.tagRelease c sc t)
    if asy then modS (·.digestStore ctx (storedBytes va bs v.p))) s

/-! ## Full and empty cells (R297, R341) -/

/-- The scratchpad cell of an address: only core-pinned pages have one (R297, R341). -/
def cellAt (c va al : Nat) (p : Perm) : Mx Nat := do
  let s ← getS
  let t ← resolve (chap13 0) (.core c) (s.ctxOf c) p va
  match t with
  | .phys _ _ => failF (mapFault 0x8E va)
  | .scratch o =>
    alignCheck (chap13 0) va al
    nrCheck (.core c) t al
    pure (((← getS).core c).place o 0)

/-- `ldfe`: waits for a full cell, reads it, and empties it with `.clear` (R341). -/
def execLdfe (d a : Reg) (disp : BitVec 32) (sz : Size) (clear : Bool) (s : State) : Out :=
  let q := s.focus
  let c := q.core.val
  runNext q (do
    let va ← addr13 q a disp
    let n := sizeBytes sz
    let p ← cellAt c va n .r
    let x := (← getS).core c
    if !x.cellFull p then stallOn .cell
    check (!x.cellPois p) 0x0A 0x9A
    if clear then modS (·.onCore c fun x => { x with scFull := ndel x.scFull (p / 16) })
    acquire c .core
    wr q d (w64 (ofBytes ((addrs p n).map x.cellByte)))) s

/-- `stfe`: waits for an empty cell, writes, and sets it full (R341). -/
def execStfe (d a : Reg) (disp : BitVec 32) (sz : Size) (s : State) : Out :=
  let q := s.focus
  let c := q.core.val
  runNext q (do
    let va ← addr13 q a disp
    let n := sizeBytes sz
    let v := (← getS).reg q d
    check (!v.p) 0x0A 0x9A
    let p ← cellAt c va n .w
    let x := (← getS).core c
    if x.cellFull p then stallOn .cell
    check (!x.cellPois p) 0x0A 0x9A
    release c .core
    modS fun s => (s.onCore c fun x =>
      let x := x.cellWrite p (toBytes n v.v.toNat) false
      { x with scFull := nins x.scFull (p / 16) }).hitScratch c (p - 131072)) s

/-! ## Fences and promotion (R342, R343) -/

/-- `fence` (R310, R342). -/
def execFence (o : Ordr) (s : State) : Out :=
  let c := s.focus.core.val
  runNext s.focus (do
    releaseOpt c o.relOf
    acquireOpt c o.acqOf) s

/-- `promote`: the tagged core publishes, the line is read at its home, and the acquire follows (R316, R343). -/
def execPromote (d a : Reg) (disp : BitVec 32) (sc : Scope) (s : State) : Out :=
  let q := s.focus
  let c := q.core.val
  runNext q (do
    let va ← addr13 q a disp
    let ctx := (← getS).ctxOf c
    let t ← resolve (chap13 0) (.core c) ctx .r va
    if t.effHome = 0 ∨ t.effHome = 3 then failF (mapFault 0x90 va)
    poolCheck (chap13 0) (.core c) ctx va t
    alignCheck (chap13 0) va 8
    nrCheck (.core c) t 8
    homeReach (chap13 0) (.core c) va t
    match t with
    | .scratch _ => failF (mapFault 0x90 va)
    | .phys pa l =>
      if l.effHome ≠ 4 then
        let s ← getS
        match s.relTags.find? (·.1 == lineOf pa) with
        | some (_, o) =>
          if sc = .pod && decide (0 < (s.core o).remoteOut) then stallOn .release
          wbCheck o (s.core o).lines
          modS (·.publishTag (lineOf pa))
        | none => pure ()
      let r ← readHome (.core c) t 8
      check (!r.2) 0x0A 0x9A
      acquire c sc
      wr q d (w64 (ofBytes r.1))) s

/-- TAGGED_LINE_EVICTION: the home publishes before it evicts a tagged line, once every write-back can be made (R13, R18, R315). -/
def execTaggedLineEviction (pa : BitVec 48) (s : State) : Out :=
  match s.relTags.find? (·.1 == lineOf pa.toNat) with
  | none => .next s
  | some (_, c) => .next (if s.wbFree c then s.publishTag (lineOf pa.toNat) else s)

/-! ## Timeline counters (R354) -/

/-- The timeline counter as it reads: bit 63 is the halted flag. -/
def EQueue.tlWord (e : EQueue) : Word := w64 (e.halted.toNat * 2 ^ 63 + e.tl % 2 ^ 63)

/-- The effects of completed commands are performed at a scope: their writes to other packages have been acknowledged (R333),
and at `.quad` and wider their dirty bytes go back (R291, R314, R318). -/
def performed (c : Nat) (sc : Scope) : Mx Unit := do
  if sc.wideQ then
    wbCheck c ((← getS).core c).lines
    modS (·.wbAll c)

/-- `tlwait` (R318, R320, R354): with n = 0 it returns at once, and still acquires. -/
def execTlwait (t : Eng) (a : SOpd) (sc : Scope) (s : State) : Out :=
  let q := s.focus
  let c := q.core.val
  runNext q (do
    let v ← chk13 q a
    let n := v.toNat % 2 ^ 63
    let e := ((← getS).core c).eq t
    if e.tl < n then
      if e.halted then raise 0x0C 0x92 else stallOn .timeline
    if n ≠ 0 then performed c sc
    acquire c sc) s

/-- `tlread` (R354). -/
def execTlread (d : Reg) (t : Eng) (s : State) : Out :=
  let q := s.focus
  runNext q (do wr q d (((← getS).core q.core.val).eq t).tlWord) s

/-! ## Frontiers (R321, R355, R356) -/

/-- The key under which the opener of a frontier word is kept: physical, or the place in a core's scratchpad. -/
def frontKey (c : Nat) : Target → Nat
  | .phys pa _ => pa
  | .scratch o => 2 ^ 48 + c * 2 ^ 22 + o

/-- `fopen` (R321, R326, R356). -/
def execFopen (a : Reg) (s : State) : Out :=
  let q := s.focus
  let c := q.core.val
  runNext q (do
    let va ← chk13 q (.reg a)
    let ctx := (← getS).ctxOf c
    let r ← frontRmw front13 (.core c) ctx va.toNat [.fopen]
    modS fun s => { s with openers := sput s.openers (frontKey c r.2) (ctx, q) }) s

/-- Release, then change a frontier word (R356). -/
def frontChange (q : SeqId) (va : Nat) (sc : Option Scope) (op : FrontOp) : Mx Unit := do
  let c := q.core.val
  let ctx := (← getS).ctxOf c
  let _ ← frontAccess front13 (.core c) ctx .w va
  releaseOpt c sc
  let r ← frontRmw front13 (.core c) ctx va [op]
  match sc with
  | none => pure ()
  | some sc => modS (·.tagRelease c sc r.2)

/-- `fpub` (R356). -/
def execFpub (a : Reg) (b : SOpd) (sc : Scope) (s : State) : Out :=
  let q := s.focus
  runNext q (do
    let va ← chk13 q (.reg a)
    let n ← chk13 q b
    check (n.toNat < 2 ^ 48) 2 0x9C
    frontChange q va.toNat (some sc) (.publish n.toNat)) s

/-- `fchase`: waits for CLOSED or a count; HALTED with the condition unmet is chase-halted (R325, R356). -/
def execFchase (d a : Reg) (b : SOpd) (sc : Scope) (s : State) : Out :=
  let q := s.focus
  let c := q.core.val
  runNext q (do
    let va ← chk13 q (.reg a)
    let n ← chk13 q b
    let w ← frontRead (front13) (.core c) ((← getS).ctxOf c) va.toNat
    if !(fwClosed w) && decide (fwCount w < n.toNat) then
      if fwHalted w then raise 0x0C 0x92 else stallOn .chase
    acquire c sc
    wr q d (w64 w)) s

/-- `fclose` (R356). -/
def execFclose (a : Reg) (sc : Scope) (s : State) : Out :=
  let q := s.focus
  runNext q (do
    let va ← chk13 q (.reg a)
    frontChange q va.toNat (some sc) .close) s

/-- `fhalt` (R356). -/
def execFhalt (a : Reg) (s : State) : Out :=
  let q := s.focus
  runNext q (do
    let va ← chk13 q (.reg a)
    frontChange q va.toNat none .halt) s

/-- `fread`: a plain read (R356). -/
def execFread (d a : Reg) (s : State) : Out :=
  let q := s.focus
  let c := q.core.val
  runNext q (do
    let va ← chk13 q (.reg a)
    let t ← frontAccess (front13) (.core c) ((← getS).ctxOf c) .r va.toNat
    let r ← readAt (.core c) t 8
    check (!r.2) 0x0A 0x9A
    wr q d (w64 (ofBytes r.1))) s

/-! ## Named barriers (R357) -/

/-- ARR reaches NEED: the phase advances, and NEED and ARR are 0 again. Arrivals come one by one, so those beyond NEED
find the next phase. -/
def Bar.settle (b : Bar) : Bar :=
  if b.need ≠ 0 ∧ b.need ≤ b.arr then { b with phase := b.phase + 1, arr := 0, need := 0, walked := false } else b

/-- One arrival: ARR has 8 bits. -/
def Bar.arrived (b : Bar) : Bar := { b with arr := (b.arr + 1) % 256 }.settle

/-- The arrival of a bound walker command, kept while its phase lasts (R326, R357, R360). -/
def Bar.walkerArrived (b : Bar) : Bar := { b with walked := true }.arrived

/-- A phase has passed another, 16 bits wrapping. -/
def phasePassed (phase p : BitVec 16) : Bool := phase != p && (phase - p).toNat < 2 ^ 15

/-- A failed phase faults every instruction on the barrier (R357). -/
def barOk (c b : Nat) : Mx Unit := do
  let k := ((← getS).core c).bar b
  check (!k.failed) 0x0F 0x96 0 k.failBytes

/-- An arrival (R357). -/
def arrive (q : SeqId) (b : Fin 32) (a : SOpd) : Mx Unit := do
  let c := q.core.val
  let v ← chk13 q a
  barOk c b.val
  check (1 ≤ v.toNat && v.toNat ≤ 255) 2 0x9C
  release c .core
  let k := ((← getS).core c).bar b.val
  let k := if k.need = 0 then { k with need := v.toNat } else k
  modS (·.onCore c fun x => x.setBar b.val k)
  check (v.toNat == k.need) 0x10 0x97
  modS (·.onCore c fun x =>
    let y := x.seqr q.xs
    (x.setSeqr q.xs { y with pend := sput y.pend b.val k.phase }).setBar b.val k.arrived)

/-- `bar` (R357). -/
def execBar (b : Fin 32) (a : SOpd) (s : State) : Out := runNext s.focus (arrive s.focus b a) s

/-- PEND if set, else the phase now (R357). -/
def Core.pendOf (x : Core) (xs : Bool) (b : Nat) : BitVec 16 :=
  match (x.seqr xs).pend.find? (·.1 == b) with
  | some p => p.2
  | none => (x.bar b).phase

/-- Stand at a barrier until the phase passes `p`. -/
def standBar (q : SeqId) (p : BitVec 16) : Mx Unit :=
  modS fun s => s.onSeqr q fun x => { x with wait := .barrier, waitSince := s.clock, waitArg := p.toNat }

/-- The phase has passed: PEND is cleared, and the waiter acquires (R357). -/
def leaveBar (q : SeqId) (b : Nat) : Mx Unit := do
  acquire q.core.val .core
  modS (·.onSeqr q fun x => { x with pend := sdel x.pend b })
  modS (·.advance q)

/-- Leave, or stand. -/
def passOrStand (q : SeqId) (b : Nat) : Mx Unit := do
  let x := (← getS).core q.core.val
  let p := x.pendOf q.xs b
  if phasePassed (x.bar b).phase p then leaveBar q b else standBar q p

/-- `barw` (R357). -/
def execBarw (b : Fin 32) (s : State) : Out :=
  let q := s.focus
  runSeq q (do
    barOk q.core.val b.val
    passOrStand q b.val) s

/-- `bars`: `bar`, then `barw` (R357). -/
def execBars (b : Fin 32) (a : SOpd) (s : State) : Out :=
  let q := s.focus
  runSeq q (do
    arrive q b a
    passOrStand q b.val) s

/-- The barrier that a waiting sequencer stands at. -/
def barOf : Instr → Option Nat
  | .barw b => some b.val
  | .bars b _ => some b.val
  | _ => none

/-- BARW_WAKE: the phase passed, or the phase failed (R320, R357). -/
def execBarwWake (q : SeqId) (s : State) : Out :=
  let x := s.seqr q
  match x.wait, x.cur.bind barOf with
  | .barrier, some b =>
    runSeq q (do
      barOk q.core.val b
      let k := ((← getS).core q.core.val).bar b
      if phasePassed k.phase (BitVec.ofNat 16 x.waitArg) then leaveBar q b else pure ()) s
  | _, _ => .next s

/-! ## Hierarchical barriers (R358) -/

/-- The instance of a level that a core belongs to (R35). -/
def placeAt (sc : Scope) (c : Nat) : Nat :=
  match sc with
  | .core => c
  | .quad => quadOf c
  | .die => dieOf c
  | _ => 0

def State.hbarAt (s : State) (sc : Scope) (c ctx job : Nat) : Option HBar :=
  s.hbars.find? fun h => h.level = sc ∧ h.place = placeAt sc c ∧ h.ctx = ctx ∧ h.job = job

/-- `hbar`: arrive at the level's instance for the task's context and job (R358). -/
def execHbar (sc : Scope) (a : SOpd) (s : State) : Out :=
  let q := s.focus
  let c := q.core.val
  runSeq q (do
    let v ← chk13 q a
    let s ← getS
    check (match (s.core c).task with | some t => t.committed | none => false) 2 0x98
    check (1 ≤ v.toNat && v.toNat ≤ 65535) 2 0x9C
    let ctx := s.ctxOf c
    let job := jobOf (s.jobidOf c)
    let h := (s.hbarAt sc c ctx job).getD
      { level := sc, place := placeAt sc c, ctx := ctx, job := job, need := v.toNat, arr := 0, waiters := [] }
    check (h.need == v.toNat) 0x10 0x97
    release c sc
    modS fun s =>
      let others := s.hbars.filter fun o => !(o.level = sc ∧ o.place = h.place ∧ o.ctx = ctx ∧ o.job = job)
      let s := { s with hbars := others ++ [{ h with arr := h.arr + 1, waiters := h.waiters ++ [q] }] }
      s.onSeqr q fun x => { x with wait := .hbar, waitSince := s.clock }) s

/-- HBAR_PHASE_END: with the last arrival, `outside` of them from other packages for `.pod`, every waiter leaves with
`Acquire(level)` (R318, R358; DESIGN CHOICE log 51); no arrival comes while every Duthar port is down (R423, R426). -/
def execHbarPhaseEnd (q : SeqId) (outside : Nat) (s : State) : Out :=
  match s.hbars.find? (fun h => h.waiters.contains q) with
  | none => .next s
  | some h =>
    if h.arr + (if h.level = .pod && s.fabricUp then outside else 0) < h.need then .next s
    else
      let s := { s with hbars := s.hbars.erase h }
      .next (h.waiters.foldl (fun s w =>
        if (s.seqr w).wait = .hbar then (s.acquire w.core.val h.level).advance w else s) s)

/-! ## Handover (R363, R364, R390) -/

/-- The owner bit of a page of the run: the pool and frame, where it is the caller's (R363, R390). -/
def handPage (c ctx va j : Nat) : Mx Nat := do
  let t ← resolve (chapElem j) (.core c) ctx .none va
  let s ← getS
  match t with
  | .scratch _ => raise 8 0x99 j
  | .phys pa _ =>
    match s.poolOf pa with
    | none => raise 8 0x99 j
    | some p =>
      let d := s.pool p
      if s.ownerHeld pa then stallOn .held
      check (d.ctx == ctx && s.ownerBit d pa == (s.die (dieOf c)).clus) 8 0x99 j
      check (!s.secPois (d.ownerAt pa).1) 0x0A 0x9A j
      pure pa

/-- Give a pool page to the other cluster. -/
def State.flipOwner (s : State) (pa : Nat) : State :=
  match s.poolOf pa with
  | none => s
  | some p =>
    let at_ := (s.pool p).ownerAt pa
    s.physWrite at_.1 [s.byte at_.1 ^^^ BitVec.ofNat 8 (2 ^ at_.2)]

/-- `hoff`: every page is checked, then release, and the flips, one for each frame, with the flag are one event (R318, R363, R390). -/
def execHoff (d c' a : Reg) (b : SOpd) (s : State) : Out :=
  let q := s.focus
  let c := q.core.val
  runNext q (do
    let vd ← chk13 q (.reg d)
    let va ← chk13 q (.reg a)
    let n ← chk13 q b
    let v ← chk13 q (.reg c')
    check (va.toNat % 65536 == 0 && vd.toNat % 8 == 0) 4 0x9D
    check (1 ≤ n.toNat && n.toNat ≤ 4096) 2 0x9C
    implicitCommit c
    let ctx := (← getS).ctxOf c
    let pas ← (List.range n.toNat).mapM fun j => handPage c ctx (va.toNat + 65536 * j) j
    let t ← resolve (chap13 0) (.core c) ctx .rw vd.toNat
    if t.effHome ≠ 1 ∧ t.effHome ≠ 4 then failF { mkFault 7 0x91 with addr := vd }
    poolCheck (chap13 0) (.core c) ctx vd.toNat t
    nrCheck (.core c) t 8
    homeReach (chap13 0) (.core c) vd.toNat t
    release c .pkg
    modS fun s => (pas.map (· / 65536)).eraseDups.foldl (fun s f => s.flipOwner (65536 * f)) s
    writeAt (.core c) ctx t (toBytes 8 v.toNat) false 0 true
    modS (·.tagRelease c .pkg t)) s

/-- `take` (R318, R364). -/
def execTake (d a : Reg) (b : SOpd) (s : State) : Out :=
  let q := s.focus
  let c := q.core.val
  runNext q (do
    let va ← chk13 q (.reg a)
    let n ← chk13 q b
    let t ← accessHome (chap13 0) (.core c) ((← getS).ctxOf c) .r va.toNat 8
    let r ← readHome (.core c) t 8
    check (!r.2) 0x0A 0x9A
    let v := ofBytes r.1
    if v < n.toNat then stallOn .take
    acquire c .pkg
    wr q d (w64 v)) s

/-! ## Wakes: the latched instruction is tried again -/

/-- TLWAIT_RETURN (R354). -/
def execTlwaitReturn (q : SeqId) (s : State) : Out :=
  match (s.seqr q).wait, (s.seqr q).cur with
  | .timeline, some (.tlwait t a sc) => execTlwait t a sc { s with focus := q }
  | _, _ => .next s

/-- TAKE_RETURN (R364). -/
def execTakeReturn (q : SeqId) (s : State) : Out :=
  match (s.seqr q).wait, (s.seqr q).cur with
  | .take, some (.take d a b) => execTake d a b { s with focus := q }
  | _, _ => .next s

/-- A sequencer's wait on a cell is tried again (R341). -/
def seqCellWake (q : SeqId) (s : State) : Out :=
  match (s.seqr q).wait, (s.seqr q).cur with
  | .cell, some (.ldfe d a disp sz clear) => execLdfe d a disp sz clear { s with focus := q }
  | .cell, some (.stfe d a disp sz) => execStfe d a disp sz { s with focus := q }
  | _, _ => .next s

/-- A sequencer's chase is tried again (R356). -/
def seqChaseWake (q : SeqId) (s : State) : Out :=
  match (s.seqr q).wait, (s.seqr q).cur with
  | .chase, some (.fchase d a b sc) => execFchase d a b sc { s with focus := q }
  | _, _ => .next s

/-! ## Maintenance (R365) -/

/-- The lines of a core that were written through pages with CKP of a context whose task it runs (R408). -/
def State.ckpLines (s : State) (ctx c : Nat) : List Nat :=
  if (s.core c).task.any (·.ctx = ctx) then ((s.core c).l1.filter fun l => l.2.ckp && l.2.ctx == ctx).map (·.1) else []

/-- Write back a context's dirty checkpointed lines from every core that runs a task of it (R408). -/
def State.wbCkp (s : State) (ctx : Nat) : State :=
  (s.cores.map (·.1)).foldl (fun s c => (s.ckpLines ctx c).foldl (fun s l => s.wbLine c l) s) s

/-- Those lines can be written back (R13, R18, R417). -/
def ckpCheck (ctx : Nat) : Mx Unit := do
  ((← getS).cores.map (·.1)).forM fun c => do wbCheck c ((← getS).ckpLines ctx c)

/-- The write-back of `ckpt` and the close of its interval; where a full log closes it on the way, the two are one close, and INTV
rises once (R408, R418). -/
def State.ckptClose (s : State) (ctx : Nat) : State :=
  let t := s.wbCkp ctx
  if (t.ctx ctx).ckIntv = (s.ctx ctx).ckIntv then t.closeInterval ctx
  else snapQueues ctx (t.onCtx ctx fun c => { c with ckUsed := 0, ckLines := [] })

/-- `ckpt` (R228, R365, R408). -/
def execCkpt (d : Reg) (s : State) : Out :=
  let q := s.focus
  let c := q.core.val
  runNext q (do
    implicitCommit c
    let ctx := (← getS).ctxOf c
    ckpCheck ctx
    modS (·.ckptClose ctx)
    wr q d (w64 ((← getS).ctx ctx).ckIntv.toNat)) s

/-- The first address in each 64 KiB page of a range. -/
def pagesOf (va n : Nat) : List Nat :=
  if n = 0 then [] else (List.range ((va + n - 1) / 65536 - va / 65536 + 1)).map fun i => Nat.max va ((va / 65536 + i) * 65536)

/-- `fereset`: empties cells of core-pinned pages (R365). -/
def execFereset (a : Reg) (b : SOpd) (s : State) : Out :=
  let q := s.focus
  let c := q.core.val
  runNext q (do
    let va ← chk13 q (.reg a)
    let n ← chk13 q b
    check (va.toNat % 16 == 0 && n.toNat % 16 == 0) 4 0x9D
    check (n.toNat < 2 ^ 24) 2 0x9C
    let ps ← (pagesOf va.toNat n.toNat).mapM fun v => do
      let p ← cellAt c v 1 .w
      let m := Nat.min (va.toNat + n.toNat) ((v / 65536 + 1) * 65536) - v
      pure (p, m)
    modS (·.onCore c fun x => ps.foldl (fun x p =>
      { x with scFull := x.scFull.filter fun g => !(p.1 / 16 ≤ g && g < (p.1 + p.2) / 16) }) x)) s

/-- A fill for an address is held (R379). -/
def State.softHeld (s : State) (c va : Nat) : Bool := s.translate (.core c) (s.ctxOf c) .none va = .held

/-- What a maintenance instruction finds at an address: the physical address on a cached page, or nothing; it never faults,
and a held fill holds it (R365, R379). -/
def softTarget (c va : Nat) : Mx (Option (Nat × Leaf)) := do
  let s ← getS
  match s.translate (.core c) (s.ctxOf c) .none va with
  | .hit l => pure (soft l)
  | .fill l seen =>
    modS (·.tlbFill (.core c) (s.ctxOf c) va l seen)
    pure (soft l)
  | .held => stallOn .held
  | .refused _ => pure none
where
  soft (l : Leaf) : Option (Nat × Leaf) := if l.effHome = 1 then some (l.base + va % pageSize l.sz, l) else none

/-- A prefetch may bring a line in: the line lies here, nothing holds it, and room can be made for it. -/
def State.prefOk (s : State) (c pa : Nat) (l : Leaf) : Bool :=
  s.isLocal pa && s.usesL1 (.core c) pa l && !s.heldAt pa && !s.dieAbsent pa l &&
    (s.wbStops c ((s.core c).victim (lineOf pa)).toList).isNone

/-- `pref`: a fetch into L1, or into the home alone; no fault, no wait and no other effect (R365). -/
def execPref (a : Reg) (disp : BitVec 32) (home : Bool) (s : State) : Out :=
  let q := s.focus
  let c := q.core.val
  runNext q (do
    let s ← getS
    let b := s.reg q a
    let va := (b.v + disp.signExtend 64).toNat
    if !b.p && !s.softHeld c va then
      match ← softTarget c va with
      | some (pa, l) =>
        let s ← getS
        if !home && s.prefOk c pa l then set ((s.l1Fill c (lineOf pa) 0).l1Fill c (lineOf pa) 1)
      | none => pure ()) s

/-- The lines of a core's L1 that meet a range of physical addresses. -/
def Core.linesIn (x : Core) (pa n : Nat) : List Nat := x.lines.filter fun l => lineOf pa ≤ l && l ≤ lineOf (pa + n - 1)

/-- Write back, and with `inv` drop, every L1 line that meets a range (R365). -/
def cacheRange (q : SeqId) (a : Reg) (b : SOpd) (inv : Bool) : Mx Unit := do
  let c := q.core.val
  let va ← chk13 q (.reg a)
  let n ← chk13 q b
  check (n.toNat < 2 ^ 32) 2 0x9C
  (pagesOf va.toNat n.toNat).forM fun v => do
    match ← softTarget c v with
    | none => pure ()
    | some (pa, _) =>
      let m := Nat.min (va.toNat + n.toNat) ((v / 65536 + 1) * 65536) - v
      let ls := ((← getS).core c).linesIn pa m
      wbCheck c ls
      modS fun s => ls.foldl (fun s l => if inv then s.evict c l else s.wbLine c l) s

/-- `cwb` (R365). -/
def execCwb (a : Reg) (b : SOpd) (s : State) : Out := runNext s.focus (cacheRange s.focus a b false) s
/-- `cinv` (R365). -/
def execCinv (a : Reg) (b : SOpd) (s : State) : Out := runNext s.focus (cacheRange s.focus a b true) s

/-- What an atomic sends to a home in another package. -/
def atomMsg (t : Target) (op : AtomOp) (f32 wide : Bool) (v : Nat) : Option OutMsg :=
  match t with
  | .phys pa _ => some (.remoteAtomic pa op f32 wide (w64 v))
  | .scratch _ => none

/-- `permit`: release, then the counter takes the larger value (R362). -/
def execPermit (a : Reg) (b : SOpd) (sc : Scope) (s : State) : Out :=
  let q := s.focus
  let c := q.core.val
  runNext q (do
    let va ← chk13 q (.reg a)
    let n ← chk13 q b
    let ctx := (← getS).ctxOf c
    let t ← resolve (chap13 0) (.core c) ctx .w va.toNat
    if t.effHome = 0 ∨ t.effHome = 3 then failF { mkFault 7 0x7F with addr := va }
    poolCheck (chap13 0) (.core c) ctx va.toNat t
    alignCheck (chap13 0) va.toNat 8
    nrCheck (.core c) t 8
    homeReach (chap13 0) (.core c) va.toNat t
    release c sc
    let r ← rmwAt (.core c) ctx t 8 (fun w => some (Nat.max w n.toNat)) (atomMsg t .maxn false true n.toNat)
    check (!r.2) 0x0A 0x9A
    modS (·.tagRelease c sc t)) s

end Sys2Proof.Machine
end

