-- ==== Sys2Proof/Machine/Atom.lean ====
section
/-! DEFINITION. Atomics, return-free atomics on their way to their homes, and `amofence` (R328, R329, R344-R346). -/

namespace Sys2Proof.Machine

open Sys2Proof

/-- The new value of an integer atomic of `n` bytes (R344). -/
def newInt (op : AtomOp) (n old v : Nat) : Nat :=
  let w := 8 * n
  let old := old % 2 ^ w
  let v := v % 2 ^ w
  let s (k : Nat) : Int := if 2 ^ (w - 1) ≤ k then (k : Int) - (2 ^ w : Nat) else k
  match op with
  | .add => (old + v) % 2 ^ w
  | .and => old &&& v
  | .or => old ||| v
  | .xor => old ^^^ v
  | .swap => v
  | .min => if s old ≤ s v then old else v
  | .max => if s old ≤ s v then v else old
  | .minn => if old ≤ v then old else v
  | .maxn => if old ≤ v then v else old

/-- The new value of an f32 atomic (R344, R345): RNE, no flag, the nodes of R109. -/
def newF32 (op : AtomOp) (old v : Nat) : Nat :=
  let a := numF32 (old % 2 ^ 32)
  let b := numF32 (v % 2 ^ 32)
  match op with
  | .add => (fmtF32.fin .rne false (Num.add .rne a b)).1
  | .min => fmtF32.bits (a.min b)
  | .max => fmtF32.bits (a.max b)
  | _ => v % 2 ^ 32

/-- The new value of an atomic. -/
def newAtom (f32 : Bool) (op : AtomOp) (n old v : Nat) : Nat := if f32 then newF32 op old v else newInt op n old v

/-- The checks that an atomic meets at the core (R228, R289, R335, R345). A pool page's refusal comes before alignment (R56) and is
found at the home, after the commit (R228). -/
def atomTarget (ch : Chap) (c ctx va n rejected : Nat) : Mx Target := do
  let t ← resolve ch (.core c) ctx .rw va
  let s ← getS
  let refused : Bool := match t with
    | .phys pa _ => s.poolReason (.core c) ctx pa != 0
    | .scratch _ => false
  if !refused then alignCheck ch va n
  if t.effHome = 3 then failF { mkFault 9 rejected with addr := BitVec.ofNat 64 va }
  pure t

/-- A return-free atomic leaves the core (R299, R329). -/
def sendNr (c : Nat) (t : Target) (ctx va n : Nat) (f32 : Bool) (op : AtomOp) (v : SVal) : Mx Unit :=
  let o : NrOp := match t with
    | .scratch k => { pa := k, ctx := ctx, op := op, f32 := f32, wide := n == 8, v := v, ckp := false, va := va, scratch := true }
    | .phys pa l => { pa := pa, ctx := ctx, op := op, f32 := f32, wide := n == 8, v := v, ckp := l.ckp, va := va, scratch := false }
  modS (·.onCore c fun x => { x with nrOut := x.nrOut ++ [o] })

/-- An atomic of a sequencer with a value (R345). -/
def atomic (q : SeqId) (d a : Reg) (n : Nat) (o : Ordr) (f : Nat → Option Nat) (msg : Target → Option OutMsg) : Mx Unit := do
  let c := q.core.val
  let va := (← chk13 q (.reg a)).toNat
  let ctx := (← getS).ctxOf c
  let t ← atomTarget (chap13 0) c ctx va n 0xA2
  implicitCommit c
  poolCheck (chap13 0) (.core c) ctx va t
  nrCheck (.core c) t n
  homeReach (chap13 0) (.core c) va t
  releaseOpt c o.relOf
  let r ← rmwAt (.core c) ctx t n f (msg t)
  check (!r.2) 0x0A 0x9A
  match o.relOf with
  | some sc => modS (·.tagRelease c sc t)
  | none => pure ()
  acquireOpt c o.acqOf
  wr q d (w64 r.1)

/-- A return-free atomic of a sequencer: every check of the core, then it leaves (R329, R345). -/
def atomicNr (q : SeqId) (a : Reg) (n : Nat) (f32 : Bool) (op : AtomOp) (v : Word) : Mx Unit := do
  let c := q.core.val
  let va := (← chk13 q (.reg a)).toNat
  let s ← getS
  let ctx := s.ctxOf c
  let t ← atomTarget (chap13 0) c ctx va n 0xA2
  implicitCommit c
  sendNr c t ctx va n f32 op { v := v, p := false }

/-- `amo` (R344, R345). -/
def execAmo (op : AtomOp) (d a : Reg) (b : SOpd) (sz : Size) (o : Ordr) (nr : Bool) (s : State) : Out :=
  let q := s.focus
  runNext q (do
    let v ← chk13 q b
    let n := sizeBytes sz
    if nr then atomicNr q a n false op v
    else atomic q d a n o (fun old => some (newInt op n old v.toNat)) (fun t => atomMsg t op false (n == 8) v.toNat)) s

/-- The operand of an f32 atomic: a literal is converted to f32 (R76). -/
def f32Opd (b : SOpd) (v : Word) : Word :=
  match b with
  | .lit _ => w64 (litElem .f32 .rne v)
  | _ => v

/-- `famo` (R76, R344, R345). -/
def execFamo (op : AtomOp) (d a : Reg) (b : SOpd) (o : Ordr) (nr : Bool) (s : State) : Out :=
  let q := s.focus
  runNext q (do
    let v := f32Opd b (← chk13 q b)
    if nr then atomicNr q a 4 true op v
    else atomic q d a 4 o (fun old => some (newF32 op old v.toNat)) (fun t => atomMsg t op true false v.toNat)) s

/-- `cas` (R345). -/
def execCas (d a : Reg) (b : SOpd) (sz : Size) (o : Ordr) (s : State) : Out :=
  let q := s.focus
  runNext q (do
    let v ← chk13 q b
    let x ← chk13 q (.reg d)
    let n := sizeBytes sz
    atomic q d a n o (fun old => if old = x.toNat % 2 ^ (8 * n) then some (v.toNat % 2 ^ (8 * n)) else none)
      (fun t => match t with
        | .phys pa _ => some (.remoteCas pa (n == 8) x v)
        | .scratch _ => none)) s

/-- `amofence` meets an atomic that failed: it raises the failure's class, which is forgotten once the fault has been taken. -/
def State.amofail (s : State) (q : SeqId) (f : BitVec 8 × BitVec 8) : State :=
  let t := s.precise q (mkFault f.1.toNat (detailOf 0 0 f.2.toNat))
  if (t.seqr q).wait = .none then t.onCore q.core.val fun x => { x with nrFail := none } else t

/-- `amofence`: waits until every return-free atomic of the core is performed, then releases; a failed one raises its
class instead (R329, R346). -/
def execAmofence (sc : Scope) (s : State) : Out :=
  let q := s.focus
  let x := s.core q.core.val
  if !x.nrOut.isEmpty then .next (s.stalled q .amofence)
  else
    match x.nrFail with
    | some f => .next (s.amofail q f)
    | none => runNext q (release q.core.val sc) s

/-- The leaf under which a frame of this package is reached at its home. -/
def State.homeLeaf (s : State) (pa : Nat) (ckp : Bool) : Leaf :=
  let e := s.fatEntry pa
  let h := s.frameHome pa
  { base := pa / 65536 * 65536, sz := 0, home := if h = 2 then 1 else 0, ms := h = 4, cmp := fld e 3 1 = 1,
    hc := fld e 4 1 = 1 ∧ (s.poolOf pa).isNone, ckp := ckp, ex := false, wr := true, rd := true, slice := fld e 24 8 }

/-- A return-free atomic has failed at its home: a record in the context fault queue, and the class for the next
`amofence` (R346; DEDUCED log 55). -/
def State.nrReport (s : State) (c ctx : Nat) (f : FaultInfo) : State :=
  let cause := if f.cls = 0x0A then 0x9A else if f.cls = 4 then 0x9D else 0x93
  let r := { s.mkRec c 10 0 true f with ctx := ctx, detail := BitVec.ofNat 64 (detailOf 0 (fld f.detail.toNat 16 16) cause) }
  (s.fqWrite r).onCore c fun x => { x with nrFail := x.nrFail.or (some (f.cls, BitVec.ofNat 8 cause)) }

/-- Where a return-free atomic is performed. -/
def NrOp.target (o : NrOp) (s : State) : Target :=
  if o.scratch then .scratch o.pa else .phys o.pa (s.homeLeaf o.pa o.ckp)

/-- A return-free atomic at its home (R329, R345). -/
def nrPerform (c : Nat) (o : NrOp) : Mx Unit := do
  let s ← getS
  let t := o.target s
  let bad : FaultInfo := { mkFault 0x0A 0x9A with addr := BitVec.ofNat 64 o.va }
  if !s.pinCheck (.core c) false t then failF { mkFault 7 0x93 with addr := BitVec.ofNat 64 o.va }
  poolCheck (chap13 0) (.core c) o.ctx o.va t
  alignCheck (chap13 0) o.va (if o.wide then 8 else 4)
  homeReach (chap13 0) (.core c) o.va t
  if o.v.p then failF bad
  let r ← rmwAt (.core c) o.ctx t (if o.wide then 8 else 4)
    (fun old => some (newAtom o.f32 o.op (if o.wide then 8 else 4) old o.v.v.toNat)) (atomMsg t o.op o.f32 o.wide o.v.v.toNat)
  if r.2 then failF bad

/-- NR_ATOMIC_HOME_FAULT: the oldest return-free atomic is performed at its home, or its fault there is reported to the
context fault queue and kept for `amofence` (R329, R346). -/
def execNrAtomicHomeFault (c : CoreId) (s : State) : Out :=
  match (s.core c.val).nrOut with
  | [] => .next s
  | o :: rest =>
    match nrPerform c.val o (s.onCore c.val fun x => { x with nrOut := rest }) with
    | .ok _ s => .next s
    | .error (.fault f) s => .next (s.nrReport c.val o.ctx f)
    | .error _ _ => .next s

end Sys2Proof.Machine
end

