-- ==== Sys2Proof/Machine/Crypt.lean ====
section
/-! DEFINITION. SHA-256, the RSA signatures of R394, and CRC-32C (R50). -/

namespace Sys2Proof.Machine

open Sys2Proof

/-! ## CRC-32C (R50) -/

def crcBit : Nat → Nat → Nat
  | 0, c => c
  | n + 1, c => crcBit n (if c % 2 = 1 then (c / 2) ^^^ 0x82F63B78 else c / 2)

/-- Feed one word as four bytes, lowest first; the register is kept before the final XOR. -/
def crcWord (c : BitVec 32) (w : Nat) : BitVec 32 := BitVec.ofNat 32 (crcBit 32 (c.toNat ^^^ (w % 2 ^ 32)))

/-- Feed one byte. -/
def crcByte (c : BitVec 32) (b : Byte) : BitVec 32 := BitVec.ofNat 32 (crcBit 8 (c.toNat ^^^ b.toNat))

/-- The signature after a final XOR. -/
def crcDone (c : BitVec 32) : BitVec 32 := c ^^^ BitVec.allOnes 32

/-- The CRC-32C of some bytes. -/
def crcBytes (bs : List Byte) : BitVec 32 := crcDone (bs.foldl crcByte (BitVec.allOnes 32))

/-! ## SHA-256 (FIPS 180-4, named by R394)

The standard takes its constants from roots of the first primes, and its round is written here as a recurrence of two sequences:
the standard's a, b, c, d are the last four terms of the one, and its e, f, g, h the last four of the other. -/

/-- The primes below 312: the first 64. -/
def shaPrimes : List Nat := (List.range 312).filter fun n => 2 ≤ n && (List.range n).all fun d => d < 2 || n % d ≠ 0

/-- The largest number of `bits` bits above `acc` whose power `n` is at most `v`, bit by bit. -/
def rootBits (n v : Nat) : Nat → Nat → Nat
  | 0, acc => acc
  | bits + 1, acc => rootBits n v bits (if (acc + 2 ^ bits) ^ n ≤ v then acc + 2 ^ bits else acc)

/-- The first 32 bits of the fraction of the root `n` of a prime below 312. -/
def rootFraction (n p : Nat) : BitVec 32 := BitVec.ofNat 32 (rootBits n (p * 2 ^ (32 * n)) 37 0)

/-- The constants of the 64 rounds: fractions of cube roots. -/
def shaConsts : List (BitVec 32) := shaPrimes.map (rootFraction 3)

/-- The last terms of the two sequences, newest first. -/
structure ShaTail where
  front : List (BitVec 32)
  back : List (BitVec 32)

/-- The digest before the first block: fractions of square roots. -/
def ShaTail.initial : ShaTail :=
  let roots := (shaPrimes.take 8).map (rootFraction 2)
  { front := roots.take 4, back := roots.drop 4 }

/-- The sum of three rotations of a word. -/
def spin (x : BitVec 32) (turns : List Nat) : BitVec 32 := turns.foldl (fun acc k => acc ^^^ x.rotateRight k) 0

/-- One round, over the round's constant plus its word of the schedule. -/
def ShaTail.next (t : ShaTail) (kw : BitVec 32) : ShaTail :=
  let p (i : Nat) : BitVec 32 := t.front.getD i 0
  let q (i : Nat) : BitVec 32 := t.back.getD i 0
  let pick := q 2 ^^^ (q 0 &&& (q 1 ^^^ q 2))
  let most := (p 0 &&& (p 1 ||| p 2)) ||| (p 1 &&& p 2)
  let sum := kw + q 3 + pick + spin (q 0) [6, 11, 25]
  { front := (sum + most + spin (p 0) [2, 13, 22]) :: t.front.take 3, back := (p 3 + sum) :: t.back.take 3 }

/-- The schedule of a block, newest word first, from its first 16 words. -/
def shaSchedule (first : List (BitVec 32)) : Nat → List (BitVec 32)
  | 0 => first.reverse
  | n + 1 =>
    let ws := shaSchedule first n
    let near := ws.getD 1 0
    let far := ws.getD 14 0
    (ws.getD 6 0 + ws.getD 15 0 + (spin near [17, 19] ^^^ (near >>> 10)) + (spin far [7, 18] ^^^ (far >>> 3))) :: ws

/-- The number that bytes spell, highest first. -/
def ofBytesBE (bs : List Byte) : Nat := ofBytes bs.reverse

/-- Feed a block of 64 bytes. -/
def ShaTail.block (t : ShaTail) (blk : List Byte) : ShaTail :=
  let first := (List.range 16).map fun i => BitVec.ofNat 32 (ofBytesBE ((blk.drop (4 * i)).take 4))
  let u := (List.zipWith (· + ·) shaConsts (shaSchedule first 48).reverse).foldl ShaTail.next t
  { front := List.zipWith (· + ·) t.front u.front, back := List.zipWith (· + ·) t.back u.back }

/-- A message with its padding: a bit 1, zeros, and the count of its bits in eight bytes. -/
def shaPad (bs : List Byte) : List Byte :=
  let zeros := 63 - (bs.length + 8) % 64
  bs ++ [0x80] ++ List.replicate zeros 0 ++ (toBytes 8 (8 * bs.length)).reverse

/-- SHA-256 of some bytes; the first byte of the digest is the most significant. -/
def sha256 (bs : List Byte) : BitVec 256 :=
  let m := shaPad bs
  let t := (List.range (m.length / 64)).foldl (fun t k => t.block ((m.drop (64 * k)).take 64)) ShaTail.initial
  BitVec.ofNat 256 ((t.front ++ t.back).foldl (fun d w => d * 2 ^ 32 + w.toNat) 0)

/-! ## RSASSA-PKCS1-v1_5 with SHA-256, 3,072 bits, exponent 65,537 (R394) -/

/-- The encoded message of a digest, as a number of 384 bytes. -/
def emsa (d : BitVec 256) : Nat :=
  2 ^ (8 * 382) + (2 ^ (8 * 330) - 1) * 2 ^ (8 * 52) + 0x3031300d060960864801650304020105000420 * 2 ^ 256 + d.toNat

/-- x to the power 2^k, modulo n. -/
def sqMod (n : Nat) : Nat → Nat → Nat
  | 0, x => x % n
  | k + 1, x => sqMod n k (x * x % n)

/-- Whether a signature of 384 bytes stands for a digest under a modulus of 3,072 bits. -/
def rsaOk (n : Nat) (sig : List Byte) (d : BitVec 256) : Bool :=
  let x := ofBytesBE sig
  n / 2 ^ 3071 == 1 && decide (x < n) && sqMod n 16 x * x % n == emsa d

/-- The digest of a public key: its modulus in big-endian form and its exponent in four bytes (R394; the order of the
exponent's bytes DESIGN CHOICE log 79). -/
def keyDigest (n : Nat) : BitVec 256 := sha256 ((toBytes 384 n).reverse ++ [0, 1, 0, 1])

/-- Some public key that a test admits by its digest signed (R394). -/
def signedUnder (admits : BitVec 256 → Bool) (sig : List Byte) (d : BitVec 256) : Bool :=
  Config.publicKeys.any fun n => admits (keyDigest n) && rsaOk n sig d

/-- The key matches a vendor slot that is not revoked (R394). -/
def Syc.vendorKey (y : Syc) (k : BitVec 256) : Bool :=
  (List.range 4).any fun i => !y.revoked.getLsbD i && k == Config.vendorDigest i

/-- The key matches the operator's, which is fused (R394). -/
def Syc.operatorKey (y : Syc) (k : BitVec 256) : Bool := y.opFused && k == Config.operatorDigest

/-! ## Images (R211, R395) -/

/-- The class minimum (R395). -/
def Syc.minSvn (y : Syc) (cls : Nat) : BitVec 16 := y.svnMin.getD cls 0

/-- Judge a signed image of a class (R211, R395): its bytes without the signature, its header, the signature. The answer is the
status of R211, with the digest and the SVN of an image that is accepted; only crier images take the operator key. -/
def Syc.judge (y : Syc) (cls : Nat) (msg : List Byte) (hdr : Nat) (sig : List Byte) : Nat × BitVec 256 × BitVec 16 :=
  let d := sha256 msg
  let svn := BitVec.ofNat 16 hdr
  let admits (k : BitVec 256) : Bool := y.vendorKey k || (cls == 2 && y.operatorKey k)
  if !signedUnder admits sig d then (1, 0, 0)
  else if fld hdr 16 4 ≠ cls ∨ svn < y.minSvn cls then (4, 0, 0)
  else (0, d, svn)

/-- An image of the boot chain: its digest and SVN, or none where it is refused (R395). -/
def Syc.accepts (y : Syc) (cls : Nat) (img : List Byte) : Option (BitVec 256 × BitVec 16) :=
  let len := ofBytes (img.take 8)
  let hdr := ofBytes ((img.drop 8).take 8)
  if img.length ≠ len + 400 ∨ hdr / 2 ^ 20 ≠ 0 then none
  else
    match y.judge cls (img.take (16 + len)) hdr (img.drop (16 + len)) with
    | (0, r) => some r
    | _ => none

end Sys2Proof.Machine
end

