-- ==== Sys2Proof/Machine/Bulk.lean ====
section
/-! DEFINITION. Accesses to runs of bytes that may cross sectors, page by page (R289, R335). -/

namespace Sys2Proof.Machine

open Sys2Proof

/-- Cut a run of `n` bytes at sector boundaries: addresses with lengths. -/
def pieces : Nat → Nat → Nat → List (Nat × Nat)
  | 0, _, _ => []
  | k + 1, va, n =>
    if n = 0 then []
    else
      let m := Nat.min n (64 - va % 64)
      (va, m) :: pieces k (va + m) (n - m)

/-- The pieces of a run. -/
def piecesOf (va n : Nat) : List (Nat × Nat) := pieces (n / 64 + 2) va n

/-- Resolve every piece of a run with the checks of `Mem`; the first carries the alignment. -/
def accessRange (ch : Chap) (a : Agent) (ctx : Nat) (p : Perm) (va n al : Nat) (loom : Bool := false) :
    Mx (List (Target × Nat)) :=
  (piecesOf va n).mapM fun q => do
    let t ← accessN ch a ctx p (q.1 % 2 ^ 64) (if q.1 = va then al else 1) q.2 loom false
    pure (t, q.2)

/-- Read resolved pieces: the bytes, and the poison of each byte. -/
def readPieces (a : Agent) (ts : List (Target × Nat)) (il : Nat := 0) : Mx (List (Byte × Bool)) := do
  let rs ← ts.mapM fun t => do
    let r ← readAt a t.1 t.2 il
    pure (r.1.map fun b => (b, r.2))
  pure rs.flatten

/-- Write bytes over resolved pieces. -/
def writePieces (a : Agent) (ctx : Nat) (ts : List (Target × Nat)) (bs : List Byte) (p : Bool) (il : Nat := 0) : Mx Unit := do
  let _ ← ts.foldlM (fun (bs : List Byte) t => do
    writeAt a ctx t.1 (bs.take t.2) p il
    pure (bs.drop t.2)) bs
  pure ()

/-- Read a run of bytes. -/
def readRange (ch : Chap) (a : Agent) (ctx va n al : Nat) (il : Nat := 0) (loom : Bool := false) : Mx (List (Byte × Bool)) := do
  let ts ← accessRange ch a ctx .r va n al loom
  readPieces a ts il

/-- Write a run of bytes, every byte checked before any is written. -/
def writeRange (ch : Chap) (a : Agent) (ctx va al : Nat) (bs : List Byte) (p : Bool) (il : Nat := 0) (loom : Bool := false) :
    Mx Unit := do
  let ts ← accessRange ch a ctx .w va bs.length al loom
  writePieces a ctx ts bs p il

end Sys2Proof.Machine
end

