-- ==== Sys2Proof/Machine/Transc.lean ====
section
/-! DEFINITION. Correctly rounded logarithms, exponentials and powers (R111, R115, R117): fixed-point bounds at rising
precision, until both bounds round to the same result (Ziv's method); fuel exhausted gives a free value (DEDUCED log 12). -/

namespace Sys2Proof.Machine

open Sys2Proof

/-! ## Fixed point: an integer v at precision p stands for v / 2^p -/

/-- Sum of z / 1 + z w / 3 + z w^2 / 5 + … for z, w at precision p. -/
def atanhGo (p w : Nat) : Nat → Nat → Nat → Nat → Nat
  | 0, _, _, acc => acc
  | n + 1, k, pow, acc => if pow = 0 then acc else atanhGo p w n (k + 2) (pow * w / 2 ^ p) (acc + pow / k)

/-- ln(a / b) for 1 ≤ a / b ≤ 2: twice the inverse hyperbolic tangent of (a - b) / (a + b). -/
def lnRatio (p a b : Nat) : Nat :=
  let z := (a - b) * 2 ^ p / (a + b)
  2 * atanhGo p (z * z / 2 ^ p) p 1 z 0

/-- ln 2. -/
def ln2 (p : Nat) : Nat := lnRatio p 2 1

/-- The error bound of the functions here, in units of the last place, for precisions to 2,048. -/
def slack : Nat := 2 ^ 18

/-- Sum of y^k / k!. -/
def expGo (p y : Nat) : Nat → Nat → Nat → Nat → Nat
  | 0, _, _, acc => acc
  | n + 1, k, term, acc => if term = 0 then acc else expGo p y n (k + 1) (term * y / 2 ^ p / k) (acc + term)

/-- 2^f for 0 ≤ f < 1. -/
def exp2Frac (p f : Nat) : Nat := expGo p (f * ln2 p / 2 ^ p) p 1 (2 ^ p) 0

/-- floor(log2(a / b)) for positive a and b. -/
def floorLog2Rat (a b : Nat) : Int :=
  let k : Int := (Nat.log2 a : Int) - Nat.log2 b
  let le : Bool := if 0 ≤ k then b * 2 ^ k.toNat ≤ a else b ≤ a * 2 ^ (-k).toNat
  if le then k else k - 1

/-- log2(a / b) at precision p, within `slack`. -/
def log2Fix (p a b : Nat) : Int :=
  let k := floorLog2Rat a b
  let a' := if 0 ≤ k then a else a * 2 ^ (-k).toNat
  let b' := if 0 ≤ k then b * 2 ^ k.toNat else b
  k * (2 ^ p : Nat) + (lnRatio p a' b' * 2 ^ p / ln2 p : Nat)

/-- Bounds of 2^t for bounds of t at precision p. -/
def exp2Bounds (p : Nat) (lo hi : Int) : Num × Num :=
  let one : Int := (2 ^ p : Nat)
  let at_ (t : Int) : Nat × Int := (exp2Frac p (t % one).toNat, t / one)
  let l := at_ lo
  let h := at_ hi
  (.fin false (l.1 - slack) (l.2 - p) true, .fin false (h.1 + slack) (h.2 - p) true)

/-- Bounds of a number of known bounds at precision p. -/
def fixBounds (p : Nat) (lo hi : Int) : Option (Num × Num) :=
  if 0 < lo then some (.fin false lo.toNat (-(p : Int)) true, .fin false hi.toNat (-(p : Int)) true)
  else if hi < 0 then some (.fin true (-lo).toNat (-(p : Int)) true, .fin true (-hi).toNat (-(p : Int)) true)
  else none

/-- The precisions that are tried. -/
def zivSteps : List Nat := [64, 128, 256, 512, 1024, 2048]

/-- The result of the first precision at which both bounds round alike. -/
def ziv (f : Fmt) (mode : Rnd) (sat : Bool) (bounds : Nat → Option (Num × Num)) : List Nat → Option (Num × Flg)
  | [] => none
  | p :: ps =>
    match bounds p with
    | none => ziv f mode sat bounds ps
    | some (lo, hi) =>
      let a := f.round mode sat lo
      if a = f.round mode sat hi then some a else ziv f mode sat bounds ps

/-- A free value where the fuel runs out (DEDUCED log 12). -/
def zivOr (f : Fmt) (mode : Rnd) (sat : Bool) (fn x y : Nat) (bounds : Nat → Option (Num × Num)) : Num × Flg :=
  match ziv f mode sat bounds zivSteps with
  | some r => r
  | none => (numF32 (Config.freeResult fn (2 * f.p + sat.toNat) x y).toNat, Flg.none)

/-! ## Functions -/

/-- A value with its factors of two in the exponent: odd significand. -/
def oddPart : Nat → Nat → Int → Nat × Int
  | 0, m, e => (m, e)
  | n + 1, m, e => if m % 2 = 0 ∧ m ≠ 0 then oddPart n (m / 2) (e + 1) else (m, e)

def oddOf (m : Nat) (e : Int) : Nat × Int := oddPart (Nat.log2 m + 1) m e

/-- 2^t for t = num / den x 2^e, positive or negative. -/
def exp2Rat (f : Fmt) (mode : Rnd) (sat neg : Bool) (num den : Nat) (e : Int) : Num × Flg :=
  let n := if 0 ≤ e then num * 2 ^ e.toNat else num
  let d := if 0 ≤ e then den else den * 2 ^ (-e).toNat
  let t (p : Nat) : Int := if neg then -((n * 2 ^ p / d : Nat) : Int) else (n * 2 ^ p / d : Nat)
  if n % d = 0 then f.round mode sat (.fin false 1 (t 0) false)
  else zivOr f mode sat 1 n d fun p => some (exp2Bounds p (t p - 1) (t p + 1))

/-- `exp2` (R111, R112). -/
def exp2Num (f : Fmt) (mode : Rnd) (sat : Bool) : Num → Num × Flg
  | .nan => (.nan, Flg.none)
  | .inf neg => (if neg then Num.zero else .inf false, Flg.none)
  | .fin neg m e _ => exp2Rat f mode sat neg m 1 e

/-- `log2` (R111, R112). -/
def log2Num (f : Fmt) (mode : Rnd) (sat : Bool) : Num → Num × Flg
  | .nan => (.nan, Flg.none)
  | .inf neg => (if neg then .nan else .inf false, Flg.none)
  | .fin neg m e _ =>
    if m = 0 then (.inf true, Flg.none)
    else if neg then (.nan, Flg.none)
    else
      let o := oddOf m e
      if o.1 = 1 then f.round mode sat (Num.ofInt o.2)
      else zivOr f mode sat 2 m (Fmt.bits f (.fin neg m e false)) fun p =>
        let v := log2Fix p o.1 1 + o.2 * (2 ^ p : Nat)
        fixBounds p (v - slack) (v + slack)

/-- (num / den x 2^e)^(p / q) for odd num and den in lowest terms, p and q in lowest terms, q odd or a power of two:
exact where the power is rational and may lie on a rounding boundary, and by bounds elsewhere. -/
def powRat (f : Fmt) (mode : Rnd) (sat : Bool) (num den : Nat) (e : Int) (p q : Nat) : Num × Flg :=
  let byBounds : Num × Flg :=
    zivOr f mode sat 3 (num * 2 ^ 64 + den) (p * 2 ^ 200 + q) fun k =>
      let l := log2Fix k num den + e * (2 ^ k : Nat)
      some (exp2Bounds k ((l - slack) * p / q) ((l + slack) * p / q + 1))
  if num = 1 ∧ den = 1 then
    if e * p % q = 0 then f.round mode sat (.fin false 1 (e * p / q) false)
    else exp2Rat f mode sat (decide (e < 0)) (e.natAbs * p) q 0
  else if p ≤ 64 ∧ q ≤ 64 then
    let a := iroot q num
    let b := iroot q den
    if a ^ q = num ∧ b ^ q = den ∧ e % q = 0 then f.round mode sat (Num.ofRat false (a ^ p) (b ^ p) (e / q * p))
    else byBounds
  else byBounds

/-- A positive value raised to the power ±a x 2^b; `inv` takes its reciprocal as exponent. -/
def powShape (f : Fmt) (mode : Rnd) (sat : Bool) (num den : Nat) (e : Int) (sneg : Bool) (sm : Nat) (se : Int) (inv : Bool) :
    Num × Flg :=
  let g := Nat.gcd num den
  let n := oddOf (num / g) e
  let d := oddOf (den / g) 0
  let e := n.2 - d.2
  let s := oddOf sm se
  let p := if 0 ≤ s.2 then s.1 * 2 ^ s.2.toNat else s.1
  let q := if 0 ≤ s.2 then 1 else 2 ^ (-s.2).toNat
  let (p, q) := if inv then (q, p) else (p, q)
  if sneg then powRat f mode sat d.1 n.1 (-e) p q else powRat f mode sat n.1 d.1 e p q

end Sys2Proof.Machine
end

