-- ==== Sys2Proof/Machine/Block.lean ====
section
/-! DEFINITION. Block formats (R93-R96), conversions of elements (R97-R100), group sums (R102), and the trees and
recurrences of reductions and scans (R108-R110). -/

namespace Sys2Proof.Machine

open Sys2Proof

/-! ## Block formats -/

/-- The parameters of a block format (R93): magnitude bits, BIAS, W, log2 T. -/
structure BlkFmt where
  pb : Nat
  bias : Int
  w : Int
  t : Int
  deriving DecidableEq, Repr

def blkFmt (t : ElemTy) : BlkFmt :=
  if t = .bx4 then { pb := 2, bias := 128, w := 1, t := 0 } else { pb := 6, bias := 132, w := 5, t := 3 }

/-- MMAX. -/
def BlkFmt.mmax (b : BlkFmt) : Nat := 2 ^ b.pb - 1

/-- An element of a block (R94). -/
def BlkFmt.decode (b : BlkFmt) (e0 e1 x : Nat) : Num :=
  let e := if fld x (b.pb + 1) 1 = 1 then e1 else e0
  let m := x % 2 ^ b.pb
  if e = 255 then .nan
  else if m = 0 then Num.zero
  else .fin (fld x b.pb 1 == 1) m ((e : Int) - b.bias) false

/-- The magnitude of an infinity, for the choice of exponents and for scaling (R96). -/
def blkMag : Num → Num
  | .inf neg => .fin neg 1 128 false
  | v => v

/-- The leading exponent of a nonzero value. -/
def Num.lead : Num → Int
  | .fin _ m e _ => leadExp m e
  | _ => 0

/-- Clamp(lead - W + BIAS, 0, 254). -/
def BlkFmt.expOf (b : BlkFmt) (lead : Int) : Int := clampInt 0 254 (lead - b.w + b.bias)

/-- The greatest of some integers. -/
def maxInt (l : List Int) : Int := match l with | [] => 0 | x :: xs => xs.foldl (fun a c => if a < c then c else a) x

/-- The two exponents of a block of values (R96). -/
def BlkFmt.exps (b : BlkFmt) (xs : List Num) : Nat × Nat :=
  let nan := xs.any Num.isNan
  let ls := (xs.filter fun x => !x.isNan && !x.isZero).map fun x => (blkMag x).lead
  let emax := if ls.isEmpty then 0 else b.expOf (maxInt ls)
  if nan then (255, emax.toNat)
  else
    let small := ls.filter fun l => l < b.t + emax - b.bias
    (emax.toNat, (if small.isEmpty then emax else b.expOf (maxInt small)).toNat)

/-- Round a value to a multiple of 2^q: sign and magnitude. -/
def roundInt (mode : Rnd) (v : Num) (q : Int) : Bool × Nat :=
  match blkMag v with
  | .fin neg m e st => (neg, (roundQ mode neg m e st q).1)
  | _ => (false, 0)

/-- One element under the exponents of its block (R96), with its flags. -/
def BlkFmt.encElem (b : BlkFmt) (mode : Rnd) (e0 e1 : Nat) (v : Num) : Nat × Flg :=
  let nan := e0 = 255
  if v.isNan then (0, Flg.none)
  else
    let q1 := roundInt mode v ((e1 : Int) - b.bias)
    let r : Nat × (Bool × Nat) :=
      if nan then (1, q1)
      else if e1 ≠ e0 ∧ q1.2 ≠ 0 ∧ q1.2 ≤ b.mmax then (1, q1)
      else (0, roundInt mode v ((e0 : Int) - b.bias))
    let m := Nat.min r.2.2 b.mmax
    let code := if m = 0 then r.1 * 2 ^ (b.pb + 1) else r.1 * 2 ^ (b.pb + 1) + r.2.1.toNat * 2 ^ b.pb + m
    let y := b.decode e0 e1 code
    let fin := match v with | .fin .. => true | _ => false
    (code, { Flg.none with inx := !(y.eqv v), udf := m == 0 && fin && !v.isZero })

/-- A block of 32 values (R96): E0, E1, and each element with its flags. -/
def BlkFmt.encode (b : BlkFmt) (mode : Rnd) (xs : List Num) : Nat × Nat × List (Nat × Flg) :=
  let e := b.exps xs
  (e.1, e.2, xs.map (b.encElem mode e.1 e.2))

/-! ## Conversions of single elements (R97, R98) -/

/-- A value, from whatever format, to an element of a type that is no block type. -/
def convNum (dt : ElemTy) (mode : Rnd) (sat : Bool) (v : Num) : Nat × Flg :=
  if dt.isF then (tyFmt dt).fin mode sat v else toInt dt mode v

/-- An element of one type that is no block type to another. -/
def convElem (st dt : ElemTy) (mode : Rnd) (sat : Bool) (b : Nat) : Nat × Flg :=
  if st.isI then
    if dt.isF then (tyFmt dt).fin mode sat (Num.ofInt (intOf st b))
    else (finInt dt sat (intOf st b), Flg.none)
  else convNum dt mode sat (numOf st b)

/-- The residual x - widen(y) of a finite x, and whether it is in the subnormal range; of a NaN or an infinity the canonical NaN
(R99, R100). -/
def residual (t : ElemTy) (x y : Num) : Nat × Flg :=
  match x with
  | .fin .. =>
    let r := Num.add .rne x y.neg
    let small := match r with | .fin _ m e _ => m != 0 && decide (leadExp m e < -126) | _ => false
    ((tyFmt t).bits r, { Flg.none with ruf := small })
  | _ => (qnan t, Flg.none)

/-! ## Group sums (R102) -/

/-- `Align(p, e, 40)`: the integer, and whether a nonzero bit was discarded. -/
def alignTo (v : Num) (e : Int) : Int × Bool :=
  match v with
  | .fin neg m x st =>
    let r := roundQ .rz neg m x st (e - 40)
    (if neg then -(r.1 : Int) else r.1, r.2)
  | _ => (0, false)

/-- The sum of a group of products, rounded to f32 (R102). -/
def groupSum (ps : List Num) : Num × Flg :=
  let has (neg : Bool) : Bool := ps.any (· == .inf neg)
  if ps.any Num.isNan || (has false && has true) then (.nan, Flg.none)
  else if has false then (.inf false, Flg.none)
  else if has true then (.inf true, Flg.none)
  else
    let z := ps.filter fun p => !p.isZero
    if z.isEmpty then (Num.zero, Flg.none)
    else
      let e := maxInt (z.map Num.lead)
      let al := z.map fun p => alignTo p e
      let i : Int := (al.map (·.1)).foldl (· + ·) 0
      let cut : Flg := { Flg.none with inx := al.any (·.2) }
      if i = 0 then (Num.zero, cut)
      else
        let r := fmtF32.round .rne false (.fin (decide (i < 0)) i.natAbs (e - 40) false)
        (r.1, r.2.or cut)

/-- acc takes one group (R102). -/
def accGroup (acc : Num) (ps : List Num) : Num × Flg :=
  let g := groupSum ps
  let r := fmtF32.round .rne false (Num.add .rne acc g.1)
  (r.1, g.2.or r.2)

/-- Cut a list into runs of at most `n`. -/
def chunks {α : Type} (n : Nat) : Nat → List α → List (List α)
  | 0, _ => []
  | _ + 1, [] => []
  | k + 1, l => l.take n :: chunks n k (l.drop n)

/-- A dot product over a k range, in groups of 32 in ascending k (R103). -/
def accDot (acc : Num) (ps : List Num) : Num × Flg :=
  (chunks 32 (ps.length + 1) ps).foldl (fun r g => let x := accGroup r.1 g; (x.1, r.2.or x.2)) (acc, Flg.none)

/-! ## Trees and recurrences (R108-R110) -/

/-- One level of a tree. -/
def treeLevel {α : Type} (node : α → α → α) : List (Option α) → List (Option α)
  | a :: b :: l =>
    (match a, b with
     | some x, some y => some (node x y)
     | some x, none => some x
     | none, y => y) :: treeLevel node l
  | l => l

/-- The fixed pairwise tree (R108). -/
def tree {α : Type} (node : α → α → α) : Nat → List (Option α) → Option α
  | 0, l => (l.head?).bind id
  | n + 1, l => tree node n (treeLevel node l)

/-- A floating node with its flags. -/
def addNode (mode : Rnd) (a b : Num × Flg) : Num × Flg :=
  let r := fmtF32.round mode false (Num.add mode a.1 b.1)
  (r.1, (a.2.or b.2).or r.2)

/-- Running sums (R110): `first` restarts the recurrence; absent elements add nothing. -/
def scanF (mode : Rnd) : List (Option (Num × Bool)) → Option (Num × Flg) → List (Option (Num × Flg))
  | [], _ => []
  | none :: l, s => s :: scanF mode l s
  | some (x, first) :: l, s =>
    let s' := match (if first then none else s) with
      | none => (x, Flg.none)
      | some p =>
        let r := fmtF32.round mode false (Num.add mode p.1 x)
        (r.1, r.2)
    some s' :: scanF mode l (some s')

def scanI : List (Option (Int × Bool)) → Int → List Int
  | [], _ => []
  | none :: l, s => s :: scanI l s
  | some (x, first) :: l, s => let s' := if first then x else s + x; s' :: scanI l s'

end Sys2Proof.Machine
end

