-- ==== Sys2Proof/Machine/Ve.lean ====
section
/-! DEFINITION. Vector registers by element (R85, R95, R126-R131), and the VE instructions that touch no memory
(R133-R147, R149-R151, R157). An `execV…` is the routing of a word; the `runV…` beside it is the entry's effect (R124). -/

namespace Sys2Proof.Machine

open Sys2Proof

/-! ## Elements of registers -/

/-- An element's bits, and its granule's poison. -/
def VRegVal.el (v : VRegVal) (wd i : Nat) : Nat × Bool :=
  (v.bits.toNat / 2 ^ (wd * i) % 2 ^ wd, v.pois.getLsbD (wd * i / 128))

/-- Element i of a register group (R127). -/
def Core.el (x : Core) (base w wd i : Nat) : Nat × Bool := (x.vsrc (base + i % w)).el wd (i / w)

/-- The exponents of block b of a register (R95). -/
def VRegVal.blkExp (v : VRegVal) (b : Nat) : Nat × Nat :=
  (v.tag.toNat / 2 ^ (16 * b) % 256, v.tag.toNat / 2 ^ (16 * b + 8) % 256)

/-- The value of element i of a register of a floating or block type. -/
def VRegVal.num (v : VRegVal) (t : ElemTy) (i : Nat) : Num × Bool :=
  let k := v.el t.width i
  if t.isB then
    let e := v.blkExp (i / 32)
    ((blkFmt t).decode e.1 e.2 k.1, k.2)
  else (numOf t k.1, k.2)

/-- The value of element i of a register group. -/
def Core.num (x : Core) (base w : Nat) (t : ElemTy) (i : Nat) : Num × Bool := (x.vsrc (base + i % w)).num t (i / w)

/-- The poison of each granule after a write (R129): any active source poison, or old poison beside an inactive element. -/
def granules (old : BitVec 32) (per : Nat) : Nat → List (Option (Nat × Bool)) → Nat → Nat
  | 0, _, _ => 0
  | n + 1, l, g =>
    let here := l.take per
    let p := here.any (fun o => match o with | some v => v.2 | none => false) ||
      (old.getLsbD g && here.any Option.isNone)
    p.toNat + 2 * granules old per n (l.drop per) (g + 1)

/-- Write the active elements of a register: `f` gives each element's bits and poison, or none where it is inactive. -/
def VRegVal.write (old : VRegVal) (wd : Nat) (tag : BitVec 512) (f : Nat → Option (Nat × Bool)) : VRegVal :=
  let l := (List.range (4096 / wd)).map f
  let bits := l.zipIdx.map fun o => match o.1 with | some v => v.1 | none => (old.el wd o.2).1
  { bits := BitVec.ofNat 4096 (packBits wd bits), tag := tag,
    pois := BitVec.ofNat 32 (granules old.pois (128 / wd) 32 l 0) }

/-- Write a register group with elements of a type that is no block type (R127, R131). An entry that happens to write no element
still leaves the register holding its type, with a tag of zero (DEDUCED log 74). -/
def Core.putGroup (x : Core) (base w wd : Nat) (f : Nat → Option (Nat × Bool)) : Core :=
  (List.range w).foldl (fun x r =>
    x.setVreg (base + r) ((x.vreg (base + r)).write wd 0 fun k => f (k * w + r))) x

/-- An element is active under a governing mask (R128). -/
def Core.act (x : Core) (m : MReg) (i : Nat) : Bool := m.val = 0 || (x.mreg m.val).getLsbD i

/-- The value of element i of a source operand, as bits with poison (R126). -/
def Core.src (x : Core) (t : ElemTy) (mode : Rnd) (o : EOpd) (k : SVal) (i : Nat) : Nat × Bool :=
  match o with
  | .vec r => (x.vsrc r.val).el t.width i
  | .lit _ => (litElem t mode k.v, false)
  | _ => (k.v.toNat % 2 ^ t.width, k.p)

/-- Write a mask register. -/
def maskOf (bits : List Bool) : BitVec 1024 := BitVec.ofNat 1024 (bits.foldr (fun b acc => b.toNat + 2 * acc) 0)

/-- The core of an entry. -/
def coreM (c : Nat) : Mx Core := do pure ((← getS).core c)
def setCoreM (c : Nat) (x : Core) : Mx Unit := modS (·.setCore c x)

/-- A poisoned captured count, index or address (R126, R132). -/
def needClean (k : SVal) : Mx Unit := check (!k.p) 0x0A 0x34

/-- The lowest element that is refused. -/
def lowest (n : Nat) (p : Nat → Bool) : Option Nat := (List.range n).find? p

/-- Element-wise: D[i] ← f of the sources' bits, with flags (R134). -/
def vmap (d : VReg) (a b k : EOpd) (m : Mods) (f : Nat → Nat → Nat → Nat × Flg) (c : Nat) (e : Entry) : Mx Flg := do
  let x ← coreM c
  let el (i : Nat) : Option (Nat × Bool × Flg) :=
    if !x.act m.mask i then none
    else
      let u := x.src m.ty m.rnd a e.a i
      let v := x.src m.ty m.rnd b e.b i
      let w := x.src m.ty m.rnd k e.c i
      let r := f u.1 v.1 w.1
      some (r.1, u.2 || v.2 || w.2, r.2)
  let rs := (List.range m.ty.count).map el
  setCoreM c (x.putGroup d.val 1 m.ty.width fun i => (rs.getD i none).map fun r => (r.1, r.2.1))
  pure (orAll (rs.map fun r => match r with | some v => v.2.2 | none => Flg.none))

/-- An operand that an instruction does not have: it feeds no poison. -/
def unusedOpd : EOpd := .lit 0

/-- An operation by its exact results on values and on integers (R134). -/
def byTy (m : Mods) (ff : Num → Num → Num → Num) (fi : Int → Int → Int → Int) (u v w : Nat) : Nat × Flg :=
  let t := m.ty
  if t.isF then (tyFmt t).fin m.rnd m.sat (ff (numOf t u) (numOf t v) (numOf t w))
  else (finInt t m.sat (fi (intOf t u) (intOf t v) (intOf t w)), Flg.none)

/-- The shift count: the low log2(w) bits of y (R134). -/
def shiftCount (t : ElemTy) (v : Nat) : Nat := v % t.width

/-! ## Arithmetic and logic (R134) -/

def execVadd (t : Tok) (d : VReg) (a b : EOpd) (m : Mods) (s : State) : Out := route .ve (.vadd t d a b m) (caps a b) s
def runVadd (d : VReg) (a b : EOpd) (m : Mods) : Nat → Entry → Mx Flg :=
  vmap d a b unusedOpd m (byTy m (fun x y _ => Num.add m.rnd x y) fun x y _ => x + y)

def execVsub (t : Tok) (d : VReg) (a b : EOpd) (m : Mods) (s : State) : Out := route .ve (.vsub t d a b m) (caps a b) s
def runVsub (d : VReg) (a b : EOpd) (m : Mods) : Nat → Entry → Mx Flg :=
  vmap d a b unusedOpd m (byTy m (fun x y _ => Num.add m.rnd x y.neg) fun x y _ => x - y)

def execVmul (t : Tok) (d : VReg) (a b : EOpd) (m : Mods) (s : State) : Out := route .ve (.vmul t d a b m) (caps a b) s
def runVmul (d : VReg) (a b : EOpd) (m : Mods) : Nat → Entry → Mx Flg :=
  vmap d a b unusedOpd m (byTy m (fun x y _ => x.mul y) fun x y _ => x * y)

def execVfma (t : Tok) (d : VReg) (a b c : EOpd) (m : Mods) (s : State) : Out :=
  route .ve (.vfma t d a b c m) (caps a b c) s
def runVfma (d : VReg) (a b k : EOpd) (m : Mods) : Nat → Entry → Mx Flg :=
  vmap d a b k m (byTy m (fun x y z => Num.add m.rnd (x.mul y) z) fun x y z => x * y + z)

def execVdiv (t : Tok) (d : VReg) (a b : EOpd) (m : Mods) (s : State) : Out := route .ve (.vdiv t d a b m) (caps a b) s
def runVdiv (d : VReg) (a b : EOpd) (m : Mods) : Nat → Entry → Mx Flg :=
  vmap d a b unusedOpd m (byTy m (fun x y _ => x.div y) fun x _ _ => x)

def execVsqrt (t : Tok) (d : VReg) (a : EOpd) (m : Mods) (s : State) : Out := route .ve (.vsqrt t d a m) (caps a) s
def runVsqrt (d : VReg) (a : EOpd) (m : Mods) : Nat → Entry → Mx Flg :=
  vmap d a unusedOpd unusedOpd m (byTy m (fun x _ _ => x.sqrt) fun x _ _ => x)

def execVabs (t : Tok) (d : VReg) (a : EOpd) (m : Mods) (s : State) : Out := route .ve (.vabs t d a m) (caps a) s
def runVabs (d : VReg) (a : EOpd) (m : Mods) : Nat → Entry → Mx Flg :=
  vmap d a unusedOpd unusedOpd m (byTy m (fun x _ _ => x.abs) fun x _ _ => x.natAbs)

def execVneg (t : Tok) (d : VReg) (a : EOpd) (m : Mods) (s : State) : Out := route .ve (.vneg t d a m) (caps a) s
def runVneg (d : VReg) (a : EOpd) (m : Mods) : Nat → Entry → Mx Flg :=
  vmap d a unusedOpd unusedOpd m (byTy m (fun x _ _ => x.neg) fun x _ _ => -x)

def execVmin (t : Tok) (d : VReg) (a b : EOpd) (m : Mods) (s : State) : Out := route .ve (.vmin t d a b m) (caps a b) s
def runVmin (d : VReg) (a b : EOpd) (m : Mods) : Nat → Entry → Mx Flg :=
  vmap d a b unusedOpd m (byTy m (fun x y _ => x.min y) fun x y _ => if x ≤ y then x else y)

def execVmax (t : Tok) (d : VReg) (a b : EOpd) (m : Mods) (s : State) : Out := route .ve (.vmax t d a b m) (caps a b) s
def runVmax (d : VReg) (a b : EOpd) (m : Mods) : Nat → Entry → Mx Flg :=
  vmap d a b unusedOpd m (byTy m (fun x y _ => x.max y) fun x y _ => if x ≤ y then y else x)

/-- Bitwise on the patterns: no NaN rule applies (R88, R134). -/
def bitwise (f : Nat → Nat → Nat) (u v _w : Nat) : Nat × Flg := (f u v, Flg.none)

def execVand (t : Tok) (d : VReg) (a b : EOpd) (m : Mods) (s : State) : Out := route .ve (.vand t d a b m) (caps a b) s
def runVand (d : VReg) (a b : EOpd) (m : Mods) : Nat → Entry → Mx Flg := vmap d a b unusedOpd m (bitwise (· &&& ·))

def execVor (t : Tok) (d : VReg) (a b : EOpd) (m : Mods) (s : State) : Out := route .ve (.vor t d a b m) (caps a b) s
def runVor (d : VReg) (a b : EOpd) (m : Mods) : Nat → Entry → Mx Flg := vmap d a b unusedOpd m (bitwise (· ||| ·))

def execVxor (t : Tok) (d : VReg) (a b : EOpd) (m : Mods) (s : State) : Out := route .ve (.vxor t d a b m) (caps a b) s
def runVxor (d : VReg) (a b : EOpd) (m : Mods) : Nat → Entry → Mx Flg := vmap d a b unusedOpd m (bitwise (· ^^^ ·))

def execVshl (t : Tok) (d : VReg) (a b : EOpd) (m : Mods) (s : State) : Out := route .ve (.vshl t d a b m) (caps a b) s
def runVshl (d : VReg) (a b : EOpd) (m : Mods) : Nat → Entry → Mx Flg :=
  vmap d a b unusedOpd m fun u v _ => (finInt m.ty m.sat (intOf m.ty u * (2 ^ shiftCount m.ty v : Nat)), Flg.none)

def execVshr (t : Tok) (d : VReg) (a b : EOpd) (m : Mods) (s : State) : Out := route .ve (.vshr t d a b m) (caps a b) s
def runVshr (d : VReg) (a b : EOpd) (m : Mods) : Nat → Entry → Mx Flg :=
  vmap d a b unusedOpd m (bitwise fun u v => u / 2 ^ shiftCount m.ty v)

/-- An arithmetic right shift of a w-bit pattern, which copies bit w - 1 whatever the type (R134). -/
def sraBits (w u s : Nat) : Nat :=
  let k : Int := if 2 ^ (w - 1) ≤ u then (u : Int) - (2 ^ w : Nat) else u
  wrapInt w (k / (2 ^ s : Nat))

def execVsra (t : Tok) (d : VReg) (a b : EOpd) (m : Mods) (s : State) : Out := route .ve (.vsra t d a b m) (caps a b) s
def runVsra (d : VReg) (a b : EOpd) (m : Mods) : Nat → Entry → Mx Flg :=
  vmap d a b unusedOpd m (bitwise fun u v => sraBits m.ty.width u (shiftCount m.ty v))

/-! ## Special functions (R145) -/

/-- A function of one operand with its own rounding. -/
def vfun (d : VReg) (a : EOpd) (m : Mods) (f : Fmt → Rnd → Bool → Num → Num × Flg) : Nat → Entry → Mx Flg :=
  vmap d a unusedOpd unusedOpd m fun u _ _ =>
    let r := f (tyFmt m.ty) m.rnd m.sat (numOf m.ty u)
    ((tyFmt m.ty).bits r.1, r.2)

def execVexp2 (t : Tok) (d : VReg) (a : EOpd) (m : Mods) (s : State) : Out := route .ve (.vexp2 t d a m) (caps a) s
def runVexp2 (d : VReg) (a : EOpd) (m : Mods) : Nat → Entry → Mx Flg := vfun d a m exp2Num

def execVlog2 (t : Tok) (d : VReg) (a : EOpd) (m : Mods) (s : State) : Out := route .ve (.vlog2 t d a m) (caps a) s
def runVlog2 (d : VReg) (a : EOpd) (m : Mods) : Nat → Entry → Mx Flg := vfun d a m log2Num

def execVrcp (t : Tok) (d : VReg) (a : EOpd) (m : Mods) (s : State) : Out := route .ve (.vrcp t d a m) (caps a) s
def runVrcp (d : VReg) (a : EOpd) (m : Mods) : Nat → Entry → Mx Flg := vfun d a m fun f r sat v => f.round r sat v.rcp

def execVrsqrt (t : Tok) (d : VReg) (a : EOpd) (m : Mods) (s : State) : Out := route .ve (.vrsqrt t d a m) (caps a) s
def runVrsqrt (d : VReg) (a : EOpd) (m : Mods) : Nat → Entry → Mx Flg := vfun d a m fun f r sat v => f.round r sat v.rsqrt

/-! ## Compare, select, move (R135-R138) -/

/-- The condition of `vcmp` (R135). -/
def condElem (cc : Cond) (t : ElemTy) (u v : Nat) : Bool :=
  match cc with
  | .ltn => decide (u < v)
  | .gen => decide (v ≤ u)
  | _ =>
    if t.isF then
      let x := numOf t u
      let y := numOf t v
      let nan := x.isNan || y.isNan
      match cc with
      | .eq => x.eqv y
      | .ne => !x.eqv y
      | .lt => !nan && x.lt y
      | _ => !nan && !x.lt y
    else
      match cc with
      | .eq => u == v
      | .ne => u != v
      | .lt => decide (intOf t u < intOf t v)
      | _ => decide (intOf t v ≤ intOf t u)

def execVcmp (t : Tok) (cc : Cond) (d : MReg) (a b : EOpd) (m : Mods) (s : State) : Out :=
  route .ve (.vcmp t cc d a b m) (caps a b) s
def runVcmp (cc : Cond) (d : MReg) (a b : EOpd) (m : Mods) (c : Nat) (e : Entry) : Mx Flg := do
  let x ← coreM c
  let u (i : Nat) := x.src m.ty m.rnd a e.a i
  let v (i : Nat) := x.src m.ty m.rnd b e.b i
  match lowest m.ty.count fun i => x.act m.mask i && ((u i).2 || (v i).2) with
  | some i => raise 0x0A 0x34 i
  | none =>
    let old := x.mreg d.val
    let bits := (List.range m.ty.count).map fun i =>
      if x.act m.mask i then condElem cc m.ty (u i).1 (v i).1 else old.getLsbD i
    setCoreM c (x.setMreg d.val (maskOf bits))
    pure Flg.none

def execVsel (t : Tok) (d : VReg) (a b : EOpd) (c : MReg) (ty : ElemTy) (s : State) : Out :=
  route .ve (.vsel t d a b c ty) (caps a b) s
def runVsel (d : VReg) (a b : EOpd) (k : MReg) (ty : ElemTy) (c : Nat) (e : Entry) : Mx Flg := do
  let x ← coreM c
  let mk := x.mreg k.val
  setCoreM c (x.putGroup d.val 1 ty.width fun i =>
    some (if mk.getLsbD i then x.src ty .rne a e.a i else x.src ty .rne b e.b i))
  pure Flg.none

/-- A register read as one of a block type: the tag bytes that the type does not use are written as zero (R95, R131). -/
def VRegVal.ofBlocks (v : VRegVal) (t : ElemTy) : VRegVal :=
  if t = .bx8 then { v with tag := (v.tag.extractLsb' 0 256).setWidth 512 } else v

def execVmov (t : Tok) (d : VReg) (a : EOpd) (m : Mods) (s : State) : Out := route .ve (.vmov t d a m) (caps a) s
def runVmov (d : VReg) (a : EOpd) (m : Mods) (c : Nat) (e : Entry) : Mx Flg := do
  let x ← coreM c
  match a with
  | .vec r =>
    if m.ty.isB then setCoreM c (x.setVreg d.val ((x.vsrc r.val).ofBlocks m.ty))
    else setCoreM c (x.putGroup d.val 1 m.ty.width fun i => if x.act m.mask i then some (x.src m.ty m.rnd a e.a i) else none)
  | _ => setCoreM c (x.putGroup d.val 1 m.ty.width fun i => if x.act m.mask i then some (x.src m.ty m.rnd a e.a i) else none)
  pure Flg.none

def execVbcast (t : Tok) (d a : VReg) (b : EOpd) (m : Mods) (s : State) : Out := route .ve (.vbcast t d a b m) (caps b) s
def runVbcast (d a : VReg) (m : Mods) (c : Nat) (e : Entry) : Mx Flg := do
  needClean e.a
  let x ← coreM c
  let k := e.a.v.toNat
  let v := if k < m.ty.count then (x.vsrc a.val).el m.ty.width k else (0, false)
  setCoreM c (x.putGroup d.val 1 m.ty.width fun i => if x.act m.mask i then some v else none)
  pure Flg.none

def execVperm (t : Tok) (d a b : VReg) (m : Mods) (s : State) : Out := route .ve (.vperm t d a b m) (caps) s
def runVperm (d a b : VReg) (m : Mods) (c : Nat) (_e : Entry) : Mx Flg := do
  let x ← coreM c
  setCoreM c (x.putGroup d.val 1 m.ty.width fun i =>
    if !x.act m.mask i then none
    else
      let k := (x.vsrc b.val).el m.ty.width i
      let v := if k.1 < m.ty.count then (x.vsrc a.val).el m.ty.width k.1 else (0, false)
      some (v.1, v.2 || k.2))
  pure Flg.none

def execVslide (t : Tok) (d a : VReg) (b : EOpd) (c : Option VReg) (m : Mods) (s : State) : Out :=
  route .ve (.vslide t d a b c m) (caps b) s
def runVslide (d a : VReg) (k : Option VReg) (m : Mods) (c : Nat) (e : Entry) : Mx Flg := do
  needClean e.a
  let x ← coreM c
  let n : Int := m.ty.count
  setCoreM c (x.putGroup d.val 1 m.ty.width fun i =>
    if !x.act m.mask i then none
    else
      let j : Int := i + e.a.v.toInt
      let from_ (r : VReg) (j : Int) := (x.vsrc r.val).el m.ty.width j.toNat
      some (if 0 ≤ j ∧ j < n then from_ a j
        else match k with
          | none => (0, false)
          | some r => if n ≤ j ∧ j < 2 * n then from_ r (j - n) else if -n ≤ j ∧ j < 0 then from_ r (j + n) else (0, false)))
  pure Flg.none

/-! ## Reductions and scans (R139, R140, R150) -/

/-- Element 0 takes a result; every other element is zero bits (R139, R157). -/
def putFirst (c : Nat) (d : VReg) (wd v : Nat) (p : Bool) : Mx Unit :=
  modS (·.onCore c fun x => x.putGroup d.val 1 wd fun i => some (if i = 0 then (v, p) else (0, false)))

/-- Some active element of a register is poisoned, at or below an index. -/
def Core.anyPois (x : Core) (a : VReg) (m : Mods) (upTo : Nat) : Bool :=
  (List.range upTo).any fun i => x.act m.mask i && ((x.vsrc a.val).el m.ty.width i).2

/-- Reduce by a tree on values, and on integers (R108, R109). -/
def vreduce (d a : VReg) (m : Mods) (nodeF : Num × Flg → Num × Flg → Num × Flg) (emptyF : Num)
    (nodeI : Int → Int → Int) (emptyI : Int) (c : Nat) (_e : Entry) : Mx Flg := do
  let x ← coreM c
  let t := m.ty
  let n := t.count
  let raw (i : Nat) : Option Nat := if x.act m.mask i then some ((x.vsrc a.val).el t.width i).1 else none
  let p := x.anyPois a m n
  if t.isF then
    let r := (tree nodeF (Nat.log2 n) ((List.range n).map fun i => (raw i).map fun b => (numOf t b, Flg.none))).getD
      (emptyF, Flg.none)
    let q := (tyFmt t).fin m.rnd false r.1
    putFirst c d t.width q.1 p
    pure (r.2.or q.2)
  else
    let r := (tree nodeI (Nat.log2 n) ((List.range n).map fun i => (raw i).map (intOf t))).getD emptyI
    putFirst c d t.width (finInt t m.sat r) p
    pure Flg.none

def execVredsum (t : Tok) (d a : VReg) (m : Mods) (s : State) : Out := route .ve (.vredsum t d a m) (caps) s
def runVredsum (d a : VReg) (m : Mods) : Nat → Entry → Mx Flg :=
  vreduce d a m (addNode m.rnd) Num.zero (· + ·) 0

def execVredmax (t : Tok) (d a : VReg) (m : Mods) (s : State) : Out := route .ve (.vredmax t d a m) (caps) s
def runVredmax (d a : VReg) (m : Mods) : Nat → Entry → Mx Flg :=
  vreduce d a m (fun u v => (u.1.max v.1, Flg.none)) (.inf true) (fun u v => if u ≤ v then v else u) (tyLo m.ty)

def execVredmin (t : Tok) (d a : VReg) (m : Mods) (s : State) : Out := route .ve (.vredmin t d a m) (caps) s
def runVredmin (d a : VReg) (m : Mods) : Nat → Entry → Mx Flg :=
  vreduce d a m (fun u v => (u.1.min v.1, Flg.none)) (.inf false) (fun u v => if u ≤ v then u else v) (tyHi m.ty)

/-- Running sums over the active elements, restarted where `first` says so, into d (R110, R140, R150). -/
def vrunning (d a : VReg) (m : Mods) (first : Nat → Bool) (c : Nat) : Mx Flg := do
  let x ← coreM c
  let t := m.ty
  let idx := List.range t.count
  let item (i : Nat) : Option (Nat × Bool) := if x.act m.mask i then some (((x.vsrc a.val).el t.width i).1, first i) else none
  let poisons := (idx.foldl (fun (acc : List Bool × Bool) i =>
      if !x.act m.mask i then (acc.2 :: acc.1, acc.2)
      else
        let p := ((x.vsrc a.val).el t.width i).2 || (acc.2 && !first i)
        (p :: acc.1, p)) ([], false)).1.reverse
  let out (vals : List (Option Nat)) : Core :=
    x.putGroup d.val 1 t.width fun i =>
      if x.act m.mask i then (vals.getD i none).map fun v => (v, poisons.getD i false) else none
  if t.isF then
    let rs := scanF m.rnd (idx.map fun i => (item i).map fun p => (numOf t p.1, p.2)) none
    let fin := rs.zipIdx.map fun r =>
      match r.1 with
      | some v => if x.act m.mask r.2 then
          let q := (tyFmt t).fin m.rnd false v.1
          some (q.1, v.2.or q.2) else none
      | none => none
    setCoreM c (out (fin.map fun r => r.map (·.1)))
    pure (orAll (fin.map fun r => match r with | some v => v.2 | none => Flg.none))
  else
    let rs := scanI (idx.map fun i => (item i).map fun p => (intOf t p.1, p.2)) 0
    setCoreM c (out (rs.map fun r => some (finInt t m.sat r)))
    pure Flg.none

def execVscan (t : Tok) (d a : VReg) (m : Mods) (s : State) : Out := route .ve (.vscan t d a m) (caps) s
def runVscan (d a : VReg) (m : Mods) (c : Nat) (_e : Entry) : Mx Flg := vrunning d a m (fun _ => false) c

/-- For each active element, whether it starts a segment (R150): the key differs from the previous active one's. -/
def segStarts (act : Nat → Bool) (key : Nat → Nat) : List Nat → Option Nat → List Bool
  | [], _ => []
  | i :: is, prev =>
    if !act i then false :: segStarts act key is prev
    else (match prev with | none => true | some k => key i != k) :: segStarts act key is (some (key i))

/-- For each element, whether it is the last active one of its segment. -/
def segEnds (act first : Nat → Bool) (n i : Nat) : Bool :=
  act i && (match (List.range n).find? (fun j => i < j && act j) with | none => true | some j => first j)

def execVsegsum (t : Tok) (d a b : VReg) (c : MReg) (m : Mods) (s : State) : Out :=
  route .ve (.vsegsum t d a b c m) (caps) s
def runVsegsum (d a b : VReg) (k : MReg) (m : Mods) (c : Nat) (_e : Entry) : Mx Flg := do
  let x ← coreM c
  let n := m.ty.count
  let key (i : Nat) := (x.vsrc b.val).el m.ty.width i
  match lowest n fun i => x.act m.mask i && (key i).2 with
  | some i => raise 0x0A 0x34 i
  | none =>
    let starts := segStarts (x.act m.mask) (fun i => (key i).1) (List.range n) none
    let first (i : Nat) : Bool := starts.getD i false
    let fl ← vrunning d a m first c
    modS (·.onCore c fun y => y.setMreg k.val (maskOf ((List.range n).map (segEnds (x.act m.mask) first n))))
    pure fl

/-! ## Dot products and widening products (R141, R142) -/

/-- Element i of a register as an exact value, whatever its type. -/
def VRegVal.any (v : VRegVal) (t : ElemTy) (i : Nat) : Num × Bool :=
  if t.isI then let k := v.el t.width i; (Num.ofInt (intOf t k.1), k.2) else v.num t i

/-- The accumulator type of `vdot` (R141). -/
def dotAcc (t : ElemTy) : ElemTy := if !t.isI then .f32 else if t.isSigned then .i32 else .n32

def execVdot (t : Tok) (d a b : VReg) (g : Fin 6) (m : Mods) (s : State) : Out := route .ve (.vdot t d a b g m) (caps) s
def runVdot (d a b : VReg) (g : Fin 6) (m : Mods) (c : Nat) (_e : Entry) : Mx Flg := do
  let x ← coreM c
  let t := m.ty
  let n := 2 ^ g.val
  let outs := t.count / n
  let w := Nat.max 1 (outs / 128)
  let acc := dotAcc t
  let el (j : Nat) : Option (Nat × Bool × Flg) :=
    if outs ≤ j ∨ !x.act m.mask j then none
    else
      let old := x.el d.val w 32 j
      let us := (List.range n).map fun k => (x.vsrc a.val).any t (j * n + k)
      let vs := (List.range n).map fun k => (x.vsrc b.val).any t (j * n + k)
      let p := old.2 || us.any (·.2) || vs.any (·.2)
      if t.isI then
        let tot := (List.range n).foldl (fun (s : Int) k =>
          s + intOf t ((x.vsrc a.val).el t.width (j * n + k)).1 * intOf t ((x.vsrc b.val).el t.width (j * n + k)).1)
          (intOf acc old.1)
        some (finInt acc m.sat tot, p, Flg.none)
      else
        let r := accGroup (numF32 old.1) ((us.zip vs).map fun q => q.1.1.mul q.2.1)
        some (fmtF32.bits r.1, p, r.2)
  let rs := (List.range (w * 128)).map el
  setCoreM c (x.putGroup d.val w 32 fun i => (rs.getD i none).map fun r => (r.1, r.2.1))
  pure (orAll (rs.map fun r => match r with | some v => v.2.2 | none => Flg.none))

/-- The destination type of `vwmul` (R142). -/
def wideTy : ElemTy → ElemTy
  | .bx4 => .bf16 | .i16 => .i32 | .n16 => .n32 | .i8 => .i16 | .n8 => .n16 | .i4 => .i8 | .n4 => .n8 | _ => .f32

def execVwmul (t : Tok) (d a b : VReg) (m : Mods) (s : State) : Out := route .ve (.vwmul t d a b m) (caps) s
def runVwmul (d a b : VReg) (m : Mods) (c : Nat) (_e : Entry) : Mx Flg := do
  let x ← coreM c
  let t := m.ty
  let dt := wideTy t
  let w := if t.isB then 4 else 2
  let el (i : Nat) : Option (Nat × Bool × Flg) :=
    if !x.act m.mask i then none
    else
      let u := (x.vsrc a.val).any t i
      let v := (x.vsrc b.val).any t i
      if t.isI then
        some (wrapInt dt.width (intOf t ((x.vsrc a.val).el t.width i).1 * intOf t ((x.vsrc b.val).el t.width i).1),
          u.2 || v.2, Flg.none)
      else
        let r := (tyFmt dt).fin m.rnd false (u.1.mul v.1)
        some (r.1, u.2 || v.2, r.2)
  let rs := (List.range t.count).map el
  setCoreM c (x.putGroup d.val w dt.width fun i => (rs.getD i none).map fun r => (r.1, r.2.1))
  pure (orAll (rs.map fun r => match r with | some v => v.2.2 | none => Flg.none))

/-! ## Conversions (R143, R144) -/

/-- Where conversion elements stand: the group of the wide side, the offset on the narrow side, and their number. -/
structure CvtMap where
  w : Nat
  off : Nat
  n : Nat
  /-- the source is the wide side -/
  srcWide : Bool
  deriving DecidableEq, Repr

def cvtMap (st dt : ElemTy) (h : Bool) : CvtMap :=
  let r := rho st dt
  { w := Nat.min r 4, off := if r = 8 ∧ h then 512 else 0, n := if r = 8 then 512 else Nat.max st.count dt.count,
    srcWide := dt.width < st.width }

/-- The register and position of conversion element i on a side. -/
def CvtMap.place (k : CvtMap) (base : Nat) (wide : Bool) (i : Nat) : Nat × Nat :=
  if wide then (base + i % k.w, i / k.w) else (base, k.off + i)

/-- The conversion element that stands at a position of register `r` of a side. -/
def CvtMap.at_ (k : CvtMap) (wide : Bool) (r pos : Nat) : Option Nat :=
  if wide then some (pos * k.w + r) else if k.off ≤ pos ∧ pos < k.off + k.n then some (pos - k.off) else none

/-- The registers of a side. -/
def CvtMap.regs (k : CvtMap) (wide : Bool) : Nat := if wide then k.w else 1

/-- A converted element: bits, poison, flags, and its value where a residual is wanted. -/
structure Conv where
  bits : Nat
  p : Bool
  f : Flg
  y : Num
  deriving DecidableEq, Repr

/-- One element to a type that is no block type; with `ef`, that is in an error-feedback conversion, an infinity becomes ±max of
the destination (R99; DEDUCED log 27). -/
def convOne (st dt : ElemTy) (mode : Rnd) (sat ef : Bool) (v : Num) (b : Nat) : Nat × Flg :=
  match v with
  | .inf neg =>
    if ef then ((tyFmt dt).bits ((tyFmt dt).max neg), { Flg.none with inx := true }) else convElem st dt mode sat b
  | _ => if st.isB then convNum dt mode sat v else convElem st dt mode sat b

/-- The conversion of every element to a type that is no block type. -/
def convPlain (x : Core) (a : VReg) (st dt : ElemTy) (k : CvtMap) (m : Mods) (sat ef : Bool) : List (Option Conv) :=
  (List.range k.n).map fun i =>
    if !x.act m.mask i then none
    else
      let pl := k.place a.val k.srcWide i
      let p := ((x.vsrc pl.1).el st.width pl.2).2
      let r := convOne st dt m.rnd sat ef ((x.vsrc pl.1).num st pl.2).1 ((x.vsrc pl.1).el st.width pl.2).1
      some { bits := r.1, p := p, f := r.2, y := if dt.isF then numOf dt r.1 else .nan }

/-- The blocks of a destination register `r`: for each block, its number, exponents and elements in order (R143). -/
def convBlocks (x : Core) (a : VReg) (st dt : ElemTy) (k : CvtMap) (m : Mods) (r : Nat) :
    List (Nat × Nat × Nat × List Conv) :=
  let wide := !k.srcWide
  (List.range (dt.count / 32)).filterMap fun b =>
    match (List.range 32).mapM fun t => k.at_ wide r (32 * b + t) with
    | none => none
    | some is =>
      let vs := is.map fun i => let pl := k.place a.val k.srcWide i; (x.vsrc pl.1).any st pl.2
      let e := (blkFmt dt).encode m.rnd (vs.map (·.1))
      let p := vs.any (·.2)
      some (b, e.1, e.2.1, e.2.2.map fun c => { bits := c.1, p := p, f := c.2, y := (blkFmt dt).decode e.1 e.2.1 c.1 })

/-- Write the blocks of one register, with the tag bytes of exactly those blocks (R131, R143). -/
def VRegVal.putBlocks (old : VRegVal) (dt : ElemTy) (bs : List (Nat × Nat × Nat × List Conv)) : VRegVal :=
  let keep := if dt = .bx8 then old.tag.toNat % 2 ^ 256 else old.tag.toNat
  let tag := bs.foldl (fun t b =>
    t - t / 2 ^ (16 * b.1) % 65536 * 2 ^ (16 * b.1) + (b.2.1 + 256 * b.2.2.1) * 2 ^ (16 * b.1)) keep
  old.write dt.width (BitVec.ofNat 512 tag) fun pos =>
    match bs.find? (·.1 == pos / 32) with
    | none => none
    | some b => (b.2.2.2[pos % 32]?).map fun c => (c.bits, c.p)

/-- Convert into d: every converted element by its number, and the core with d written. -/
def convert (x : Core) (d a : VReg) (st : ElemTy) (h : Bool) (m : Mods) (sat : Bool) (ef : Bool := false) : List (Option Conv) × Core :=
  let dt := m.ty
  let k := cvtMap st dt h
  let wide := !k.srcWide
  if dt.isB then
    (List.range (k.regs wide)).foldl (fun (acc : List (Option Conv) × Core) r =>
      let bs := convBlocks x a st dt k m r
      let put := bs.foldl (fun (l : List (Option Conv)) b =>
        b.2.2.2.zipIdx.foldl (fun l c =>
          match k.at_ wide r (32 * b.1 + c.2) with
          | none => l
          | some i => listSet l i (some c.1)) l) acc.1
      (put, acc.2.setVreg (d.val + r) ((acc.2.vreg (d.val + r)).putBlocks dt bs)))
      (List.replicate k.n none, x)
  else
    let rs := convPlain x a st dt k m sat ef
    let y := (List.range (k.regs wide)).foldl (fun (y : Core) r =>
      y.setVreg (d.val + r) ((y.vreg (d.val + r)).write dt.width 0 fun pos =>
        match k.at_ wide r pos with
        | none => none
        | some i => (rs.getD i none).map fun c => (c.bits, c.p))) x
    (rs, y)

def convFlags (rs : List (Option Conv)) : Flg := orAll (rs.map fun r => match r with | some c => c.f | none => Flg.none)

def execVcvt (t : Tok) (d a : VReg) (st : ElemTy) (h : Bool) (m : Mods) (s : State) : Out :=
  route .ve (.vcvt t d a st h m) (caps) s
def runVcvt (d a : VReg) (st : ElemTy) (h : Bool) (m : Mods) (c : Nat) (_e : Entry) : Mx Flg := do
  let x ← coreM c
  let r := convert x d a st h m m.sat
  setCoreM c r.2
  pure (convFlags r.1)

def execVcvtef (t : Tok) (d a c : VReg) (st : ElemTy) (h : Bool) (m : Mods) (s : State) : Out :=
  route .ve (.vcvtef t d a c st h m) (caps) s
def runVcvtef (d a r : VReg) (st : ElemTy) (h : Bool) (m : Mods) (c : Nat) (_e : Entry) : Mx Flg := do
  let x ← coreM c
  let k := cvtMap st m.ty h
  let v := convert x d a st h m true true
  let res := v.1.zipIdx.map fun o => o.1.map fun cv =>
    let pl := k.place a.val k.srcWide o.2
    let q := residual st ((x.vsrc pl.1).num st pl.2).1 cv.y
    (q.1, cv.p, q.2)
  setCoreM c (v.2.putGroup r.val k.w st.width fun i => (res.getD i none).map fun q => (q.1, q.2.1))
  pure ((convFlags v.1).or (orAll (res.map fun q => match q with | some w => w.2.2 | none => Flg.none)))

/-! ## Sorting (R149) -/

/-- Stable insertion. -/
def insertBy {α : Type} (lt : α → α → Bool) (x : α) : List α → List α
  | [] => [x]
  | y :: l => if lt y x then y :: insertBy lt x l else x :: y :: l

/-- A stable sort. -/
def sortBy {α : Type} (lt : α → α → Bool) (l : List α) : List α := l.foldr (insertBy lt) []

/-- The order of keys (R149). -/
def keyLt (t : ElemTy) (u v : Nat) : Bool :=
  if t.isF then
    let x := numOf t u
    let y := numOf t v
    !x.isNan && (y.isNan || x.lt y)
  else decide (intOf t u < intOf t v)

def execVsortk (t : Tok) (d a b : VReg) (m : Mods) (s : State) : Out := route .ve (.vsortk t d a b m) (caps) s
/-- `vsortk` (R149). Only a poisoned key of an active element raises poison-sync (R129); a poisoned granule of inactive keys moves
with them (DEDUCED log 75). -/
def runVsortk (d a b : VReg) (m : Mods) (c : Nat) (_e : Entry) : Mx Flg := do
  let x ← coreM c
  let t := m.ty
  let key (i : Nat) := (x.vsrc a.val).el t.width i
  match lowest t.count fun i => x.act m.mask i && (key i).2 with
  | some i => raise 0x0A 0x34 i
  | none =>
    let idx := List.range t.count
    let on := sortBy (fun i j => keyLt t (key i).1 (key j).1) (idx.filter (x.act m.mask))
    let order := on ++ idx.filter fun i => !x.act m.mask i
    let from_ (r : VReg) (pos : Nat) : Option (Nat × Bool) := (order[pos]?).map fun i => (x.vsrc r.val).el t.width i
    setCoreM c ((x.putGroup d.val 1 t.width (from_ a)).putGroup (d.val + 1) 1 t.width (from_ b))
    pure Flg.none

/-! ## Conditional streams (R151) -/

/-- Append records until one does not fit: the lanes whose records went in. -/
def pushRecs (w : Nat) (rec_ : Nat → List (BitVec 32 × Bool)) :
    List Nat → List (BitVec 32 × Bool) → List (BitVec 32 × Bool) × List Nat
  | [], st => (st, [])
  | i :: is, st =>
    if 448 < st.length + w then (st, [])
    else let r := pushRecs w rec_ is (st ++ rec_ i); (r.1, i :: r.2)

def execVpushc (t : Tok) (d : MReg) (a : VReg) (w : Fin 3) (ty : ElemTy) (mask : MReg) (s : State) : Out :=
  route .ve (.vpushc t d a w ty mask) (caps) s
def runVpushc (d : MReg) (a : VReg) (w : Fin 3) (mask : MReg) (c : Nat) (_e : Entry) : Mx Flg := do
  let x ← coreM c
  let n := 2 ^ w.val
  let rec_ (i : Nat) : List (BitVec 32 × Bool) := (List.range n).map fun k =>
    let v := (x.vsrc (a.val + k)).el 32 i
    (BitVec.ofNat 32 v.1, v.2)
  let r := pushRecs n rec_ ((List.range 128).filter (x.act mask)) x.stream
  setCoreM c ({ x with stream := r.1 }.setMreg d.val (maskOf ((List.range 128).map fun i => r.2.contains i)))
  pure Flg.none

def execVpopc (t : Tok) (d : VReg) (c : MReg) (w : Fin 3) (ty : ElemTy) (s : State) : Out :=
  route .ve (.vpopc t d c w ty) (caps) s
def runVpopc (d : VReg) (k : MReg) (w : Fin 3) (c : Nat) (_e : Entry) : Mx Flg := do
  let x ← coreM c
  let n := 2 ^ w.val
  let cnt := Nat.min 128 (x.stream.length / n)
  let st := x.stream
  let y := (List.range n).foldl (fun (y : Core) r => y.putGroup (d.val + r) 1 32 fun i =>
    if i < cnt then (st[i * n + r]?).map fun v => (v.1.toNat, v.2) else none) x
  setCoreM c ({ y with stream := st.drop (cnt * n) }.setMreg k.val (maskOf ((List.range 128).map fun i => decide (i < cnt))))
  pure Flg.none

/-! ## Masks (R157) -/

def execMlog (t : Tok) (d a b : MReg) (tt : Fin 16) (s : State) : Out := route .ve (.mlog t d a b tt) (caps) s
def runMlog (d a b : MReg) (tt : Fin 16) (c : Nat) (_e : Entry) : Mx Flg := do
  let x ← coreM c
  let u := x.mreg a.val
  let v := x.mreg b.val
  let on (k : Nat) (w : BitVec 1024) : BitVec 1024 := if tt.val / 2 ^ k % 2 = 1 then w else 0
  setCoreM c (x.setMreg d.val (on 0 (~~~u &&& ~~~v) ||| on 1 (~~~u &&& v) ||| on 2 (u &&& ~~~v) ||| on 3 (u &&& v)))
  pure Flg.none

def execMpopc (t : Tok) (d : VReg) (a : MReg) (ty : ElemTy) (s : State) : Out := route .ve (.mpopc t d a ty) (caps) s
def runMpopc (d : VReg) (a : MReg) (ty : ElemTy) (c : Nat) (_e : Entry) : Mx Flg := do
  let mk := (← coreM c).mreg a.val
  putFirst c d 32 ((List.range ty.count).countP fun i => mk.getLsbD i) false
  pure Flg.none

def execMfirst (t : Tok) (d : VReg) (a : MReg) (ty : ElemTy) (s : State) : Out := route .ve (.mfirst t d a ty) (caps) s
def runMfirst (d : VReg) (a : MReg) (ty : ElemTy) (c : Nat) (_e : Entry) : Mx Flg := do
  let mk := (← coreM c).mreg a.val
  putFirst c d 32 ((lowest ty.count fun i => mk.getLsbD i).getD ty.count) false
  pure Flg.none

end Sys2Proof.Machine
end

