-- ==== Sys2Proof/Machine/VeTm.lean ====
section
/-! DEFINITION. The transformed mean (R113-R119, R146-R148). -/

namespace Sys2Proof.Machine

open Sys2Proof

/-! ## Rationals -/

/-- num / den, den positive. -/
structure Qt where
  num : Int
  den : Nat
  deriving DecidableEq, Repr

def Qt.add (a b : Qt) : Qt := { num := a.num * b.den + b.num * a.den, den := a.den * b.den }
def Qt.sub (a b : Qt) : Qt := { num := a.num * b.den - b.num * a.den, den := a.den * b.den }
def Qt.mul (a b : Qt) : Qt := { num := a.num * b.num, den := a.den * b.den }
/-- Quotient by a positive rational. -/
def Qt.div (a b : Qt) : Qt := { num := a.num * b.den, den := a.den * b.num.toNat }
def Qt.le (a b : Qt) : Bool := decide (a.num * b.den ≤ b.num * a.den)

/-- A finite exact value as a rational. -/
def Num.toQt : Num → Option Qt
  | .fin neg m e _ =>
    let k : Int := if neg then -(m : Int) else m
    some (if 0 ≤ e then { num := k * (2 ^ e.toNat : Nat), den := 1 } else { num := k, den := 2 ^ (-e).toNat })
  | _ => none

/-- A rational as a value to be rounded. -/
def Qt.toNum (q : Qt) : Num := Num.ofRat (decide (q.num < 0)) q.num.natAbs q.den 0

/-! ## Shapes and tables (R113, R118) -/

def tmsPair (w : Word) : Nat := fld w.toNat 32 3
def tmsShape (w : Word) : Num := numF32 (fld w.toNat 0 32)

/-- A legal `tms` value (R113). -/
def tmsLegal (w : Word) : Bool :=
  fld w.toNat 35 29 == 0 &&
    (if tmsPair w = 0 then
      match tmsShape w with
      | .nan => false
      | .inf _ => true
      | .fin _ m e _ => m == 0 || leadExp m e < 6 || (leadExp m e == 6 && oddOf m e == (1, 6))
    else fld w.toNat 0 32 == 0)

/-- One table of a loaded pair: bounds and 65 knots. -/
structure TmTab where
  lo : Num
  hi : Num
  knots : List Num
  deriving DecidableEq, Repr

/-- The word at a byte offset of the 540 bytes of a pair. -/
def tabWord (t : BitVec 4320) (off : Nat) : Nat := t.toNat / 2 ^ (8 * off) % 2 ^ 32

/-- The table at an offset (R148). -/
def tabAt (t : BitVec 4320) (off : Nat) : TmTab :=
  { lo := numF32 (tabWord t off), hi := numF32 (tabWord t (off + 4)),
    knots := (List.range 65).map fun i => numF32 (tabWord t (off + 8 + 4 * i)) }

def entryTab (t : BitVec 4320) : TmTab := tabAt t 0
def exitTab (t : BitVec 4320) : TmTab := tabAt t 272

/-- Every neighbouring pair is in order. -/
def chainAll (r : Num → Num → Bool) : List Num → Bool
  | a :: b :: l => r a b && chainAll r (b :: l)
  | _ => true

/-- Strictly less, both of them numbers. -/
def ltNum (a b : Num) : Bool := !a.isNan && !b.isNan && a.lt b

/-- The conditions of R118. -/
def TmTab.ok (t : TmTab) : Bool :=
  ltNum t.lo t.hi && (chainAll ltNum t.knots || chainAll (fun a b => ltNum b a) t.knots)

/-- An exact argument lies in [lo, hi]. -/
def TmTab.inside (t : TmTab) (u : Qt) : Bool :=
  (match t.lo.toQt with | some l => l.le u | none => true) && (match t.hi.toQt with | some h => u.le h | none => true)

/-- A term lies in [lo, hi] (R119): an infinity does where the bound is that infinity. -/
def TmTab.holds (t : TmTab) (x : Num) : Bool := !x.isNan && !x.lt t.lo && !t.hi.lt x

/-- The exact value of a table at an argument in [lo, hi] (R118); where a bound or knot that it needs is infinite the
spec states no value (DESIGN CHOICE log 25). -/
def TmTab.eval (t : TmTab) (u : Qt) : Num :=
  let free := numF32 (Config.freeResult 4 0 u.num.natAbs u.den).toNat
  match t.lo.toQt, t.hi.toQt with
  | some lo, some hi =>
    let q := ((u.sub lo).mul { num := 64, den := 1 }).div (hi.sub lo)
    let j := Nat.min (q.num / q.den).toNat 63
    match (t.knots.getD j .nan).toQt, (t.knots.getD (j + 1) .nan).toQt with
    | some a, some b => (a.add ((b.sub a).mul (q.sub { num := j, den := 1 }))).toNum
    | _, _ => free
  | _, _ => free

/-- The table at a term: at an infinite one, which lies in [lo, hi] only where a bound is infinite, R118 states no value
(DESIGN CHOICE log 25). -/
def TmTab.at_ (t : TmTab) (x : Num) : Num :=
  match x.toQt with
  | some u => t.eval u
  | none => numF32 (Config.freeResult 4 1 x.signed.toNat 0).toNat

/-! ## States (R114) -/

/-- A lane's state: V where it is a number, the scale exponent, and the count. -/
structure TmLane where
  v : Option Num
  sigma : Int
  n : Nat
  deriving DecidableEq, Repr

/-- The state that the two words of a lane spell. -/
def tmUnpack (s odd : Nat) : TmLane :=
  let sg := intOf .i16 (fld odd 16 16)
  { v := (match numF32 s with | .fin neg m e st => some (.fin neg m (e + sg) st) | _ => none), sigma := sg, n := fld odd 0 16 }

/-- The multiple of 64 of smallest magnitude that brings V x 2^-σ into [2^-64, 2^64). -/
def renorm (lead sigma : Int) : Int :=
  let d := lead - sigma
  if 63 < d then sigma + 64 * ((d - 63 + 63) / 64) else if d < -64 then sigma - 64 * ((-64 - d + 63) / 64) else sigma

/-- A scale exponent that its 16 bits hold. -/
def sigmaFits (sg : Int) : Bool := decide (-32768 ≤ sg ∧ sg < 32768)

/-- The two words of a state (R114); a NaN state has σ 0. Where the renormalised σ leaves its 16 bits, which only a state that a
program wrote can do, the spec states neither S nor σ and both are free; n is as stated (DESIGN CHOICE log 72). -/
def tmPack (v : Option Num) (sigma : Int) (n : Nat) : Nat × Nat :=
  match v with
  | some (.fin neg m e st) =>
    if m = 0 then (0, n % 65536)
    else
      let sg := renorm (leadExp m e) sigma
      if sigmaFits sg then (fmtF32.bits (.fin neg m (e - sg) st), wrapInt 16 sg * 65536 + n % 65536)
      else
        let free (k : Nat) : Nat := (Config.freeResult (k + neg.toNat) (wrapInt 32 sg) m (wrapInt 32 e)).toNat
        (free 5, free 7 % 65536 * 65536 + n % 65536)
  | _ => (fmtF32.bits .nan, n % 65536)

/-- Round24, and whether it rounded (R90, R114). -/
def round24 (v : Num) : Num × Bool := let r := fmt24.round .rne false v; (r.1, r.2.inx)

/-- Zero without its sign. -/
def plusZero (v : Num) : Num := if v.isZero then Num.zero else v

/-- A rounded term, and whether it rounded. -/
def tmRounded (r : Num × Flg) : Num × Bool := (r.1, r.2.inx)

/-- The term of an update, with whether it was rounded, or none where R119 refuses it (R115). -/
def tmTerm (tms : Word) (tab : Option (BitVec 4320)) (x : Num) : Option (Num × Bool) :=
  if tmsPair tms = 0 then
    match x with
    | .fin neg m e _ =>
      if neg && m != 0 then none
      else
        match tmsShape tms with
        | .inf sneg => if m = 0 ∧ sneg then none else some (plusZero x, false)
        | .fin sneg sm se _ =>
          if m = 0 then (if sneg ∨ sm = 0 then none else some (Num.zero, false))
          else if sm = 0 then some (tmRounded (log2Num fmt24 .rne false x))
          else some (tmRounded (powShape fmt24 .rne false m 1 e sneg sm se false))
        | .nan => none
    | _ => none
  else
    match tab with
    | some t => if (entryTab t).holds x then some (round24 ((entryTab t).at_ x)) else none
    | none => none

/-- The result of s = ±∞ for two states: of those whose count is nonzero the min or max, and an empty state is an identity. For
two states that hold a value with count 0, which no update makes, the spec states none (R116; DESIGN CHOICE log 72). -/
def tmExtreme (neg : Bool) (a : Num) (na : Nat) (b : Num) (nb : Nat) : Num :=
  if na = 0 ∧ nb = 0 then
    if a.isZero then b
    else if b.isZero then a
    else
      let k := fmtF32.bits (round24 (a.min b)).1
      numF32 (Config.freeResult 9 neg.toNat k (fmtF32.bits (round24 (a.max b)).1)).toNat
  else if na = 0 then b
  else if nb = 0 then a
  else if neg then a.min b
  else a.max b

/-- V after an update or a merge, with whether it was rounded: b has `nb` terms (R115, R116). -/
def tmCombine (tms : Word) (a : Num) (na : Nat) (b : Num) (nb : Nat) : Num × Bool :=
  let sum := round24 (Num.add .rne a b)
  if tmsPair tms = 0 then
    match tmsShape tms with
    | .inf sneg => (tmExtreme sneg a na b nb, false)
    | _ => sum
  else sum

/-- What becomes of a lane: its new words, the CAUSE where it is refused, and whether a result was rounded. -/
structure TmRes where
  s : Nat
  odd : Nat
  cause : Nat
  inx : Bool
  deriving DecidableEq, Repr

/-- An update of a lane (R90, R115, R119, R147; DEDUCED log 26). -/
def tmUpdate (tms : Word) (tab : Option (BitVec 4320)) (l : TmLane) (x : Num) : TmRes :=
  let nan (cause : Nat) : TmRes := let w := tmPack none 0 l.n; { s := w.1, odd := w.2, cause := cause, inx := false }
  match l.v with
  | none => nan 0
  | some v =>
    match tmTerm tms tab x with
    | none => nan 0x30
    | some t =>
      if 65535 < l.n + 1 then nan 0x31
      else
        let k := tmCombine tms v l.n t.1 1
        let w := tmPack (some k.1) l.sigma (l.n + 1)
        { s := w.1, odd := w.2, cause := 0, inx := t.2 || k.2 }

/-- A merge of two lanes (R90, R116, R119, R147; DEDUCED log 26); an unloaded pair refuses (R148). -/
def tmMerge (tms : Word) (loaded : Bool) (a b : TmLane) : TmRes :=
  let nan (cause : Nat) : TmRes :=
    let w := tmPack none 0 (Nat.min (a.n + b.n) 65535); { s := w.1, odd := w.2, cause := cause, inx := false }
  match a.v, b.v with
  | some va, some vb =>
    if !loaded then nan 0x30
    else if 65535 < a.n + b.n then nan 0x31
    else
      let k := tmCombine tms va a.n vb b.n
      let w := tmPack (some k.1) (if a.sigma < b.sigma then b.sigma else a.sigma) (a.n + b.n)
      { s := w.1, odd := w.2, cause := 0, inx := k.2 }
  | _, _ => nan 0

/-- The exit of a state with V and n, or none where R119 refuses it (R117). -/
def tmExit (tms : Word) (tab : Option (BitVec 4320)) (f : Fmt) (mode : Rnd) (sat : Bool) (v : Num) (n : Nat) :
    Option (Num × Flg) :=
  if n = 0 then none
  else if tmsPair tms = 0 then
    match v with
    | .fin neg m e _ =>
      match tmsShape tms with
      | .inf _ => some (f.round mode sat v)
      | .fin sneg sm se _ =>
        if sm = 0 then some (exp2Rat f mode sat neg m n e)
        else if m = 0 then some (Num.zero, Flg.none)
        else if neg then none
        else some (powShape f mode sat m n e sneg sm se true)
      | .nan => none
    | _ => none
  else
    match tab, v.toQt with
    | some t, some u =>
      let u := u.div { num := n, den := 1 }
      if (exitTab t).inside u then some (f.round mode sat ((exitTab t).eval u)) else none
    | _, _ => none

/-! ## Instructions -/

/-- The loaded pair that a captured `tms` selects. -/
def Core.tmTab (x : Core) (tms : Word) : Option (BitVec 4320) := (x.tmTabs.find? (·.1 == tmsPair tms)).map (·.2)

/-- `tmshape` acts when it is routed; its entry does nothing (R124, R146). -/
def execTmshape (t : Tok) (a : EOpd) (s : State) : Out :=
  route .ve (.tmshape t a) (fun q => do
    let v ← capture q a
    check (!v.p) 0x0A 0x34
    check (tmsLegal v.v) 0x0B 0x38
    modS (·.onCore q.core.val fun x => { x with tms := v.v })
    pure { Caps.none with a := v }) s
def runTmshape (_c : Nat) (_e : Entry) : Mx Flg := pure Flg.none

/-- The bytes of a table pair that break R118 or R148. -/
def tabPairOk (t : BitVec 4320) : Bool := (entryTab t).ok && (exitTab t).ok && tabWord t 268 == 0

def execTmtab (t : Tok) (a : Reg) (pair : Fin 8) (s : State) : Out := route .ve (.tmtab t a pair) (caps (.reg a)) s
def runTmtab (pair : Fin 8) (c : Nat) (e : Entry) : Mx Flg := do
  needClean e.a
  let bs ← readRange (chapOne 0x37 0 0) (.core c) ((← getS).ctxOf c) e.a.v.toNat 540 8
  check (bs.all fun b => !b.2) 0x0A 0x34
  let t := BitVec.ofNat 4320 (ofBytes (bs.map (·.1)))
  check (tabPairOk t) 0x0B 0x33
  modS (·.onCore c fun x => { x with tmTabs := sput x.tmTabs pair.val t })
  pure Flg.none

/-- The state of lane i of the pair at `r`, and its poison. -/
def Core.tmLane (x : Core) (r : VReg) (i : Nat) : TmLane × Bool :=
  let s := (x.vsrc r.val).el 32 i
  let o := (x.vsrc (r.val + 1)).el 32 i
  (tmUnpack s.1 o.1, s.2 || o.2)

/-- Write lanes of states, or refuse the lowest refused lane where TMQ is 0 (R119, R147). -/
def tmApply (d : VReg) (mask : MReg) (f : Core → Nat → TmRes × Bool) (c : Nat) (e : Entry) : Mx Flg := do
  let x ← coreM c
  let rs := (List.range 128).map fun i => if x.act mask i then some (f x i) else none
  let bad (i : Nat) : Bool := match rs.getD i none with | some r => r.1.cause != 0 | none => false
  match lowest 128 bad with
  | some i =>
    if !e.tmq then raise 0x0B (match rs.getD i none with | some r => r.1.cause | none => 0) i
  | none => pure ()
  setCoreM c ((x.putGroup d.val 1 32 fun i => (rs.getD i none).map fun r => (r.1.s, r.2)).putGroup (d.val + 1) 1 32 fun i =>
    (rs.getD i none).map fun r => (r.1.odd, r.2))
  pure { Flg.none with inx := rs.any fun r => (r.map (·.1.inx)).getD false, dom := (lowest 128 bad).isSome }

def execVtmin (t : Tok) (d : VReg) (a : EOpd) (mask : MReg) (s : State) : Out := route .ve (.vtmin t d a mask) (caps a) s
def runVtmin (d : VReg) (a : EOpd) (mask : MReg) (c : Nat) (e : Entry) : Mx Flg :=
  tmApply d mask (fun x i =>
    let l := x.tmLane d i
    let v := x.src .f32 .rne a e.a i
    (tmUpdate e.tms (x.tmTab e.tms) l.1 (numF32 v.1), l.2 || v.2)) c e

def execVtmerge (t : Tok) (d a b : VReg) (mask : MReg) (s : State) : Out := route .ve (.vtmerge t d a b mask) (caps) s
def runVtmerge (d a b : VReg) (mask : MReg) (c : Nat) (e : Entry) : Mx Flg :=
  tmApply d mask (fun x i =>
    let u := x.tmLane a i
    let v := x.tmLane b i
    (tmMerge e.tms (tmsPair e.tms = 0 || (x.tmTab e.tms).isSome) u.1 v.1, u.2 || v.2)) c e

def execVtmex (t : Tok) (d a : VReg) (m : Mods) (s : State) : Out := route .ve (.vtmex t d a m) (caps) s
def runVtmex (d a : VReg) (m : Mods) (c : Nat) (e : Entry) : Mx Flg := do
  let x ← coreM c
  let f := tyFmt m.ty
  let loaded := tmsPair e.tms = 0 || (x.tmTab e.tms).isSome
  let one (i : Nat) : Option (Nat × Bool × Flg × Nat) :=
    if !x.act m.mask i then none
    else
      let l := x.tmLane a i
      match l.1.v with
      | none => some (qnan m.ty, l.2, Flg.none, 0)
      | some v =>
        match tmExit e.tms (x.tmTab e.tms) f m.rnd m.sat v l.1.n with
        | some r => some (f.bits r.1, l.2, r.2, 0)
        | none => some (qnan m.ty, l.2, { Flg.none with dom := true }, if loaded then 0x32 else 0x30)
  let rs := (List.range 128).map one
  let cause (i : Nat) : Nat := match rs.getD i none with | some r => r.2.2.2 | none => 0
  match lowest 128 fun i => cause i != 0 with
  | some i => if !e.tmq then raise 0x0B (cause i) i
  | none => pure ()
  setCoreM c (x.putGroup d.val 1 m.ty.width fun i =>
    if 128 ≤ i then some (0, false) else (rs.getD i none).map fun r => (r.1, r.2.1))
  pure (orAll (rs.map fun r => match r with | some v => v.2.2.1 | none => Flg.none))

end Sys2Proof.Machine
end

