-- ==== Sys2Proof/Machine/Tensor.lean ====
section
/-! DEFINITION. Shape records (R158-R162, R168), windows, traversal units and Cover (R160, R161, R322-R324), and the access
to single elements and blocks of a tensor. -/

namespace Sys2Proof.Machine

open Sys2Proof

/-! ## Records (R158) -/

/-- A field of a shape record. -/
def recFld (r : BitVec 512) (lo n : Nat) : Nat := fld r.toNat lo n

/-- An index tuple, an extent tuple, a stride tuple. -/
structure Ix where
  i0 : Nat
  i1 : Nat
  i2 : Nat
  i3 : Nat
  deriving DecidableEq, Repr

/-- A record read into its fields: `ext` is 1 in dimensions that are not live, `win` is the effective window (R160). -/
structure Tens where
  base : Nat
  fmt : ElemTy
  rank : Nat
  ord : Nat
  scale : Nat
  il : Nat
  th : Nat
  tw : Nat
  ext : Ix
  str : Ix
  win : Ix
  fill : Nat
  fw : Nat
  fsc : Scope
  deriving DecidableEq, Repr

/-- The fields of a legal record. -/
def tensOf (r : BitVec 512) : Tens :=
  let rank := recFld r 56 2 + 1
  let ext (i : Nat) : Nat := if i < rank then recFld r (128 + 24 * i) 24 else 1
  let win (i : Nat) : Nat := if recFld r (352 + 12 * i) 12 ≠ 0 then recFld r (352 + 12 * i) 12 else ext i
  let str (i : Nat) : Nat := recFld r (224 + 40 * (i - 1)) 40
  { base := recFld r 0 52, fmt := tyD (recFld r 52 4), rank := rank, ord := recFld r 58 2, scale := recFld r 64 52,
    il := recFld r 116 4, th := recFld r 120 4, tw := recFld r 124 4,
    ext := { i0 := ext 0, i1 := ext 1, i2 := ext 2, i3 := ext 3 },
    str := { i0 := 1, i1 := str 1, i2 := str 2, i3 := str 3 },
    win := { i0 := win 0, i1 := win 1, i2 := win 2, i3 := win 3 },
    fill := recFld r 400 32, fw := recFld r 432 52, fsc := (scopeOf (recFld r 484 3)).getD .core }

/-! ## Legality (R159, R168) -/

/-- A failure of `tdef`: class, CAUSE, the lowest bit of the field it is charged to. -/
abbrev TdFail := Nat × Nat × Nat

/-- The lowest set bit of a field that must be zero. -/
def rsvFail (r : BitVec 512) (lo n : Nat) : List TdFail :=
  match (List.range n).find? fun k => r.getLsbD (lo + k) with
  | some k => [(3, 0x50, lo + k)]
  | none => []

/-- The first pass: reserved bits and reserved codes. -/
def tdefPass1 (r : BitVec 512) : List TdFail :=
  let code (lo n min_ : Nat) : List TdFail := if min_ ≤ recFld r lo n then [(3, 0x51, lo)] else []
  code 52 4 12 ++ code 58 2 3 ++ rsvFail r 60 4 ++ code 116 4 9 ++ rsvFail r 344 8 ++ code 484 3 5 ++ rsvFail r 487 25

/-- The second pass, in the order of the table of R168. -/
def tdefPass2 (r : BitVec 512) : List TdFail :=
  let fmt := tyD (recFld r 52 4)
  let rank := recFld r 56 2 + 1
  let ord := recFld r 58 2
  let th := recFld r 120 4
  let tw := recFld r 124 4
  let dead := (List.range 4).filter fun i => rank ≤ i
  let live := (List.range 4).filter fun i => i < rank
  let extAt (i : Nat) : Nat := 128 + 24 * i
  let strAt (i : Nat) : Nat := 224 + 40 * (i - 1)
  let winAt (i : Nat) : Nat := 352 + 12 * i
  let bad (p : Bool) (cls cause lo : Nat) : List TdFail := if p then [(cls, cause, lo)] else []
  dead.flatMap (fun i => bad (recFld r (extAt i) 24 ≠ 0) 3 0x52 (extAt i) ++
    bad (recFld r (strAt i) 40 ≠ 0) 3 0x52 (strAt i) ++ bad (recFld r (winAt i) 12 ≠ 0) 3 0x52 (winAt i)) ++
  bad (ord ≠ 2 ∧ th ≠ 0) 3 0x52 120 ++ bad (ord ≠ 2 ∧ tw ≠ 0) 3 0x52 124 ++
  bad (!fmt.isB && recFld r 64 52 ≠ 0) 3 0x52 64 ++
  bad (recFld r 432 52 = 0 ∧ recFld r 484 3 ≠ 0) 3 0x52 484 ++
  bad ((ord = 1 ∨ ord = 2) ∧ rank = 1) 3 0x53 58 ++
  bad (fmt.isB && ord = 1) 3 0x53 58 ++
  live.flatMap (fun i => bad (recFld r (extAt i) 24 = 0) 3 0x53 (extAt i)) ++
  bad (ord = 2 ∧ 8 < th) 3 0x53 120 ++ bad (ord = 2 ∧ 8 < tw) 3 0x53 124 ++
  bad (fmt.isB && ord = 2 && decide (tw < 5)) 3 0x53 124 ++
  (live.filter (1 ≤ ·)).flatMap (fun i => bad (fmt.isB && recFld r (strAt i) 40 % 32 ≠ 0) 3 0x53 (strAt i)) ++
  bad (if fmt.isB then recFld r 400 32 ≠ 0 else 2 ^ fmt.width ≤ recFld r 400 32) 3 0x53 400 ++
  bad (fmt.isB && recFld r 64 52 = 0) 3 0x53 64 ++
  bad (fmt.isB && recFld r 64 52 % 2 = 1) 4 0x56 64 ++
  bad (recFld r 0 52 % (if fmt = .bx8 then 32 else if fmt = .bx4 then 16 else Nat.max 1 (fmt.width / 8)) ≠ 0) 4 0x56 0 ++
  bad (recFld r 432 52 % 8 ≠ 0) 4 0x56 432

/-- The failure charged to the lowest bit; the first listed where one field fails twice. -/
def firstFail : List TdFail → Option TdFail
  | [] => none
  | f :: fs => match firstFail fs with
    | none => some f
    | some g => if f.2.2 ≤ g.2.2 then some f else some g

/-- What `tdef` reports for a record (R168). -/
def tdefFail (r : BitVec 512) : Option TdFail :=
  match firstFail (tdefPass1 r) with
  | some f => some f
  | none => firstFail (tdefPass2 r)

/-- A legal record (R159). -/
def recLegal (r : BitVec 512) : Bool := (tdefFail r).isNone

/-! ## Elements and units (R160-R162) -/

def Tens.inside (t : Tens) (x : Ix) : Bool := x.i0 < t.ext.i0 && x.i1 < t.ext.i1 && x.i2 < t.ext.i2 && x.i3 < t.ext.i3

/-- Inside, or beyond the edge within a block that a writer keeps whole (R160, R162). -/
def Tens.writable (t : Tens) (x : Ix) : Bool :=
  t.inside x || (t.fmt.isB && t.inside { x with i0 := x.i0 / 32 * 32 })

/-- The element offset from BASE (R158). -/
def Tens.off (t : Tens) (x : Ix) : Nat := x.i0 + t.str.i1 * x.i1 + t.str.i2 * x.i2 + t.str.i3 * x.i3

def ceilDiv (a b : Nat) : Nat := (a + b - 1) / b

/-- Tiles along dims 0 and 1. -/
def Tens.wt (t : Tens) : Nat := ceilDiv t.ext.i0 (2 ^ t.tw)
def Tens.ht (t : Tens) : Nat := ceilDiv t.ext.i1 (2 ^ t.th)

/-- The traversal unit of an element (R161). -/
def Tens.unit (t : Tens) (x : Ix) : Nat :=
  let sl := x.i2 + t.ext.i2 * x.i3
  match t.ord with
  | 0 => x.i1 + t.ext.i1 * sl
  | 1 => x.i0 + t.ext.i0 * sl
  | _ => x.i0 / 2 ^ t.tw + t.wt * (x.i1 / 2 ^ t.th + t.ht * sl)

/-- The number of traversal units. -/
def Tens.units (t : Tens) : Nat :=
  match t.ord with
  | 0 => t.ext.i1 * t.ext.i2 * t.ext.i3
  | 1 => t.ext.i0 * t.ext.i2 * t.ext.i3
  | _ => t.wt * t.ht * t.ext.i2 * t.ext.i3

/-- A window's element by its number from the origin, dim 0 fastest (R350). -/
def Tens.winAt (t : Tens) (o : Ix) (j : Nat) : Ix :=
  { i0 := o.i0 + j % t.win.i0, i1 := o.i1 + j / t.win.i0 % t.win.i1,
    i2 := o.i2 + j / (t.win.i0 * t.win.i1) % t.win.i2, i3 := o.i3 + j / (t.win.i0 * t.win.i1 * t.win.i2) }

def Tens.winCount (t : Tens) : Nat := t.win.i0 * t.win.i1 * t.win.i2 * t.win.i3

/-- The elements of a window. -/
def Tens.winElems (t : Tens) (o : Ix) : List Ix := (List.range t.winCount).map (t.winAt o)

/-- The index box of a traversal unit: its lowest element and its sides, clipped to the extents. -/
def Tens.unitBox (t : Tens) (u : Nat) : Ix × Ix :=
  match t.ord with
  | 0 =>
    let sl := u / t.ext.i1
    ({ i0 := 0, i1 := u % t.ext.i1, i2 := sl % t.ext.i2, i3 := sl / t.ext.i2 }, { i0 := t.ext.i0, i1 := 1, i2 := 1, i3 := 1 })
  | 1 =>
    let sl := u / t.ext.i0
    ({ i0 := u % t.ext.i0, i1 := 0, i2 := sl % t.ext.i2, i3 := sl / t.ext.i2 }, { i0 := 1, i1 := t.ext.i1, i2 := 1, i3 := 1 })
  | _ =>
    let sl := u / (t.wt * t.ht)
    let a := u % t.wt * 2 ^ t.tw
    let b := u / t.wt % t.ht * 2 ^ t.th
    ({ i0 := a, i1 := b, i2 := sl % t.ext.i2, i3 := sl / t.ext.i2 },
      { i0 := Nat.min (2 ^ t.tw) (t.ext.i0 - a), i1 := Nat.min (2 ^ t.th) (t.ext.i1 - b), i2 := 1, i3 := 1 })

/-- The elements of a box, by rising offset within it. -/
def boxElems (b : Ix × Ix) : List Ix :=
  (List.range (b.2.i0 * b.2.i1 * b.2.i2 * b.2.i3)).map fun j =>
    { i0 := b.1.i0 + j % b.2.i0, i1 := b.1.i1 + j / b.2.i0 % b.2.i1,
      i2 := b.1.i2 + j / (b.2.i0 * b.2.i1) % b.2.i2, i3 := b.1.i3 + j / (b.2.i0 * b.2.i1 * b.2.i2) }

/-- The writer's index of the largest corner of a box, clipped to the extents; none where the box lies wholly beyond an
edge, so that its reader does not wait (R323, R324). -/
def Tens.cover (t : Tens) (b : Ix × Ix) : Option Nat :=
  if t.ext.i0 ≤ b.1.i0 ∨ t.ext.i1 ≤ b.1.i1 ∨ t.ext.i2 ≤ b.1.i2 ∨ t.ext.i3 ≤ b.1.i3 then none
  else some (t.unit
    { i0 := Nat.min (b.1.i0 + b.2.i0) t.ext.i0 - 1, i1 := Nat.min (b.1.i1 + b.2.i1) t.ext.i1 - 1,
      i2 := Nat.min (b.1.i2 + b.2.i2) t.ext.i2 - 1, i3 := Nat.min (b.1.i3 + b.2.i3) t.ext.i3 - 1 })

/-- A zero stride on a live dimension of extent above 1: such a tensor cannot be written (R159). -/
def Tens.repeats (t : Tens) : Bool :=
  (decide (1 < t.rank) && t.str.i1 == 0 && decide (1 < t.ext.i1)) || (decide (2 < t.rank) && t.str.i2 == 0 && decide (1 < t.ext.i2)) ||
    (decide (3 < t.rank) && t.str.i3 == 0 && decide (1 < t.ext.i3))

/-! ## Access to elements -/

/-- Who reaches a tensor, and how refusals are reported. -/
structure Via where
  a : Agent
  ctx : Nat
  /-- the Loom reaches memory through L2 slices only (R182) -/
  loom : Bool

/-- Resolve one access of a tensor; the Loom is refused every page but cached and slice-pinned ones (R182). -/
def viaAccess (v : Via) (ch : Chap) (p : Perm) (va al : Nat) : Mx Target := do
  let t ← resolve ch v.a v.ctx p va v.loom
  if v.loom ∧ (t.effHome = 3 ∨ t.effHome = 4) then
    failF (ch { cls := 7, reason := 0, level := 0, addr := va, map := 0, aux := 0 })
  poolCheck ch v.a v.ctx va t
  alignCheck ch va al
  nrCheck v.a t al
  if (← getS).l1Serves v.a p t then pure () else homeReach ch v.a va t
  pure t

/-- The address of an element's first byte. -/
def Tens.addr (t : Tens) (x : Ix) : Nat := t.base + t.off x * t.fmt.width / 8

/-- Bytes that an element takes. -/
def elemBytes (t : ElemTy) : Nat := Nat.max 1 (t.width / 8)

/-- Read an element's bits, with poison; beyond the edge it is FILL (R160). -/
def readElem (v : Via) (ch : Chap) (t : Tens) (x : Ix) : Mx (Nat × Bool) := do
  if !t.inside x then pure (t.fill % 2 ^ t.fmt.width, false)
  else
    let n := elemBytes t.fmt
    let tg ← viaAccess v ch .r (t.addr x) n
    let r ← readAt v.a tg n t.il
    let b := ofBytes r.1
    pure (if t.fmt.width = 4 then b / 2 ^ (4 * (t.off x % 2)) % 16 else b, r.2)

/-- Where the two exponents of an element's block stand (R95). -/
def Tens.expAddr (t : Tens) (x : Ix) : Nat := t.scale + 2 * (t.off x / 32)

/-- Read the two exponents of an element's block (R95). -/
def readExps (v : Via) (ch : Chap) (t : Tens) (x : Ix) : Mx (Nat × Nat × Bool) := do
  let tg ← viaAccess v ch .r (t.expAddr x) 2
  let r ← readAt v.a tg 2 t.il
  let b := ofBytes r.1
  pure (b % 256, b / 256, r.2)

/-- What a store wrote (for the digest, R207). -/
abbrev Wrote := List Stored

/-- Write an element's bits; a 4-bit element merges with the other nibble in the copy that takes the write (R429). -/
def writeElem (v : Via) (ch : Chap) (t : Tens) (x : Ix) (b : Nat) (p : Bool) : Mx Wrote := do
  let n := elemBytes t.fmt
  let va := t.addr x
  let tg ← viaAccess v ch .w va n
  if t.fmt.width = 4 then
    let sh := 2 ^ (4 * (t.off x % 2))
    let new := BitVec.ofNat 8 (b % 16 * sh)
    let mask := BitVec.ofNat 8 (15 * sh)
    writeMasked v.a v.ctx tg new mask p t.il
    pure [{ addr := va, byte := new, mask := mask, pois := p }]
  else
    let bs := toBytes n b
    writeAt v.a v.ctx tg bs p t.il
    pure (storedBytes va bs p)

/-- Write bytes in one access whose alignment is their number. -/
def writeWhole (v : Via) (ch : Chap) (t : Tens) (va : Nat) (bs : List Byte) (p : Bool) : Mx Wrote := do
  let tg ← viaAccess v ch .w va bs.length
  writeAt v.a v.ctx tg bs p t.il
  pure (storedBytes va bs p)

/-- Write the two exponents of an element's block, with their poison (R303). -/
def writeExps (v : Via) (ch : Chap) (t : Tens) (x : Ix) (e : Nat × Nat) (p : Bool) : Mx Wrote :=
  writeWhole v ch t (t.expAddr x) (toBytes 2 (e.1 + 256 * e.2)) p

/-- The code of +0 under a first exponent (R96). -/
def zeroCode (t : ElemTy) (e0 : Nat) : Nat := if e0 = 255 then 2 ^ (t.width - 1) else 0

/-- Read an element as an exact value, or an integer as its value (R94, R97). -/
def readVal (v : Via) (ch : Chap) (t : Tens) (x : Ix) : Mx (Num × Bool) := do
  let r ← readElem v ch t x
  if t.fmt.isI then pure (Num.ofInt (intOf t.fmt r.1), r.2)
  else if t.fmt.isB then
    if !t.inside x then pure (Num.zero, false)
    else
      let e ← readExps v ch t x
      pure ((blkFmt t.fmt).decode e.1 e.2.1 r.1, r.2 || e.2.2)
  else pure (numOf t.fmt r.1, r.2)

/-! ## Progress of an engine's effect -/

/-- How far the effect of an entry has come: whole, with its flags and what it stored with `.asy`; or it waits, with the
units and bytes so far, the flags so far and the `.asy` stores so far. -/
inductive Prog
  | done (f : BitVec 4) (asy : Wrote)
  | wait (units bytes : Nat) (f : BitVec 4) (asy : Wrote)
  deriving DecidableEq, Repr

/-- Run an operation; a stall takes its effects back and answers none. -/
def attempt {α : Type} (m : Mx α) : Mx (Option α) := fun s =>
  match m s with
  | .ok a s' => .ok (some a) s'
  | .error (.stall _) _ => .ok none s
  | .error e s' => .error e s'

/-- Run an operation; a fault first changes the state. -/
def onFault {α : Type} (f : State → State) (m : Mx α) : Mx α := fun s =>
  match m s with
  | .error (.fault fi) s' => .error (.fault fi) (f s')
  | r => r

/-- A chase of a frontier: whether it is satisfied, with the acquire; HALTED unmet is chase-halted (R322, R325). -/
def chaseOnce (v : Via) (c : Nat) (fc : FrontCodes) (halted : FaultInfo) (t : Tens) (cover : Option Nat) : Mx Bool := do
  match cover with
  | none => pure true
  | some k =>
    if t.fw = 0 then pure true
    else
      let w ← frontRead fc v.a v.ctx t.fw
      if fwClosed w || decide (k < fwCount w) then
        acquire c t.fsc
        pure true
      else if fwHalted w then failF halted
      else pure false

/-- A publication: release at FSC, then COUNT takes the larger value, and CLOSED with `close` (R184, R318). -/
def publish (v : Via) (c : Nat) (fc : FrontCodes) (t : Tens) (count : Nat) (close : Bool) : Mx Unit := do
  if t.fw ≠ 0 then
    release c t.fsc
    let n := Nat.min count (2 ^ 48 - 1)
    let r ← frontRmw fc v.a v.ctx t.fw (if close then [.publish n, .close] else [.publish n])
    modS (·.tagRelease c t.fsc r.2)

/-- The sequencer that routed an entry. -/
def Entry.seqId (e : Entry) (c : Nat) : SeqId := { core := Fin.ofNat 768 c, xs := e.xs }

/-! ## Writers that go unit by unit (R155, R184, R360) -/

/-- One step of such a writer: a destination unit, or a publication of COUNT, with or without CLOSED. -/
inductive BulkStep
  | write (u : Nat)
  | pub (count : Nat) (close : Bool)
  deriving DecidableEq, Repr

/-- How far a writer has come: steps, bytes, flags, and what it stored with `.asy`. -/
structure Reach where
  k : Nat
  bytes : Nat
  f : Flg
  w : Wrote
  deriving DecidableEq, Repr

/-- Take steps until one must wait; each step is whole or not taken. -/
def bulkLoop (one : BulkStep → Reach → Mx Reach) : List BulkStep → Reach → Mx (Bool × Reach)
  | [], r => pure (true, r)
  | b :: bs, r => do
    match ← attempt (one b r) with
    | none => pure (false, r)
    | some r' => bulkLoop one bs { r' with k := r.k + 1 }

/-- The flags of four bits. -/
def Flg.ofBits (b : BitVec 4) : Flg :=
  { inx := b.getLsbD 0, udf := b.getLsbD 1, dom := b.getLsbD 2, ruf := b.getLsbD 3 }

/-- Go on from where an entry stands. -/
def bulkRun (one : BulkStep → Reach → Mx Reach) (steps : List BulkStep) (e : Entry) : Mx Prog := do
  let r ← bulkLoop one (steps.drop e.units) { k := e.units, bytes := e.bytes, f := Flg.ofBits e.flags, w := e.asy }
  pure (if r.1 then .done r.2.f.bits r.2.w else .wait r.2.k r.2.bytes r.2.f.bits r.2.w)

/-- The lowest unit not finished, `k` steps in; past the last unit where all are (R184). -/
def leftUnit (steps : List BulkStep) (k : Nat) : Nat :=
  let ws (l : List BulkStep) : List Nat := l.filterMap fun b => match b with | .write u => some u | .pub .. => none
  match ws (steps.drop k) with
  | u :: _ => u
  | [] => match (ws steps).getLast? with | some u => u + 1 | none => 0

/-- Whole units written, `k` steps in. -/
def unitsDone (steps : List BulkStep) (k : Nat) : Nat :=
  (steps.take k).countP fun b => match b with | .write _ => true | .pub .. => false

/-- The traversal unit of a place that a writer may write: within a block it is that of the block's first element. -/
def Tens.unitW (t : Tens) (x : Ix) : Nat := t.unit (if t.inside x then x else { x with i0 := t.ext.i0 - 1 })

/-- The rising list of the units of some places. -/
def unitList (t : Tens) (xs : List Ix) : List Nat := ((xs.map t.unitW).eraseDups).mergeSort fun a b => a ≤ b

/-- Cut a list of things of `bits` bits, each at its bit address, so that things which fill an aligned granule of 16 bytes stay
together: such a granule is one access (R297, R308; for the walker and `vchain` DESIGN CHOICE log 95). -/
def wholeGranules {α : Type} (bits : Nat) (at_ : α → Nat) : Nat → List α → List (List α)
  | 0, _ => []
  | _ + 1, [] => []
  | n + 1, a :: as =>
    let g := (a :: as).take (128 / bits)
    if at_ a % 128 = 0 ∧ g.length = 128 / bits ∧ (g.zipIdx.all fun p => at_ p.1 = at_ a + bits * p.2) then
      g :: wholeGranules bits at_ n (as.drop (128 / bits - 1))
    else [a] :: wholeGranules bits at_ n as

/-- The bit address of an element. -/
def Tens.bitAddr (t : Tens) (x : Ix) : Nat := 8 * t.base + t.off x * t.fmt.width

/-- The places of a unit, in granules. -/
def Tens.grans (t : Tens) (xs : List Ix) : List (List Ix) := wholeGranules t.fmt.width t.bitAddr xs.length xs

/-- One element to write. -/
structure Item where
  x : Ix
  b : Nat
  p : Bool
  deriving DecidableEq, Repr

/-- Write the elements of a granule: a whole one in one access. -/
def writeGran (v : Via) (ch : Chap) (t : Tens) (g : List Item) : Mx Wrote :=
  match g with
  | [] => pure []
  | [i] => writeElem v ch t i.x i.b i.p
  | i :: _ => writeWhole v ch t (t.addr i.x) (toBytes 16 (packBits t.fmt.width (g.map (·.b)))) (g.any (·.p))

/-- The exponents of a block to write: the block's first element, the two exponents, their poison. -/
abbrev ExpItem := Ix × (Nat × Nat) × Bool

/-- Write the exponents of some blocks of a granule: a whole one in one access. -/
def writeExpGran (v : Via) (ch : Chap) (t : Tens) (g : List ExpItem) : Mx Wrote :=
  match g with
  | [] => pure []
  | [e] => writeExps v ch t e.1 e.2.1 e.2.2
  | e :: _ =>
    let bs := toBytes 16 (packBits 16 (g.map fun e => e.2.1.1 + 256 * e.2.1.2))
    writeWhole v ch t (t.expAddr e.1) bs (g.any (·.2.2))

/-- Write the exponents of blocks, a whole granule in one access; `ch k` reports a refusal at the `k`-th of them. -/
def writeExpItems (v : Via) (ch : Nat → Chap) (t : Tens) (es : List ExpItem) : Mx Wrote := do
  let r ← (wholeGranules 16 (fun (e : ExpItem) => 8 * t.expAddr e.1) es.length es).foldlM (fun (acc : Nat × Wrote) g => do
    let w ← writeExpGran v (ch acc.1) t g
    pure (acc.1 + g.length, acc.2 ++ w)) (0, [])
  pure r.2

/-- Write elements, then the exponents of their blocks; `ch k` reports a refusal at the `k`-th of these writes. -/
def writeItems (v : Via) (ch : Nat → Chap) (t : Tens) (its : List Item) (exps : List ExpItem) : Mx Wrote := do
  let r ← (wholeGranules t.fmt.width (fun (i : Item) => t.bitAddr i.x) its.length its).foldlM (fun (acc : Nat × Wrote) g => do
    let w ← writeGran v (ch acc.1) t g
    pure (acc.1 + g.length, acc.2 ++ w)) (0, [])
  let es ← writeExpItems v (fun k => ch (its.length + k)) t exps
  pure (r.2 ++ es)

/-- A writer that faults sets COUNT to the units it delivered whole, with their release at FSC, and HALTED; a second record waits
until the writer's own has gone (R184, R318, R428). -/
def State.haltWriter (s : State) (v : Via) (q : SeqId) (src : Nat) (point : Word) (t : Tens) (count : Nat) : State :=
  if t.fw = 0 then s
  else
    match s.haltTry v.a q v.ctx t.fw src point [.publish (Nat.min count (2 ^ 48 - 1))] (some t.fsc) with
    | (none, s) => s
    | (some r, s) => { s with lateRecs := s.lateRecs ++ [(q, r)] }

end Sys2Proof.Machine
end

