-- ==== Sys2Proof/Machine/Vmem.lean ====
section
/-! DEFINITION. The load queue and the store queue (R347-R353). An `exec…` routes a word; the `run…` beside it is the
entry's effect. -/

namespace Sys2Proof.Machine

open Sys2Proof

/-- A captured address, origin or value: poison is CAUSE 0x9A (R337). -/
def clean13 (k : SVal) : Mx Nat := do
  check (!k.p) 0x0A 0x9A
  pure k.v.toNat

/-- The address of an LQ or SQ entry (R335). -/
def lsAddr (e : Entry) (disp : BitVec 32) : Mx Nat := do
  check (!e.a.p) 0x0A 0x9A
  pure (e.a.v + disp.signExtend 64).toNat

/-- A core's own way to memory. -/
def coreVia (c : Nat) : Mx Via := do
  pure { a := .core c, ctx := (← getS).ctxOf c, loom := false }

/-- An effect that is whole, with no flags. -/
def doneNow (w : Wrote := []) : Mx Prog := pure (.done 0 w)

/-- Elements of a granule of 16 bytes. -/
def perGran (t : ElemTy) : Nat := 128 / t.width

/-- The granules that hold an active element, each with its lowest (R348). -/
def Core.granList (x : Core) (t : ElemTy) (m : MReg) : List (Nat × Nat) :=
  (List.range 32).filterMap fun g =>
    ((List.range (perGran t)).find? fun k => x.act m (g * perGran t + k)).map fun k => (g, g * perGran t + k)

/-- The alignment of a granule: the first of a block type carries that of the block (R348). -/
def granAlign (t : ElemTy) (g : Nat) : Nat := if t = .bx8 ∧ g = 0 then 32 else 16

/-- Blocks of a register of a block type. -/
def blocksOf (t : ElemTy) : Nat := t.count / 32

/-- The pieces of the exponent plane at xc, resolved; an index names the first element of a block (R95, R348). -/
def planePieces (c ctx xc n : Nat) (p : Perm) : Mx (List (Target × Nat)) :=
  (piecesOf xc n).mapM fun q => do
    let t ← accessN (chapElem ((q.1 - xc) / 2 * 32)) (.core c) ctx p (q.1 % 2 ^ 64) 2 q.2 false false
    pure (t, q.2)

/-! ## Contiguous loads and stores (R348) -/

def execVld (t : Tok1) (d : VReg) (a : Reg) (disp : BitVec 32) (ty : ElemTy) (mask : MReg) (plane : Option Reg) (s : State) :
    Out := route .lq (.vld t d a disp ty mask plane) (caps (.reg a) noE (match plane with | some r => .reg r | none => noE)) s
/-- `vld` (R348). -/
def runVld (d : VReg) (disp : BitVec 32) (ty : ElemTy) (mask : MReg) (c : Nat) (e : Entry) : Mx Prog := do
  let va ← lsAddr e disp
  if ty.isB then check (!e.c.p) 0x0A 0x9A
  let x ← coreM c
  let ctx := (← getS).ctxOf c
  let gs ← (x.granList ty mask).mapM fun g => do
    let t ← accessN (chapElem g.2) (.core c) ctx .r ((va + 16 * g.1) % 2 ^ 64) (granAlign ty g.1) 16 false false
    let r ← readAt (.core c) t 16
    pure (g.1, ofBytes r.1, r.2)
  let plane ← if ty.isB then do
      let ts ← planePieces c ctx e.c.v.toNat (2 * blocksOf ty) .r
      readPieces (.core c) ts
    else pure []
  let tag := BitVec.ofNat 512 (ofBytes (plane.map (·.1)))
  let wd := ty.width
  let per := perGran ty
  let f (i : Nat) : Option (Nat × Bool) :=
    if !ty.isB && !x.act mask i then none
    else
      match gs.find? (·.1 == i / per) with
      | none => none
      | some g =>
        let ep := ty.isB && ((plane.getD (2 * (i / 32)) (0, false)).2 || (plane.getD (2 * (i / 32) + 1) (0, false)).2)
        some (g.2.1 / 2 ^ (wd * (i % per)) % 2 ^ wd, g.2.2 || ep)
  modS (·.onCore c fun x => x.setVreg d.val ((x.vreg d.val).write wd tag f))
  doneNow

/-- Runs of active bytes within a granule. -/
def activeRuns (on : Nat → Bool) : Nat → Nat → List (Nat × Nat)
  | 0, _ => []
  | n + 1, k =>
    let rest := activeRuns on n (k + 1)
    if !on k then rest
    else match rest with
      | (j, m) :: r => if j = k + 1 then (k, m + 1) :: r else (k, 1) :: (j, m) :: r
      | [] => [(k, 1)]

/-- The bits of byte `k` of granule `g` that lie in active elements (R348, R429). -/
def Core.byteMask (x : Core) (ty : ElemTy) (m : MReg) (g k : Nat) : Byte :=
  if ty.isB then 0xFF
  else if ty.width = 4 then
    BitVec.ofNat 8 ((if x.act m (32 * g + 2 * k) then 15 else 0) + (if x.act m (32 * g + 2 * k + 1) then 240 else 0))
  else if x.act m ((128 * g + 8 * k) / ty.width) then 0xFF else 0

/-- A place `o` bytes on. -/
def Target.plus (t : Target) (o : Nat) : Target :=
  match t with
  | .scratch b => .scratch (b + o)
  | .phys pa l => .phys (pa + o) l

/-- One granule of a store: only bytes of active elements are written; of a byte with one active nibble, that nibble alone
(R348, R429). -/
def storeGran (c ctx : Nat) (x : Core) (d : VReg) (ty : ElemTy) (mask : MReg) (va : Nat) (g : Nat × Nat) : Mx Wrote := do
  let a := (va + 16 * g.1) % 2 ^ 64
  let t ← accessN (chapElem g.2) (.core c) ctx .w a (granAlign ty g.1) 16 false false
  let v := x.vsrc d.val
  let p := v.pois.getLsbD g.1
  let on := x.byteMask ty mask g.1
  let bs := toBytes 16 (v.bits.extractLsb' (128 * g.1) 128).toNat
  let whole ← (activeRuns (fun k => on k == 0xFF) 16 0).mapM fun r => do
    let out := (bs.drop r.1).take r.2
    writeAt (.core c) ctx (t.plus r.1) out p
    pure (storedBytes (a + r.1) out p)
  let half ← ((List.range 16).filter fun k => on k == 0x0F || on k == 0xF0).mapM fun k => do
    let b := bs.getD k 0
    writeMasked (.core c) ctx (t.plus k) b (on k) p
    pure { addr := a + k, byte := b, mask := on k, pois := p : Stored }
  pure (whole.flatten ++ half)

def execVst (t : Tok1) (d : VReg) (a : Reg) (disp : BitVec 32) (ty : ElemTy) (mask : MReg) (plane : Option Reg) (asy : Bool)
    (s : State) : Out :=
  route .sq (.vst t d a disp ty mask plane asy) (caps (.reg a) noE (match plane with | some r => .reg r | none => noE)) s
/-- `vst` (R348; DEDUCED log 30). -/
def runVst (d : VReg) (disp : BitVec 32) (ty : ElemTy) (mask : MReg) (asy : Bool) (c : Nat) (e : Entry) : Mx Prog := do
  let va ← lsAddr e disp
  if ty.isB then check (!e.c.p) 0x0A 0x9A
  let x ← coreM c
  let ctx := (← getS).ctxOf c
  let ws ← (x.granList ty mask).mapM (storeGran c ctx x d ty mask va)
  let ps ← if ty.isB then do
      let xc := e.c.v.toNat
      let ts ← planePieces c ctx xc (2 * blocksOf ty) .w
      let bs := toBytes (2 * blocksOf ty) (x.vsrc d.val).tag.toNat
      writePieces (.core c) ctx ts bs false
      pure (storedBytes xc bs false)
    else pure []
  doneNow (if asy then ws.flatten ++ ps else [])

/-! ## Gather, scatter, vector atomics (R349, R352) -/

/-- The active elements of an indexed access, each with its address (R349). -/
def idxAddrs (x : Core) (base : Nat) (b : VReg) (mask : MReg) : List (Nat × Nat × Bool) :=
  (List.range 128).filterMap fun i =>
    if !x.act mask i then none
    else
      let k := (x.vsrc b.val).el 32 i
      some (i, (base + 4 * k.1) % 2 ^ 64, k.2)

def execVldg (t : Tok1) (d : VReg) (a : Reg) (b : VReg) (ty : ElemTy) (mask : MReg) (s : State) : Out :=
  route .lq (.vldg t d a b ty mask) (caps (.reg a)) s
/-- `vldg`: every address is checked before any element is read (R349). -/
def runVldg (d : VReg) (b : VReg) (mask : MReg) (c : Nat) (e : Entry) : Mx Prog := do
  let base ← clean13 e.a
  let x ← coreM c
  let ctx := (← getS).ctxOf c
  let ts ← (idxAddrs x base b mask).mapM fun q => do
    check (!q.2.2) 0x0A 0x9A q.1
    let t ← access (chapElem q.1) (.core c) ctx .r q.2.1 4
    pure (q.1, t)
  let rs ← ts.mapM fun q => do
    let r ← readAt (.core c) q.2 4
    pure (q.1, ofBytes r.1, r.2)
  modS (·.onCore c fun x => x.setVreg d.val ((x.vreg d.val).write 32 0 fun i => (rs.find? (·.1 == i)).map (·.2)))
  doneNow

def execVsts (t : Tok1) (d : VReg) (a : Reg) (b : VReg) (ty : ElemTy) (mask : MReg) (asy : Bool) (s : State) : Out :=
  route .sq (.vsts t d a b ty mask asy) (caps (.reg a)) s
/-- `vsts`: every address is checked before any element is written; the higher index is written last (R349). -/
def runVsts (d : VReg) (b : VReg) (mask : MReg) (asy : Bool) (c : Nat) (e : Entry) : Mx Prog := do
  let base ← clean13 e.a
  let x ← coreM c
  let ctx := (← getS).ctxOf c
  let ts ← (idxAddrs x base b mask).mapM fun q => do
    check (!q.2.2) 0x0A 0x9A q.1
    let t ← access (chapElem q.1) (.core c) ctx .w q.2.1 4
    pure (q.1, q.2.1, t)
  let ws ← ts.mapM fun q => do
    let v := (x.vsrc d.val).el 32 q.1
    let bs := toBytes 4 v.1
    writeAt (.core c) ctx q.2.2 bs v.2
    pure (storedBytes q.2.1 bs v.2)
  doneNow (if asy then ws.flatten else [])

/-- What became of one element of a `vamo`: its old value, or the class at its home with CAUSE and address (R352). -/
abbrev AmoRes := Except FaultInfo Nat

/-- One element of a `vamo` at its home: a refused one changes nothing. -/
def amoElem (c ctx : Nat) (f32 : Bool) (op : AtomOp) (i va : Nat) (t : Target) (v : Nat × Bool) : Mx AmoRes := fun s =>
  match (do
      if v.2 then failF { mkFault 0x0A (detailOf 0 i 0x9A) with addr := BitVec.ofNat 64 va }
      poolCheck (chapElem i) (.core c) ctx va t
      alignCheck (chapElem i) va 4
      nrCheck (.core c) t 4
      homeReach (chapElem i) (.core c) va t
      let r ← rmwAt (.core c) ctx t 4 (fun old => some (newAtom f32 op 4 old v.1)) (atomMsg t op f32 false v.1)
      if r.2 then failF { mkFault 0x0A (detailOf 0 i 0x9A) with addr := BitVec.ofNat 64 va }
      pure r.1 : Mx Nat) s with
  | .ok old s' => .ok (.ok old) s'
  | .error (.fault f) _ => .ok (.error f) s
  | .error e s' => .error e s'

/-- The first failure of a list of elements. -/
def firstErr : List (Nat × AmoRes) → Option FaultInfo
  | [] => none
  | (_, .error f) :: _ => some f
  | _ :: l => firstErr l

def execVamo (t : Tok1) (op : AtomOp) (d : VReg) (a : Reg) (b : VReg) (c : EOpd) (ty : ElemTy) (mask : MReg) (nr : Bool)
    (s : State) : Out := route .sq (.vamo t op d a b c ty mask nr) (caps (.reg a) noE c) s
/-- `vamo` (R352): every address is checked, the task commits, and each element is performed or refused on its own. -/
def runVamo (op : AtomOp) (d : VReg) (b : VReg) (k : EOpd) (ty : ElemTy) (mask : MReg) (nr : Bool) (c : Nat) (e : Entry) :
    Mx Prog := do
  let base ← clean13 e.a
  let x ← coreM c
  let ctx := (← getS).ctxOf c
  let f32 : Bool := ty = .f32
  let ts ← (idxAddrs x base b mask).mapM fun q => do
    check (!q.2.2) 0x0A 0x9A q.1
    let t ← atomTarget (chapElem q.1) c ctx q.2.1 4 (detailOf 0 q.1 0xA2)
    pure (q.1, q.2.1, t)
  implicitCommit c
  let val (i : Nat) : Nat × Bool := x.src ty .rne k e.c i
  if nr then
    ts.forM fun q => sendNr c q.2.2 ctx q.2.1 4 f32 op { v := w64 (val q.1).1, p := (val q.1).2 }
    doneNow
  else
    let rs ← ts.mapM fun q => do pure (q.1, ← amoElem c ctx f32 op q.1 q.2.1 q.2.2 (val q.1))
    modS (·.onCore c fun x => x.setVreg d.val ((x.vreg d.val).write 32 0 fun i =>
      match rs.find? (·.1 == i) with
      | some (_, .ok v) => some (v, false)
      | _ => none))
    match firstErr rs with
    | some f => failF f
    | none => doneNow

/-! ## Full and empty cells (R351) -/

/-- The 32 cells of an access, each with its place in the array. -/
def cells32 (c va : Nat) (ty : ElemTy) (p : Perm) : Mx (List Nat) := do
  let ctx := (← getS).ctxOf c
  (List.range 32).mapM fun k => do
    let a := (va + 16 * k) % 2 ^ 64
    let i := k * perGran ty
    let t ← resolve (chapElem i) (.core c) ctx p a
    match t with
    | .phys _ _ => failF { mkFault 7 (detailOf 0 i 0x8E) with addr := BitVec.ofNat 64 a }
    | .scratch o =>
      alignCheck (chapElem i) a 16
      nrCheck (.core c) t 16
      pure (((← getS).core c).place o 0)

/-- The first element of the first poisoned cell. -/
def poisonedCell (x : Core) (ty : ElemTy) (ps : List Nat) : Option Nat :=
  (ps.zipIdx.find? fun p => x.cellPois p.1).map fun p => p.2 * perGran ty

def execVldfe (t : Tok1) (d : VReg) (a : Reg) (disp : BitVec 32) (clear : Bool) (ty : ElemTy) (s : State) : Out :=
  route .lq (.vldfe t d a disp clear ty) (caps (.reg a)) s
/-- `vldfe` (R341, R351). -/
def runVldfe (d : VReg) (disp : BitVec 32) (clear : Bool) (ty : ElemTy) (c : Nat) (e : Entry) : Mx Prog := do
  let va ← lsAddr e disp
  let ps ← cells32 c va ty .r
  let x ← coreM c
  if !ps.all x.cellFull then pure (.wait 0 0 0 [])
  else
    match poisonedCell x ty ps with
    | some i => raise 0x0A 0x9A i
    | none =>
      let bs := ps.flatMap fun p => (addrs p 16).map x.cellByte
      modS (·.onCore c fun x =>
        let x := x.setVreg d.val { bits := BitVec.ofNat 4096 (ofBytes bs), tag := 0, pois := 0 }
        if clear then { x with scFull := ps.foldl (fun s p => ndel s (p / 16)) x.scFull } else x)
      acquire c .core
      doneNow

def execVstfe (t : Tok1) (d : VReg) (a : Reg) (disp : BitVec 32) (ty : ElemTy) (s : State) : Out :=
  route .sq (.vstfe t d a disp ty) (caps (.reg a)) s
/-- `vstfe` (R341, R351). -/
def runVstfe (d : VReg) (disp : BitVec 32) (ty : ElemTy) (c : Nat) (e : Entry) : Mx Prog := do
  let va ← lsAddr e disp
  let ps ← cells32 c va ty .w
  let x ← coreM c
  if ps.any x.cellFull then pure (.wait 0 0 0 [])
  else
    let v := x.vsrc d.val
    match (List.range 32).find? fun g => v.pois.getLsbD g with
    | some g => raise 0x0A 0x9A (g * perGran ty)
    | none =>
      match poisonedCell x ty ps with
      | some i => raise 0x0A 0x9A i
      | none =>
        release c .core
        modS fun s => ps.foldl (fun s p => s.hitScratch c (p - 131072)) (s.onCore c fun x => ps.zipIdx.foldl (fun x p =>
          x.cellWrite p.1 (toBytes 16 (v.bits.extractLsb' (128 * p.2) 128).toNat) false) x)
        doneNow

/-! ## Windows (R350) -/

/-- A captured entry of chapter 13: undefined is CAUSE 0x94 (R164, R338). -/
def tens13 (k : TensCap) : Mx Tens :=
  match k with
  | none => raise 2 0x94
  | some r => pure (tensOf r)

/-- The element at which an origin word puts a window (R350). -/
def winOrg (t : Tens) (o : Nat) : Ix :=
  let w (i : Nat) : Nat := fld o (16 * i) 16
  { i0 := w 0 * t.win.i0, i1 := w 1 * t.win.i1, i2 := w 2 * t.win.i2, i3 := w 3 * t.win.i3 }

/-- The origin of a window (R350): a nonzero Wi on a dimension that is not live is CAUSE 0x95. -/
def winOrigin (t : Tens) (rank : Nat) (o : Nat) : Mx Ix := do
  check ((List.range 4).all fun i => i < rank || fld o (16 * i) 16 == 0) 2 0x95
  pure (winOrg t o)

/-- The box of a window. -/
def Tens.winBox (t : Tens) (o : Ix) : Ix × Ix := (o, t.win)

/-- What `vldt` and `vstt` refuse before they move anything: entry, origin, geometry (R350). -/
def winArgs (e : Entry) (lw : Fin 3) (ty : ElemTy) : Mx (Tens × Ix) := do
  let t ← tens13 e.ta
  let o ← clean13 e.b
  check (t.winCount ≤ ty.count * 2 ^ lw.val) 2 0x94
  let x ← winOrigin t t.rank o
  check (ty = t.fmt) 2 0x94
  check (!ty.isB || (t.win.i0 % 32 == 0 && x.i0 % 32 == 0)) 2 0x94
  pure (t, x)

/-- Equal exponents of every source, or a free value (R95, R127, R350; DESIGN CHOICE log 29). -/
def agreeExps (l : List (Nat × Nat)) : Mx (Nat × Nat) :=
  match l with
  | [] => pure (0, 0)
  | e :: es =>
    if es.all (· == e) then pure e
    else do
      let k := (← getS).free
      modS State.bump
      pure ((Config.freeValue k).toNat % 256, (Config.freeValue k).toNat / 256 % 256)

/-- The chase of `vldt` (R350). -/
def halted13 : FaultInfo := mkFault 0x0C (detailOf 0 0 0x92)

def execVldt (t : Tok1) (d : VReg) (a : TEnt) (b : EOpd) (lw : Fin 3) (ty : ElemTy) (s : State) : Out :=
  route .lq (.vldt t d a b lw ty) (caps noE b noE (some a)) s
/-- `vldt`: one read unit, chased, then read whole (R350). -/
def runVldt (d : VReg) (lw : Fin 3) (ty : ElemTy) (c : Nat) (e : Entry) : Mx Prog := do
  let q ← winArgs e lw ty
  let t := q.1
  let v ← coreVia c
  let w := 2 ^ lw.val
  let r ← attempt (do
    if !(← chaseOnce v c front13 halted13 t (t.cover (t.winBox q.2))) then stallOn .chase
    let xs := t.winElems q.2
    let es ← xs.zipIdx.mapM fun x => readElem v (chapElem x.2) t x.1
    let bs ← if ty.isB then
        (List.range (xs.length / 32)).mapM fun k => do
          let x := xs.getD (32 * k) q.2
          if t.inside x then do pure (some (← readExps v (chapElem (32 * k)) t x)) else pure none
      else pure []
    pure (es, bs))
  match r with
  | none => pure (.wait 0 0 0 [])
  | some (es, bs) =>
    let elem (j : Nat) : Nat × Bool :=
      let k := es.getD j (0, false)
      match bs.getD (j / 32) none with
      | some x => (k.1, k.2 || x.2.2)
      | none => k
    let tags ← if ty.isB then
        (List.range w).mapM fun _ => (List.range (blocksOf ty)).mapM fun g =>
          agreeExps ((List.range w).filterMap fun m => (bs.getD (g * w + m) none).map fun x => (x.1, x.2.1))
      else pure []
    let tag (r : Nat) : BitVec 512 :=
      BitVec.ofNat 512 (ofBytes ((tags.getD r []).flatMap fun x => [BitVec.ofNat 8 x.1, BitVec.ofNat 8 x.2]))
    modS (·.onCore c fun x => (List.range w).foldl (fun x r =>
      x.setVreg (d.val + r) ((x.vreg (d.val + r)).write ty.width (tag r) fun k => some (elem (k * w + r)))) x)
    doneNow

/-- The elements of a unit of a `vstt`, with their bits from the group, and the exponents of their blocks (R127, R162, R350). -/
def vsttUnit (x : Core) (d w : Nat) (t : Tens) (xs : List (Ix × Nat)) : Mx (List Item × List ExpItem) := do
  let heads := if t.fmt.isB then xs.filter fun p => p.1.i0 % 32 = 0 else []
  let exps ← heads.mapM fun h => do
    let m := h.2 / 32
    let e ← agreeExps ((List.range w).map fun r => (x.vsrc (d + r)).blkExp (m / w))
    pure (h.1, e, false)
  let item (p : Ix × Nat) : Item :=
    let k := x.el d w t.fmt.width p.2
    if t.inside p.1 then { x := p.1, b := k.1, p := k.2 }
    else
      let e0 := ((exps.find? fun h => h.1 == { p.1 with i0 := p.1.i0 / 32 * 32 }).map fun h => h.2.1.1).getD 0
      { x := p.1, b := zeroCode t.fmt e0, p := false }
  pure (xs.map item, exps)

def execVstt (t : Tok1) (d : VReg) (a : TEnt) (b : EOpd) (lw : Fin 3) (asy close : Bool) (ty : ElemTy) (s : State) : Out :=
  route .sq (.vstt t d a b lw asy close ty) (caps noE b noE (some a)) s
/-- `vstt`: unit by unit, then the publication (R184, R350). -/
def runVstt (d : VReg) (lw : Fin 3) (asy close : Bool) (ty : ElemTy) (c : Nat) (e : Entry) : Mx Prog := do
  let q ← winArgs e lw ty
  let t := q.1
  check (!t.repeats) 2 0x94
  let v ← coreVia c
  let x ← coreM c
  let xs := ((t.winElems q.2).zipIdx).filter fun p => t.writable p.1
  let us := unitList t (xs.map (·.1))
  let steps := us.map BulkStep.write ++
    (if t.fw ≠ 0 ∧ (close ∨ !us.isEmpty) then [.pub (match us.getLast? with | some u => u + 1 | none => 0) close] else [])
  let one (b : BulkStep) (r : Reach) : Mx Reach :=
    onFault (fun s => s.haltWriter v (e.seqId c) 4 (w64 e.num) t (leftUnit steps r.k)) (do
      match b with
      | .write u =>
        let here := xs.filter fun p => t.unitW p.1 = u
        let it ← vsttUnit x d.val (2 ^ lw.val) t here
        let js := here.map (·.2) ++ (here.filter fun p => p.1.i0 % 32 = 0).map (·.2)
        let w ← writeItems v (fun k => chapElem (js.getD k 0)) t it.1 it.2
        pure { r with w := if asy then r.w ++ w else r.w }
      | .pub n cl => do
        publish v c front13 t n cl
        pure r)
  bulkRun one steps e

end Sys2Proof.Machine
end

