-- ==== Sys2Proof/Machine/Walker.lean ====
section
/-! DEFINITION. The walker's commands (R359-R361) and the vector chain (R152-R156). An `exec…` routes a word; the `run…`
beside it is the entry's effect. -/

namespace Sys2Proof.Machine

open Sys2Proof

/-! ## Walker commands -/

/-- How a walker reports a refusal by `Mem`, with the bytes delivered (R338, R361). -/
def chapWalk (bytes : Nat) : Chap := fun f =>
  f.withDetail (detailOf (Nat.min bytes (2 ^ 32 - 1)) 0 (if f.cls = 4 then 0x9D else 0x93))

/-- A fault of a walker command with the bytes delivered. -/
def walkFault (cls cause bytes : Nat) : FaultInfo := mkFault cls (detailOf (Nat.min bytes (2 ^ 32 - 1)) 0 cause)

/-- What a walker reports at a frontier word. -/
def frontWalk (bytes : Nat) : FrontCodes :=
  { ch := chapWalk bytes, page := walkFault 7 0x91 bytes, pois := walkFault 0x0A 0x9A bytes }

/-- The walker's way to memory on a core's behalf (R289, R294). -/
def walkVia (c : Nat) : Mx Via := do
  pure { a := .quadUnit c, ctx := (← getS).ctxOf c, loom := false }

/-- The fields of a walker word that a bound command has: its barrier (R359). -/
def boundOf : Instr → Option Nat
  | .cpy _ _ _ b _ => b.map (·.val)
  | .cpym _ _ _ b => b.map (·.val)
  | .cpyf _ _ _ b _ => b.map (·.val)
  | _ => none

/-- The bytes of `k` of a unit's writes: elements, then two bytes for each block (R361; DEDUCED log 57). -/
def bytesAt (t : Tens) (n k : Nat) : Nat := if k ≤ n then k * t.fmt.width / 8 else n * t.fmt.width / 8 + 2 * (k - n)

/-- A unit's places by rising offset (R360). -/
def byOff (t : Tens) (xs : List Ix) : List Ix := xs.mergeSort fun a b => t.off a ≤ t.off b

/-- The steps of a walker's writer: every unit, each published as it is whole, and CLOSED at the end (R184, R359, R360). -/
def walkSteps (t : Tens) (us : List Nat) (close : Bool) : List BulkStep :=
  us.flatMap (fun u => BulkStep.write u :: (if t.fw = 0 then [] else [.pub (u + 1) false])) ++
    (if t.fw ≠ 0 ∧ close then [.pub (match us.getLast? with | some u => u + 1 | none => 0) true] else [])

/-- Run a walker's writer: `unit` writes the places of one unit, after `bytes` bytes, and answers how many more (R360, R361). -/
def walkRun (c : Nat) (e : Entry) (v : Via) (t : Tens) (xs : List Ix) (close : Bool) (unit : Nat → List Ix → Mx Nat) : Mx Prog := do
  let us := unitList t xs
  let steps := walkSteps t us close
  let one (b : BulkStep) (r : Reach) : Mx Reach :=
    onFault (fun s => s.haltWriter v (e.seqId c) 6 (w64 e.num) t (leftUnit steps r.k)) (do
      match b with
      | .write u =>
        let n ← unit r.bytes (byOff t (xs.filter fun x => t.unitW x = u))
        pure { r with bytes := r.bytes + n }
      | .pub n cl => do
        publish v c (frontWalk r.bytes) t n cl
        pure r)
  bulkRun one steps e

/-- The frontier of a command that is refused before it writes shows HALTED too (R361). -/
def refuseHalt {α : Type} (c : Nat) (e : Entry) (v : Via) (m : Mx α) : Mx α :=
  match e.ta with
  | none => m
  | some r => onFault (fun s => s.haltWriter v (e.seqId c) 6 (w64 e.num) (tensOf r) 0) m

/-- The places that a `cpy` writes (R160, R360). -/
def cpyPlaces (td : Tens) (o : Ix) : List Ix := (td.winElems o).filter td.writable

/-- The unit of the source that the elements of a destination unit need (R322, R360). -/
def cpyCover (ts : Tens) (here : List Ix) : Option Nat :=
  let ins := (here.filter ts.inside).map ts.unit
  if ins.isEmpty then none else some (ins.foldl Nat.max 0)

/-- The exponents of a source's block, with their poison; a block beyond the edge has none to read (R160). -/
def srcExps (v : Via) (ch : Chap) (ts : Tens) (h : Ix) : Mx ExpItem := do
  if ts.inside h then
    let k ← readExps v ch ts h
    pure (h, (k.1, k.2.1), k.2.2)
  else pure (h, (0, 0), false)

/-- What `cpy` writes at a place: the source's bits and poison, or +0 within a block beyond the edge (R160, R162, R337). -/
def cpyItem (td : Tens) (exps : List ExpItem) (x : Ix) (y : Nat × Bool) : Item :=
  if td.inside x then { x := x, b := y.1, p := y.2 }
  else
    let e0 := ((exps.find? fun h => h.1 == { x with i0 := x.i0 / 32 * 32 }).map fun h => h.2.1.1).getD 0
    { x := x, b := zeroCode td.fmt e0, p := false }

/-- One destination unit of a `cpy`: granule by granule, each read and then written, and the exponents of its blocks after them; answers
the bytes written (R360, R361). -/
def cpyUnit (v : Via) (td ts : Tens) (done : Nat) (here : List Ix) : Mx Nat := do
  let n := here.length
  let ch (k : Nat) : Chap := chapWalk (done + bytesAt td n k)
  let r ← (td.grans here).foldlM (fun (acc : Nat × List ExpItem) g => do
    let ex ← (if td.fmt.isB then g.filter fun x => x.i0 % 32 = 0 else []).mapM (srcExps v (ch acc.1) ts)
    let exps := acc.2 ++ ex
    let ys ← g.mapM (readElem v (ch acc.1) ts)
    let _ ← writeGran v (ch acc.1) td ((g.zip ys).map fun p => cpyItem td exps p.1 p.2)
    pure (acc.1 + g.length, exps)) (0, [])
  let _ ← writeExpItems v (fun k => ch (n + k)) td r.2
  pure (bytesAt td n (n + r.2.length))

def execCpy (d a : TEnt) (b : EOpd) (bind : Option (Fin 32)) (close : Bool) (s : State) : Out :=
  route .wq (.cpy d a b bind close) (caps noE b noE (some d) (some a)) s
/-- `cpy` (R360). -/
def runCpy (close : Bool) (c : Nat) (e : Entry) : Mx Prog := do
  let v ← walkVia c
  let q ← refuseHalt c e v (do
    let td ← tens13 e.ta
    let ts ← tens13 e.tb
    let o ← clean13 e.b
    check (td.fmt = ts.fmt && td.win == ts.win) 2 0x94
    let x ← winOrigin td (Nat.min td.rank ts.rank) o
    check (!td.fmt.isB || (td.win.i0 % 32 == 0 && x.i0 % 32 == 0)) 2 0x94
    check (!td.repeats) 2 0x94
    pure (td, ts, x))
  let td := q.1
  let ts := q.2.1
  let xs := cpyPlaces td q.2.2
  walkRun c e v td xs close fun done here => do
    if !(← chaseOnce v c (frontWalk done) (walkFault 0x0C 0x92 done) ts (cpyCover ts here)) then stallOn .chase
    cpyUnit v td ts done here

def execCpyf (d : TEnt) (b c : EOpd) (bind : Option (Fin 32)) (close : Bool) (s : State) : Out :=
  route .wq (.cpyf d b c bind close) (caps noE b c (some d)) s
/-- `cpyf` (R360). -/
def runCpyf (close : Bool) (c : Nat) (e : Entry) : Mx Prog := do
  let v ← walkVia c
  let q ← refuseHalt c e v (do
    let td ← tens13 e.ta
    check (!td.fmt.isB) 2 0x94
    let o ← clean13 e.b
    let x ← winOrigin td td.rank o
    let k ← clean13 e.c
    check (!td.repeats) 2 0x94
    pure (td, x, k))
  let td := q.1
  walkRun c e v td ((td.winElems q.2.1).filter td.inside) close fun done here => do
    let n := here.length
    let _ ← writeItems v (fun k => chapWalk (done + bytesAt td n k)) td
      (here.map fun x => { x := x, b := q.2.2 % 2 ^ td.fmt.width, p := false }) []
    pure (bytesAt td n n)

/-- The unit of poison of a place (R303). -/
def Target.poisonUnit : Target → Nat
  | .scratch _ => 16
  | .phys _ _ => 64

/-- Copy runs that stay within a unit of poison on either side, in ascending order, until one must wait; `done` bytes are copied
(R303, R360). -/
def copyLoop (v : Via) (dst src n : Nat) : Nat → Nat → Mx Nat
  | 0, done => pure done
  | fuel + 1, done =>
    if n ≤ done then pure done
    else do
      let a := (dst + done) % 2 ^ 64
      let b := (src + done) % 2 ^ 64
      let r ← attempt (do
        let ts ← access (chapWalk done) v.a v.ctx .r b 1
        let td ← access (chapWalk done) v.a v.ctx .w a 1
        let g := Nat.min ts.poisonUnit td.poisonUnit
        let m := Nat.min (n - done) (Nat.min (g - a % g) (g - b % g))
        let x ← readAt v.a ts m
        writeAt v.a v.ctx td x.1 x.2
        pure m)
      match r with
      | none => pure done
      | some m => copyLoop v dst src n fuel (done + m)

def execCpym (a b : Reg) (c : EOpd) (bind : Option (Fin 32)) (s : State) : Out :=
  route .wq (.cpym a b c bind) (caps (.reg a) (.reg b) c) s
/-- `cpym` (R360). -/
def runCpym (c : Nat) (e : Entry) : Mx Prog := do
  let v ← walkVia c
  let dst ← clean13 e.a
  let src ← clean13 e.b
  let n ← clean13 e.c
  check (n < 2 ^ 32) 2 0x9C
  let k ← copyLoop v dst src n (n + 1) e.bytes
  pure (if k = n then .done 0 [] else .wait 0 k 0 [])

def execTrig (a : Reg) (b : EOpd) (sc : Scope) (s : State) : Out := route .wq (.trig a b sc) (caps (.reg a) b) s
/-- `trig` (R234, R360). -/
def runTrig (sc : Scope) (c : Nat) (e : Entry) : Mx Prog := do
  let v ← walkVia c
  let va ← clean13 e.a
  let n ← clean13 e.b
  let t ← resolve (chapWalk 0) v.a v.ctx .r va
  if t.effHome = 0 ∨ t.effHome = 3 then failF { walkFault 7 0x7F 0 with addr := BitVec.ofNat 64 va }
  poolCheck (chapWalk 0) v.a v.ctx va t
  alignCheck (chapWalk 0) va 8
  nrCheck v.a t 8
  homeReach (chapWalk 0) v.a va t
  let r ← readHome v.a t 8
  if r.2 then failF { walkFault 0x0A 0x9A 0 with addr := BitVec.ofNat 64 va }
  if ofBytes r.1 < n then pure (.wait 0 0 0 [])
  else
    acquire c sc
    doneNow

/-! ## The vector chain (R152-R156) -/

/-- The detail word of a `vchain` fault (R132). -/
def chainDetail (units slot cause : Nat) : Nat := Nat.min units (2 ^ 32 - 1) * 2 ^ 32 + slot * 2 ^ 8 + cause

/-- How `vchain` reports a refusal by `Mem` (R156). -/
def chapVchain (units : Nat) : Chap := fun f => f.withDetail (chainDetail units 0 0x37)

/-- What `vchain` reports at a frontier word: R132's list of causes holds neither 0x91 nor 0x9A, which R355 gives for every entry
(DEDUCED log 76). -/
def frontVchain (units : Nat) : FrontCodes :=
  { ch := chapVchain units, page := mkFault 7 (chainDetail units 0 0x37), pois := mkFault 0x0A (chainDetail units 0 0x34) }

/-- One slot of a chain word: OP and KI (R153). -/
def slotOp (w j : Nat) : Nat := fld w (8 * j + 4) 4
def slotKi (w j : Nat) : Nat := fld w (8 * j) 3

/-- A slot that breaks R153, uses B with no tc, or uses K with no constants (R154). -/
def slotBad (w : Nat) (hasB hasK : Bool) (j : Nat) : Bool :=
  let op := slotOp w j
  let usesK := 4 ≤ op && op ≤ 8
  let usesB := 1 ≤ op && op ≤ 4
  fld w (8 * j + 3) 1 != 0 || (!usesK && slotKi w j != 0) ||
    (op != 0 && (List.range j).any fun i => slotOp w i == 0) || (usesB && !hasB) || (usesK && !hasK)

/-- One operation, rounded to f32 (R153, R154). -/
def chainOp (rnd : Rnd) (op : Nat) (y b k : Num) : Num × Flg :=
  let f := fmtF32
  let rd (v : Num) : Num × Flg := f.round rnd false v
  match op with
  | 1 => rd (Num.add rnd y b)
  | 2 => rd (Num.add rnd y b.neg)
  | 3 => rd (y.mul b)
  | 4 => rd (Num.add rnd (y.mul b) k)
  | 5 => rd (Num.add rnd y k)
  | 6 => rd (y.mul k)
  | 7 => (y.max k, Flg.none)
  | 8 => (y.min k, Flg.none)
  | 9 => (y.abs, Flg.none)
  | 10 => (y.neg, Flg.none)
  | 11 => exp2Num f rnd false y
  | 12 => log2Num f rnd false y
  | 13 => rd y.rcp
  | 14 => rd y.sqrt
  | _ => rd y.rsqrt

/-- The slots in ascending order until the end: the value, the flags, and whether a poisoned constant was used. -/
def chainEval (rnd : Rnd) (w : Nat) (ks : BitVec 256) (kp : BitVec 8) (b : Num) : List Nat → Num × Flg × Bool → Num × Flg × Bool
  | [], r => r
  | j :: js, r =>
    let op := slotOp w j
    if op = 0 then r
    else
      let ki := slotKi w j
      let x := chainOp rnd op r.1 b (numF32 (ks.extractLsb' (32 * ki) 32).toNat)
      chainEval rnd w ks kp b js (x.1, r.2.1.or x.2, r.2.2 || (4 ≤ op && op ≤ 8 && kp.getLsbD ki))

/-- The constants K0-K7 behind a chain word (R152). -/
def captureKs (q : SeqId) (b : EOpd) : Mx (BitVec 256 × BitVec 8 × Bool) := do
  match b with
  | .const k =>
    let s ← getS
    let c := q.core.val
    let base := (s.core c).cbase + 8 * k.val + 8
    let rs ← (List.range 8).mapM fun j => vread chapFetch (.core c) (s.ctxOf c) (base + 4 * j) 4 4
    pure (BitVec.ofNat 256 (ofBytes (rs.flatMap (·.1))),
      BitVec.ofNat 8 (rs.zipIdx.foldl (fun m r => if r.1.2 then m + 2 ^ r.2 else m) 0), true)
  | _ => pure (0, 0, false)

/-- What `vchain` captures: the word, its constants, its entries (R152, R164). -/
def capsChain (d a : TEnt) (b : EOpd) (c : Option TEnt) (q : SeqId) : Mx Caps := do
  let k ← caps noE b noE (some d) (some a) c q
  let ks ← captureKs q b
  pure { k with ks := ks.1, ksPois := ks.2.1, hasKs := ks.2.2 }

def execVchain (t : Tok) (d a : TEnt) (b : EOpd) (c : Option TEnt) (sat : Bool) (rnd : Rnd) (s : State) : Out :=
  route .ve (.vchain t d a b c sat rnd) (capsChain d a b c) s

/-- An entry of `vchain` (R154). -/
def tensChain (k : TensCap) : Mx Tens :=
  match k with
  | none => raise 2 0x36
  | some r =>
    let t := tensOf r
    if t.fmt.isF then pure t else raise 2 0x36

/-- What a `vchain` refuses when it starts (R154; DEDUCED log 56). A td with a zero stride on a live dimension of extent above 1
is refused too (R159; DEDUCED log 77). A `vchain` refused here has written nothing, and leaves its frontier word alone
(R156; DEDUCED log 77). -/
def chainArgs (hasB : Bool) (e : Entry) : Mx (Tens × Tens × Option Tens) := do
  check (!e.b.p) 0x0A 0x34
  let w := e.b.v.toNat
  match (List.range 8).find? (slotBad w hasB e.hasKs) with
  | some j => failF (mkFault 2 (chainDetail 0 j 0x35))
  | none => pure ()
  let td ← tensChain e.ta
  let ta ← tensChain e.tb
  let tc ← if hasB then do pure (some (← tensChain e.tc)) else pure none
  let same (t : Tens) : Bool := t.rank == td.rank && t.ext == td.ext
  check (same ta && (match tc with | some t => same t | none => true)) 2 0x36
  check (!td.repeats) 2 0x36
  pure (td, ta, tc)

/-- Flags set before a fault are ORed into `cflags` (R156). -/
def orNow (c : Nat) (f : Flg) (s : State) : State := s.onCore c (·.orFlags f.bits)

/-- Elements one after another with the flags so far; a fault ORs into `cflags` every flag set before it (R156). -/
def chainElems (c : Nat) (one : Ix → Mx (Flg × Item)) : List Ix → Flg → Mx (Flg × List Item)
  | [], f => pure (f, [])
  | x :: xs, f => do
    let r ← onFault (orNow c f) (one x)
    let rest ← chainElems c one xs (f.or r.1)
    pure (rest.1, r.2 :: rest.2)

/-- Granules one after another: the elements of one are computed, and then written. -/
def chainGrans (c : Nat) (one : Ix → Mx (Flg × Item)) (write : List Item → Mx Unit) : List (List Ix) → Flg → Mx Flg
  | [], f => pure f
  | g :: gs, f => do
    let r ← chainElems c one g f
    onFault (orNow c r.1) (write r.2)
    chainGrans c one write gs r.1

/-- The steps of a `vchain`: every unit, each published as it is whole, and CLOSED at the end (R155). -/
def chainSteps (td : Tens) : List BulkStep :=
  (List.range td.units).flatMap (fun u => BulkStep.write u :: (if td.fw = 0 then [] else [.pub (u + 1) false])) ++
    (if td.fw = 0 then [] else [.pub td.units true])

/-- `vchain`: unit by unit in td's traversal order, each unit published as it is whole (R154-R156). -/
def runVchain (hasB sat : Bool) (rnd : Rnd) (c : Nat) (e : Entry) : Mx Prog := do
  let q ← chainArgs hasB e
  let td := q.1
  let ta := q.2.1
  let v ← coreVia c
  let steps := chainSteps td
  let chase (n : Nat) (t : Tens) (b : Ix × Ix) : Mx Unit := do
    if !(← chaseOnce v c (frontVchain n) (mkFault 0x0C (chainDetail n 0 0x92)) t (t.cover b)) then stallOn .chase
  let one (b : BulkStep) (r : Reach) : Mx Reach :=
    let n := unitsDone steps r.k
    onFault (fun s => orNow c r.f (s.haltWriter v (e.seqId c) 3 (w64 e.num) td (leftUnit steps r.k))) (do
      match b with
      | .write u =>
        let box := td.unitBox u
        chase n ta box
        match q.2.2 with
        | some tc => chase n tc box
        | none => pure ()
        let f ← chainGrans c (fun x => do
          let y ← readElem v (chapVchain n) ta x
          let k ← match q.2.2 with
            | some tc => do
              let k ← readElem v (chapVchain n) tc x
              pure (numOf tc.fmt k.1, k.2)
            | none => pure (Num.zero, false)
          let z := chainEval rnd e.b.v.toNat e.ks e.ksPois k.1 (List.range 8) (numOf ta.fmt y.1, Flg.none, false)
          let o := (tyFmt td.fmt).fin rnd sat z.1
          pure (z.2.1.or o.2, { x := x, b := o.1, p := y.2 || k.2 || z.2.2 }))
          (fun g => do let _ ← writeGran v (chapVchain n) td g) (td.grans (boxElems box)) r.f
        pure { r with f := f }
      | .pub n' cl => do
        publish v c (frontVchain n) td n' cl
        pure r)
  bulkRun one steps e

end Sys2Proof.Machine
end

