-- ==== Sys2Proof/Machine/Crier.lean ====
section
/-! DEFINITION. Criers: tile-table entries, firings, reductions and landings, replica groups, the assay, and crier firmware
(R186-R211). CQ entries start at the core (`start…`) and end at the tile's crier (`ack…`). -/

namespace Sys2Proof.Machine

open Sys2Proof

/-! ## Tile-table entries (R187-R190) -/

def TileEnt.none : TileEnt := { img := 0, armed := Option.none, fired := Option.none, landed := false }

def Ctx.tile (c : Ctx) (i : Nat) : TileEnt := sget c.tiles i TileEnt.none
def State.tile (s : State) (ctx i : Nat) : TileEnt := (s.ctx ctx).tile i
def State.onTile (s : State) (ctx i : Nat) (f : TileEnt → TileEnt) : State :=
  s.onCtx ctx fun c => { c with tiles := sset c.tiles i (f (c.tile i)) TileEnt.none }

/-- Fired, and not complete; an armed entry that has not fired is not pending (R191). -/
def TileEnt.pending (t : TileEnt) : Bool := t.fired.isSome

/-- The crier of a tile (R187). -/
def crierOf (ctx i : Nat) : Nat := (i + ctx) % 48

/-- The crier takes commands and firings: it runs verified firmware and no load is in progress (R33, R211). -/
def State.crierTakes (s : State) (k : Nat) : Bool := (s.crier k).verified && (s.crier k).load.isNone

/-- A field of an entry image (R188). -/
def tileFld (img : BitVec 512) (lo n : Nat) : Nat := fld img.toNat lo n

def tSrc (img : BitVec 512) : Nat := tileFld img 0 52
def tOp (img : BitVec 512) : Nat := tileFld img 52 4
def tPair (img : BitVec 512) : Nat := tileFld img 56 3
def tCmp (img : BitVec 512) : Bool := img.getLsbD 59
def tDst (img : BitVec 512) : Nat := tileFld img 64 52
def tGrp (img : BitVec 512) : Nat := tileFld img 116 6
def tNel (img : BitVec 512) : Nat := tileFld img 128 16
def tShp (img : BitVec 512) : Nat := tileFld img 144 32
def tFwa (img : BitVec 512) : Nat := tileFld img 176 52
def tFth (img : BitVec 512) : Nat := tileFld img 228 48
def tCfw (img : BitVec 512) : Nat := tileFld img 276 52
def tEfb (img : BitVec 512) : Nat := tileFld img 328 52
def tTba (img : BitVec 512) : Nat := tileFld img 380 52

/-- PAIR and SHP as a `tms` value (R113, R189). -/
def tTms (img : BitVec 512) : Word := w64 (tPair img * 2 ^ 32 + tShp img)

/-- OP 5 and 6 are the transformed means. -/
def tMean (img : BitVec 512) : Bool := tOp img == 5 || tOp img == 6

/-- A group of a context that `cgrp` has defined. -/
def Ctx.group (c : Ctx) (g : Nat) : Group := sget c.groups g Group.none
def State.group (s : State) (ctx g : Nat) : Group := (s.ctx ctx).group g
def State.onGroup (s : State) (ctx g : Nat) (f : Group → Group) : State :=
  s.onCtx ctx fun c => { c with groups := sset c.groups g (f (c.group g)) Group.none }
def Group.defined (g : Group) : Bool := !g.members.isEmpty

/-- What an entry image breaks, in the order of R202: class and CAUSE. -/
def imageFail (defined : Bool) (img : BitVec 512) : Option (Nat × Nat) :=
  let bad (n : Nat) : Bool := n % 64 != 0
  let op := tOp img
  if tileFld img 60 4 ≠ 0 ∨ tileFld img 122 6 ≠ 0 ∨ tileFld img 432 80 ≠ 0 then some (3, 0x60)
  else if 6 < op then some (3, 0x61)
  else if bad (tSrc img) || bad (tDst img) || bad (tEfb img) || bad (tTba img) || tFwa img % 8 != 0 || tCfw img % 8 != 0 then
    some (4, 0x63)
  else if !defined then some (2, 0x65)
  else if tNel img == 0 || (tCmp img && (!(op == 1 || op == 2) || tNel img % 32 != 0 || tEfb img == 0)) ||
      (!tCmp img && tEfb img != 0) || (!tMean img && (tPair img != 0 || tShp img != 0 || tTba img != 0)) ||
      (tMean img && (!tmsLegal (tTms img) || (tTba img != 0) != (tPair img != 0))) || (tFwa img == 0 && tFth img != 0) then
    some (2, 0x62)
  else none

/-- Bytes of an entry's contribution (R204). -/
def contribBytes (img : BitVec 512) : Nat := tNel img * (match tOp img with | 2 => 2 | 6 => 8 | _ => 4)

/-- An entry that `cred` may fire (R204). -/
def credOk (img : BitVec 512) : Bool := contribBytes img ≤ 4096 && !tCmp img && tFwa img == 0

/-! ## CQ entries at the core (R199, R202-R204) -/

/-- The detail word of a fault about a tile (R201). -/
def chapTile (i : Nat) : Chap := fun f => f.withDetail (detailOf i 0 (if f.cls = 4 then 0x63 else 0x5F))

/-- A tile operand: clean, and at most 4,095. -/
def tileArg (e : Entry) : Mx Nat := do
  check (!e.a.p) 0x0A 0x66
  check (e.a.v.toNat ≤ 4095) 2 0x67 0 e.a.v.toNat
  pure e.a.v.toNat

def execTtset (a : EOpd) (b : Reg) (s : State) : Out := route .cq (.ttset a b) (caps a (.reg b)) s
/-- `ttset` at the core: the tile index, then the image is read (R202, steps 1 to 3). -/
def startTtset (c : Nat) (e : Entry) : Mx Entry := do
  check (!e.a.p) 0x0A 0x66
  check (e.a.v.toNat ≤ 4095) 2 0x67 0 e.a.v.toNat
  check (!e.b.p) 0x0A 0x66 0 e.a.v.toNat
  let i := e.a.v.toNat
  let r ← vread (chapTile i) (.core c) ((← getS).ctxOf c) e.b.v.toNat 64 64
  check (!r.2) 0x0A 0x66 0 i
  pure { e with ta := some (BitVec.ofNat 512 (ofBytes r.1)) }

/-- `tready` and `cred` at the core: operands, commit, `Release(.pkg)` (R192, R203, R228). -/
def startFire (gen : Bool) (c : Nat) (e : Entry) : Mx Entry := do
  let i ← tileArg e
  if gen then
    check (!e.b.p) 0x0A 0x66 0 i
    check (e.b.v.toNat ≤ 255) 2 0x67 0 i
  implicitCommit c
  release c .pkg
  pure e

def execTready (a b : EOpd) (s : State) : Out := route .cq (.tready a b) (caps a b) s
def startTready : Nat → Entry → Mx Entry := startFire true

def execCred (a : EOpd) (s : State) : Out := route .cq (.cred a) (caps a) s
def startCred : Nat → Entry → Mx Entry := startFire false

/-! ## Contributions (R120-R122, R190, R196) -/

/-- How a crier reports a refusal by `Mem` in an instance (R195). -/
def chapCrier (i : Nat) : Chap := chapOne 0x6F 0 i

/-- What a crier reports at a trigger frontier. -/
def frontCrier (i : Nat) : FrontCodes :=
  { ch := chapCrier i, page := mkFault 7 (detailOf i 0 0x6F), pois := mkFault 0x0A (detailOf i 0 0x6F) }

/-- Element `i` of some bytes, with poison. -/
def elemOf (bs : List (Byte × Bool)) (n i : Nat) : Nat × Bool :=
  let b := (bs.drop (n * i)).take n
  (ofBytes (b.map (·.1)), b.any (·.2))

/-- A state's two words in one element: S low, σ and n high. -/
def stateElem (s odd : Nat) : BitVec 64 := BitVec.ofNat 64 (odd * 2 ^ 32 + s)

/-- One block of a compressed contribution: what is sent, and the new residuals, which are exact (R100, R121). -/
def cmpBlock (xs es : List (Nat × Bool)) : List CElem × List Byte × Bool :=
  let cs := (xs.zip es).map fun p => (fmtF32.round .rne false (Num.add .rne (numF32 p.1.1) (numF32 p.2.1))).1
  let enc := (blkFmt .bx4).encode .rne cs
  let qs := enc.2.2.map fun x => (blkFmt .bx4).decode enc.1 enc.2.1 x.1
  let p := (xs ++ es).any (·.2)
  (qs.map fun q => { v := BitVec.ofNat 64 (fmtF32.bits q), p := p },
    (cs.zip qs).flatMap fun x => toBytes 4 (fmtF32.bits (Num.add .rne x.1 x.2.neg)), p)

/-- Read an entry's table pair; poison aborts (R195, R196; DEDUCED log 31). -/
def readPair (k ctx i : Nat) (img : BitVec 512) : Mx (BitVec 4320) := do
  if tPair img = 0 then pure 0
  else
    let bs ← readRange (chapCrier i) (.crier k) ctx (tTba img) 540 8
    check (!bs.any (·.2)) 0x0A 0x6F 0 i
    pure (BitVec.ofNat 4320 (ofBytes (bs.map (·.1))))

/-- Read a rank's contribution, and with CMP write its residuals (R121, R190, R193, R196). A table pair that breaks R118 is no table
(DESIGN CHOICE log 91). -/
def readContrib (k ctx i : Nat) (img : BitVec 512) (tab : BitVec 4320) : Mx (List CElem) := do
  let n := tNel img
  let bs ← readRange (chapCrier i) (.crier k) ctx (tSrc img) (contribBytes img) 64
  let f32 (j : Nat) : Nat × Bool :=
    if tOp img = 2 then let r := elemOf bs 2 j; (r.1 * 65536, r.2) else elemOf bs 4 j
  if tCmp img then
    let es ← readRange (chapCrier i) (.crier k) ctx (tEfb img) (4 * n) 64
    let bks := (List.range (n / 32)).map fun b =>
      cmpBlock ((List.range 32).map fun j => f32 (32 * b + j)) ((List.range 32).map fun j => elemOf es 4 (32 * b + j))
    bks.zipIdx.forM fun b => writeRange (chapCrier i) (.crier k) ctx (tEfb img + 128 * b.2) 64 b.1.2.1 b.1.2.2
    pure (bks.flatMap (·.1))
  else
    pure ((List.range n).map fun j =>
      let x := f32 j
      if tOp img = 6 then
        let o := elemOf (bs.drop (4 * n)) 4 j
        { v := stateElem x.1 o.1, p := x.2 || o.2 }
      else if tOp img = 5 then
        let t := if tPair img ≠ 0 ∧ tabPairOk tab then some tab else none
        let r := tmUpdate (tTms img) t { v := some Num.zero, sigma := 0, n := 0 } (numF32 x.1)
        { v := stateElem r.s r.odd, p := x.2 }
      else { v := BitVec.ofNat 64 x.1, p := x.2 })

/-! ## Firing and aborting (R191, R192, R195) -/

/-- A record of a crier about a tile (R195). -/
def State.crierRec (s : State) (ctx i : Nat) (f : FaultInfo) : FRec :=
  { cls := f.cls, ctx := ctx, src := 8, async := true, level := f.level, reason := f.reason, job := 0, point := w64 i,
    place := placeOf none, addr := f.addr, detail := f.detail, clock := s.clock }

/-- HALTED on an entry's completion frontier; where it cannot be reached a second record follows (R195, R428), and where a hold
delays the access it waits among the late ones. -/
def State.crierHalt (s : State) (ctx i : Nat) (cfw : Nat) : State :=
  let a : Agent := .crier (crierOf ctx i)
  if cfw = 0 then s
  else
    match tryRun s (haltWord a ctx cfw [] none) with
    | (some (.ok _), s) => s
    | (some (.error f), s) => s.fqWrite (s.crierRec ctx i { f with addr := w64 cfw })
    | (none, s) => { s with late := s.late ++ [.halt a { core := 0, xs := false } ctx 0 cfw 8 (w64 i) [] none] }

/-- The firing that an entry sends (R195, R198). -/
def State.firingOf (s : State) (ctx : Nat) (img : BitVec 512) (tab : BitVec 4320) (es : List CElem)
    (fault : Option (BitVec 8)) : Firing :=
  { pkg := Fin.ofNat 256 s.pkg.toNat, sig := (s.group ctx (tGrp img)).sig, op := Fin.ofNat 16 (tOp img),
    nel := BitVec.ofNat 16 (tNel img), cmp := tCmp img, pair := Fin.ofNat 8 (tPair img), shp := BitVec.ofNat 32 (tShp img),
    fault := fault, exitTab := tab, elems := es }

/-- Send a firing to the other members. -/
def State.sendFiring (s : State) (ctx i g : Nat) (f : Firing) : State :=
  if (s.group ctx g).members.length ≤ 1 then s else s.send (.firing ctx i f)

/-- The instance is aborted here: no longer pending, HALTED on CFW, one record; the other members are told (R195). -/
def State.abortTile (s : State) (ctx i : Nat) (f : FaultInfo) : State :=
  let img := (s.tile ctx i).img
  let s := s.onTile ctx i fun t => { t with armed := none, fired := none }
  let s := s.sendFiring ctx i (tGrp img) (s.firingOf ctx img 0 [] (some f.cls))
  (s.crierHalt ctx i (tCfw img)).fqWrite (s.crierRec ctx i f)

/-- An entry fires: its contribution is read, and its firing leaves. A hold leaves it armed (R191, R193). -/
def State.fireTile (s : State) (ctx i : Nat) : State :=
  let img := (s.tile ctx i).img
  let k := crierOf ctx i
  match (do
      let tab ← readPair k ctx i img
      let es ← readContrib k ctx i img tab
      pure (tab, es) : Mx (BitVec 4320 × List CElem)) s with
  | .ok r s =>
    let f := s.firingOf ctx img r.1 r.2 none
    (s.onTile ctx i fun t => { t with armed := none, fired := some f }).sendFiring ctx i (tGrp img) f
  | .error (.fault f) s => s.abortTile ctx i f
  | .error _ _ => s

/-- The trigger frontier of an armed entry: whether it fires (R191); HALTED with the condition not met aborts (R195, R325). -/
def tileTrigger (ctx i gen : Nat) (img : BitVec 512) : Mx Bool := do
  if tFwa img = 0 then pure true
  else
    let w ← frontRead (frontCrier i) (.crier (crierOf ctx i)) ctx (tFwa img)
    if fld w 48 8 = gen ∧ (fwClosed w || tFth img ≤ fwCount w) then pure true
    else if fwHalted w then raise 0x0C 0x6F 0 i
    else pure false

/-- TILE_FIRE: an armed entry whose trigger is met fires (R191, R192). -/
def execTileFire (ctx : Fin 64) (tile : Fin 4096) (s : State) : Out :=
  let t := s.tile ctx.val tile.val
  match t.armed with
  | none => .next s
  | some gen =>
    if !s.crierTakes (crierOf ctx.val tile.val) then .next s
    else
      match tileTrigger ctx.val tile.val gen t.img s with
      | .ok true s => .next (s.fireTile ctx.val tile.val)
      | .ok false s => .next s
      | .error (.fault f) s => .next (s.abortTile ctx.val tile.val f)
      | .error _ _ => .next s

/-! ## CQ entries at the crier (R199, R202-R204) -/

/-- What a crier answers to a command: it is accepted, with the new state, or refused. -/
abbrev Ack := Except FaultInfo State

/-- A refusal about a tile. -/
def nack (cls cause i : Nat) : Ack := .error (mkFault cls (detailOf i 0 cause))

/-- `ttset` at the crier (R202, steps 4 to 9). An entry that is armed and has not fired stays armed (DEDUCED log 78). -/
def ackTtset (ctx : Nat) (e : Entry) (s : State) : Ack :=
  let i := e.a.v.toNat
  let img := e.ta.getD 0
  if (s.tile ctx i).pending then nack 2 0x64 i
  else
    match imageFail (s.group ctx (tGrp img)).defined img with
    | some f => nack f.1 f.2 i
    | none => .ok (s.onTile ctx i fun t => { t with img := img })

/-- `tready` and `cred` at the crier (R191, R203, R204). An entry that is armed and has not fired takes the new generation
(DEDUCED log 78). -/
def ackFire (gen : Nat) (cred : Bool) (ctx : Nat) (e : Entry) (s : State) : Ack :=
  let i := e.a.v.toNat
  let t := s.tile ctx i
  if t.img = 0 then nack 2 0x62 i
  else if t.pending then nack 2 0x64 i
  else if cred && !credOk t.img then nack 2 0x68 i
  else
    let s := s.onTile ctx i fun t => { t with armed := some gen }
    .ok (if tFwa t.img = 0 then s.fireTile ctx i else s)

def ackTready (ctx : Nat) (e : Entry) (s : State) : Ack := ackFire e.b.v.toNat false ctx e s
def ackCred (ctx : Nat) (e : Entry) (s : State) : Ack := ackFire 0 true ctx e s

/-! ## Reduction and landing (R120, R193, R195, R196) -/

/-- Why a member's firing aborts this member's instance: its class (R195). -/
def firingRefuses (members : List Nat) (mine f : Firing) : Option Nat :=
  if !members.contains f.pkg.val then some 2
  else if f.sig ≠ mine.sig ∨ f.op ≠ mine.op ∨ f.nel ≠ mine.nel ∨ f.cmp ≠ mine.cmp ∨ f.pair ≠ mine.pair ∨ f.shp ≠ mine.shp then
    some 2
  else f.fault.map BitVec.toNat

/-- Combine values in rank order (R120). -/
def foldRanks (f : Num → Num → Num) : List Num → Num
  | [] => Num.zero
  | x :: xs => xs.foldl f x

/-- Merge states in rank order with wide counts (R116, R120, R196). -/
def foldStates (tms : Word) : List (Option Num × Nat) → Option Num × Nat
  | [] => (none, 0)
  | x :: xs => xs.foldl (fun a b =>
      (match a.1, b.1 with
       | some va, some vb => some (tmCombine tms va a.2 vb b.2).1
       | _, _ => none, a.2 + b.2)) x

/-- The f32 bits of one result element from the ranks' elements (R190, R196). A table pair that breaks R118 is no table, so that an
exit which needs one gives the quiet NaN; a maximum, minimum or sum of one rank passes through the same rounding to f32 as one of
several (DESIGN CHOICE log 91). -/
def reduceElem (img : BitVec 512) (tab : BitVec 4320) (es : List CElem) : Nat :=
  let bits (e : CElem) : Nat := e.v.toNat % 2 ^ 32
  let nums := es.map fun e => numF32 (bits e)
  match tOp img with
  | 0 => (es.map bits).headD 0
  | 3 => fmtF32.bits (foldRanks Num.max nums)
  | 4 => fmtF32.bits (foldRanks Num.min nums)
  | 5 | 6 =>
    let r := foldStates (tTms img) (es.map fun e =>
      let l := tmUnpack (bits e) (e.v.toNat / 2 ^ 32)
      (l.v, l.n))
    let t := if tPair img ≠ 0 ∧ tabPairOk tab then some tab else none
    (match r.1 with
     | none => qnan .f32
     | some v =>
       if 2 ^ 64 ≤ r.2 then qnan .f32
       else match tmExit (tTms img) t fmtF32 .rne false v r.2 with
         | some o => fmtF32.bits o.1
         | none => qnan .f32)
  | _ => fmtF32.bits (foldRanks (fun a b => (fmtF32.round .rne false (Num.add .rne a b)).1) nums)

/-- The result: each element's bits, and its poison: that of every contribution which feeds it, and a copy takes rank 0's alone
(R122, R190). -/
def reduceAll (img : BitVec 512) (fs : List Firing) : List (Nat × Bool) :=
  let tab := (fs.head?.map (·.exitTab)).getD 0
  (List.range (tNel img)).map fun j =>
    let es := fs.map fun f => f.elems.getD j { v := 0, p := false }
    (reduceElem img tab es, (if tOp img = 0 then es.take 1 else es).any (·.p))

/-- Write the result sector by sector, each joining the digest as it lands; a hold takes all of it back (R193, R207). -/
def landResult (k ctx i : Nat) (img : BitVec 512) (res : List (Nat × Bool)) : Mx Unit :=
  (List.range ((4 * tNel img + 63) / 64)).forM fun b => do
    let here := (res.drop (16 * b)).take 16
    let bs := here.flatMap fun r => toBytes 4 r.1
    let p := here.any (·.2)
    let va := tDst img + 64 * b
    vwrite (chapCrier i) (.crier k) ctx va 64 bs p
    modS (·.digestStore ctx (storedBytes va bs p))

/-- The instance is complete here: COUNT of CFW rises by 1 as a release at `.pkg`, once the crier's writes to other packages are
acknowledged (R193, R314, R333). -/
def State.finishTile (s : State) (ctx i : Nat) : State :=
  let img := (s.tile ctx i).img
  let k := crierOf ctx i
  let gone (s : State) : State := s.onTile ctx i fun t => { t with fired := none, landed := false }
  if tCfw img = 0 then gone s
  else if 0 < (s.crier k).remoteOut then s
  else
    match frontRmw (frontCrier i) (.crier k) ctx (tCfw img) [.bump] s with
    | .ok r s' => gone (s'.tagRelease 0 .pkg r.2)
    | .error (.fault f) s' => (gone s').fqWrite (s'.crierRec ctx i f)
    | .error _ _ => s

/-- The result lands here (R193); a fault of the DST write halts this member's CFW only (R195). -/
def State.landTile (s : State) (ctx i : Nat) (res : List (Nat × Bool)) : State :=
  let img := (s.tile ctx i).img
  match landResult (crierOf ctx i) ctx i img res s with
  | .ok _ s' => (s'.onTile ctx i fun t => { t with landed := true }).finishTile ctx i
  | .error (.fault f) s' =>
    ((s'.onTile ctx i fun t => { t with fired := none }).crierHalt ctx i (tCfw img)).fqWrite (s'.crierRec ctx i f)
  | .error _ _ => s

/-- COLLECTIVE_REDUCE: the firings of the other members that have come; all of them complete the instance (R191-R196). With
every port down none comes (R423). -/
def execCollectiveReduce (ctx : Fin 64) (tile : Fin 4096) (others : List Firing) (s : State) : Out :=
  let t := s.tile ctx.val tile.val
  match t.fired with
  | none => .next s
  | some mine =>
    if t.landed then .next (s.finishTile ctx.val tile.val)
    else
      let members := (s.group ctx.val (tGrp t.img)).members
      let others := if s.fabricUp then others.filter fun f => f.pkg.val ≠ s.pkg.toNat else []
      match others.findSome? (firingRefuses members mine) with
      | some cls => .next (s.abortTile ctx.val tile.val (mkFault cls (detailOf tile.val 0 0x6F)))
      | none =>
        let fs := members.map fun p => if p = s.pkg.toNat then some mine else others.find? (·.pkg.val == p)
        if fs.all Option.isSome then .next (s.landTile ctx.val tile.val (reduceAll t.img (fs.filterMap id)))
        else .next s

/-! ## Replica groups (R198) -/

/-- Chapter 8's reading of a refusal by `Mem` at a list or an image (R201). -/
def chap8 : Chap := fun f => f.withDetail (detailOf 0 0 (if f.cls = 4 then 0x63 else 0x5F))

/-- A checked operand of chapter 8. -/
def chk8 (q : SeqId) (o : SOpd) : Mx Word := chkBy q o 0x0A 0x66

/-- The position of the second of two equal package numbers. -/
def dupAt (l : List Nat) : Option Nat := (List.range l.length).find? fun j => (l.take j).contains (l.getD j 0)

/-- The group has a pending entry or an assay point in progress (R198). -/
def Ctx.groupBusy (c : Ctx) (g : Nat) : Bool :=
  (c.group g).point.isSome || c.tiles.any fun t => t.2.pending && tGrp t.2.img == g

/-- The first nonzero reserved byte of a list header. -/
def headerByte (h : Nat) : Option Nat := (List.range 6).findSome? fun j => if fld h (16 + 8 * j) 8 ≠ 0 then some (2 + j) else none

/-- `cgrp` (R198). -/
def execCgrp (d a : Reg) (g : Fin 64) (s : State) : Out :=
  let q := s.focus
  let c := q.core.val
  runNext q (do
    let va := (← chk8 q (.reg a)).toNat
    let ctx := (← getS).ctxOf c
    let h ← vread chap8 (.core c) ctx va 8 8
    check (!h.2) 0x0A 0x66
    let hdr := ofBytes h.1
    match headerByte hdr with
    | some j => raise 3 0x60 j
    | none => pure ()
    let m := fld hdr 0 16
    check (1 ≤ m && m ≤ 256) 2 0x6B
    let l ← readRange chap8 (.core c) ctx (va + 8) m 1
    check (!l.any (·.2)) 0x0A 0x66
    let ps := l.map fun b => b.1.toNat
    match dupAt ps with
    | some j => raise 2 0x6B (8 + j)
    | none => pure ()
    check (ps.contains (← getS).pkg.toNat) 2 0x6B
    check (!((← getS).ctx ctx).groupBusy g.val) 2 0x6C
    modS fun s => s.onGroup ctx g.val fun k =>
      { k with members := ps, sig := crcBytes (h.1 ++ l.map (·.1)), digest := 0, pois := false,
               key0 := (s.ctx ctx).k0, key1 := (s.ctx ctx).k1 }
    wr q d (w64 (ps.idxOf (← getS).pkg.toNat))) s

/-! ## The assay (R205-R210) -/

/-- A region overlaps a run of bytes. -/
def Region.meets (r : Region) (base len : Nat) : Bool := r.base < base + len && base < r.base + r.len

/-- `asyreg` (R205). INDEX of the fault of a region beyond the sixteen slots is 16 (DESIGN CHOICE log 90). -/
def execAsyreg (a : Reg) (b : SOpd) (g : Fin 64) (s : State) : Out :=
  let q := s.focus
  runNext q (do
    let va := (← chk8 q (.reg a)).toNat
    let n := (← chk8 q b).toNat
    let ctx := (← getS).ctxOf q.core.val
    check (n == 0 || ((← getS).group ctx g.val).defined) 2 0x65
    check (va % 64 == 0 && n % 64 == 0) 4 0x63
    check (n ≤ 2 ^ 40) 2 0x67
    let rs := ((← getS).ctx ctx).regions
    if n = 0 then
      match rs.find? fun (r : Nat × Region) => r.2.base == va with
      | none => raise 2 0x6A
      | some r => modS (·.onCtx ctx fun c => { c with regions := sdel c.regions r.1 })
    else
      match rs.find? fun (r : Nat × Region) => r.2.meets va n with
      | some r => raise 2 0x6A r.1
      | none =>
        match (List.range 16).find? fun k => !shas rs k with
        | none => raise 2 0x6A 16
        | some k => modS (·.onCtx ctx fun c => { c with regions := sput c.regions k { base := va, len := n, group := g.val } })) s

/-- Stand at an assay point. -/
def standAssay (q : SeqId) : Mx Unit := modS fun s => s.onSeqr q fun x => { x with wait := .assay, waitSince := s.clock }

/-- `asyfence`: the snapshot of the digest leaves for every member, and the sequencer waits for the point's end (R208). With every
port down nothing leaves (R423, R426). -/
def execAsyfence (d : Reg) (g : Fin 64) (s : State) : Out :=
  let q := s.focus
  let c := q.core.val
  let _ := d
  runSeq q (do
    let ctx := (← getS).ctxOf c
    check ((← getS).group ctx g.val).defined 2 0x65
    implicitCommit c
    let k := (← getS).group ctx g.val
    let me := (q, (← getS).instOf c)
    match k.point with
    | some (o, n, _, _) => if (o, n) = me then standAssay q else stallOn .pointBusy
    | none =>
      modS fun s => s.onGroup ctx g.val fun k => { k with point := some (q, me.2, k.digest, k.pois) }
      if 1 < k.members.length then
        modS fun s => if s.fabricUp then s.send (.assay ctx g.val k.digest k.pois) else s
      standAssay q) s

/-- The digest that more than half of all members hold with clear poison (R208). -/
def majority (posts : List (BitVec 128 × Bool)) : Option (BitVec 128) :=
  (posts.find? fun p => !p.2 && decide (posts.length < 2 * posts.countP fun o => !o.2 && o.1 == p.1)).map (·.1)

/-- The divergent ranks (R208). -/
def verdictOf (posts : List (BitVec 128 × Bool)) : List Nat :=
  match majority posts with
  | none => List.range posts.length
  | some v => (posts.zipIdx.filter fun p => p.1.2 || p.1.1 != v).map (·.2)

/-- Gated launches of a group go on, or are dropped (R209). -/
def State.settleGates (s : State) (ctx g : Nat) (pass : Bool) : State :=
  let mine (p : Pending) : Bool := p.enq.ctx == ctx && p.gate == some g
  { s with launches := if pass then s.launches.map fun p => if mine p then { p with gate := none } else p
      else s.launches.filter fun p => !mine p }

/-- The register of an `asyfence` that still waits at this point: on the same group, in the same run of the task that began it
(R208). -/
def State.assayDest (s : State) (ctx : Nat) (g : Fin 64) (q : SeqId) (inst : Nat) : Option Reg :=
  let x := s.seqr q
  match x.wait, x.cur with
  | .assay, some (.asyfence d h) =>
    if h = g ∧ s.ctxOf q.core.val = ctx ∧ s.instOf q.core.val = inst then some d else none
  | _, _ => none

/-- The group once a point is recorded: `v` the divergent ranks, `here` whether this package is among them, `dg` its snapshot. Where
it passes, the digest keeps only what came after the snapshot, and the poison flag is cleared (R208; DEDUCED log 60). -/
def Group.record (k : Group) (k0 : BitVec 64) (k1 : BitVec 128) (v : List Nat) (here : Bool) (dg : BitVec 128) : Group :=
  { k with points := k.points + 1, verdict := BitVec.ofNat 256 ((v.map (2 ^ ·)).sum), lastCount := v.length, faulted := here,
           point := Option.none, key0 := k0, key1 := k1, digest := if here then k.digest else k.digest - dg, pois := here && k.pois }

/-- ASSAY_POINT_END: with every member's digest, the point is recorded, and then passes or faults here (R208, R209; DEDUCED log 60).
With every port down no other member's comes (R423). -/
def execAssayPointEnd (ctx g : Fin 64) (others : List AssayMsg) (s : State) : Out :=
  let k := s.group ctx.val g.val
  match k.point with
  | none => .next s
  | some (q, inst, dg, pz) =>
    let others := if s.fabricUp then others else []
    let posts := k.members.map fun p =>
      if p = s.pkg.toNat then some (dg, pz) else (others.find? (·.pkg.val == p)).map fun o => (o.digest, o.poison)
    if !posts.all Option.isSome then .next s
    else
      let v := verdictOf (posts.filterMap id)
      let n := v.length
      let here := v.contains (k.members.idxOf s.pkg.toNat)
      let s := s.onGroup ctx.val g.val fun k => k.record (s.ctx ctx.val).k0 (s.ctx ctx.val).k1 v here dg
      let s := s.settleGates ctx.val g.val (!here)
      match s.assayDest ctx.val g q inst with
      | none => .next s
      | some d =>
        if pz then .next (s.precise q (mkFault 0x0A (detailOf n (v.headD 0) 0x6E)))
        else if here then .next (s.precise q (mkFault 0x12 (detailOf n (v.headD 0) 0x6D)))
        else .next (((s.setReg q d { v := w64 n, p := false }).acquire q.core.val .pod).advance q)

/-- What `asyget` reads (R210). -/
def Group.sel (k : Group) (sel : Nat) : Word :=
  if sel < 2 then k.digest.extractLsb' (64 * sel) 64
  else if sel < 6 then k.verdict.extractLsb' (64 * (sel - 2)) 64
  else w64 (k.points.toNat * 2 ^ 32 + k.lastCount % 2 ^ 16 * 2 ^ 16 + k.pois.toNat * 2 + k.faulted.toNat)

/-- `asyget` (R210). -/
def execAsyget (d : Reg) (a : SOpd) (g : Fin 64) (s : State) : Out :=
  let q := s.focus
  runNext q (do
    let n := (← chk8 q a).toNat
    check (n ≤ 6) 2 0x67
    let k := (← getS).group ((← getS).ctxOf q.core.val) g.val
    check k.defined 2 0x65
    wr q d (k.sel n)) s

/-! ## Crier firmware (R211, R395) -/

/-- Stand at the load of a crier, named by `waitArg`. -/
def standCrier (q : SeqId) (k : Nat) : Mx Unit :=
  modS fun s => s.onSeqr q fun x => { x with wait := .crier, waitSince := s.clock, waitArg := k }

/-- `crload`: the crier drains, and the sequencer waits until it resumes; a crier that another sequencer, or an earlier task, is
loading answers 2 (R211). -/
def execCrload (d a : Reg) (b : SOpd) (s : State) : Out :=
  let q := s.focus
  let c := q.core.val
  runSeq q (do
    let va := (← chk8 q (.reg a)).toNat
    let n := (← chk8 q b).toNat
    check (n ≤ 47) 2 0x67
    let ctx := (← getS).ctxOf c
    check ((← getS).ctx ctx).mgmt 6 0x69
    implicitCommit c
    let k := (← getS).crier n
    let inst := (← getS).instOf c
    match k.load with
    | some (o, i, _, _) =>
      if o = q ∧ i = inst then standCrier q n
      else
        wr q d 2
        modS (·.advance q)
    | none =>
      modS fun s => s.setCrier n { k with load := some (q, inst, ctx, va) }
      standCrier q n) s

/-- A crier still has instances to complete (R211). -/
def State.crierBusy (s : State) (k : Nat) : Bool :=
  s.ctxs.any fun c => c.2.tiles.any fun t => t.2.fired.isSome && crierOf c.1 t.1 == k

/-- A run of bytes of an image, with no poison. -/
def imageBytes (c ctx va n : Nat) : Mx (List Byte) := do
  let bs ← readRange chap8 (.core c) ctx va n 1
  check (!bs.any (·.2)) 0x0A 0x66
  pure (bs.map (·.1))

/-- Load and verify an image: the status, and with status 0 its digest and SVN (R211, R395; DEDUCED log 31). -/
def verifyImage (c ctx va : Nat) : Mx (Nat × BitVec 256 × BitVec 16) := do
  let h ← imageBytes c ctx va 16
  let len := ofBytes (h.take 8)
  let hdr := ofBytes (h.drop 8)
  if len = 0 ∨ 2 ^ 20 < len ∨ fld hdr 20 44 ≠ 0 then pure (3, 0, 0)
  else
    let code ← imageBytes c ctx (va + 16) len
    let sig ← imageBytes c ctx (va + 16 + len) 384
    pure ((← getS).syc.judge 2 (h ++ code) hdr sig)

/-- The register of the `crload` that still waits for crier `k`: in the same run of the task that began the load (R211). -/
def State.crloadDest (s : State) (k : Nat) (q : SeqId) (inst : Nat) : Option Reg :=
  let x := s.seqr q
  match x.wait, x.cur with
  | .crier, some (.crload d _ _) => if x.waitArg = k ∧ s.instOf q.core.val = inst then some d else none
  | _, _ => none

/-- CRIER_RESUME: the drained crier loads and verifies its image, and goes on with it or with the one before (R211). -/
def execCrierResume (k : Fin 48) (s : State) : Out :=
  match (s.crier k.val).load with
  | none => .next s
  | some (q, inst, ctx, va) =>
    if s.crierBusy k.val then .next s
    else
      let idle (s : State) : State := s.setCrier k.val { s.crier k.val with load := none }
      match verifyImage q.core.val ctx va s with
      | .error (.stall _) _ => .next s
      | .error (.fault f) s =>
        .next (if (s.crloadDest k.val q inst).isSome then (idle s).precise q f else idle s)
      | .error (.faultAt _ _) s => .next (idle s)
      | .ok r s =>
        let s := idle s
        let s := if r.1 = 0 then s.setCrier k.val { s.crier k.val with digest := r.2.1, svn := r.2.2, verified := true } else s
        match s.crloadDest k.val q inst with
        | none => .next s
        | some d => .next ((s.setReg q d { v := w64 r.1, p := false }).advance q)

end Sys2Proof.Machine
end

