-- ==== Sys2Proof/Machine/Errors.lean ====
section
/-! DEFINITION. The error memory: the mismatch histograms, the HBM channels' classifiers, live repair of channels and
lanes, and uncorrectable errors (R302, R412, R413, R417). -/

namespace Sys2Proof.Machine

open Sys2Proof

/-! ## Histograms (R412) -/

/-- The key of a unit: KIND and INDEX. -/
def histKey (kind index : Nat) : Nat := kind * 2 ^ 24 + index % 2 ^ 24

/-- The count at which a unit becomes weak; for a Duthar lane, within 2^40 flits. -/
def histThreshold : Nat → Nat
  | 1 => 64
  | 2 => 16
  | 3 => 4
  | _ => 32

/-- The units that share spares: a Duthar port, a UCIe module, a Loom, a core. -/
def spareGroup (kind index : Nat) : Nat :=
  match kind with
  | 1 => index / 5
  | 2 => index / 64
  | 3 => index / 264
  | _ => index / 98

/-- The spares of such a group. -/
def spareCount (kind group : Nat) : Nat :=
  match kind with
  | 1 => 1
  | 2 => Config.ucieSpares group
  | 3 => 8
  | _ => 2

/-- The UCIe modules of a package: 24 on each of 6 compute dies, 12 on each of 12 HBM4 base dies, 16 on each of 2 I/O dies (R10). -/
def ucieModules : Nat := 24 * 6 + 12 * 12 + 16 * 2

/-- The unit stands in the package (R10, R412; the numbers of UCIe lanes DESIGN CHOICE log 32). -/
def unitOk (kind index : Nat) : Bool :=
  match kind with
  | 1 => index < 48 * 5
  | 2 => index < 64 * ucieModules
  | 3 => index < 192 * 264
  | 4 => index < 768 * 98
  | _ => false

def State.histOf (s : State) (kind index : Nat) : Hist := sget s.syc.hist (histKey kind index) Hist.reset
def State.setHist (s : State) (kind index : Nat) (h : Hist) : State :=
  { s with syc := { s.syc with hist := sset s.syc.hist (histKey kind index) h Hist.reset } }

/-- Spares of a group that weak or spared units have taken. -/
def State.sparesUsed (s : State) (kind group : Nat) : Nat :=
  (s.syc.hist.filter fun (p : Nat × Hist) =>
    p.1 / 2 ^ 24 = kind ∧ spareGroup kind (p.1 % 2 ^ 24) = group ∧ (p.2.state = 1 ∨ p.2.state = 2)).length

/-- Count one mismatch of a unit, saturating. -/
def Hist.bump (h : Hist) : Hist := { h with count := if h.count = BitVec.allOnes 32 then h.count else h.count + 1 }

/-- A mismatch of a unit of a kind: counted, and for a Duthar lane entered with the number of its flit. -/
def Hist.mismatch (h : Hist) (kind flit : Nat) : Hist :=
  if kind = 1 then { h.bump with recent := (flit :: h.recent).take (histThreshold 1) } else h.bump

/-- The unit has reached its threshold: a count, and of a Duthar lane a rate per 2^40 flits (R412). -/
def Hist.weak (h : Hist) (kind : Nat) : Bool :=
  if kind = 1 then h.recent.length == histThreshold 1 && h.recent.headD 0 - h.recent.getLastD 0 < 2 ^ 40
  else histThreshold kind ≤ h.count.toNat

/-- A mismatch of a unit: counted; at its threshold a healthy unit becomes weak with CAUSE 0xC2, or stays in use at STATE 3
with CAUSE 0xC3 when no spare is left. The notice of a lane that has a spare waits for its switch (R412, R418). -/
def State.mismatch (s : State) (kind index : Nat) : State :=
  let h := (s.histOf kind index).mismatch kind (Config.flits index s.clock)
  let spare := s.sparesUsed kind (spareGroup kind index) < spareCount kind (spareGroup kind index)
  if h.state ≠ 0 ∨ !h.weak kind then s.setHist kind index h
  else if spare then
    let s := s.setHist kind index { h with state := 1 }
    if kind ≤ 2 then s else s.mgmtNotice 0xC2 (histKey kind index)
  else (s.setHist kind index { h with state := 3 }).mgmtNotice 0xC3 (histKey kind index)

/-- LANE_SPARE_SWITCH: the spare lane takes the weak lane's place, and then the notice is written (R417, R418). -/
def execLaneSpareSwitch (kind : Fin 2) (index : Fin 16777216) (s : State) : Out :=
  let k := kind.val + 1
  let h := s.histOf k index.val
  if h.state = 1 then .next ((s.setHist k index.val { h with state := 2 }).mgmtNotice 0xC2 (histKey k index.val))
  else .next s

/-- Weak Loom columns and array banks of a die are spared at its warm reset (R412, R415). -/
def State.spareUnits (s : State) (d : Nat) : State :=
  let on_ (key : Nat) : Bool :=
    (key / 2 ^ 24 == 3 && key % 2 ^ 24 / 264 / 32 == d) || (key / 2 ^ 24 == 4 && key % 2 ^ 24 / 98 / 128 == d)
  { s with syc := { s.syc with hist := s.syc.hist.map fun (p : Nat × Hist) =>
      if (on_ p.1 && p.2.state == 1 : Bool) then (p.1, { p.2 with state := 2 }) else p } }

/-! ## The classifier of an HBM channel (R413) -/

/-- Distinct numbers of a list. -/
def distinct (l : List Nat) : Nat := l.eraseDups.length

/-- What a channel's errors amount to. -/
inductive ErrClass
  | bank | row | column | cell | none
  deriving DecidableEq, Repr

/-- The class of an error at a place, by the table that holds it already. -/
def classify (t : List ClassEnt) (bank row col : Nat) : ErrClass :=
  let b := t.filter fun e => e.bank = bank
  if 4 ≤ distinct (b.map (·.row)) ∧ 4 ≤ distinct (b.map (·.col)) then .bank
  else if 3 ≤ distinct ((b.filter fun e => e.row = row).map (·.col)) then .row
  else if 3 ≤ distinct ((b.filter fun e => e.col = col).map (·.row)) then .column
  else if (b.any fun e => e.row = row ∧ e.col = col ∧ 2 ≤ e.count) then .cell
  else .none

/-- The entry that has gone longest without an error leaves a full table (DESIGN CHOICE log 32). -/
def dropOldest (t : List ClassEnt) : List ClassEnt :=
  let oldest := t.foldl (fun m (e : ClassEnt) => Nat.min m e.at_) (t.headD { bank := 0, row := 0, col := 0, count := 0, at_ := 0 }).at_
  match t.findIdx? fun e => e.at_ = oldest with
  | some i => listDel t i
  | none => t

/-- Enter an error into the table. -/
def noteError (t : List ClassEnt) (bank row col clock : Nat) : List ClassEnt :=
  if t.any fun e => e.bank = bank ∧ e.row = row ∧ e.col = col then
    t.map fun (e : ClassEnt) => if e.bank = bank ∧ e.row = row ∧ e.col = col then { e with count := e.count + 1, at_ := clock } else e
  else (if 64 ≤ t.length then dropOldest t else t) ++ [{ bank := bank, row := row, col := col, count := 1, at_ := clock }]

def State.classifOf (s : State) (chan : Nat) : List ClassEnt := sget s.syc.classif chan []
def State.setClassif (s : State) (chan : Nat) (t : List ClassEnt) : State :=
  { s with syc := { s.syc with classif := sset s.syc.classif chan t [] } }

/-- A classified sub-array is counted (R412; its number and STATE DESIGN CHOICE log 32). -/
def State.subArray (s : State) (chan bank : Nat) (st : BitVec 2) : State :=
  let i := chan * 64 + bank % 64
  s.setHist 5 i { (s.histOf 5 i).bump with state := st }

/-- A corrected error of an HBM channel: the class of its place decides the action (R413). -/
def State.hbmError (s : State) (chan bank row col : Nat) : State :=
  let s := s.setClassif chan (noteError (s.classifOf chan) bank row col s.clock)
  match classify (s.classifOf chan) bank row col with
  | .bank => (s.subArray chan bank 3).mgmtNotice 0xC5 (chan * 64 + bank % 64)
  | .row =>
    let s := s.setClassif chan ((s.classifOf chan).filter fun e => !(e.bank = bank ∧ e.row = row : Bool))
    { s.subArray chan bank 1 with chanHeld := nins s.chanHeld chan }
  | .column => (s.subArray chan bank 3).mgmtNotice 0xC6 (chan * 64 + bank % 64)
  | .cell => s
  | .none => s

/-- CORRECTED_ERROR (R412, R413). -/
def execCorrectedError (e : CorrErr) (s : State) : Out :=
  match e with
  | .unit kind index => .next (if unitOk kind.val index.val then s.mismatch kind.val index.val else s)
  | .hbm chan bank row col => .next (s.hbmError chan.val bank row col)

/-- CLASSIFIER_ENTRY_EXPIRY: an entry with no error for 2^40 clocks is forgotten (R413). -/
def execClassifierEntryExpiry (chan : Fin 384) (k : Fin 64) (s : State) : Out :=
  match (s.classifOf chan.val)[k.val]? with
  | none => .next s
  | some e => .next (if 2 ^ 40 ≤ s.clock - e.at_ then s.setClassif chan.val (listDel (s.classifOf chan.val) k.val) else s)

/-- HBM_CHANNEL_REPAIR_END: the held requests go on, and repaired sub-arrays are spared (R412, R417). -/
def execHbmChannelRepairEnd (chan : Fin 384) (s : State) : Out :=
  if !s.chanHeld.contains chan.val then .next s
  else
    let mine (key : Nat) : Bool := key / 2 ^ 24 == 5 && key % 2 ^ 24 / 64 == chan.val
    .next ({ s with
      chanHeld := ndel s.chanHeld chan.val,
      syc := { s.syc with hist := s.syc.hist.map fun (p : Nat × Hist) =>
        if (mine p.1 && p.2.state == 1 : Bool) then (p.1, { p.2 with state := 2 }) else p } }).lateResume

/-! ## Uncorrectable errors (R302) -/

/-- Some storage of this package stands behind the address. -/
def State.stored (s : State) (pa : Nat) : Bool := s.isLocal pa && paIdx pa ≠ 15

/-- Poison a sector of memory. -/
def State.poisonSector (s : State) (pa : Nat) : State := { s with mpois := nins s.mpois (s.secPlace pa) }

/-- The storage that an error names exists. -/
def State.errAt (s : State) : ErrPlace → Bool
  | .mem pa => s.stored pa.toNat
  | .l1 c pa =>
    let l := (s.core c.val).l1Of (lineOf pa.toNat)
    let k := pa.toNat % 128 / 64
    l.valid.getLsbD k || l.dirty.extractLsb' (64 * k) 64 ≠ 0
  | .cell .. => true
  | .vgran .. => true
  | .cmpBlock pa => s.stored pa.toNat && fld (s.fatEntry pa.toNat) 3 1 == 1
  | .flit port pa => s.stored pa.toNat && s.portUp port.val

/-- Poison at the granule of the place; a block's metadata stand for its eight sectors (R298, R302). -/
def State.poisonPlace (s : State) : ErrPlace → State
  | .mem pa => s.poisonSector pa.toNat
  | .l1 c pa =>
    s.onCore c.val fun x =>
      let l := x.l1Of (lineOf pa.toNat)
      { x with l1 := sset x.l1 (lineOf pa.toNat)
                 { l with pois := l.pois ||| BitVec.ofNat 2 (2 ^ (pa.toNat % 128 / 64)) } L1Line.none }
  | .cell c g => s.onCore c.val fun x => { x with scPois := nins x.scPois g.val }
  | .vgran c r g =>
    s.onCore c.val fun x => x.setVreg r.val { x.vreg r.val with pois := (x.vreg r.val).pois ||| BitVec.ofNat 32 (2 ^ g.val) }
  | .cmpBlock pa => (List.range 8).foldl (fun s k => s.poisonSector (pa.toNat / 512 * 512 + 64 * k)) s
  | .flit _ pa => s.poisonSector pa.toNat

/-- UNCORRECTABLE_ERROR: poison where the error is found, and the SYC logs the place (R298, R302). -/
def execUncorrectableError (e : ErrPlace) (s : State) : Out :=
  if s.errAt e then .next { s.poisonPlace e with syc := { s.syc with errLog := s.syc.errLog ++ [e] } } else .next s

end Sys2Proof.Machine
end

