-- ==== Sys2Proof/Machine/Shape.lean ====
section
/-! DEFINITION. Shape registers, the tensor table, leases and the lease lottery (R163-R172). -/

namespace Sys2Proof.Machine

open Sys2Proof

/-- Every fault that `Mem` raises for `shld` and `shst` carries CAUSE 0x58 (R166). -/
def chapShape : Chap := chapOne 0x58 0 0

/-- The address of `shld` and `shst`: the displacement counts 64 bytes (R165); a poisoned base is reported as chapter 7 reports
poison, with CAUSE 0x57 (R166; DEDUCED log 84). -/
def shapeAddr (q : SeqId) (a : Reg) (disp : BitVec 32) : Mx Nat := do
  let b ← chkBy q (.reg a) 0x0A 0x57
  pure (b + (disp.signExtend 64) * 64).toNat

/-- `shld` (R166). -/
def execShld (sh : Fin 16) (a : Reg) (disp : BitVec 32) (s : State) : Out :=
  let q := s.focus
  let c := q.core.val
  runNext q (do
    let va ← shapeAddr q a disp
    let r ← vread chapShape (.core c) ((← getS).ctxOf c) va 64 64
    check (!r.2) 0x0A 0x57
    modS (·.onCore c fun x => x.setSreg sh.val (BitVec.ofNat 512 (ofBytes r.1)))) s

/-- `shst` (R166). -/
def execShst (sh : Fin 16) (a : Reg) (disp : BitVec 32) (s : State) : Out :=
  let q := s.focus
  let c := q.core.val
  runNext q (do
    let va ← shapeAddr q a disp
    let s ← getS
    vwrite chapShape (.core c) (s.ctxOf c) va 64 (toBytes 64 ((s.core c).sreg sh.val).toNat) false) s

/-- The place and width of a field code (R158, R167). -/
def shField (f : Nat) : Nat × Nat :=
  match f with
  | 0 => (0, 52) | 1 => (52, 4) | 2 => (56, 2) | 3 => (58, 2) | 4 => (64, 52) | 5 => (116, 4) | 6 => (120, 4) | 7 => (124, 4)
  | 8 => (128, 24) | 9 => (152, 24) | 10 => (176, 24) | 11 => (200, 24)
  | 12 => (224, 40) | 13 => (264, 40) | 14 => (304, 40)
  | 15 => (352, 12) | 16 => (364, 12) | 17 => (376, 12) | 18 => (388, 12)
  | 19 => (400, 32) | 20 => (432, 52) | _ => (484, 3)

/-- Replace a field of a record. -/
def setField (r : BitVec 512) (lo n v : Nat) : BitVec 512 :=
  (r &&& ~~~(BitVec.ofNat 512 ((2 ^ n - 1) * 2 ^ lo))) ||| BitVec.ofNat 512 (v % 2 ^ n * 2 ^ lo)

/-- `shset` (R167). -/
def execShset (sh : Fin 16) (a : SOpd) (f : Fin 22) (s : State) : Out :=
  let q := s.focus
  let c := q.core.val
  runNext q (do
    let v ← chkBy q a 0x0A 0x57
    let p := shField f.val
    check (v.toNat < 2 ^ p.2) 2 0x54
    modS (·.onCore c fun x => x.setSreg sh.val (setField (x.sreg sh.val) p.1 p.2 v.toNat))) s

/-- `shget` (R167). -/
def execShget (d : Reg) (sh : Fin 16) (f : Fin 22) (s : State) : Out :=
  let q := s.focus
  runNext q (do
    let p := shField f.val
    wr q d (w64 (recFld (((← getS).core q.core.val).sreg sh.val) p.1 p.2))) s

/-- `tdef` (R168). -/
def execTdef (t : TEnt) (sh : Fin 16) (s : State) : Out :=
  let c := s.focus.core.val
  runNext s.focus (do
    let r := ((← getS).core c).sreg sh.val
    match tdefFail r with
    | some f => raise f.1 f.2.1 f.2.2
    | none => modS (·.onCore c fun x => { x with ttab := sput x.ttab t.val r })) s

/-- `tdrop` (R168). -/
def execTdrop (t : TEnt) (s : State) : Out :=
  runNext s.focus (modS (·.onCore s.focus.core.val fun x => { x with ttab := sdel x.ttab t.val })) s

/-- `tget` (R168). -/
def execTget (sh : Fin 16) (t : TEnt) (s : State) : Out :=
  runNext s.focus (modS (·.onCore s.focus.core.val fun x => x.setSreg sh.val ((x.tent t.val).getD 0))) s

/-- `lease` (R170). -/
def execLease (a : SOpd) (s : State) : Out :=
  let q := s.focus
  runNext q (do
    let v ← chkBy q a 0x0A 0x4A
    check (1 ≤ v.toNat && v.toNat ≤ 255) 2 0x55
    modS (·.onCore q.core.val fun x => { x with tickets := v.toNat })) s

/-- `unlease` (R170). -/
def execUnlease (s : State) : Out :=
  runNext s.focus (modS (·.onCore s.focus.core.val fun x => { x with tickets := 0 })) s

/-- A `chainb` at the head of LP that has not started. -/
def Core.chainbAtHead (x : Core) : Bool :=
  match x.lp.ents with
  | h :: _ => h.phase = .waiting && (match h.instr with | .chainb _ => true | _ => false)
  | [] => false

/-- The xorshift steps of a lottery register (R171, R224). -/
def qlxNext (x : BitVec 32) : BitVec 32 :=
  let x := x ^^^ (x <<< 13)
  let x := x ^^^ (x >>> 17)
  x ^^^ (x <<< 5)

/-- The walk over the contenders' tickets (R171). -/
def leaseWalk : List (Nat × Nat) → Nat → Option Nat
  | [], _ => none
  | (c, t) :: rest, p => if p < t then some c else leaseWalk rest (p - t)

/-- LOOM_LEASE_DRAW (R171). -/
def execLoomLeaseDraw (q : QuadId) (s : State) : Out :=
  let k := s.quad q.val
  let cs := (((List.range 4).map fun i => 4 * q.val + i).map fun c => (c, (s.core c).tickets)).filter fun c =>
    c.2 ≠ 0 && (s.core c.1).chainbAtHead
  let t := (cs.map (·.2)).sum
  if k.holder.isSome ∨ t = 0 then .next s
  else
    let x := qlxNext k.qlx
    .next (s.setQuad q.val { k with qlx := x, holder := leaseWalk cs (x.toNat % t), leaseAt := s.clock, leaseCmds := 0 })

end Sys2Proof.Machine
end

