-- ==== Sys2Proof/Machine/Loom.lean ====
section
/-! DEFINITION. The Loom: chains, hallmarks, tiles and commands (R173-R185). An `exec…` routes a word into LP; the `run…`
beside it is the command's effect at the Loom. -/

namespace Sys2Proof.Machine

open Sys2Proof

/-! ## Tiles (R30, R173) -/

/-- An element of a tile, where its bits stand: a tile left undefined by a hallmark fault reads free values (R406). -/
def Tile.bits (t : Tile) (i : Nat) : BitVec 32 :=
  match t.elems.find? (·.1 == i) with
  | some p => p.2
  | none => match t.undef with
    | none => 0
    | some k => (Config.freeValue (k + i)).extractLsb' 0 32

def Tile.poisAt (t : Tile) (i : Nat) : Bool := t.pois.contains (i / 4)

def Quad.tile (k : Quad) (d : Nat) : Tile := sget k.tiles d Tile.reset
def Quad.setTile (k : Quad) (d : Nat) (t : Tile) : Quad := { k with tiles := sset k.tiles d t Tile.reset }

/-- A tile as a chain reads it: another owner's tile reads +0 with no poison (R173). -/
def Tile.ownedBy (t : Tile) (tag : Nat × Nat) : Tile :=
  if t.tag = some tag then t else { elems := [], pois := [], tag := some tag, undef := none }

/-- Write elements of a tile that already has its owner: granule poison as R104 and R129. -/
def Tile.put (t : Tile) (vs : List (Nat × BitVec 32 × Bool)) : Tile :=
  let set (m : SMap (BitVec 32)) (v : Nat × BitVec 32 × Bool) : SMap (BitVec 32) :=
    if t.undef.isSome then sput m v.1 v.2.1 else sset m v.1 v.2.1 0
  let gs := (vs.map (·.1 / 4)).eraseDups
  let pois := gs.foldl (fun (ps : NSet) g =>
    let here := vs.filter fun v => v.1 / 4 = g
    nput ps g (here.any (·.2.2) || (t.pois.contains g && decide (here.length < 4)))) t.pois
  { t with elems := vs.foldl set t.elems, pois := pois }

/-! ## Commands in a chain (R174) -/

/-- The tile number of a command. -/
def tileOf : Instr → Option Nat
  | .mma _ d .. => some d.val
  | .mmaz _ d .. => some d.val
  | .accz _ d => some d.val
  | .accst _ d .. => some d.val
  | .accld _ d .. => some d.val
  | _ => none

/-- The chain of a core. -/
def State.chainOf (s : State) (c : Nat) : Option Chain :=
  match (s.quad (quadOf c)).chain with
  | some ch => if ch.core = c then some ch else none
  | none => none

def State.onChain (s : State) (c : Nat) (f : Chain → Chain) : State :=
  s.onQuad (quadOf c) fun k => { k with chain := k.chain.map f }

/-- An entry of LP takes its position in its chain (R169). -/
def Core.placeAt (x : Core) (num pos : Nat) : Core :=
  { x with lp := { x.lp with ents := x.lp.ents.map fun n => if n.num = num then { n with pos := pos } else n } }

/-- A command of an open chain is received: its slot, its position, and its words in the signature (R169, R174). Answers the
position. -/
def receive (c : Nat) (e : Entry) (words : List Nat) : Mx Nat := do
  match (← getS).chainOf c with
  | none => raise 2 0x40 0
  | some ch =>
    modS fun s => ((s.onChain c fun k =>
      { k with slots := k.slots + 1, crc := words.foldl crcWord k.crc }).onQuad (quadOf c) fun q =>
        { q with leaseCmds := q.leaseCmds + 1 }).onCore c (·.placeAt e.num (ch.slots + 1))
    check (ch.slots < 256) 0x17 0x48 (ch.slots + 1)
    pure (ch.slots + 1)

/-- The position of a command that may have been received at an earlier step. -/
def received (c : Nat) (e : Entry) : Mx Nat := if e.units = 0 then receive c e e.words else pure e.pos

/-- The tag of a core's tiles (R173). -/
def State.tileTag (s : State) (c : Nat) : Nat × Nat := (c, s.instOf c)

/-- The Loom's way to memory (R182). -/
def loomVia (c : Nat) : Mx Via := do
  pure { a := .quadUnit c, ctx := (← getS).ctxOf c, loom := true }

/-- What the Loom reports at a frontier word (R169, R181). -/
def frontLoom (pos : Nat) (units : Nat := 0) : FrontCodes :=
  { ch := chapOne 0x49 pos units, page := mkFault 7 (detailOf units pos 0x49), pois := mkFault 0x0A (detailOf units pos 0x4A) }

/-- Chase a tensor's frontier for one box (R181). -/
def loomChase (c pos : Nat) (v : Via) (t : Tens) (b : Ix × Ix) : Mx Bool :=
  chaseOnce { v with loom := false } c (frontLoom pos) (mkFault 0x0C (detailOf 0 pos 0x4C)) t (t.cover b)

/-- A captured entry, or CAUSE 0x41 (R164). -/
def tensArg (k : TensCap) (pos : Nat) : Mx Tens :=
  match k with
  | none => raise 2 0x41 pos
  | some r => pure (tensOf r)

/-- The fields of an origin word (R178). -/
def orgMI (o : Word) : Nat := fld o.toNat 0 16
def orgKI (o : Word) : Nat := fld o.toNat 16 16
def orgNI (o : Word) : Nat := fld o.toNat 32 16
def orgBI (o : Word) : Nat := fld o.toNat 48 16

/-- The slice of a tensor that BI selects. -/
def Tens.slice (t : Tens) (bi : Nat) : Nat × Nat := (bi % t.ext.i2, bi / t.ext.i2)

/-! ## Chain brackets -/

def execChainb (t : Tok) (s : State) : Out := route .lp (.chainb t) caps s
/-- `chainb` opens a chain for the lease holder (R171, R174); inside an open chain it is refused. -/
def runChainb (c : Nat) (e : Entry) : Mx Prog := do
  let s ← getS
  match s.chainOf c with
  | some ch => raise 2 0x40 (ch.slots + 1)
  | none =>
    if (s.quad (quadOf c)).holder = some c then
      modS (·.onQuad (quadOf c) fun q =>
        { q with chain := some { core := c, inst := s.instOf c, slots := 1, crc := e.words.foldl crcWord (BitVec.allOnes 32),
                                 fronts := [], tiles := [] }, leaseCmds := q.leaseCmds + 1 })
      modS (·.onCore c (·.placeAt e.num 1))
      pure (.done 0 [])
    else stallOn .timeline

/-- The lease after a chain's end (R172). -/
def State.keepLease (s : State) (c : Nat) : Bool :=
  let k := s.quad (quadOf c)
  let x := s.core c
  let nextIsChainb := match x.lp.ents.filter (fun e => e.phase = .waiting) with
    | h :: _ => (match h.instr with | .chainb _ => true | _ => false)
    | [] => false
  x.tickets ≠ 0 && k.leaseCmds < 256 && s.clock - k.leaseAt < 32768 && nextIsChainb

/-- A hallmark fault leaves the chain's tiles undefined, with clear poison (R406). -/
def State.spoilTiles (s : State) (c : Nat) (ds : NSet) : State :=
  ds.foldl (fun s d =>
    { s.onQuad (quadOf c) fun k =>
        let t := k.tile d
        k.setTile d { t with elems := [], pois := [], undef := some s.free } with free := s.free + 65536 }) s

/-- A hallmark fault of the Loom is a mismatch of the Loom, on a column that the spec does not name (R406, R412; DESIGN CHOICE log 32). -/
def State.hallmarkCount (s : State) (c : Nat) : State :=
  s.bump.mismatch 3 (264 * quadOf c + (Config.freeValue s.free).toNat % 264)

def execChaine (t : Tok) (slots : Fin 512) (sig : Word32) (s : State) : Out := route .lp (.chaine t slots sig) caps s
/-- `chaine` compares the hallmark, and closes the frontiers of its chain (R175). -/
def runChaine (slots : Fin 512) (sig : Word32) (c : Nat) (e : Entry) : Mx Prog := do
  let _ ← receive c e []
  let s ← getS
  match s.chainOf c with
  | none => raise 2 0x40 0
  | some ch =>
    let okN := slots.val = ch.slots
    let okS := sig = crcDone ch.crc
    if !(okN ∧ okS) then
      modS fun s => (s.spoilTiles c ch.tiles).hallmarkCount c
      raise 0x11 (if okS then 0x45 else if okN then 0x46 else 0x47) ch.slots
    let v ← loomVia c
    ch.fronts.forM fun f => do
      if f.close then
        let _ ← frontRmw (frontLoom ch.slots) v.a v.ctx f.fw [.closeLive]
    modS fun s => s.onQuad (quadOf c) fun k =>
      { k with chain := none, holder := if s.keepLease c then k.holder else none }
    pure (.done 0 [])

/-! ## Products (R178-R181) -/

/-- Read a box of values, row by row along its second dimension. -/
def readBox (v : Via) (ch : Chap) (t : Tens) (b : Ix × Ix) : Mx (List (List (Num × Bool))) :=
  (List.range b.2.i1).mapM fun j => (List.range b.2.i0).mapM fun i =>
    readVal v ch t { b.1 with i0 := b.1.i0 + i, i1 := b.1.i1 + j }

/-- An exact integer value. -/
def Num.int : Num → Int
  | .fin neg m e _ => let k : Int := (m * 2 ^ e.toNat : Nat); if neg then -k else k
  | _ => 0

/-- One element of a product (R102, R107, R180). -/
def mmaElem (isInt : Bool) (acc : BitVec 32) (as bs : List (Num × Bool)) : BitVec 32 × Flg :=
  if isInt then
    (BitVec.ofInt 32 ((as.zip bs).foldl (fun (s : Int) q => s + q.1.1.int * q.2.1.int) acc.toInt), Flg.none)
  else
    let r := accDot (numF32 acc.toNat) ((as.zip bs).map fun q => q.1.1.mul q.2.1)
    (BitVec.ofNat 32 (fmtF32.bits r.1), r.2)

/-- Write a region of a tile: the write gives the tile to its chain (R173). -/
def putTile (c d : Nat) (vs : List (Nat × BitVec 32 × Bool)) : Mx Unit :=
  modS fun s => (s.onQuad (quadOf c) fun k => k.setTile d (((k.tile d).ownedBy (s.tileTag c)).put vs)).onChain c fun ch =>
    { ch with tiles := nins ch.tiles d }

/-- The boxes of A and B that an origin word selects (R178, R179). -/
def prodBoxes (ta tb : Tens) (o : Word) : (Ix × Ix) × (Ix × Ix) :=
  let k := ta.win.i0
  let m := ta.win.i1
  let n := tb.win.i0
  let sa := ta.slice (orgBI o)
  let sb := tb.slice (orgBI o)
  (({ i0 := orgKI o * k, i1 := orgMI o * m, i2 := sa.1, i3 := sa.2 }, { i0 := k, i1 := m, i2 := 1, i3 := 1 }),
   ({ i0 := orgNI o * n, i1 := orgKI o * k, i2 := sb.1, i3 := sb.2 }, { i0 := n, i1 := k, i2 := 1, i3 := 1 }))

/-- `mma` and `mmaz`. Of several refusals the first of this order is reported (DESIGN CHOICE log 89). -/
def runProduct (d : Fin 8) (ty : ElemTy) (zero : Bool) (c : Nat) (e : Entry) : Mx Prog := do
  let pos ← received c e
  let ta ← tensArg e.ta pos
  let tb ← tensArg e.tb pos
  check (!e.a.p) 0x0A 0x4A pos
  check (ta.fmt = ty && tb.fmt = ty) 2 0x42 pos
  let o := e.a.v
  check (orgBI o == 0 || (3 ≤ ta.rank && 3 ≤ tb.rank)) 2 0x44 pos
  let k := ta.win.i0
  let m := ta.win.i1
  let n := tb.win.i0
  check (2 ≤ ta.rank && k == tb.win.i1 && 1 ≤ m && m ≤ 256 && 1 ≤ n && n ≤ 256) 2 0x43 pos
  let ba := (prodBoxes ta tb o).1
  let bb := (prodBoxes ta tb o).2
  let v ← loomVia c
  let ready ← attempt (do
    if !(← loomChase c pos v ta ba) then stallOn .chase
    if !(← loomChase c pos v tb bb) then stallOn .chase
    let as ← readBox v (chapOne 0x49 pos 0) ta ba
    let bs ← readBox v (chapOne 0x49 pos 0) tb bb
    pure (as, bs))
  match ready with
  | none => pure (.wait 1 0 0 [])
  | some (as, bs) =>
    let s ← getS
    let t := ((s.quad (quadOf c)).tile d.val).ownedBy (s.tileTag c)
    let rs := (List.range m).flatMap fun i => (List.range n).map fun j =>
      let col := bs.map fun row => row.getD j (Num.zero, false)
      let row := as.getD i []
      let at_ := 256 * i + j
      let r := mmaElem ty.isI (if zero then 0 else t.bits at_) row col
      let p := (!zero && t.poisAt at_) || row.any (·.2) || col.any (·.2)
      (at_, r.1, p, r.2)
    putTile c d.val (rs.map fun r => (r.1, r.2.1, r.2.2.1))
    pure (.done (orAll (rs.map fun r => r.2.2.2)).bits [])

def execMma (t : Tok) (d : Fin 8) (a b : TEnt) (o : EOpd) (ty : ElemTy) (s : State) : Out :=
  route .lp (.mma t d a b o ty) (caps o noE noE (some a) (some b)) s
def runMma (d : Fin 8) (ty : ElemTy) : Nat → Entry → Mx Prog := runProduct d ty false

def execMmaz (t : Tok) (d : Fin 8) (a b : TEnt) (o : EOpd) (ty : ElemTy) (s : State) : Out :=
  route .lp (.mmaz t d a b o ty) (caps o noE noE (some a) (some b)) s
def runMmaz (d : Fin 8) (ty : ElemTy) : Nat → Entry → Mx Prog := runProduct d ty true

def execAccz (t : Tok) (d : Fin 8) (s : State) : Out := route .lp (.accz t d) caps s
/-- `accz` (R183). -/
def runAccz (d : Fin 8) (c : Nat) (e : Entry) : Mx Prog := do
  let _ ← receive c e e.words
  modS fun s => (s.onQuad (quadOf c) fun k =>
    k.setTile d.val { elems := [], pois := [], tag := some (s.tileTag c), undef := none }).onChain c fun ch =>
      { ch with tiles := nins ch.tiles d.val }
  pure (.done 0 [])

/-! ## Loading and storing tiles (R178, R179, R182-R184) -/

/-- The box of a tensor that an origin word selects (R178). -/
def orgBox (t : Tens) (o : Word) : Ix × Ix :=
  let m := t.win.i1
  let n := t.win.i0
  let sl := t.slice (orgBI o)
  ({ i0 := orgNI o * n, i1 := orgMI o * m, i2 := sl.1, i3 := sl.2 }, { i0 := n, i1 := m, i2 := 1, i3 := 1 })

/-- The checks that `accst` and `accld` share: the box of the tensor that the command moves. Of several refusals the first of this
order is reported (DESIGN CHOICE log 89). -/
def tileBox (t : Tens) (ty : ElemTy) (o : SVal) (pos : Nat) : Mx (Ix × Ix) := do
  check (!o.p) 0x0A 0x4A pos
  check (t.fmt = ty) 2 0x42 pos
  check (orgKI o.v == 0 && (orgBI o.v == 0 || 3 ≤ t.rank)) 2 0x44 pos
  let m := t.win.i1
  let n := t.win.i0
  check (1 ≤ m && m ≤ 256 && 1 ≤ n && n ≤ 256) 2 0x43 pos
  pure (orgBox t o.v)

/-- An element as `accld` converts it (R183): f32 and n32 bits are copied (DEDUCED log 28). -/
def loadConv (t : ElemTy) (raw : Nat) (v : Num) : BitVec 32 :=
  if t = .f32 ∨ t = .n32 then BitVec.ofNat 32 raw
  else if t.isI then BitVec.ofInt 32 v.int
  else BitVec.ofNat 32 (fmtF32.bits v)

def execAccld (t : Tok) (d : Fin 8) (a : TEnt) (o : EOpd) (ty : ElemTy) (s : State) : Out :=
  route .lp (.accld t d a o ty) (caps o noE noE (some a)) s
/-- `accld` (R183). -/
def runAccld (d : Fin 8) (ty : ElemTy) (c : Nat) (e : Entry) : Mx Prog := do
  let pos ← received c e
  let t ← tensArg e.ta pos
  let b ← tileBox t ty e.a pos
  let v ← loomVia c
  let ch := chapOne 0x49 pos 0
  let ready ← attempt (do
    if !(← loomChase c pos v t b) then stallOn .chase
    (List.range b.2.i1).mapM fun i => (List.range b.2.i0).mapM fun j => do
      let x : Ix := { b.1 with i0 := b.1.i0 + j, i1 := b.1.i1 + i }
      if ty = .f32 ∨ ty = .n32 then
        let r ← readElem v ch t x
        pure (256 * i + j, loadConv ty r.1 .nan, r.2)
      else
        let r ← readVal v ch t x
        pure (256 * i + j, loadConv ty 0 r.1, r.2))
  match ready with
  | none => pure (.wait 1 0 0 [])
  | some rows => putTile c d.val rows.flatten; pure (.done 0 [])

/-- A tile element as `accst` converts it to a type that is no block type (R184). An n32 store with `.sat` clamps, by R97's row for
one width (DEDUCED log 87). -/
def storeConv (ty : ElemTy) (rnd : Rnd) (sat : Bool) (b : BitVec 32) : Nat × Flg :=
  if ty = .f32 then (b.toNat, Flg.none)
  else if ty.isF then (tyFmt ty).fin rnd sat (numF32 b.toNat)
  else (finInt ty sat b.toInt, Flg.none)

/-- The units that a command was to write, and those it has not finished. -/
def unitsOf (t : Tens) (xs : List Ix) : List Nat := ((xs.filter t.inside).map t.unit).eraseDups

def minNat (l : List Nat) : Nat := match l with | [] => 0 | x :: xs => xs.foldl Nat.min x
def maxNat (l : List Nat) : Nat := l.foldl Nat.max 0

/-- A writer's work, element by element: on a fault the frontier shows the units finished, and HALTED (R184). `left` are
the elements not yet written; `all` the units of the whole command. -/
def guardWrite {α : Type} (v : Via) (q : SeqId) (src : Nat) (point : Word) (t : Tens) (left : List Ix) (m : Mx α) : Mx α :=
  onFault (fun s => s.haltWriter v q src point t (minNat (unitsOf t left))) m

/-- One row of `accst`: its writes, and its flags (R184). -/
def storeRow (v : Via) (q : SeqId) (point : Word) (t : Tens) (rnd : Rnd) (sat : Bool) (tile : Tile) (pos : Nat)
    (all : List Ix) (b : Ix × Ix) (i : Nat) : Mx Flg := do
  let n := b.2.i0
  let x (j : Nat) : Ix := { b.1 with i0 := b.1.i0 + j, i1 := b.1.i1 + i }
  let el (j : Nat) : BitVec 32 × Bool := (tile.bits (256 * i + j), tile.poisAt (256 * i + j))
  let ch (left : List Ix) : Chap := chapOne 0x49 pos (Nat.min ((unitsOf t all).length - (unitsOf t left).length) (2 ^ 32 - 1))
  let leftAt (j : Nat) : List Ix := all.drop (i * n + j)
  let guard' (j : Nat) (m : Mx Unit) : Mx Unit := guardWrite { v with loom := false } q 5 point t (leftAt j) m
  if t.fmt.isB then
    let fl ← (List.range (n / 32)).mapM fun k => do
      let j := 32 * k
      if !t.writable (x j) then pure Flg.none
      else
        let vals := (List.range 32).map fun l => if t.inside (x (j + l)) then numF32 (el (j + l)).1.toNat else Num.zero
        let p := (List.range 32).any fun l => t.inside (x (j + l)) && (el (j + l)).2
        let enc := (blkFmt t.fmt).encode rnd vals
        guard' j (do
          let _ ← (List.range 32).mapM fun l =>
            writeElem v (ch (leftAt j)) t (x (j + l)) (enc.2.2.getD l (0, Flg.none)).1 p
          let _ ← writeExps v (ch (leftAt j)) t (x j) (enc.1, enc.2.1) false)
        pure (orAll (enc.2.2.map (·.2)))
    pure (orAll fl)
  else
    let fl ← (List.range n).mapM fun j => do
      if !t.inside (x j) then pure Flg.none
      else
        let r := storeConv t.fmt rnd sat (el j).1
        guard' j (do
          let _ ← writeElem v (ch (leftAt j)) t (x j) r.1 (el j).2)
        pure r.2
    pure (orAll fl)

/-- Rows from `i` on, each whole or not at all; a hold stops before a row. -/
def storeRows (row : Nat → Mx Flg) (m : Nat) : Nat → Nat → Flg → Mx (Nat × Flg)
  | 0, i, f => pure (i, f)
  | n + 1, i, f => do
    if m ≤ i then pure (i, f)
    else
      match ← attempt (row i) with
      | none => pure (i, f)
      | some g => storeRows row m n (i + 1) (f.or g)

def execAccst (t : Tok) (d : Fin 8) (a : TEnt) (o : EOpd) (close : Bool) (ty : ElemTy) (sat : Bool) (rnd : Rnd) (s : State) :
    Out := route .lp (.accst t d a o close ty sat rnd) (caps o noE noE (some a)) s
/-- An `accst` of a chain has published: the chain keeps the frontier, and where it has ended without a `chaine` meanwhile the
frontier halts (R175, R176). -/
def State.noteFront (s : State) (c : Nat) (e : Entry) (v : Via) (t : Tens) (close : Bool) : State :=
  match s.chainOf c with
  | none => s.haltFront v.a (e.seqId c) v.ctx t.fw 5 (w64 e.num)
  | some _ => s.onChain c fun ch =>
      let old := ch.fronts.find? fun f => f.fw = t.fw
      let f : ChainFront := { fw := t.fw, fsc := t.fsc.code, close := close || (match old with | some o => o.close | none => false) }
      { ch with fronts := (ch.fronts.filter fun o => o.fw ≠ t.fw) ++ [f] }

/-- `accst`: row by row, then the publication (R184). `units` counts the rows written, plus 1 once received. One refused before its
first row leaves its frontier word alone, and of several refusals the first of this order is reported (DESIGN CHOICE log 89). -/
def runAccst (d : Fin 8) (close : Bool) (ty : ElemTy) (sat : Bool) (rnd : Rnd) (c : Nat) (e : Entry) : Mx Prog := do
  let pos ← received c e
  let t ← tensArg e.ta pos
  let b ← tileBox t ty e.a pos
  check (!(t.fmt.isB && (b.2.i0 % 32 != 0 || b.1.i0 % 32 != 0))) 2 0x43 pos
  check (!t.repeats) 2 0x4B pos
  let s ← getS
  let v ← loomVia c
  let tile := ((s.quad (quadOf c)).tile d.val).ownedBy (s.tileTag c)
  let all := boxElems b
  let point := w64 e.num
  let q := e.seqId c
  let r ← storeRows (storeRow v q point t rnd sat tile pos all b) b.2.i1 b.2.i1 (e.units - 1) (Flg.ofBits e.flags)
  if r.1 < b.2.i1 then pure (.wait (r.1 + 1) 0 r.2.bits [])
  else
    let us := unitsOf t all
    if t.fw = 0 ∨ us.isEmpty then pure (.done r.2.bits [])
    else
      let fv := { v with loom := false }
      let whole := Nat.min us.length (2 ^ 32 - 1)
      match ← attempt (onFault (fun s => s.haltWriter fv q 5 point t (maxNat us + 1))
          (publish fv c (frontLoom pos whole) t (maxNat us + 1) false)) with
      | none => pure (.wait (r.1 + 1) 0 r.2.bits [])
      | some _ =>
        modS (·.noteFront c e fv t close)
        pure (.done r.2.bits [])

end Sys2Proof.Machine
end

