-- ==== Sys2Proof/Machine/Engine.lean ====
section
/-! DEFINITION. Engine queues at work: which entry starts, its effect, its completion, tokens, faults, and the chase monitor
(R20-R24, R91, R132, R326, R327, R353, R354, R366, R404). -/

namespace Sys2Proof.Machine

open Sys2Proof

/-! ## Effects -/

/-- The effect of a VE entry that is whole at once. -/
def runVe : Instr → Option (Nat → Entry → Mx Flg)
  | .vadd _ d a b m => some (runVadd d a b m)
  | .vsub _ d a b m => some (runVsub d a b m)
  | .vmul _ d a b m => some (runVmul d a b m)
  | .vfma _ d a b c m => some (runVfma d a b c m)
  | .vdiv _ d a b m => some (runVdiv d a b m)
  | .vsqrt _ d a m => some (runVsqrt d a m)
  | .vabs _ d a m => some (runVabs d a m)
  | .vneg _ d a m => some (runVneg d a m)
  | .vmin _ d a b m => some (runVmin d a b m)
  | .vmax _ d a b m => some (runVmax d a b m)
  | .vand _ d a b m => some (runVand d a b m)
  | .vor _ d a b m => some (runVor d a b m)
  | .vxor _ d a b m => some (runVxor d a b m)
  | .vshl _ d a b m => some (runVshl d a b m)
  | .vshr _ d a b m => some (runVshr d a b m)
  | .vsra _ d a b m => some (runVsra d a b m)
  | .vcmp _ cc d a b m => some (runVcmp cc d a b m)
  | .vsel _ d a b c ty => some (runVsel d a b c ty)
  | .vmov _ d a m => some (runVmov d a m)
  | .vbcast _ d a _ m => some (runVbcast d a m)
  | .vperm _ d a b m => some (runVperm d a b m)
  | .vslide _ d a _ c m => some (runVslide d a c m)
  | .vredsum _ d a m => some (runVredsum d a m)
  | .vredmax _ d a m => some (runVredmax d a m)
  | .vredmin _ d a m => some (runVredmin d a m)
  | .vscan _ d a m => some (runVscan d a m)
  | .vdot _ d a b g m => some (runVdot d a b g m)
  | .vwmul _ d a b m => some (runVwmul d a b m)
  | .vcvt _ d a st h m => some (runVcvt d a st h m)
  | .vcvtef _ d a c st h m => some (runVcvtef d a c st h m)
  | .vexp2 _ d a m => some (runVexp2 d a m)
  | .vlog2 _ d a m => some (runVlog2 d a m)
  | .vrcp _ d a m => some (runVrcp d a m)
  | .vrsqrt _ d a m => some (runVrsqrt d a m)
  | .vtmin _ d a mask => some (runVtmin d a mask)
  | .vtmex _ d a m => some (runVtmex d a m)
  | .vtmerge _ d a b mask => some (runVtmerge d a b mask)
  | .tmtab _ _ p => some (runTmtab p)
  | .tmshape _ _ => some runTmshape
  | .vsortk _ d a b m => some (runVsortk d a b m)
  | .vsegsum _ d a b c m => some (runVsegsum d a b c m)
  | .vpushc _ d a w _ mask => some (runVpushc d a w mask)
  | .vpopc _ d c w _ => some (runVpopc d c w)
  | .mlog _ d a b tt => some (runMlog d a b tt)
  | .mpopc _ d a ty => some (runMpopc d a ty)
  | .mfirst _ d a ty => some (runMfirst d a ty)
  | _ => none

/-- The effect of every other entry, which may go step by step. -/
def runUnits : Instr → Option (Nat → Entry → Mx Prog)
  | .vchain _ _ _ _ c sat rnd => some (runVchain c.isSome sat rnd)
  | .vld _ d _ disp ty mask _ => some (runVld d disp ty mask)
  | .vldg _ d _ b _ mask => some (runVldg d b mask)
  | .vldt _ d _ _ lw ty => some (runVldt d lw ty)
  | .vldfe _ d _ disp clear ty => some (runVldfe d disp clear ty)
  | .vst _ d _ disp ty mask _ asy => some (runVst d disp ty mask asy)
  | .vsts _ d _ b _ mask asy => some (runVsts d b mask asy)
  | .vstt _ d _ _ lw asy close ty => some (runVstt d lw asy close ty)
  | .vstfe _ d _ disp ty => some (runVstfe d disp ty)
  | .vamo _ op d _ b c ty mask nr => some (runVamo op d b c ty mask nr)
  | .chainb _ => some runChainb
  | .chaine _ slots sig => some (runChaine slots sig)
  | .mma _ d _ _ _ ty => some (runMma d ty)
  | .mmaz _ d _ _ _ ty => some (runMmaz d ty)
  | .accz _ d => some (runAccz d)
  | .accst _ d _ _ close ty sat rnd => some (runAccst d close ty sat rnd)
  | .accld _ d _ _ ty => some (runAccld d ty)
  | .cpy _ _ _ _ close => some (runCpy close)
  | .cpym _ _ _ _ => some runCpym
  | .cpyf _ _ _ _ close => some (runCpyf close)
  | .trig _ _ sc => some (runTrig sc)
  | _ => none

/-- The effect of an entry, from where it stands. -/
def runEntry (c : Nat) (n : Entry) : Mx Prog :=
  match runVe n.instr with
  | some r => do
    let f ← r c n
    pure (.done f.bits [])
  | none =>
    match runUnits n.instr with
    | some r => r c n
    | none => pure (.done 0 [])

/-- What a CQ entry does at the core when it starts (R199). -/
def startCq (c : Nat) (n : Entry) : Mx Entry :=
  match n.instr with
  | .ttset .. => startTtset c n
  | .tready .. => startTready c n
  | .cred .. => startCred c n
  | _ => pure n

/-- What the tile's crier makes of a CQ entry (R199). -/
def ackCq (ctx : Nat) (n : Entry) (s : State) : Ack :=
  match n.instr with
  | .ttset .. => ackTtset ctx n s
  | .tready .. => ackTready ctx n s
  | .cred .. => ackCred ctx n s
  | _ => .ok s

/-! ## Queues -/

/-- Change the entry with a number. -/
def EQueue.onEnt (q : EQueue) (num : Nat) (f : Entry → Entry) : EQueue :=
  { q with ents := q.ents.map fun n => if n.num = num then f n else n }

def State.onEq (s : State) (c : Nat) (e : Eng) (f : EQueue → EQueue) : State := s.onCore c fun x => x.setEq e (f (x.eq e))
def State.onEnt (s : State) (c : Nat) (e : Eng) (num : Nat) (f : Entry → Entry) : State := s.onEq c e (·.onEnt num f)

/-- The clock at which an entry first blocked (R366). -/
def State.markSince (s : State) (c : Nat) (e : Eng) (num : Nat) : State :=
  s.onEnt c e num fun n => { n with since := n.since.or (some s.clock) }

/-- Commands with the number `tl + 1` and on that have completed are counted (R354). -/
def countAhead : Nat → Nat → NSet → Nat × NSet
  | 0, tl, a => (tl, a)
  | k + 1, tl, a => if a.contains (tl + 1) then countAhead k (tl + 1) (ndel a (tl + 1)) else (tl, a)

/-- A command has completed (R20, R353, R354). -/
def EQueue.complete (q : EQueue) (num : Nat) : EQueue :=
  let a := nins q.ahead num
  let r := countAhead a.length q.tl a
  { q with ents := q.ents.filter fun n => n.num ≠ num, tl := r.1, ahead := r.2 }

/-- The tile of a Loom command that has started keeps later commands on it behind (R105, R185). -/
def sameTile (i j : Instr) : Bool := (tileOf i).isSome && tileOf i == tileOf j

/-- The brackets of a chain run alone. -/
def isBracket : Instr → Bool
  | .chainb _ => true
  | .chaine .. => true
  | _ => false

/-- A Loom command that reads or writes memory; `accz` alone does neither (R183). -/
def usesMemory : Instr → Bool
  | .accz .. => false
  | _ => true

def isAccst : Instr → Bool
  | .accst .. => true
  | _ => false

/-- An entry may start beside the earlier ones that have not completed (R20, R105, R353, R360). One that reads or writes memory
takes its effect after theirs: queue order is program order (R307, R313), and a load before it that waits at a cell or a frontier
acquires (R322, R341), so that nothing behind it may read earlier (DEDUCED log 97). -/
def startsBeside (e : Eng) (before : List Entry) (n : Entry) : Bool :=
  match e with
  | .ve | .wq | .cq => before.isEmpty
  | .lq | .sq => before.length < 8 && before.all (·.phase = .done)
  | .lp =>
    if isBracket n.instr then before.isEmpty
    else before.all fun b =>
      !sameTile b.instr n.instr && !isBracket b.instr && !(isAccst b.instr && isAccst n.instr) &&
        (b.phase = .done || !usesMemory n.instr)

/-- The entry that a queue starts next: its first waiting one, where no token is held back (R24). -/
def Core.startable (x : Core) (e : Eng) : Option Entry :=
  let q := x.eq e
  if !q.held.isEmpty || q.halted then none
  else
    let before := q.ents.takeWhile (·.phase ≠ .waiting)
    match q.ents.drop before.length with
    | [] => none
    | n :: _ => if startsBeside e before n then some n else none

/-! ## Tokens (R23, R24) -/

/-- The wait tokens of an entry that are missing. -/
def Core.missing (x : Core) (e : Eng) (n : Entry) : List Fifo := (waitFifos e n.instr).filter fun f => x.fifos.get f = 0

def Core.popToks (x : Core) (fs : List Fifo) : Core :=
  { x with fifos := fs.foldl (fun k f => k.set f (k.get f - 1)) x.fifos }

/-- The units that a completed entry has written, where its detail word counts them (R132, R169). -/
def Entry.unitsWritten (n : Entry) : Nat :=
  let td := tensOf (n.ta.getD 0)
  match n.instr with
  | .accst .. => (unitsOf td (boxElems (orgBox td n.a.v))).length
  | .vchain .. => td.units
  | _ => 0

/-- Push one token of a completed entry, or hold it where its FIFO is full (R24). -/
def Core.pushTok (x : Core) (e : Eng) (clock : Nat) (n : Entry) (f : Fifo) : Core :=
  let q := x.eq e
  if x.fifos.get f < 16 ∧ !q.held.contains f then { x with fifos := x.fifos.set f (x.fifos.get f + 1) }
  else
    let q := if q.held.isEmpty then { q with heldSince := clock, heldNum := n.num, heldPos := n.pos, heldUnits := n.unitsWritten, heldXs := n.xs }
      else q
    x.setEq e { q with held := q.held ++ [f] }

/-- Push what is held, as far as there is room. -/
def Core.pushHeld (x : Core) (e : Eng) : Core :=
  (x.eq e).held.foldl (fun x f =>
    if x.fifos.get f < 16 then
      let x := { x with fifos := x.fifos.set f (x.fifos.get f + 1) }
      x.setEq e { x.eq e with held := (x.eq e).held.erase f }
    else x) x

/-- TOKEN_PUSH_DEFERRED: a FIFO has room for a held token (R24). -/
def execTokenPushDeferred (c : CoreId) (e : Eng) (s : State) : Out := .next (s.onCore c.val (·.pushHeld e))

/-! ## Faults (R56, R132, R176, R361, R404) -/

/-- Records that follow a writer's own (R428). -/
def State.flushLate (s : State) : State :=
  s.lateRecs.foldl (fun s r => s.aim r.1 r.2) { s with lateRecs := [] }

/-- A queue halts with a fault: the record is aimed at the routing sequencer, entries that have started complete, no later one
starts, and tokens of completed entries that wait for room still wait (R24, R132, R176, R401, R404). -/
def State.haltQueue (s : State) (c : Nat) (e : Eng) (q : SeqId) (num : Nat) (f : FaultInfo) : State :=
  let s := (s.aim q (s.mkRec c e.src (w64 num) true f)).flushLate
  let s := s.onEq c e fun k =>
    { k with halted := true, faulted := true, ents := k.ents.filter fun n => n.phase ≠ .waiting ∧ n.num ≠ num }
  if e = .lp then s.endChain c q (w64 num) false else s

/-- An entry faults; a bound walker command fails its barrier's phase (R357, R361). -/
def State.entryFault (s : State) (c : Nat) (e : Eng) (n : Entry) (f : FaultInfo) : State :=
  let s := s.haltQueue c e (n.seqId c) n.num f
  let s := match e, boundOf n.instr with
    | .wq, some b => s.onCore c fun x => x.setBar b { x.bar b with failed := true, failBytes := fld f.detail.toNat 32 32 }
    | _, _ => s
  s.drainCore c

/-! ## Chases of entries (R322, R326) -/

/-- The frontiers that an entry chases next: each tensor with the unit it needs. -/
def Entry.needs (n : Entry) : List (Tens × Option Nat) :=
  let t (k : TensCap) : Tens := tensOf (k.getD 0)
  let td := t n.ta
  match n.instr with
  | .vldt .. => [(td, td.cover (td.winBox (winOrg td n.b.v.toNat)))]
  | .accld .. => [(td, td.cover (orgBox td n.a.v))]
  | .mma .. | .mmaz .. =>
    let b := prodBoxes td (t n.tb) n.a.v
    [(td, td.cover b.1), (t n.tb, (t n.tb).cover b.2)]
  | .cpy _ _ _ _ close =>
    let xs := cpyPlaces td (winOrg td n.b.v.toNat)
    let u := leftUnit (walkSteps td (unitList td xs) close) n.units
    [(t n.tb, cpyCover (t n.tb) (xs.filter fun x => td.unitW x = u))]
  | .vchain _ _ _ _ c _ _ =>
    let b := td.unitBox (leftUnit (chainSteps td) n.units)
    (t n.tb, (t n.tb).cover b) :: (if c.isSome then [(t n.tc, (t n.tc).cover b)] else [])
  | _ => []

/-- How an engine reaches a frontier word. -/
def engAgent (c : Nat) : Eng → Agent
  | .lp | .wq => .quadUnit c
  | _ => .core c

/-- The key of a frontier whose condition is not met (R322). -/
def unmetKey (a : Agent) (c ctx : Nat) (p : Tens × Option Nat) : Mx (Option Nat) := do
  match p.2 with
  | none => pure none
  | some k =>
    if p.1.fw = 0 then pure none
    else
      let t ← frontAccess front13 a ctx .r p.1.fw
      let r ← readHome a t 8
      let w := ofBytes r.1
      pure (if r.2 || fwClosed w || fwHalted w || decide (k < fwCount w) then none else some (frontKey c t))

/-- What an operation answers, with no change of state. -/
def State.peek {α : Type} (s : State) (dflt : α) (m : Mx α) : α :=
  match m s with
  | .ok v _ => v
  | .error _ _ => dflt

/-- The frontier on which an entry stands. -/
def State.chasing (s : State) (c : Nat) (e : Eng) (n : Entry) : Option Nat :=
  n.needs.findSome? fun p => s.peek none (unmetKey (engAgent c e) c (s.ctxOf c) p)

/-! ## Starting, going on, completing -/

/-- What an entry's effect has come to. -/
def State.settle (s : State) (c : Nat) (e : Eng) (n : Entry) : Prog → State
  | .done f asy => s.onEnt c e n.num fun o => { o with phase := .done, flags := f, asy := asy, since := none }
  | .wait u b f asy =>
    let s := s.onEnt c e n.num fun o => { o with phase := .started, units := u, bytes := b, flags := f, asy := asy }
    let n' := { n with units := u, bytes := b }
    let since := if (s.chasing c e n').isNone then none else if u = n.units then n.since.or (some s.clock) else some s.clock
    s.onEnt c e n.num fun o => { o with since := since }

/-- An entry is about to read: where writers of vector registers are in flight, it takes its free numbers (R125). -/
def State.racing (s : State) (c : Nat) : State :=
  if (s.core c).entries.all (·.olds.isEmpty) then s
  else { s.onCore c fun x => { x with race := some s.free } with free := s.free + 64 * (s.core c).entries.length }

/-- The entry has read and written: what the registers that it changed held in `s₀` stays beside it until it completes (R125). -/
def State.calm (s s₀ : State) (c : Nat) (e : Eng) (num : Nat) : State :=
  let s := if (s.core c).race.isNone then s else s.onCore c fun x => { x with race := none }
  let olds := (s₀.core c).changedVregs (s.core c)
  let place := (s₀.core c).entries.foldl (fun m o => Nat.max m o.wrote) 0 + 1
  if olds.isEmpty then s
  else s.onEnt c e num fun o =>
    { o with olds := olds.foldl (fun m p => if shas m p.1 then m else sput m p.1 p.2) o.olds,
             wrote := if o.wrote = 0 then place else o.wrote }

/-- Take an entry's effect as far as it goes; `old` is the state where a stall leaves everything as it was. -/
def State.runOn (s old : State) (c : Nat) (e : Eng) (n : Entry) : State :=
  match runEntry c n (s.racing c) with
  | .ok p s' => (s'.calm s c e n.num).settle c e n p
  | .error (.fault f) s' => (s'.calm s c e n.num).entryFault c e n f
  | .error (.faultAt _ f) s' => (s'.calm s c e n.num).entryFault c e n f
  | .error (.stall _) _ => old

/-- The same for a CQ entry at the core. -/
def State.runCq (s old : State) (c : Nat) (n : Entry) : State :=
  match startCq c n s with
  | .ok n' s' => s'.onEnt c .cq n.num fun _ => { n' with phase := .started }
  | .error (.fault f) s' => s'.entryFault c .cq n f
  | .error (.faultAt _ f) s' => s'.entryFault c .cq n f
  | .error (.stall _) _ => old

def isChainb : Instr → Bool
  | .chainb _ => true
  | _ => false

/-- An entry that holds its wait tokens starts (R24). -/
def State.startEntry (s : State) (c : Nat) (e : Eng) (n : Entry) : State :=
  let n' := { n with phase := Phase.started, since := none }
  let s' := (s.onCore c (·.popToks (waitFifos e n.instr))).onEnt c e n.num fun _ => n'
  let old := if isChainb n.instr then s.markSince c e n.num else s
  if e = .cq then s'.runCq old c n' else s'.runOn old c e n'

/-- ENGINE_ENTRY_START: the next entry pops its wait tokens and takes its effect (R20, R24, R353). -/
def execEngineEntryStart (c : CoreId) (e : Eng) (s : State) : Out :=
  let x := s.core c.val
  match x.startable e with
  | none => .next s
  | some n => .next (if (x.missing e n).isEmpty then s.startEntry c.val e n else s.markSince c.val e n.num)

/-- What a completed entry wrote stands: in the units that it changed, no reader sees a register any more as it stood before an
earlier write that has not completed (R125). -/
def Core.standing (x : Core) (n : Entry) : Core :=
  if n.olds.isEmpty then x
  else
    let olds (o : Entry) : SMap VRegVal := o.olds.map fun p =>
      if shas n.olds p.1 then (p.1, VRegVal.mix p.2 (x.vreg p.1) (VRegVal.agree (sget n.olds p.1 p.2) (x.vreg p.1))) else p
    allEngs.foldl (fun x e => x.setEq e { x.eq e with ents := (x.eq e).ents.map fun o =>
      if o.wrote < n.wrote then { o with olds := olds o } else o }) x

/-- The core's part of a completion: flags, timeline, tokens, barrier, bundle (R24, R91, R236, R357). -/
def Core.completeEntry (x : Core) (e : Eng) (clock : Nat) (n : Entry) : Core :=
  let x := ((x.standing n).orFlags n.flags)
  let x := x.setEq e ((x.eq e).complete n.num)
  let x := (signalFifos e n.instr).foldl (fun x f => x.pushTok e clock n f) x
  let x := match e, boundOf n.instr with
    | .wq, some b => x.setBar b (x.bar b).walkerArrived
    | _, _ => x
  match n.iter with
  | none => x
  | some (id, i) =>
    let x := { x with bundles := x.bundles.map fun (b : Bundle) =>
      if b.id = id then
        { b with arms := b.arms.map fun (a : Nat × BArm) => if a.1 = e.code then (a.1, a.2.count i) else a }
      else b }
    x.endBundles

/-- An entry that may write memory: it completes, and releases at `.core`, once the writes to other packages are acknowledged
(R314, R318, R333, R357, R360). -/
def mayStore (e : Eng) : Instr → Bool
  | .vchain .. => true
  | _ => e = .sq ∨ e = .wq ∨ e = .lp

/-- The entry that completes next, of those whose effect is whole: the first; among several loads any of them, as a free choice
(R353; DEDUCED log 97). -/
def State.finishing (s : State) (c : Nat) (e : Eng) : Option Entry × State :=
  match e, ((s.core c).eq e).ents.filter (·.phase = .done) with
  | .lq, m :: n :: l => ((m :: n :: l)[(Config.freeValue s.free).toNat % (l.length + 2)]?, s.bump)
  | _, l => (l.head?, s)

/-- ENGINE_ENTRY_COMPLETE: an entry whose effect is whole completes, and what it stored with `.asy` joins the digest; of
a task that has left, nothing else happens (R20, R207, R230). -/
def execEngineEntryComplete (c : CoreId) (e : Eng) (s : State) : Out :=
  match s.finishing c.val e with
  | (none, _) => .next s
  | (some n, s') =>
    let x := s.core c.val
    if mayStore e n.instr ∧ 0 < x.remoteOut then .next s else
    let s := s'.digestStore (s.ctxOf c.val) n.asy
    if x.task.any (·.gone) then
      .next ((s.onEq c.val e fun q => { q with ents := q.ents.filter fun o => o.num ≠ n.num }).drainCore c.val)
    else .next (s.onCore c.val (·.completeEntry e s.clock n))

/-- Entries that have started and whose effect is not whole. -/
def EQueue.going (q : EQueue) : List Entry := q.ents.filter (·.phase = .started)

/-- Such an entry goes on (R322, R341). -/
def State.goOn (s : State) (c : Nat) (e : Eng) (pick : Instr → Bool) : State :=
  (((s.core c).eq e).going.filter fun n => pick n.instr).foldl (fun s n => s.runOn s c e n) s

def isFe : Instr → Bool
  | .vldfe .. => true
  | .vstfe .. => true
  | _ => false

def isTrig : Instr → Bool
  | .trig .. => true
  | _ => false

/-- CHASE_SATISFIED: a chase looks again (R322, R356, R360). -/
def execChaseSatisfied (w : Waiter) (s : State) : Out :=
  match w with
  | .seq q => seqChaseWake q s
  | .eng c e => .next (if e = .cq then s else s.goOn c.val e fun i => !isFe i && !isTrig i)

/-- FULL_EMPTY_WAIT_END: cells are looked at again (R341, R351). -/
def execFullEmptyWaitEnd (w : Waiter) (s : State) : Out :=
  match w with
  | .seq q => seqCellWake q s
  | .eng c e => .next (s.goOn c.val e isFe)

/-- TRIG_FIRE: the counter of a `trig` is looked at again (R234, R360). -/
def execTrigFire (c : CoreId) (s : State) : Out := .next (s.goOn c.val .wq isTrig)

/-- WALKER_FAULT: a command in hand that meets a fault halts the walker queue (R361). -/
def execWalkerFault (c : CoreId) (s : State) : Out :=
  match ((s.core c.val).wq).going with
  | [] => .next s
  | n :: _ =>
    match runEntry c.val n s with
    | .error (.fault f) s' => .next (s'.entryFault c.val .wq n f)
    | _ => .next s

/-- CHAIN_TOO_LONG: the 257th command of a chain reaches the Loom (R174). -/
def execChainTooLong (c : CoreId) (s : State) : Out :=
  match s.chainOf c.val, (s.core c.val).startable .lp with
  | some ch, some n =>
    if ch.slots < 256 ∨ !((s.core c.val).missing .lp n).isEmpty then .next s else .next (s.startEntry c.val .lp n)
  | _, _ => .next s

/-- CQ_ACK: the tile's crier takes the command, or refuses it (R33, R199). -/
def execCqAck (c : CoreId) (s : State) : Out :=
  match ((s.core c.val).cq).going with
  | [] => .next s
  | n :: _ =>
    let ctx := s.ctxOf c.val
    if !s.crierTakes (crierOf ctx n.a.v.toNat) then .next s
    else
      match ackCq ctx n s with
      | .ok s' => .next (s'.onEnt c.val .cq n.num fun o => { o with phase := .done })
      | .error f => .next (s.entryFault c.val .cq n f)

/-! ## The chase monitor (R326, R327, R366) -/

/-- What blocks an engine, with the clock at which it began (R24, R172, R326). -/
inductive Block
  | push (fs : List Fifo)
  | chase (n : Entry) (key : Nat)
  | token (n : Entry) (fs : List Fifo)
  | lease (n : Entry)
  deriving DecidableEq, Repr

def State.engBlock (s : State) (c : Nat) (e : Eng) : Option (Block × Nat) :=
  let x := s.core c
  let q := x.eq e
  let full := q.held.filter fun f => 16 ≤ x.fifos.get f
  if !full.isEmpty && !q.halted then some (.push full, q.heldSince)
  else
    match q.going.findSome? fun n =>
        n.since.bind fun t => (s.chasing c e n).map fun k => (Block.chase n k, t) with
    | some b => some b
    | none =>
      match x.startable e with
      | none => none
      | some n =>
        n.since.bind fun t =>
          let ms := x.missing e n
          if !ms.isEmpty then some (.token n ms, t)
          else if isChainb n.instr ∧ (s.quad (quadOf c)).holder ≠ some c then some (.lease n, t)
          else none

/-- The last opener of a frontier. -/
def State.openerOf (s : State) (key : Nat) : List Waiter :=
  match s.openers.find? (·.1 == key) with
  | some o => [.seq o.2.2]
  | none => []

/-- The frontier on which a sequencer's `fchase` stands. -/
def State.seqChasing (s : State) (q : SeqId) : Option Nat :=
  match (s.seqr q).cur with
  | some (.fchase _ a b _) =>
    s.peek none (do
      let va ← chk13 q (.reg a)
      let n ← chk13 q b
      let c := q.core.val
      let t ← frontAccess front13 (.core c) (s.ctxOf c) .r va.toNat
      let r ← readHome (.core c) t 8
      let w := ofBytes r.1
      pure (if r.2 || fwClosed w || fwHalted w || decide (n.toNat ≤ fwCount w) then none else some (frontKey c t)))
  | _ => none

def SeqId.other (q : SeqId) : SeqId := { q with xs := !q.xs }

/-- The contexts of a core that have not arrived in the phase of a named barrier: a sequencer whose last arrival is not in this
phase, the walker unless a bound command of it has arrived, and the other engines, which never arrive (R326). -/
def State.barSuppliers (s : State) (c : CoreId) (b : Nat) : List Waiter :=
  let k := (s.core c.val).bar b
  let away (q : SeqId) : Bool := !(s.seqr q).pend.any fun p => p.1 == b && p.2 == k.phase
  (([{ core := c, xs := false }, { core := c, xs := true }] : List SeqId).filter away).map .seq ++
    (allEngs.filter fun e => !(e = .wq && k.walked)).map fun e => .eng c e

/-- The team members that have not arrived at the barrier of `carve` (R242). -/
def State.carveSuppliers (s : State) (c : Nat) : List Waiter :=
  ((s.teamCores c).filter fun o => (s.carveOf o).isNone).flatMap fun o =>
    [.seq { core := Fin.ofNat 768 o, xs := false }, .seq { core := Fin.ofNat 768 o, xs := true }]

/-- A sequencer's monitored wait, where it still stands in one: its suppliers (R326). -/
def State.seqBlock (s : State) (q : SeqId) : Option (List Waiter) :=
  let x := s.seqr q
  let o := SeqId.other q
  match x.wait with
  | .chase => (s.seqChasing q).map s.openerOf
  | .outcome =>
    (match x.cur with
     | some (.bobc ..) => if (s.seqr o).outq.isEmpty then some [.seq o] else none
     | some (.bopush ..) => if 16 ≤ x.outq.length then some [.seq o] else none
     | _ => none)
  | .suspend => if (s.seqr o).status = .suspended then none else some [.seq o]
  | .barrier =>
    (match x.cur.bind barOf with
     | some b =>
       let k := (s.core q.core.val).bar b
       if k.failed ∨ phasePassed k.phase (BitVec.ofNat 16 x.waitArg) then none else some (s.barSuppliers q.core b)
     | none => none)
  | .carve =>
    let l := s.carveSuppliers q.core.val
    if l.isEmpty then none else some l
  | _ => none

/-- The contexts on which a context waits (R326). -/
def State.suppliers (s : State) : Waiter → List Waiter
  | .seq q => (s.seqBlock q).getD []
  | .eng c e =>
    match s.engBlock c.val e with
    | none => []
    | some (.push fs, _) => fs.map fun f => .eng c f.ends.2
    | some (.chase _ k, _) => s.openerOf k
    | some (.token _ fs, _) => fs.map fun f => .eng c f.ends.1
    | some (.lease _, _) =>
      match (s.quad (quadOf c.val)).holder with
      | some h => [.eng (Fin.ofNat 768 h) .lp]
      | none => []

/-- The contexts that a walk over the edges reaches (R327); the fuel bounds the contexts of a package. -/
def State.reach (s : State) : Nat → List Waiter → List Waiter → List Waiter
  | 0, _, seen => seen
  | _ + 1, [], seen => seen
  | n + 1, w :: ws, seen => if seen.contains w then s.reach n ws seen else s.reach n (s.suppliers w ++ ws) (w :: seen)

def State.reachFrom (s : State) (w : Waiter) : List Waiter := s.reach 100000 (s.suppliers w) []

/-- The contexts on a cycle through a context; none where the walk does not return (R327). -/
def State.cycleOf (s : State) (w : Waiter) : List Waiter :=
  let r := s.reachFrom w
  if !r.contains w then [] else r.filter fun v => v == w || (s.reachFrom v).contains w

/-- The clock at which a monitored wait began, and the timeout of its die (R366). -/
def State.blockedSince (s : State) : Waiter → Option Nat
  | .seq q => (s.seqBlock q).map fun _ => (s.seqr q).waitSince
  | .eng c e => (s.engBlock c.val e).map (·.2)

def waiterCore : Waiter → Nat
  | .seq q => q.core.val
  | .eng c _ => c.val

/-- The position of a Loom command in its chain, or the one it will take: 1 for `chainb`, and 0 outside any chain (R169). -/
def State.lpPos (s : State) (c : Nat) (n : Entry) : Nat :=
  if n.pos ≠ 0 then n.pos
  else match s.chainOf c with
    | some ch => ch.slots + 1
    | none => if isChainb n.instr then 1 else 0

/-- The detail word of a monitor fault at an engine, of an entry or of a push (R132, R169, R327, R338). -/
def monitorDetail (s : State) (c : Nat) (e : Eng) (n : Option Entry) (cause : Nat) : Nat :=
  match e with
  | .lp =>
    (match n with
     | some n => detailOf 0 (s.lpPos c n) 0x4C
     | none => detailOf (Nat.min (s.core c).lp.heldUnits (2 ^ 32 - 1)) (s.core c).lp.heldPos 0x4C)
  | .ve =>
    (match n with
     | some n => (match n.instr with
       | .vchain .. => chainDetail (unitsDone (chainSteps (tensOf (n.ta.getD 0))) n.units) 0 cause
       | _ => chainDetail 0 0 cause)
     | none => chainDetail (s.core c).ve.heldUnits 0 cause)
  | .wq => detailOf (match n with | some n => Nat.min n.bytes (2 ^ 32 - 1) | none => 0) 0 cause
  | _ => detailOf 0 0 cause

/-- A writer that ends in a fault while it waits shows the units it delivered, and HALTED (R156, R361). -/
def State.haltChaser (s : State) (c : Nat) (e : Eng) (n : Entry) : State :=
  let td := tensOf (n.ta.getD 0)
  let v : Via := { a := engAgent c e, ctx := s.ctxOf c, loom := false }
  match n.instr with
  | .cpy _ _ _ _ close =>
    let xs := cpyPlaces td (winOrg td n.b.v.toNat)
    s.haltWriter v (n.seqId c) 6 (w64 n.num) td (leftUnit (walkSteps td (unitList td xs) close) n.units)
  | .cpyf _ _ _ _ close =>
    let xs := (td.winElems (winOrg td n.b.v.toNat)).filter td.inside
    s.haltWriter v (n.seqId c) 6 (w64 n.num) td (leftUnit (walkSteps td (unitList td xs) close) n.units)
  | .vchain .. =>
    (s.haltWriter v (n.seqId c) 3 (w64 n.num) td (leftUnit (chainSteps td) n.units)).onCore c (·.orFlags n.flags)
  | _ => s

/-- Engines before sequencers: a sequencer's fault may end the task. -/
def engsFirst (l : List Waiter) : List Waiter :=
  let isEng (w : Waiter) : Bool := match w with
    | .eng .. => true
    | .seq _ => false
  l.filter isEng ++ l.filter fun w => !isEng w

/-- Chase-cycle or chase-timeout, delivered to a context; `s₀` is the state in which the monitor decided (R327). -/
def State.monitorFault (s₀ : State) (cyc : Bool) (s : State) (w : Waiter) : State :=
  let cls := if cyc then 0x0D else 0x0E
  let cause := if cyc then 0xA0 else 0xA1
  match w with
  | .seq q =>
    let p := (s₀.seqr q).point
    let r := s₀.seqRec q p (mkFault cls (detailOf 0 0 cause))
    if (s.seqr q).status = .stopped then s.fqWrite r else (s.endStall q).takeFault q r p
  | .eng c e =>
    let f (n : Option Entry) : FaultInfo := mkFault cls (monitorDetail s₀ c.val e n cause)
    match s₀.engBlock c.val e with
    | none => s
    | some (.push _, _) =>
      let k := (s₀.core c.val).eq e
      (s.haltQueue c.val e { core := c, xs := k.heldXs } k.heldNum (f none)).onEq c.val e fun k => { k with held := [] }
    | some (.chase n _, _) => (s.haltChaser c.val e n).entryFault c.val e n (f (some n))
    | some (.token n _, _) => s.entryFault c.val e n (f (some n))
    | some (.lease n, _) => s.entryFault c.val e n (f (some n))

/-- CHASE_TIMEOUT: a monitored wait has lasted CHTO clocks; every context of a cycle through it takes chase-cycle, and
otherwise it alone takes chase-timeout (R326, R327; DEDUCED log 58). -/
def execChaseTimeout (w : Waiter) (s : State) : Out :=
  match s.blockedSince w with
  | none => .next s
  | some t =>
    if s.clock < t + (s.die (dieOf (waiterCore w))).chto.toNat then .next s
    else
      let ms := s.cycleOf w
      .next (if ms.isEmpty then s.monitorFault false s w else (engsFirst ms).foldl (s.monitorFault true) s)

end Sys2Proof.Machine
end

