-- ==== Sys2Proof/Machine/Owner.lean ====
section
/-! DEFINITION. Masters, elections, handover and attestation (R373-R377, R394-R396), and who may write what (R376). -/

namespace Sys2Proof.Machine

open Sys2Proof

/-! ## Who may write (R376, R377, R380) -/

/-- The port is the owner's. -/
def Syc.owns (y : Syc) (p : Nat) : Bool := y.ownerValid && y.ownerPort.toNat == p

/-- Every write of the owner is refused: a handover is being checked (R377). -/
def Syc.barred (y : Syc) (p : Nat) : Bool := y.owns p && y.hgoBusy

/-- The writer has the owner's right to write: the owner, but for the time in which a handover is checked, or a store of
the management context (DEDUCED log 61). -/
def State.mayWrite (s : State) : Writer → Bool
  | .mgmt => true
  | .syc => false
  | .master p _ => s.syc.owns p.val && !s.syc.hgoBusy

/-- A refused write of a master has no effect; the SYC counts it, and answers it as it travelled: a posted one is dropped (R376). -/
def State.refuse (s : State) : Writer → State
  | .mgmt => s
  | .syc => s
  | .master p how =>
    let s := s.onSyc fun y => { y with refusals := y.refusals + 1 }
    match how with
    | .posted => s
    | _ => s.send (.refusal p.val how)

/-! ## Elections (R375) -/

/-- An election begins when no owner stands and some claim is LIVE; the boot ROM holds none (R375, R425). -/
def State.elect (s : State) : State :=
  if !s.syc.ownerValid && s.syc.electionAt.isNone && !s.syc.livePorts.isEmpty && s.syc.state != 0 then
    s.onSyc fun y => { y with electionAt := some s.clock }
  else s

/-- The owner loses ownership (R375). -/
def State.loseOwner (s : State) : State :=
  if s.syc.ownerValid then (s.onSyc fun y => { y with ownerValid := false, epoch := y.epoch + 1 }).elect else s

/-- OWNER_ELECTION_END: 1,250,000 clocks after an election began (R375). -/
def execOwnerElectionEnd (s : State) : Out :=
  match s.syc.electionAt with
  | none => .next s
  | some t => .next (if s.clock < t + electionClocks then s else s.onSyc Syc.elected)

/-- A write that only the owner may make. -/
def ownerWrite (w : Writer) (s : State) (f : State → State) : Out :=
  let s := s.settled
  .next (if s.mayWrite w then f s else s.refuse w)

/-- A write that every master may make, but for an owner whose handover is being checked (R376, R377). -/
def openWrite (w : Writer) (s : State) (f : State → State) : Out :=
  let s := s.settled
  let barred := match w with
    | .master p _ => s.syc.barred p.val
    | _ => false
  .next (if barred then s.refuse w else f s)

/-- CLAIM_WRITE: master `p` writes CLAIM of `port`; only its own is taken (R374, R376). -/
def execClaimWrite (via : FromPort 4) (port : Fin 4) (v : Word) (s : State) : Out :=
  let p := via.port
  let how := via.how
  if p ≠ port then ownerWrite (.master p how) s id
  else
    let s := s.settledBefore
    if s.syc.barred p.val then .next (s.refuse (.master p how))
    else .next (
    if s.syc.state = 0 then s
    else
      let c := s.syc.claimOf p.val
      let s := s.onSyc fun y =>
        { y with claims := listSet y.claims p.val { c with prio := v.extractLsb' 8 8, claim := v.getLsbD 0 } }
      if s.syc.owns p.val && !v.getLsbD 0 then s.loseOwner else s.elect)

/-- OWNER_LOSS: the owner's link goes down or its agent resets (R375). -/
def execOwnerLoss (s : State) : Out := .next s.settled.loseOwner

/-- MASTER_LINK_CHANGE: LIVE follows the link; an owner whose link goes down loses ownership (R374, R375). -/
def execMasterLinkChange (p : Fin 4) (up : Bool) (s : State) : Out :=
  let s := s.settledBefore.onSyc fun y => { y with claims := listSet y.claims p.val { y.claimOf p.val with link := up } }
  .next (if s.syc.owns p.val && !up then s.loseOwner else s.elect)

/-! ## Handover (R377) -/

/-- HGO_WRITE: a check of HREQ begins (R377; a write without bit 0 only renews HNONCE, DEDUCED log 33). -/
def execHgoWrite (w : Writer) (v : Word) (s : State) : Out :=
  ownerWrite w s fun s =>
    if v.getLsbD 0 then s.onSyc fun y => { y with hgoBusy := true }
    else s.onSyc fun y => { y with hnonce := Config.nextNonce y.hnonce }

/-- What HSTAT shows for the request in HREQ, in the order of its codes (R377). -/
def Syc.handover (y : Syc) : Nat :=
  let bs := toBytes 512 y.hreq.toNat
  let w0 := ofBytes (bs.take 8)
  let target := fld w0 0 2
  if !signedUnder y.operatorKey (bs.drop 128) (sha256 (bs.take 128)) then 1
  else if fld w0 32 16 ≠ y.epoch.toNat ∨ ofBytes ((bs.drop 8).take 8) ≠ y.hnonce.toNat then 2
  else if !(y.claimOf target).live then 3
  else if fld w0 2 30 ≠ 0 ∨ fld w0 48 16 ≠ 0 ∨ ((bs.drop 16).take 112).any (· ≠ 0) ∨ target = y.ownerPort.toNat then 4
  else 0

/-- HSTAT_UPDATE: the check ends; HNONCE takes a new value whatever the outcome (R377). -/
def execHstatUpdate (s : State) : Out :=
  if !s.syc.hgoBusy then .next s
  else
    let r := s.syc.handover
    .next (s.onSyc fun y =>
      let y := { y with hgoBusy := false, hstat := BitVec.ofNat 64 r, hnonce := Config.nextNonce y.hnonce }
      if r = 0 then { y with ownerPort := y.hreq.extractLsb' 0 2, epoch := y.epoch + 1 } else y)

/-! ## Attestation (R394, R396) -/

/-- ATTGO_WRITE: any master may ask for a report; while one is produced the write is ignored (R396). -/
def execAttgoWrite (w : Writer) (v : Word) (s : State) : Out :=
  openWrite w s fun s =>
    if s.syc.attgo ∨ !v.getLsbD 0 then s else s.onSyc fun y => { y with attgo := true, attNonce := y.nonce }

/-- The SVN of the running crier image: the lowest among the criers that run verified firmware (DEDUCED log 34). -/
def State.crierSvn (s : State) : BitVec 16 :=
  let l := (s.criers.filter fun (p : Nat × Crier) => p.2.verified).map fun (p : Nat × Crier) => p.2.svn
  match l with
  | [] => 0
  | a :: l => l.foldl (fun m v => if v < m then v else m) a

/-- The SVN of the running image of a class. -/
def State.runningSvn (s : State) (c : Nat) : BitVec 16 := if c = 2 then s.crierSvn else s.syc.svnRun.getD c 0

/-- A digest as its 32 bytes. -/
def digestBytes (d : BitVec 256) : List Byte := (toBytes 32 d.toNat).reverse

/-- Bytes 0-191 of a report (R375, R396). -/
def State.reportHead (s : State) : List Byte :=
  let y := s.settled.syc
  toBytes 8 1 ++
  toBytes 8 (y.ownerValid.toNat * 2 ^ 50 + y.ownerPort.toNat * 2 ^ 48 + y.epoch.toNat * 2 ^ 32 + s.pkg.toNat) ++
  toBytes 32 y.attNonce.toNat ++ digestBytes (y.imgDigest.getD 0 0) ++ digestBytes (y.imgDigest.getD 1 0) ++
  digestBytes (sha256 ((List.range 48).flatMap fun k => digestBytes (s.crier k).digest)) ++
  toBytes 8 ((s.runningSvn 0).toNat + (s.runningSvn 1).toNat * 2 ^ 16 + (s.runningSvn 2).toNat * 2 ^ 32) ++
  toBytes 8 (y.opFused.toNat * 16 + y.revoked.toNat) ++ List.replicate 32 0

/-- REPORT_READY: the report stands, and ATTGO returns to 0 (R396). -/
def execReportReady (s : State) : Out :=
  if !s.syc.attgo then .next s
  else
    let h := s.reportHead
    .next (s.onSyc fun y =>
      { y with attgo := false, report := BitVec.ofNat 4608 (ofBytes h + 2 ^ (8 * 192) * (Config.identitySign h).toNat) })

/-- SVNSET_WRITE: a class minimum rises to the running image's SVN (R395). -/
def execSvnsetWrite (w : Writer) (v : Word) (s : State) : Out :=
  ownerWrite w s fun s =>
    let c := fld v.toNat 0 4
    let n := s.runningSvn c
    if c ≤ 2 ∧ s.syc.svnMin.getD c 0 < n then s.onSyc fun y => { y with svnMin := listSet y.svnMin c n } else s

end Sys2Proof.Machine
end

