-- ==== Sys2Proof/Machine/Power.lean ====
section
/-! DEFINITION. Power, throttling, trips, reset and bring-up (R395, R421-R427). -/

namespace Sys2Proof.Machine

open Sys2Proof

/-! ## Throttling (R422, R424) -/

/-- The readings of THROTTLE and THROTTLE_END: PIN, PMAX and TJ. -/
def Syc.sense (y : Syc) (pin : BitVec 16) (tj : BitVec 8) : Syc :=
  { y with pin := pin, pmax := if y.pmax < pin then pin else y.pmax, tj := tj }

/-- The window of 1 ms in which a clock falls (R421; DESIGN CHOICE log 14). -/
def powerWindow (clock : Nat) : Nat := clock / 1250000

/-- The enable and the cap in force at a clock: those of before a write until the window of the write ends (R427). -/
def Syc.capNow (y : Syc) (clock : Nat) : Bool × BitVec 12 :=
  match y.capOld with
  | some (w, c) => if powerWindow clock = w then c else (y.pcapEn, y.pcap)
  | none => (y.pcapEn, y.pcap)

/-- The power cap in force asks for throttling. -/
def Syc.overCap (y : Syc) (clock : Nat) (pin : BitVec 16) : Bool :=
  (y.capNow clock).1 && decide ((y.capNow clock).2.toNat < pin.toNat)

/-! ## Trips and reset (R421, R425, R427) -/

/-- Memory that keeps its contents in a trip: the second tier (R421). -/
def tier2 (place : Nat) : Bool := 32 ≤ place / 2 ^ 36

/-- The package trips: arrays, slices and HBM lose their contents, and every operation ends; the SYC runs on in state 7, and
the registers of the interposer stand (R421, R427; DESIGN CHOICE log 39). -/
def State.trip (s : State) : State :=
  { State.reset with
    clock := s.clock
    dies := s.dies
    ctxs := s.ctxs.foldl (fun m c =>
      sset m c.1 { c.2 with tiles := [], groups := [], regions := [], watches := [], ckLines := [] } Ctx.reset) []
    queues := s.queues
    clx := s.clx
    mem := s.mem.filter fun c => tier2 c.1
    mpois := s.mpois.filter fun k => tier2 (64 * k)
    pools := s.pools
    smap := s.smap
    pkg := s.pkg
    ports := s.ports
    rbsStatus := s.rbsStatus
    rbsLines := s.rbsLines
    syc := { s.syc with state := 7, cause := 0, trained := 0, full := false, attgo := false, hgoBusy := false }
    agenda := s.agenda
    turn := s.turn
    free := s.free
    nextInst := s.nextInst
    outbox := s.outbox }

/-- The package has tripped: no operation completes (R427). -/
def State.tripped (s : State) : Bool := s.syc.state = 7

/-- PACKAGE_TRIP: the input has stayed below 42 V for 1 ms, or a junction has reached 110 degrees (R421; DESIGN CHOICE log 14). -/
def execPackageTrip (s : State) : Out := .next s.trip

/-- THROTTLE: the power over the cap, or a junction at 100 degrees, with no result changed (R422); a junction at 110 degrees
trips the package (R421). -/
def execThrottle (pin : BitVec 16) (tj : BitVec 8) (s : State) : Out :=
  let above := s.syc.overCap s.clock pin
  let t := s.onSyc fun y => { y.sense pin tj with thr := true, pwrthr := above }
  if 110 ≤ tj.toNat then .next t.trip
  else if above ∨ 100 ≤ tj.toNat then .next t
  else .next s

/-- THROTTLE_END: the power at most the cap, and junctions below 100 degrees (R422). -/
def execThrottleEnd (pin : BitVec 16) (tj : BitVec 8) (s : State) : Out :=
  if s.syc.overCap s.clock pin ∨ 100 ≤ tj.toNat then .next s
  else .next (s.onSyc fun y => { y.sense pin tj with thr := false, pwrthr := false })

/-- PACKAGE_RESET: the bring-up starts from the boot ROM; the histograms and the fuses survive (R394, R412, R425; DESIGN CHOICE log 63). -/
def execPackageReset (s : State) : Out :=
  .next { State.reset with
    syc := { Syc.reset with hist := s.syc.hist, svnMin := s.syc.svnMin, revoked := s.syc.revoked, opFused := s.syc.opFused,
                            errLog := s.syc.errLog }
    agenda := s.agenda
    turn := s.turn
    free := s.free
    nextInst := s.nextInst
    outbox := s.outbox }

/-! ## Bring-up (R425, R426) -/

/-- The boot is refused with its cause. -/
def State.bootRefused (s : State) (cause : Nat) : State := s.onSyc fun y => { y with state := 6, cause := cause }

/-- A notice of a part that did not come up; its CAUSE is not stated (R425, DESIGN CHOICE log 40). -/
def State.lossNotice (s : State) (detail : Nat) : State :=
  (s.mgmtNotice ((Config.freeValue s.free).toNat % 2 ^ 32) detail).bump

/-- An image of a class runs: its digest and SVN (R395). -/
def Syc.boot (y : Syc) (c : Nat) (digest : BitVec 256) (svn : BitVec 16) : Syc :=
  { y with imgDigest := listSet y.imgDigest c digest, svnRun := listSet y.svnRun c svn }

/-- Dies that fail their self-test stay in DSTAT state 5, out of the home hash (R425). -/
def State.dieTests (s : State) (passed : BitVec 6) : State :=
  (List.range 6).foldl (fun s d =>
    if passed.getLsbD d then s.onDie d fun k => { k with passed := true }
    else (s.onDie d fun k => { k with state := 5, unhashed := true }).lossNotice d) s

/-- The stacks of some indices have trained; each of the others is a loss (R425). -/
def State.train (s : State) (live : BitVec 12) (lo n : Nat) : State :=
  (List.range n).foldl (fun s j =>
    let i := lo + j
    if live.getLsbD i then
      s.onSyc fun y => { y with trained := y.trained ||| BitVec.ofNat 32 (2 ^ (s.smapOf i).socket.toNat) }
    else s.lossNotice (16 + i)) s

/-- The image of each crier is verified; a crier whose image is refused runs no firmware, and its port stays down (R395, R423). -/
def State.bootCriers (s : State) (images : List (List (BitVec 8))) : State :=
  (List.range 48).foldl (fun s k =>
    match s.syc.accepts 2 (images.getD k []) with
    | some (digest, svn) => s.setCrier k { s.crier k with digest := digest, svn := svn, verified := true }
    | none => s) s

/-- A stage of the boot verifies an image of a class: it runs, or the boot is refused with its cause (R395). -/
def State.bootStage (s : State) (cls cause next : Nat) (img : List (BitVec 8)) : State :=
  match s.syc.accepts cls img with
  | some (digest, svn) => s.onSyc fun y => { y.boot cls digest svn with state := next }
  | none => s.bootRefused cause

/-- BRING_UP_STEP: the step that STATE stands at completes, or the boot is refused (R395, R425). -/
def execBringUpStep (r : BootResult) (s : State) : Out :=
  match s.syc.state, r with
  | 0, .image img => .next (s.bootStage 0 1 1 img).elect
  | 1, .image img => .next (s.bootStage 1 2 2 img)
  | 2, .trained passed live =>
    if passed = 0 then .next (s.bootRefused 3)
    else if !(live.getLsbD 0 && live.getLsbD 1) then .next (s.bootRefused 4)
    else .next (((s.dieTests passed).train live 0 2).onSyc fun y => { y with state := 3 })
  | 3, .service => .next (s.onSyc fun y => { y with state := 4 })
  | 4, .full live images =>
    if s.syc.full then .next s
    else .next (((s.train live 2 10).bootCriers images).onSyc fun y => { y with full := true })
  | _, _ => .next s

/-- READY, after the training of state 4: full service, in one step (R425, R426). -/
def execReady (s : State) : Out :=
  .next (if s.syc.state = 4 ∧ s.syc.full then s.onSyc fun y => { y with state := 5 } else s)

end Sys2Proof.Machine
end

