-- ==== Sys2Proof/Machine/Outside.lean ====
section
/-! DEFINITION. Hosts, other packages, and the links to them (R12, R40, R289, R304, R331, R333, R378). -/

namespace Sys2Proof.Machine

open Sys2Proof

/-! ## Hosts (R304) -/

/-- The addresses of a range, one in each sector that it meets. -/
def sectorsOf (pa n : Nat) : List Nat := (List.range ((pa + n - 1) / 64 - pa / 64 + 1)).map fun i => Nat.max pa (64 * (pa / 64 + i))

/-- A host may reach the frame: it is present, with HC set, and no pool frame (R304, R389); a frame behind an absent die
is not reached (R18). -/
def State.hostSees (s : State) (pa : Nat) : Bool :=
  s.isLocal pa && s.frameHome pa != 0 && fld (s.fatEntry pa) 4 1 == 1 && (s.poolOf pa).isNone &&
    !s.dieAbsent pa (s.homeLeaf pa false) && s.syc.state != 7

/-- A write at its home that is no core's and no context's. -/
def outsideBy (home : Nat) : WBy := { core := none, ctx := 0, ckp := false, l2 := home = 1 ∨ home = 2 }

/-- Write a range sector by sector at its home. -/
def State.outsideWrite (s : State) (pa : Nat) (bs : List Byte) (p : Bool) : State :=
  (sectorsOf pa bs.length).foldl (fun s a =>
    s.homeWrite (outsideBy (s.frameHome a)) a ((bs.drop (a - pa)).take (64 - a % 64)) p) s

/-- Another host port that trained as CXL holds no copy of a written line any more (R304). -/
def State.invOthers (s : State) (port : Nat) (pas : List Nat) : State :=
  if s.ports.any (fun p => p.1 ≠ port ∧ p.2 = .cxl) then
    ((pas.map fun a => a / 128 * 128).eraseDups).foldl (fun s a => s.send (.backInvalidate a)) s
  else s

/-- The master of a host port (R373). -/
def hostMaster (port : Fin 2) (how : Travel) : Writer := .master (Fin.ofNat 4 port.val) how

/-- A host's access to a frame that it does not see is refused as it travelled: an Unsupported Request, an error response on CXL.mem,
and nothing for a posted write (R304). -/
def State.hostRefuse (s : State) (port : Nat) : Travel → State
  | .posted => s
  | how => s.send (.refusal port how)

/-- HOST_WRITE (R304, R376): refused for a host that is not the owner, and as a whole where some frame may not be reached; a hold
delays it (DEDUCED log 62). A host names a frame by its physical address (R378; DESIGN CHOICE log 81). -/
def execHostWrite (via : FromPort 2) (pa : BitVec 48) (bytes : List (BitVec 8)) (s : State) : Out :=
  let port := via.port
  let as_ := sectorsOf pa.toNat bytes.length
  if !shas s.ports port.val ∨ bytes.isEmpty ∨ as_.any s.heldAt then .next s
  else
    ownerWrite (hostMaster port via.how) s fun s =>
      if !as_.all s.hostSees then s.hostRefuse port.val via.how
      else (s.invOthers port.val as_).outsideWrite pa.toNat bytes false

/-- HOST_READ (R304). -/
def execHostRead (via : FromPort 2) (pa : BitVec 48) (n : Nat) (s : State) : Out :=
  let port := via.port
  let as_ := sectorsOf pa.toNat n
  if !shas s.ports port.val ∨ n = 0 ∨ as_.any s.heldAt then .next s
  else if !as_.all s.hostSees then .next (s.hostRefuse port.val via.how)
  else .next (s.send (.completion port.val true (s.bytes pa.toNat n)))

/-- HOST_SNOOP: the P6 holds no host line, so every snoop is a miss (R304). -/
def execHostSnoop (port : Fin 2) (_pa : BitVec 48) (s : State) : Out :=
  .next (if sget s.ports port.val .pcie = .cxl then s.send (.snoopMiss port.val) else s)

/-- HOST_PORT_TRAINING: the mode is fixed until the next retrain (R40). -/
def execHostPortTraining (port : Fin 2) (mode : PortMode) (s : State) : Out :=
  .next { s with ports := sput s.ports port.val mode }

/-! ## Other packages (R12, R289) -/

/-- The address that a request names. -/
def reqAddr : RemoteReq → Nat
  | .read pa _ => pa.toNat
  | .write pa _ _ => pa.toNat
  | .atomic pa _ _ _ _ => pa.toNat
  | .cas pa _ _ _ => pa.toNat

/-- The bytes that a request names. -/
def reqLen : RemoteReq → Nat
  | .read _ n => n.val
  | .write _ bs _ => bs.length
  | .atomic _ _ _ w _ => if w then 8 else 4
  | .cas _ w _ _ => if w then 8 else 4

/-- The frame serves other packages: present, outside the reserved regions and the pools, not behind an absent die, and in
full service (R12, R287, R389, R393, R426; DEDUCED log 41). -/
def State.remoteSees (s : State) (pa : Nat) : Bool :=
  s.isLocal pa && s.frameHome pa != 0 && !s.reserved pa && (s.poolOf pa).isNone && !s.dieAbsent pa (s.homeLeaf pa false) &&
    s.syc.state == 5 && !configSpace pa

/-- An atomic of another package: aligned, and not on an uncached frame (R289, R335). -/
def State.remoteAtomOk (s : State) (pa n : Nat) : Bool := pa % n == 0 && s.frameHome pa != 3

/-- Serve a request at its home: success, the bytes that go back, their poison. -/
def State.serveRemote (s : State) (r : RemoteReq) : (Bool × List Byte × Bool) × State :=
  let pa := reqAddr r
  let n := reqLen r
  let rmw (f : Nat → Option Nat) : (Bool × List Byte × Bool) × State :=
    if !s.remoteAtomOk pa n then ((false, [], false), s)
    else if s.poisAt pa n then ((true, s.bytes pa n, true), s)
    else
      let old := s.physNat pa n
      ((true, s.bytes pa n, false), match f old with
        | none => s
        | some v => s.outsideWrite pa (toBytes n v) false)
  match r with
  | .read _ _ =>
    if paIdx pa = 15 then let q := s.ioRead pa n; ((true, q.1, false), q.2)
    else ((true, s.bytes pa n, s.poisAt pa n), s)
  | .write _ bs p => ((true, [], false), if paIdx pa = 15 then s.ioWrite pa bs else s.outsideWrite pa bs p)
  | .atomic _ op f32 _ v => rmw fun old => some (newAtom f32 op n old v.toNat)
  | .cas _ _ e v => rmw fun old => if old = e.toNat % 2 ^ (8 * n) then some (v.toNat % 2 ^ (8 * n)) else none

/-- REMOTE_REQUEST: an access of another package is served at its home here, and answered (R12, R289, R333). -/
def execRemoteRequest (pkg : Fin 256) (r : RemoteReq) (s : State) : Out :=
  let as_ := sectorsOf (reqAddr r) (reqLen r)
  if reqLen r = 0 ∨ pkg.val = s.pkg.toNat ∨ !s.fabricUp ∨ as_.any s.heldAt then .next s
  else if !as_.all s.remoteSees then .next (s.send (.remoteReply pkg.val false [] false))
  else
    let q := s.serveRemote r
    .next (q.2.send (.remoteReply pkg.val q.1.1 q.1.2.1 q.1.2.2))

/-- REMOTE_ACK: a write to another package counts as performed (R333). -/
def execRemoteAck (a : AckFor) (s : State) : Out :=
  match a with
  | .core c => .next (s.onCore c.val fun x => { x with remoteOut := x.remoteOut - 1 }).lateResume
  | .crier k => .next (s.setCrier k.val { s.crier k.val with remoteOut := (s.crier k.val).remoteOut - 1 })

/-- LINK_REPLAY: the failed flit goes again on its port, and order on that port stands (R331). -/
def execLinkReplay (port : Fin 48) (s : State) : Out := .next (if s.portUp port.val then s.send (.replay port.val) else s)

end Sys2Proof.Machine
end

