-- ==== Sys2Proof/Machine/Registers.lean ====
section
/-! DEFINITION. Writes to the registers of interposer configuration space and SYC space, each under its acceptance rule
(R12-R15, R221, R223, R224, R231, R366, R379, R386-R388, R392, R393, R403, R407, R424). -/

namespace Sys2Proof.Machine

open Sys2Proof

/-- Every context descriptor has EN = 0. -/
def State.allOff (s : State) : Bool := s.ctxs.all fun c => !c.2.en

/-- A value between two bounds. -/
def clampN (lo hi v : Nat) : Nat := Nat.min hi (Nat.max lo v)

/-! ## Queues, contexts, pools -/

/-- A queue descriptor with one word written (R221); a queue that passes to another context leaves its snapshot behind (R410). -/
def Queue.setWord (d : Queue) (word : Nat) (v : Word) : Queue :=
  match word with
  | 0 =>
    let c := fld v.toNat 58 6
    { d with ctx := c, base := v.extractLsb' 0 52, snap := if c = d.ctx then d.snap else none }
  | 1 => { d with tail := v.extractLsb' 32 32, head := v.extractLsb' 0 32 }
  | 2 => { d with free := v.extractLsb' 0 32 }
  | _ => { d with en := v.getLsbD 17, log2n := clampN 4 20 (fld v.toNat 12 5), cls := fld v.toNat 8 4, tickets := fld v.toNat 0 8 }

/-- The two descriptors differ at most in EN and TICKETS. -/
def Queue.sameRing (d e : Queue) : Bool :=
  d.ctx == e.ctx && d.base == e.base && d.tail == e.tail && d.head == e.head && d.free == e.free && d.log2n == e.log2n && d.cls == e.cls

/-- QUEUE_DESCRIPTOR_WRITE: a change of the ring only while FREE = TAIL; EN and TICKETS at any time (R221). -/
def execQueueDescriptorWrite (w : Writer) (q : Fin 256) (word : Fin 4) (v : Word) (s : State) : Out :=
  ownerWrite w s fun s =>
    let d := s.queue q.val
    let e := d.setWord word.val v
    if d.sameRing e || d.free == d.tail then s.setQueue q.val e else s

/-- CONTEXT_DESCRIPTOR_WRITE (R379, R392): ROOT stays while EN = 1, EN needs a JTB, at most one context has MGMT. -/
def execContextDescriptorWrite (w : Writer) (c : Fin 64) (v : Word) (s : State) : Out :=
  ownerWrite w s fun s =>
    let d := s.ctx c.val
    let en := v.getLsbD 63
    let mgmt := v.getLsbD 62
    let root : BitVec 32 := v.extractLsb' 16 32
    if (d.en ∧ root ≠ d.root) ∨ (en ∧ d.jtb = 0) then s
    else
      let s := if mgmt then { s with ctxs := s.ctxs.foldl (fun m k => sset m k.1 { k.2 with mgmt := false } Ctx.reset) [] } else s
      let s := s.onCtx c.val fun k => { k with en := en, mgmt := mgmt, root := root }
      if en then s.lateResume else s

/-- A pool descriptor with one word written (R388). -/
def Pool.setWord (d : Pool) (word : Nat) (v : Word) : Pool :=
  match word with
  | 0 => { d with en := v.getLsbD 63, ctx := fld v.toNat 52 6, pfb := v.extractLsb' 16 32 }
  | _ => { d with npg := v.extractLsb' 48 16, bmap := v.extractLsb' 3 45 }

/-- Two pools have a page in common. -/
def Pool.meets (d e : Pool) : Bool :=
  d.pfb.toNat < e.pfb.toNat + e.npg.toNat && e.pfb.toNat < d.pfb.toNat + d.npg.toNat

/-- Lines of a pool's frames are never held in L1: what L1s hold of them when the pool is enabled is written back and
dropped, those that an obstacle delays as soon as it goes (R389; DEDUCED log 80). -/
def State.dropPool (s : State) (d : Pool) : State :=
  s.cores.foldl (fun s (p : Nat × Core) =>
    (p.2.lines.filter fun l => d.pfb.toNat ≤ l / 512 && l / 512 < d.pfb.toNat + d.npg.toNat).foldl
      (fun s l => s.evictOrWait p.1 l) s) s

/-- POOL_DESCRIPTOR_WRITE (R388): an enabled pool takes no change but the clearing of EN; enabled pools never overlap. -/
def execPoolDescriptorWrite (w : Writer) (p : Fin 16) (word : Fin 2) (v : Word) (s : State) : Out :=
  ownerWrite w s fun s =>
    let d := s.pool p.val
    let e := d.setWord word.val v
    let free := !d.en || e == { d with en := false }
    let clash := e.en && (List.range 16).any fun k => k != p.val && (s.pool k).en && e.meets (s.pool k)
    if free ∧ !clash then (if e.en ∧ !d.en then s.dropPool e else s).setPool p.val e else s

/-- PKGSET_WRITE: only while every context has EN = 0 (R392). -/
def execPkgsetWrite (w : Writer) (v : Word) (s : State) : Out :=
  ownerWrite w s fun s => if s.allOff then { s with pkg := v.extractLsb' 0 8 } else s

/-! ## The socket map and the second-tier windows (R13, R15) -/

/-- The socket that an index has, or is being given. -/
def SMapEnt.goal (e : SMapEnt) : BitVec 5 := e.rewrite.getD e.socket

/-- SMAP_WRITE, by the owner or by the SYC's firmware (R13): refused outside 6-17 and where two live indices would meet at one socket; an accepted write holds the
index's traffic until it takes effect (R13, R392). -/
def execSmapWrite (w : Writer) (i : Fin 12) (v : Word) (s : State) : Out :=
  let put (s : State) : State :=
    let k : BitVec 5 := v.extractLsb' 0 5
    let clash := s.syc.trained.getLsbD k.toNat && (List.range 12).any fun j => j != i.val && (s.smapOf j).goal == k
    if k.toNat < 6 ∨ 17 < k.toNat ∨ clash then s else s.setSmap i.val { s.smapOf i.val with rewrite := some k }
  if w = .syc then .next (put s) else ownerWrite w s put

/-- The frames whose attribute entries have a byte other than what unlisted memory reads as. -/
def State.fatListed (s : State) : List Nat :=
  let base := s.syc.fatb.toNat * 2 ^ 26
  if !s.isLocal base then []
  else (s.mem.filter fun c => s.place base ≤ c.1 && c.1 < s.place base + 2 ^ 26).map fun c => (c.1 - s.place base) / 4

/-- The slice-pinned frames of HBM that the map of `t` puts at another place: their places in `s` and in `t`. -/
def State.pinnedMoves (s t : State) : List (Nat × Nat) :=
  (s.fatListed.eraseDups.map fun f => s.pkg.toNat * 2 ^ 40 + f * 2 ^ 16).filterMap fun pa =>
    if paIdx pa ≤ 11 ∧ s.frameHome pa = 2 ∧ s.place pa ≠ t.place pa then some (s.place pa, t.place pa) else none

/-- Where a move takes unit `k` of the storage, cut into units of `n` bytes. -/
def movedTo (moves : List (Nat × Nat)) (n k : Nat) : Option Nat :=
  (moves.find? fun m => m.1 / n ≤ k && k < m.1 / n + 65536 / n).map fun m => k - m.1 / n + m.2 / n

/-- `t`, with the bytes and the poison of every slice-pinned page as they stood in `s`: such a page lives in its slice (R293), whatever
socket its frame's index names. What the sockets hold beneath such pages the spec leaves open (DESIGN CHOICE log 38). -/
def State.keepPinned (s t : State) : State :=
  let moves := s.pinnedMoves t
  let under (n k : Nat) : Bool := moves.any fun m => m.2 / n ≤ k && k < m.2 / n + 65536 / n
  { t with
    mem := (s.mem.filterMap fun c => (movedTo moves 1 c.1).map (·, c.2)).foldl (fun m c => memSet m c.1 c.2) (s.mem.filter fun c => !under 1 c.1)
    mpois := (s.mpois.filterMap (movedTo moves 64)).foldl nins (s.mpois.filter fun k => !under 64 k) }

/-- SMAP_REWRITE_COMPLETE: accepted rewrites take effect, and the held traffic goes on (R13). -/
def execSmapRewriteComplete (s : State) : Out :=
  .next (s.keepPinned ((List.range 12).foldl (fun s i =>
    let e := s.smapOf i
    s.setSmap i { socket := e.goal, rewrite := none }) s)).lateResume

/-- Some frame of window `n` is marked present (R15). -/
def State.windowInUse (s : State) (n : Nat) : Bool :=
  s.fatListed.any fun f => f / 2 ^ 20 == 12 + n && s.frameHome (s.pkg.toNat * 2 ^ 40 + f * 2 ^ 16) != 0

/-- SEGW_WRITE: refused with "window in use" while a frame of the window is present (R15). -/
def execSegwWrite (w : Writer) (n : Fin 3) (v : Word) (s : State) : Out :=
  ownerWrite w s fun s =>
    if s.windowInUse n.val then s.send (.segwInUse n.val)
    else s.onSyc fun y => { y with segw := listSet y.segw n.val (v.extractLsb' 0 4) }

/-! ## TLB invalidation (R386) -/

/-- TLBI_WRITE: an invalidation begins, or DROP is set while one is in progress. -/
def execTlbiWrite (w : Writer) (v : Word) (s : State) : Out :=
  ownerWrite w s fun s => if s.tlbi.isSome then { s with tlbDrop := true } else { s with tlbi := some v }

/-- The request names this context. -/
def tlbiCtx (v : Nat) (ctx : Nat) : Bool := fld v 56 1 == 1 || fld v 58 6 == ctx

/-- The request names this context and a page that meets these addresses. -/
def tlbiMatch (v : Nat) (ctx va size : Nat) : Bool :=
  let n := pageSize (fld v 0 2)
  let page := fld v 16 36 * 2 ^ 16 / n * n
  tlbiCtx v ctx && (fld v 56 2 != 0 || (page < va + size && va < page + n))

def keepTlb (v : Nat) (l : List TlbEntry) : List TlbEntry := l.filter fun e => !tlbiMatch v e.ctx e.va (pageSize e.leaf.sz)

/-- The span of addresses that a pointer of a level serves. -/
def walkSpan (level : Nat) : Nat := match level with | 1 => 2 ^ 39 | 2 => 2 ^ 30 | _ => 2 ^ 21

def keepWalk (v : Nat) (l : List WalkEntry) : List WalkEntry :=
  l.filter fun e => !tlbiMatch v e.ctx (e.va * walkSpan e.level) (walkSpan e.level)

/-- An access of the named context may not have been performed at its home yet: a core's count of writes to other packages does not
tell contexts apart. -/
def Core.unperformed (v : Nat) (x : Core) : Bool := 0 < x.remoteOut || x.nrOut.any fun o => tlbiCtx v o.ctx

/-- The dirty lines that accesses of the named context left in a core's L1. -/
def State.tlbiLines (s : State) (v c : Nat) : List Nat :=
  ((s.core c).l1.filter fun (l : Nat × L1Line) => tlbiCtx v l.2.ctx).map (·.1)

/-- Something that used a matching entry has not been performed at its home, or cannot be yet (R13, R18, R386, R417). -/
def State.tlbiWaits (s : State) (v : Nat) : Bool :=
  (s.cores.any fun c => c.2.unperformed v || (s.wbStops c.1 (s.tlbiLines v c.1)).isSome) ||
    s.criers.any fun k => decide (0 < k.2.remoteOut)

/-- TLBI_COMPLETE: dirty bytes of the context reach their homes, every matching entry goes, and BUSY clears (R386; DEDUCED log 35). -/
def execTlbiComplete (s : State) : Out :=
  match s.tlbi with
  | none => .next s
  | some w =>
    let v := w.toNat
    if s.tlbiWaits v then .next s
    else
      let s := (s.cores.map (·.1)).foldl (fun s c =>
        let s := (s.tlbiLines v c).foldl (fun s line => s.wbLine c line) s
        s.onCore c fun x => { x with
          coreTlb := keepTlb v x.coreTlb,
          as := { x.as with fetchTlb := keepTlb v x.as.fetchTlb },
          xs := { x.xs with fetchTlb := keepTlb v x.xs.fetchTlb } }) s
      let s := (s.quads.map (·.1)).foldl (fun s q =>
        s.onQuad q fun k => { k with quadTlb := keepTlb v k.quadTlb, walkCache := keepWalk v k.walkCache }) s
      let s := (s.criers.map (·.1)).foldl (fun s k => s.setCrier k { s.crier k with tlb := keepTlb v (s.crier k).tlb }) s
      .next { s with tlbi := none }

/-- What a master reads leaves for its port. -/
def State.answer (s : State) (w : Writer) (v : Word) : State :=
  match w with
  | .master p _ => s.send (.readReply p.val v)
  | _ => s

/-- TLBS_READ: a read clears DROP (R386). -/
def execTlbsRead (w : Writer) (s : State) : Out :=
  let r := s.regRead false 0x30808
  .next (r.2.answer w r.1)

/-- PWR_READ: a read clears PMAX (R424). -/
def execPwrRead (w : Writer) (s : State) : Out :=
  let r := s.regRead true 0x40
  .next (r.2.answer w r.1)

/-! ## Every other register -/

/-- Some task stands on the die. -/
def State.dieBusy (s : State) (d : Nat) : Bool := s.cores.any fun c => dieOf c.1 == d && c.2.task.isSome

/-- No frame attribute entry has CMP set (R393). -/
def State.noCmp (s : State) : Bool :=
  s.fatListed.all fun f => fld (s.physNat (s.syc.fatb.toNat * 2 ^ 26 + 4 * f) 4) 3 1 == 0

/-- A write to a per-socket register of the base, for the sockets that hold a compute die (R392). -/
def sockWrite (off base : Nat) (s : State) (f : Nat → State) : State := if (off - base) / 8 < 6 then f ((off - base) / 8) else s

/-- DCTL without an accepted command: CMD 0 changes DL, 1 to 16,777,215 (R414). -/
def Die.setDl (d : Die) (v : Word) : Die :=
  let n : BitVec 24 := v.extractLsb' 16 24
  if n = 0 then d else { d with dl := n }

/-- A write to a context's fault queue descriptor; TAIL is the hardware's (R403). -/
def Ctx.setFq (c : Ctx) (word : Nat) (v : Word) : Ctx :=
  match word with
  | 0 => { c with fqLog2 := clampN 4 16 (fld v.toNat 52 6), fqBase := v.extractLsb' 0 48 }
  | 1 => { c with fqHead := v.extractLsb' 0 32 }
  | 2 => { c with fqVec := v.extractLsb' 48 16, fqIe := v.getLsbD 32, fqLost := v.extractLsb' 0 32 }
  | _ => { c with frb := v.extractLsb' 0 52 }

/-- A write to a context's checkpoint descriptor: word 0, only while EN = 0, but for the clearing of EN (R407). -/
def Ctx.setCk (c : Ctx) (word : Nat) (v : Word) : Ctx :=
  if word ≠ 0 then c
  else if c.ckEn then (if v.getLsbD 63 then c else { c with ckEn := false })
  else { c with ckEn := v.getLsbD 63, ckLogb := v.extractLsb' 16 32, ckLog2 := fld v.toNat 0 5 }

/-- A write to an assay key register (R393). -/
def Ctx.setKey (c : Ctx) (word : Nat) (v : Word) : Ctx :=
  match word with
  | 0 => { c with k0 := v }
  | 1 => { c with k1 := setWideWord c.k1 0 v }
  | 2 => { c with k1 := setWideWord c.k1 8 v }
  | _ => c

/-- Interposer registers without a row of their own (R392). -/
def State.ipWrite (s : State) (off : Nat) (v : Word) : State :=
  let inR (lo n : Nat) : Bool := lo ≤ off && off < lo + n
  if inR 0x20000 0x80 then
    let x : BitVec 32 := v.extractLsb' 0 32
    if x = 0 then s else s.setClx ((off - 0x20000) / 8) x
  else if inR 0x20100 0x40 then
    sockWrite off 0x20100 s fun k => if (s.die k).state = 0 then s.onDie k fun d => { d with cbind := v.extractLsb' 0 16 } else s
  else if inR 0x20140 0x40 then
    sockWrite off 0x20140 s fun k =>
      if (s.die k).cbind = 0 ∧ !s.dieBusy k then s.onDie k fun d => { d with clus := v.getLsbD 0 } else s
  else if inR 0x20200 0x40 then
    sockWrite off 0x20200 s fun k => s.onDie k fun d => { d with pwd := BitVec.ofNat 5 (clampN 12 24 (fld v.toNat 0 5)) }
  else if inR 0x20300 0x40 then
    sockWrite off 0x20300 s fun k => s.onDie k fun d => { d with chto := BitVec.ofNat 32 (Nat.max 1024 (fld v.toNat 0 32)) }
  else if inR 0x20400 0x200 then
    let c := (off - 0x20400) / 8
    if (s.ctx c).en then s else s.onCtx c fun k => { k with jtb := v.extractLsb' 13 35 }
  else if inR 0x20600 0x40 then
    sockWrite off 0x20600 s fun k => if fld v.toNat 0 4 = 0 then s.onDie k (·.setDl v) else s
  else if inR 0x20800 0x600 then
    let x : BitVec 32 := v.extractLsb' 0 32
    if x = 0 then s else s.onQuad ((off - 0x20800) / 8) fun q => { q with qlx := x }
  else if inR 0x31000 0x800 then s.onCtx ((off - 0x31000) / 32) (·.setFq (off % 32 / 8) v)
  else if inR 0x32000 0x800 then s.onCtx ((off - 0x32000) / 32) (·.setCk (off % 32 / 8) v)
  else s

/-- SYC registers without a row of their own that the owner writes (R374, R393, R424). -/
def State.sycWrite (s : State) (off : Nat) (v : Word) : State :=
  let inR (lo n : Nat) : Bool := lo ≤ off && off < lo + n
  if off = 0x48 then
    if fld v.toNat 13 51 ≠ 0 then s
    else s.onSyc fun y =>
      { y with pcapEn := v.getLsbD 12, pcap := BitVec.ofNat 12 (clampN 1200 3600 (fld v.toNat 0 12)),
               capOld := if y.thr then some (powerWindow s.clock, y.capNow s.clock) else none }
  else if inR 0x200 512 then s.onSyc fun y => { y with hreq := setWideWord y.hreq (off - 0x200) v }
  else if off = 0x400 then if s.allOff then s.onSyc fun y => { y with fatb := v.extractLsb' 26 22 } else s
  else if off = 0x408 then if s.allOff ∧ s.noCmp then s.onSyc fun y => { y with cmdb := v.extractLsb' 21 27 } else s
  else if off = 0x410 then if s.allOff then s.onSyc fun y => { y with crmb := v.extractLsb' 21 27 } else s
  else if inR 0x800 0x800 then s.onCtx ((off - 0x800) / 32) (·.setKey (off % 32 / 8) v)
  else s

/-- REGISTER_WRITE (R376, R392, R393): every master may write the nonce, and the owner the rest. -/
def execRegisterWrite (w : Writer) (syc : Bool) (off : BitVec 34) (v : Word) (s : State) : Out :=
  let o := off.toNat / 8 * 8
  if syc ∧ 0x1000 ≤ o ∧ o < 0x1020 then
    openWrite w s fun s => if s.syc.attgo then s else s.onSyc fun y => { y with nonce := setWideWord y.nonce (o - 0x1000) v }
  else ownerWrite w s fun s => if syc then s.sycWrite o v else s.ipWrite o v

end Sys2Proof.Machine
end

