-- ==== Sys2Proof/Machine/Recovery.lean ====
section
/-! DEFINITION. Rollback of a context (R407-R411), and the warm reset, failure and re-admission of compute dies
(R235, R292, R414-R416). -/

namespace Sys2Proof.Machine

open Sys2Proof

/-! ## Stopping what a core runs -/

/-- The walker commands under way halt their frontiers (R361). -/
def State.haltWalkers (s : State) (c : Nat) : State :=
  ((s.core c).wq.ents.filter fun n => n.phase = .started).foldl (fun s n => s.haltChaser c .wq n) s

/-- The task of a core becomes faulted as R400 does it, by a record that aims at nobody (R411, R415, R416). -/
def State.killTask (s : State) (c : Nat) (r : FRec) : State := (s.fqWrite r).faultTask c

/-- The cores that hold something. -/
def State.coreKeys (s : State) : List Nat := s.cores.map (·.1)
def State.dieCores (s : State) (d : Nat) : List Nat := s.coreKeys.filter fun c => dieOf c = d

/-! ## Rollback (R410, R411) -/

/-- A collective or an assay point of the context is pending. -/
def Ctx.pendingWork (c : Ctx) : Bool := (c.tiles.any fun t => t.2.fired.isSome) || c.groups.any fun g => g.2.point.isSome

/-- The cores that run a task of a context, or still hold what a task of it started (R400). -/
def State.ctxCores (s : State) (ctx : Nat) : List Nat :=
  s.coreKeys.filter fun c => match (s.core c).task with | some t => t.ctx == ctx | none => false

/-- A task of the context is running: none that has been discarded or has faulted (R212, R410). -/
def State.ctxRuns (s : State) (ctx : Nat) : Bool :=
  s.cores.any fun c => match c.2.task with | some t => t.ctx == ctx && !t.gone | none => false

/-- FORCE stops a task: an uncommitted one is discarded, a committed one takes cancelled, CAUSE 0xC4 (R411); entries that have
started complete (R230, R400). -/
def State.forceStop (s : State) (c : Nat) : State :=
  match (s.core c).task with
  | none => s
  | some t =>
    if t.gone then s
    else if !t.committed then s.discardTask c
    else s.killTask c (s.mkRec c 11 0 true (mkFault 0x18 (detailOf 0 0 0xC4)))

/-- ROLLBACK: RBK is refused with its status, or the rollback begins (R410, R411). -/
def execRollback (w : Writer) (v : Word) (s : State) : Out :=
  ownerWrite w s fun s =>
    let c := fld v.toNat 58 6
    let force := v.getLsbD 1
    let k := s.ctx c
    if !v.getLsbD 0 ∨ s.rollback.isSome then s
    else if !k.ckEn then { s with rbsStatus := 3, rbsLines := 0 }
    else if k.en ∨ k.pendingWork ∨ (!force ∧ s.ctxRuns c) then { s with rbsStatus := 2, rbsLines := 0 }
    else
      let s := (s.ctxCores c).foldl State.forceStop s
      { s.onCtx c fun k => { k with watches := [] } with rbsStatus := 1, rbsLines := 0, rollback := some c }

/-- Restore the line and poison of one log entry (R408, R411). -/
def State.restoreLine (s : State) (ctx i : Nat) : State :=
  let at_ := (s.ctx ctx).ckLogb.toNat * 65536 + 136 * i
  let w0 := s.physNat at_ 8
  let pa := w0 % 2 ^ 48 / 128 * 128
  let s := s.physWrite pa (s.bytes (at_ + 8) 128)
  { s with mpois := nput (nput s.mpois (s.secPlace pa) (fld w0 0 1 == 1)) (s.secPlace (pa + 64)) (fld w0 1 1 == 1) }

/-- A queue goes back to its snapshot; slots held then are returned slots now (R411). -/
def Queue.rollBack (d : Queue) : Queue :=
  match d.snap with
  | none => d
  | some (h, t, f, sl) =>
    { d with head := h, tail := t, free := f,
             slots := sl.map fun (p : Nat × SlotState) => (p.1, match p.2 with | .held t => .returned t | .returned t => .returned t) }

/-- Write back the L1 of every core of a list. -/
def State.wbCores (s : State) (cs : List Nat) : State := cs.foldl State.wbAll s

/-- Invalidate the L1 of every core of a list, after its write-back. -/
def State.dropL1 (s : State) (cs : List Nat) : State :=
  cs.foldl (fun s c => s.onCore c fun x => { x with l1 := [], notices := [], noticeOver := false }) s

/-- Work of the context still runs on some core: an entry that had started, or a return-free atomic on its way
(R230, R400, R411). -/
def State.ctxBusy (s : State) (ctx : Nat) : Bool :=
  !(s.ctxCores ctx).isEmpty || s.cores.any fun c => c.2.nrOut.any fun o => o.ctx = ctx

/-- The place of a log entry or the home of its line is held (R13, R417). -/
def State.entryHeld (s : State) (ctx i : Nat) : Bool :=
  let at_ := (s.ctx ctx).ckLogb.toNat * 65536 + 136 * i
  s.heldAt at_ || s.heldAt (at_ + 135) || s.heldAt (s.physNat at_ 8 % 2 ^ 48)

/-- A step of the rollback meets a hold, and waits (R13, R417). -/
def State.rollbackHeld (s : State) (ctx : Nat) : Bool :=
  (s.coreKeys.any fun c => s.wbStops c (s.core c).lines = some .held) || (List.range (s.ctx ctx).ckUsed).any (s.entryHeld ctx)

/-- Records of the context's queues that wait for a slot lie outside the snapshot: they are removed (R212, R411). -/
def State.dropWaiting (s : State) (ctx : Nat) : State :=
  { s with
    heldRecs := s.heldRecs.filter fun h => (s.queue h.queue).ctx ≠ ctx,
    launches := s.launches.filter fun p => !(p.enq.spawn && p.trig.isNone && p.gate.isNone && (s.queue p.enq.queue).ctx == ctx) }

/-- The end of a rollback whose steps nothing delays (R411). -/
def State.restoreCtx (s : State) (c : Nat) : State :=
  let s := s.wbCores s.coreKeys
  let n := (s.ctx c).ckUsed
  let s := (List.range n).foldl (fun s i => s.restoreLine c i) s
  let s := (s.dropWaiting c).dropL1 s.coreKeys
  let s := (List.range 256).foldl (fun s q => if (s.queue q).ctx = c then s.onQueue q Queue.rollBack else s) s
  let s := s.onCtx c fun k => { k with ckUsed := 0, ckLines := [] }
  { s with rbsStatus := 0, rbsLines := BitVec.ofNat 32 n, rollback := none }

/-- ROLLBACK_DONE: once what had started has completed, the write-back, the restore, the invalidation, the queues, and STATUS 0;
a record that waits for a slot lies outside the snapshot, and is removed (R212, R411; DEDUCED log 36). -/
def execRollbackDone (s : State) : Out :=
  match s.rollback with
  | none => .next s
  | some c => .next (if s.ctxBusy c || s.rollbackHeld c then s else s.restoreCtx c)

/-- LOG_FULL_FORCED_CLOSE: the log has no room for the entry that a write needs (R408). -/
def execLogFullForcedClose (ctx : Fin 64) (s : State) : Out :=
  let c := s.ctx ctx.val
  .next (if c.ckEn ∧ c.logCap ≤ c.ckUsed then s.forceClose ctx.val else s)

/-! ## Compute dies (R414-R416) -/

/-- Clocks of a microsecond. -/
def clocksPerUs : Nat := 1250

/-- Write back the dirty lines of a core that nothing keeps from their homes (R13, R18, R415, R417). -/
def State.wbFreeLines (s : State) (c : Nat) : State :=
  ((s.core c).lines.filter fun l => s.wbStop c l = none).foldl (fun s l => s.wbLine c l) s

/-- DIE_QUIESCE: CMD 1 in state 0 begins the quiesce; in state 5 the reset begins at its step 5 (R414, R415; DEDUCED log 49). -/
def execDieQuiesce (w : Writer) (d : Fin 6) (v : Word) (s : State) : Out :=
  ownerWrite w s fun s =>
    let k := s.die d.val
    if s.tripped then s
    else if k.state = 5 then s.setDie d.val { k.setDl v with state := 2 }
    else if k.state ≠ 0 then s
    else
      let s := s.setDie d.val { k.setDl v with state := 1, saved := k.cbind, cbind := 0, quiesceAt := s.clock }
      (s.dieCores d.val).foldl State.wbFreeLines ((s.dieCores d.val).foldl State.preemptTask s)

/-- The die's links are fenced: its cores and quads hold nothing, but for the lottery states, which stand on the
interposer (R415). -/
def State.fence (s : State) (d : Nat) : State :=
  let s := (s.dieCores d).foldl (fun s c => s.setCore c Core.reset) s
  let s := ((s.quads.map (·.1)).filter fun q => q / 32 = d).foldl (fun s q => s.setQuad q { Quad.reset q with qlx := (s.quad q).qlx }) s
  s.onDie d fun k => { k with state := 2 }

/-- A core of the die still has a request outstanding, or a dirty line that it cannot write back now (R415, step 3). -/
def State.dieOutstanding (s : State) (d : Nat) : Bool :=
  (s.dieCores d).any fun c => !(s.core c).nrOut.isEmpty || (s.core c).remoteOut ≠ 0 || !s.wbFree c

/-- DIE_FENCE: every task of the quiescing die is gone, and its requests are complete (R415, step 4). -/
def execDieFence (d : Fin 6) (s : State) : Out :=
  if s.tripped ∨ (s.die d.val).state ≠ 1 ∨ s.dieBusy d.val ∨ s.dieOutstanding d.val then .next s
  else .next ((s.wbCores (s.dieCores d.val)).fence d.val)

/-- A task takes die-lost: its record goes to the fault queue (R235, R399; the detail word is not stated, DESIGN CHOICE log 37). -/
def State.dieLost (s : State) (c : Nat) : State :=
  match (s.core c).task with
  | none => s
  | some t =>
    let s := s.haltWalkers c
    if t.gone then s
    else
      let r := s.mkRec c 11 0 true { mkFault 0x14 0 with detail := Config.freeValue s.free }
      (s.bump.killTask c r).onDie (dieOf c) fun k => { k with lost := Nat.min (k.lost + 1) 65535 }

/-- The dirty bytes that an L1 holds leave their sectors poisoned at their homes (R415). -/
def State.poisonDirty (s : State) (c : Nat) : State :=
  (s.core c).l1.foldl (fun s (p : Nat × L1Line) =>
    (List.range 2).foldl (fun s sec =>
      if p.2.dirty.extractLsb' (64 * sec) 64 = 0 then s
      else { s with mpois := nins s.mpois (s.secPlace (128 * p.1 + 64 * sec)) }) s) s

/-- DIE_QUIESCE_DEADLINE: DL microseconds after the quiesce began, what still stands takes die-lost, what can be written back is, and
the die is fenced (R415, step 4). -/
def execDieQuiesceDeadline (d : Fin 6) (s : State) : Out :=
  let k := s.die d.val
  if s.tripped ∨ k.state ≠ 1 ∨ s.clock < k.quiesceAt + clocksPerUs * k.dl.toNat then .next s
  else
    let s := (s.dieCores d.val).foldl State.dieLost s
    let s := (s.dieCores d.val).foldl State.wbFreeLines s
    .next (((s.dieCores d.val).foldl State.poisonDirty s).fence d.val)

/-- SLICE_REHOMING_COMPLETE: the slices have left the home hash, and the links retrain: STATE 2 to 3 (R415, steps 5 to 7). -/
def execSliceRehomingComplete (d : Fin 6) (s : State) : Out :=
  if s.tripped ∨ (s.die d.val).state ≠ 2 then .next s
  else .next (s.onDie d.val fun k => { k with state := 3, unhashed := true }).lateResume

/-- DIE_TRAINING_COMPLETE: weak units are spared; STATE 4, or 5 where a unit fails that cannot be spared (R415, step 7). -/
def execDieTrainingComplete (d : Fin 6) (failed : Bool) (s : State) : Out :=
  if s.tripped ∨ (s.die d.val).state ≠ 3 then .next s
  else if failed then .next (s.onDie d.val fun k => { k with state := 5 })
  else .next ((s.spareUnits d.val).onDie d.val fun k => { k with state := 4 })

/-- DIE_READMIT: CMD 2 in state 4: the home hash takes the slices back, and CBIND is restored (R414, R415, step 8). -/
def execDieReadmit (w : Writer) (d : Fin 6) (v : Word) (s : State) : Out :=
  ownerWrite w s fun s =>
    let k := s.die d.val
    if s.tripped ∨ k.state ≠ 4 then s
    else (s.setDie d.val { k.setDl v with state := 0, cbind := k.saved, unhashed := false }).lateResume

/-- The lines of every present local frame: an entry of a present frame is not zero, so memory lists a byte of it (R287). -/
def State.presentLines (s : State) : List Nat :=
  s.fatListed.eraseDups.flatMap fun f => (List.range 512).map fun k => s.pkg.toNat * 2 ^ 33 + f * 512 + k

/-- The line is homed in a slice of the die (R285, R292). -/
def State.homedIn (s : State) (d line : Nat) : Bool :=
  match s.frameHome (128 * line) with
  | 1 => Config.homeSlice line s.hashMask % 192 / 32 == d
  | 2 => fld (s.fatEntry (128 * line)) 24 8 / 32 == d
  | _ => false

/-- DIE_FAILURE: a die stops answering; it reaches step 4 at once with every line homed in its slices
poisoned (R416). -/
def execDieFailure (d : Fin 6) (s : State) : Out :=
  let k := s.die d.val
  if s.tripped ∨ 5 ≤ k.state then .next s
  else
    let lines := s.presentLines.filter fun l => s.homedIn d.val l
    let s := (s.dieCores d.val).foldl State.dieLost s
    let s := (s.dieCores d.val).foldl State.poisonDirty s
    let s := lines.foldl (fun s l =>
      { s with mpois := nins (nins s.mpois (s.secPlace (128 * l))) (s.secPlace (128 * l + 64)) }) s
    .next ((s.fence d.val).onDie d.val fun k' =>
      { k' with state := 5, unhashed := true, cbind := 0, saved := if k.state = 0 then k.cbind else k.saved })

end Sys2Proof.Machine
end

