-- ==== Sys2Proof/Machine/Sched.lean ====
section
/-! DEFINITION. The queue engines and the quads' requests for work: draws, pops, task starts, launches, triggers,
continuations, retirement, pre-emption and the progress watchdog (R214-R235). -/

namespace Sys2Proof.Machine

open Sys2Proof

/-! ## Launches (R214, R215, R234) -/

/-- The extents of a launch: GX, GY, GZ, and the team size (R213). -/
def launchDims (img : BitVec 2048) : Nat × Nat × Nat × Nat :=
  let w := imgWord img 40
  (fld w 0 16, fld w 16 16, fld w 32 16, fld w 48 2 + 1)

def launchTotal (img : BitVec 2048) : Nat :=
  let d := launchDims img
  d.1 * d.2.1 * d.2.2.1

/-- The number of members of the team that task `l` belongs to; the last team may be short (R214; DEDUCED log 53). -/
def teamSize (img : BitVec 2048) (l : Nat) : Nat :=
  let k := (launchDims img).2.2.2
  Nat.min k (launchTotal img - l / k * k)

/-- The task record of linear index `l` (R214, R216, R219; its slots are zero). -/
def taskRecord (img : BitVec 2048) (l : Nat) : BitVec 2048 :=
  let d := launchDims img
  let k := d.2.2.2
  let x := l % d.1
  let y := l / d.1 % d.2.1
  let z := l / (d.1 * d.2.1)
  let flags := lscopeCode (flagsOf (imgWord img 32)) * 2 ^ 5
  let ws := [imgWord img 0, imgWord img 8, imgWord img 16, imgWord img 24,
    imgWord img 32 % 2 ^ 48 + flags * 2 ^ 48,
    x + y * 2 ^ 16 + z * 2 ^ 32 + (l % k) * 2 ^ 48 + (teamSize img l - 1) * 2 ^ 50, imgWord img 48, 0]
  BitVec.ofNat 2048 (ofBytes (ws.flatMap (toBytes 8)))

/-- The job id and generation of an enqueue, for a record of the queue engine (R234). -/
def Enq.job (e : Enq) : Word := w64 (imgWord e.img 32 % 2 ^ 48)

/-- Push several records; all find room. -/
def pushAll (q : Nat) : List (BitVec 2048) → Mx Unit
  | [] => pure ()
  | r :: rs => do pushSlot q r 0; pushAll q rs

/-- What a launch adds to its counter, once (R215, R264). -/
def State.countLaunch (s : State) (p : Pending) : State :=
  let join := imgWord p.enq.img 24
  let n := if p.enq.spawn then 1 else launchTotal p.enq.img
  if p.counted ∨ join = 0 ∨ n = 0 then s
  else s.joinOp p.enq.ctx p.enq.job join (.add n)

/-- A launch waits behind an earlier one to the same queue that waits for room: enqueues reach a queue in issue order (R228). -/
def State.launchBehind (s : State) (k q : Nat) : Bool :=
  (s.launches.take k).any fun p => p.enq.queue == q && p.trig.isNone && p.gate.isNone

/-- One step of a launch whose trigger and gate are met and whose tasks are counted: the next team, or the spawned record, or
for T = 0 the done flag. Answers none while its queue has no room, or a hold delays it (R214, R215). -/
def State.enqueueSome (s : State) (k : Nat) (p : Pending) : Option State :=
  let e := p.enq
  let drop (s : State) : State := { s with launches := listDel s.launches k }
  let d := s.queue e.queue
  let room := 2 ^ d.log2n - (d.tail - d.free).toNat
  let total := launchTotal e.img
  if e.spawn then
    if room = 0 then none
    else match s.qeRun e.ctx e.job () (pushSlot e.queue e.img e.pois) with
      | (some _, s) => some (drop s)
      | (none, _) => none
  else if total = 0 then
    let join := imgWord e.img 24
    if join = 0 then some (drop s)
    else match s.qeRun e.ctx e.job () (doneFlag e.ctx join false) with
      | (some _, s) => some (drop s)
      | (none, _) => none
  else
    let n := teamSize e.img p.next
    if room < n then none
    else match s.qeRun e.ctx e.job () (pushAll e.queue ((List.range n).map fun i => taskRecord e.img (p.next + i))) with
      | (some _, s) =>
        some (if p.next + n < total then { s with launches := listSet s.launches k { p with next := p.next + n } } else drop s)
      | (none, _) => none

/-- LAUNCH_ENQUEUE: the queue engine writes the next team of a launch, or a spawned record, where its queue has room;
earlier enqueues and continuations go first. A launch of no tasks writes no record, and its flag waits for none (R214, R215,
R220, R228). -/
def execLaunchEnqueue (k : Nat) (s : State) : Out :=
  match s.launches[k]? with
  | none => .next s
  | some p =>
    let q := p.enq.queue
    let empty : Bool := !p.enq.spawn && launchTotal p.enq.img == 0
    if p.trig.isSome ∨ p.gate.isSome ∨ (!empty && s.launchBehind k q) then .next s
    else
      let p' := { p with counted := true }
      let s := s.countLaunch p
      let s := { s with launches := listSet s.launches k p' }
      if !empty && s.heldRecs.any fun h => h.queue == q then .next s
      else .next ((s.enqueueSome k p').getD s)

/-- TRIGGERED_LAUNCH_FIRE: the counter is at or past its threshold; a counter that cannot be read drops the launch (R234, R263). -/
def execTriggeredLaunchFire (k : Nat) (s : State) : Out :=
  match s.launches[k]? with
  | none => .next s
  | some p =>
    match p.trig with
    | none => .next s
    | some t =>
      let e := p.enq
      match (do
          let tg ← access (chap10 0) .qengine e.ctx .r t.cnt 8
          let r ← readHome .qengine tg 8
          if r.2 then failF { mkFault 0x0A 0x77 with addr := BitVec.ofNat 64 t.cnt }
          pure (ofBytes r.1) : Mx Nat) s with
      | .ok v s => .next (if t.thr ≤ v then { s with launches := listSet s.launches k { p with trig := none } } else s)
      | .error (.fault f) s => .next { s.fqWrite (s.qeRec e.ctx e.job f) with launches := listDel s.launches k }
      | .error _ _ => .next s

/-! ## Continuations (R220, R266) -/

/-- CONTINUATION_RESUME: the watched word is nonzero, and the continuation goes to its queue behind those that wait for it already; a word or record that cannot be read drops the continuation (R266; DEDUCED log 52). -/
def execContinuationResume (ctx : Fin 64) (k : Nat) (s : State) : Out :=
  match (s.ctx ctx.val).watches[k]? with
  | none => .next s
  | some w =>
    let gone (s : State) : State := s.onCtx ctx.val fun c => { c with watches := listDel c.watches k }
    match (do
        let t ← access (chap10 0) .qengine ctx.val .r w.word 8
        let r ← readHome .qengine t 8
        if r.2 then failF { mkFault 0x0A 0x77 with addr := BitVec.ofNat 64 w.word }
        if ofBytes r.1 = 0 then pure none
        else
          let rs ← (List.range 4).mapM fun i => vread (chap10 0) .qengine ctx.val (w.area + 64 * i) 64 64
          if (rs.getD 0 ([], false)).2 then failF { mkFault 0x0A 0x77 with addr := BitVec.ofNat 64 w.area }
          pure (some (BitVec.ofNat 2048 (ofBytes (rs.flatMap (·.1))),
            BitVec.ofNat 4 (rs.zipIdx.foldl (fun m r => if r.1.2 then m + 2 ^ r.2 else m) 0)))
        : Mx (Option (BitVec 2048 × BitVec 4))) s with
    | .ok none s => .next s
    | .ok (some (img, pois)) s =>
      let s := gone s
      let h : HeldRec := { cont := true, img := img, pois := pois, queue := w.queue }
      .next (State.drainHeld { s with heldRecs := s.heldRecs ++ [h] } w.queue)
    | .error (.fault f) s =>
      .next ((gone (s.fqWrite (s.qeRec ctx.val w.jobid f))).joinSub ctx.val w.jobid w.join true)
    | .error _ _ => .next s

/-! ## Draws (R222-R224) -/

/-- The lowest-index returned slot: the first from FREE (R222). -/
def Queue.returned (d : Queue) : List (Nat × Nat) :=
  let at_ (i : Nat) : Nat := (BitVec.ofNat 32 i - d.free).toNat
  let rs := d.slots.filterMap fun p => match p.2 with | .returned t => some (p.1, t) | .held _ => none
  rs.mergeSort fun a b => at_ a.1 ≤ at_ b.1

def Queue.hasReturned (d : Queue) : Bool := d.slots.any fun p => match p.2 with | .returned _ => true | .held _ => false

/-- The queue is ready (R222, R379). -/
def State.queueReady (s : State) (q : Nat) : Bool :=
  let d := s.queue q
  d.en && (s.ctx d.ctx).en && (d.hasReturned || d.head != d.tail)

/-- The ready queues of a class, in ascending index. -/
def State.classQueues (s : State) (c : Nat) : List Nat :=
  (s.queues.map (·.1)).filter fun q => (s.queue q).cls = c && s.queueReady q

/-- The three xorshift steps (R171, R224). -/
def lottery (x : BitVec 32) : BitVec 32 :=
  let x := x ^^^ (x <<< 13)
  let x := x ^^^ (x >>> 17)
  x ^^^ (x <<< 5)

/-- The walk over tickets that names the winner (R171, R224). -/
def ticketWalk : List (Nat × Nat) → Nat → Option Nat
  | [], _ => none
  | (k, t) :: rest, p => if p < t then some k else ticketWalk rest (p - t)

/-- A draw of a class: the winner, where T > 0 (R224). -/
def State.draw (s : State) (c : Nat) : Option Nat × State :=
  let qs := (s.classQueues c).map fun q => (q, (s.queue q).tickets)
  let t := (qs.map (·.2)).sum
  if t = 0 then (none, s)
  else
    let x := lottery (s.clxOf c)
    (ticketWalk qs (x.toNat % t), s.setClx c x)

/-! ## Task start (R219, R296) -/

/-- A core prepares its array for another context (R296). -/
def State.newContext (s : State) (c ctx : Nat) : State :=
  if (s.core c).lastCtx = some ctx then s
  else
    (s.wbAll c).onCore c fun x =>
      { x with scratch := [], scFull := [], scPois := [], l1 := [], vregs := [], mregs := [], tms := 0, stream := [],
               lastCtx := some ctx }

/-- The registers of a sequencer at task start: from slots `lo` to `hi - 1` into x1 and on, and x31 (R219). -/
def startRegs (img : BitVec 2048) (pois : BitVec 4) (lo hi : Nat) : SMap SVal :=
  let slot (j : Nat) : SVal := { v := w64 (imgWord img (64 + 8 * j)), p := pois.getLsbD (1 + j / 8) }
  let m := (List.range (hi - lo)).foldl (fun m i => sset m (i + 1) (slot (lo + i)) SVal.zero) []
  sset m 31 { v := w64 (imgWord img 16), p := pois.getLsbD 0 } SVal.zero

/-- A sequencer at task start (R62, R219); an entry line of 0 starts at stream end, whatever reserved bits stand beside it (R6, R213). -/
def startSeq (x : Seqr) (cont : Bool) (pc : Nat) (regs : SMap SVal) (pois : Bool) : Seqr :=
  let empty : FLine := { addr := 0, bytes := 1, pois := false }
  let lane := if cont then fld pc 2 3 else 1
  let ends : Bool := !cont && fld pc 5 47 == 0
  { Seqr.reset with
    fetchTlb := x.fetchTlb, regs := regs, status := .live, slotPois := pois,
    pcLine := BitVec.ofNat 52 (pc / 32 * 32), pcLane := if ends then 8 else lane, entry := lane,
    line := if ends then some empty else none }

/-- A task starts on a core (R219): the array, `Acquire(.pkg)`, the carve-out, and every reset of a task start. Reserved bits of
the launch index and of the carve-out word read as zero (R6, R216, R218). -/
def State.startTask (s : State) (c qn idx team crew : Nat) (img : BitVec 2048) (pois : BitVec 4) : State :=
  let ctx := (s.queue qn).ctx
  let w := imgWord img 32
  let cont := kindOf (flagsOf w) = 2
  let an := anOf (flagsOf w)
  let s := (s.newContext c ctx).acquire c .pkg
  let carve := imgWord img 48
  let s := s.carveTo c (carve % 8)
  let t : Task :=
    { ctx := ctx, queue := qn, slot := idx, jobid := w64 w, lidx := w64 (imgWord img 40 % 2 ^ 52),
      frame := { v := w64 (imgWord img 16), p := pois.getLsbD 0 }, join := imgWord img 24 % 2 ^ 52, inst := s.nextInst,
      team := team, crew := crew, committed := false, commitAt := 0, watchAt := 0, commitStale := none, cancel := false,
      buffered := [], suspA := none, nextA := 0, nextX := 0, carve := none, preempt := false, gone := false }
  let loads (lo hi : Nat) : Bool := pois.getLsbD 0 || (List.range (hi - lo)).any fun i => pois.getLsbD (1 + (lo + i) / 8)
  let aHi := if cont then an else 16
  let xLo := if cont then an else 0
  let s := s.onCore c fun x =>
    { x with
      task := some t, carvew := w64 (fld carve 16 36 * 2 ^ 16 + carve % 8), cflags := 0, tmq := false, sregs := [], ttab := [], tmTabs := [],
      stream := [], lq := EQueue.reset, ve := EQueue.reset, sq := EQueue.reset, lp := EQueue.reset, wq := EQueue.reset,
      cq := EQueue.reset, fifos := Fifos.reset, bars := [], bundles := [], tickets := 0, nrFail := none,
      as := startSeq x.as cont (imgWord img 0) (startRegs img pois 0 aHi) (loads 0 aHi),
      xs := startSeq x.xs cont (imgWord img 8) (startRegs img pois xLo 16) (loads xLo 16) }
  { s with nextInst := s.nextInst + 1 }

/-- A record breaks R217, so that a pop drops it; one with a reserved carve-out code is dropped likewise (R6, R26; DESIGN CHOICE
log 71), and so is a continuation that would resume at lane 0, which no task can stand at (R62; DESIGN CHOICE log 92). -/
def badRecord (img : BitVec 2048) : Bool :=
  let f := flagsOf (imgWord img 32)
  kindOf f == 3 || 2 ≤ lscopeCode f || 17 ≤ anOf f || 5 ≤ imgWord img 48 % 8 ||
    (kindOf f == 2 && (fld (imgWord img 0) 2 3 == 0 || fld (imgWord img 8) 2 3 == 0))

/-- The cores of a quad with no task (R223). -/
def State.idleCores (s : State) (quad : Nat) : List Nat :=
  ((List.range 4).map fun k => 4 * quad + k).filter fun c => (s.core c).task.isNone

/-- A popped record: its slot, the number of its team's first start, its bytes, and the generation that its context's table holds
for its job; or why these could not be read. -/
structure Popped where
  idx : Nat
  crew : Nat
  rec_ : Except FaultInfo (BitVec 2048 × BitVec 4)
  gen : Except FaultInfo Nat

/-- A read of a pop whose fault is the record's own; a hold delays the whole request. -/
def popRead {α : Type} (m : Mx α) : Mx (Except FaultInfo α) := fun s =>
  match m s with
  | .ok v s' => .ok (.ok v) s'
  | .error (.fault f) s' => .ok (.error f) s'
  | .error (.faultAt _ f) s' => .ok (.error f) s'
  | .error e s' => .error e s'

/-- Read the record in a slot, and where R217 does not drop it already, its job's generation (R13, R18, R226). -/
def popSlot (q idx crew : Nat) : Mx Popped := do
  let r ← popRead (readSlot q idx)
  let g ← match r with
    | .error _ => pure (.ok 0)
    | .ok i =>
      if badRecord i.1 then pure (.ok 0)
      else popRead (readGen ((← getS).queue q).ctx (imgWord i.1 32 % 2 ^ 32))
  pure { idx := idx, crew := crew, rec_ := r, gen := g }

/-- Records in the team of a launched record at HEAD (R216). -/
def Popped.teamLen (p : Popped) : Nat :=
  match p.rec_ with
  | .ok r => if kindOf (flagsOf (imgWord r.1 32)) = 0 then fld (imgWord r.1 40) 50 2 + 1 else 1
  | .error _ => 1

/-- The records that the next pop of a queue takes: the returned record of lowest index with its returned teammates, or
the record at HEAD with its team (R222, R225). -/
def nextSlots (qn : Nat) : Mx (List Popped) := do
  let s ← getS
  let d := s.queue qn
  match d.returned with
  | (i, t) :: rest => ((i, t) :: rest.filter fun r => r.2 = t).mapM fun r => popSlot qn r.1 r.2
  | [] =>
    let at_ (j : Nat) : Nat := (d.head + BitVec.ofNat 32 j).toNat
    let p ← popSlot qn (at_ 0) s.nextInst
    let k := Nat.min p.teamLen (d.tail - d.head).toNat
    let more ← (List.range (k - 1)).mapM fun j => popSlot qn (at_ (j + 1)) s.nextInst
    pure (p :: more)

/-- A popped slot becomes held; a pop at HEAD advances HEAD (R222). -/
def Queue.hold (d : Queue) (idx crew : Nat) : Queue :=
  { d with slots := sput d.slots idx (.held crew), head := if shas d.slots idx then d.head else d.head + 1 }

/-- A popped record is dropped: it or its generation cannot be read, its generation is stale, or it is malformed (R226). -/
def Popped.stale (p : Popped) : Bool :=
  match p.rec_, p.gen with
  | .ok r, .ok g => badRecord r.1 || g != fld (imgWord r.1 32) 32 16
  | _, _ => true

/-- A dropped record's slot is freed, and its counter handled (R215, R226); one that could not be read names no counter, and what
could not be read leaves a record in the fault queue (DEDUCED log 21). -/
def State.dropPopped (s : State) (qn : Nat) (p : Popped) : State :=
  let ctx := (s.queue qn).ctx
  match p.rec_ with
  | .error f => (s.fqWrite (s.qeRec ctx 0 f)).freeSlot qn p.idx
  | .ok r =>
    let job := w64 (imgWord r.1 32)
    let s := match p.gen with
      | .error f => s.fqWrite (s.qeRec ctx job f)
      | .ok _ => s
    (s.freeSlot qn p.idx).joinSub ctx job (imgWord r.1 24 % 2 ^ 52) true

/-- A pop of which some record is dropped: every record has been popped, so the others stand as returned ones, and the request
draws again (R222, R225, R226). -/
def State.popDropping (s : State) (qn : Nat) (ps : List Popped) : State :=
  let s := ps.foldl (fun s p => s.onQueue qn (·.hold p.idx p.crew)) s
  ps.foldl (fun s p => if p.stale then s.dropPopped qn p else s.returnSlot qn p.idx p.crew) s

/-- A start on a core waits: the lines that it writes back lie behind a hold, or are homed in an absent die (R13, R18, R28, R296;
DESIGN CHOICE log 98). -/
def State.startHeld (s : State) (c ctx : Nat) (p : Popped) : Bool :=
  match p.rec_ with
  | .error _ => false
  | .ok r =>
    if (s.core c).lastCtx = some ctx then (s.wbStops c (s.carveLines c (imgWord r.1 48 % 8))).isSome else !s.wbFree c

/-- Start the records of a pop on the lowest-numbered idle cores (R223, R225). -/
def State.startAll (s : State) (qn : Nat) (cores : List Nat) (ps : List Popped) : State :=
  let team := s.nextInst
  (cores.zip ps).foldl (fun s p =>
    match p.2.rec_ with
    | .ok r => (s.onQueue qn (·.hold p.2.idx p.2.crew)).startTask p.1 qn p.2.idx team p.2.crew r.1 r.2
    | .error _ => s) s

/-- What came of a draw of a class. -/
inductive Drawn
  | started (s : State)
  /-- dropped records: the same request draws again -/
  | again (s : State)
  /-- T = 0, or the team found too few idle cores -/
  | next (s : State)
  /-- a hold delays the read of a record or a write-back of a start, and with it the request -/
  | held

/-- One draw of one class for a quad (R224-R226). -/
def State.tryClass (s : State) (quad c : Nat) : Drawn :=
  match s.draw c with
  | (none, s) => .next s
  | (some qn, s) =>
    match nextSlots qn s with
    | .error _ _ => .held
    | .ok ps s =>
      let idle := s.idleCores quad
      if idle.length < ps.length then .next s
      else if ps.any (·.stale) then .again (s.popDropping qn ps)
      else if (idle.zip ps).any fun p => s.startHeld p.1 (s.queue qn).ctx p.2 then .held
      else .started (s.startAll qn idle ps)

/-- The request tries the bound classes in order; after a drop it draws again (R223, R226). -/
def State.tryClasses (s : State) (quad : Nat) : Nat → List Nat → Option State
  | 0, _ => some s
  | _, [] => some s
  | n + 1, c :: cs =>
    match s.tryClass quad c with
    | .started s => some (s.onDie (quad / 32) fun d => { d with rrClass := some c })
    | .again s => s.tryClasses quad n (c :: cs)
    | .next s => s.tryClasses quad n cs
    | .held => none

/-- The classes bound to a die, in round-robin order (R223). -/
def Die.classOrder (d : Die) : List Nat :=
  let start := match d.rrClass with | none => 0 | some c => c + 1
  ((List.range 16).map fun i => (start + i) % 16).filter fun c => d.cbind.getLsbD c

/-- The die may pop records: it is live, and in bring-up service it is the one that serves (R414, R426). -/
def State.diePops (s : State) (d : Nat) : Bool :=
  (s.die d).state == 0 &&
    (s.syc.state == 5 || ((s.syc.state == 3 || s.syc.state == 4) && ((List.range 6).find? fun k => (s.die k).passed) == some d))

/-- WORK_REQUEST (R223-R226; DESIGN CHOICE log 68). -/
def execWorkRequest (q : QuadId) (s : State) : Out :=
  let die := q.val / 32
  if (s.idleCores q.val).isEmpty ∨ !s.diePops die then .next s
  else
    let live := (s.queues.map fun d => (d.2.tail - d.2.head).toNat + d.2.slots.length).sum
    .next ((s.tryClasses q.val (live + 17) (s.die die).classOrder).getD s)

/-! ## Retirement, pre-emption, watchdog (R230-R232) -/

/-- Both sequencers have stopped, and every entry has completed (R232). -/
def Core.retireReady (x : Core) : Bool :=
  x.as.status = .stopped && x.xs.status = .stopped && !x.anyEntry && !x.bundles.any (·.producing)

/-- TASK_RETIRE; a task whose halted engine holds a faulted entry becomes faulted instead, once both its sequencers have stopped
(R232, R404). -/
def execTaskRetire (c : CoreId) (s : State) : Out :=
  let x := s.core c.val
  match x.task with
  | none => .next s
  | some t =>
    if t.gone then .next s
    else if x.as.status = .stopped ∧ x.xs.status = .stopped ∧ (allEngs.any fun e => (x.eq e).faulted) then .next (s.faultTask c.val)
    else if !x.retireReady then .next s
    else
      match retireTask c.val s with
      | .ok _ s => .next s
      | .error _ _ => .next s

/-- TASK_PREEMPT: an uncommitted task is discarded, a committed one runs on (R230, R231, R418). -/
def execTaskPreempt (c : CoreId) (s : State) : Out := .next (s.preemptTask c.val)

/-- The progress record of a task: AUX counts the clocks since its commit (R231, R244). -/
def State.progressRec (s : State) (q : SeqId) (t : Task) : FRec :=
  s.mkRec q.core.val (if q.xs then 1 else 0) (s.seqr q).point true
    (mkFault 0x15 (detailOf (Nat.min (s.clock - t.commitAt) (2 ^ 32 - 1)) 0 0x70))

/-- The progress record reaches the handler of a sequencer, and the watchdog counts anew; or the fault queue, and the task becomes
faulted; none while the record area is held (R231, R400, R401). A sequencer that stands past the last lane of its final line
has no boundary left, and its record names that lane (DESIGN CHOICE log 93). -/
def State.takeProgress (s : State) (q : SeqId) (r : FRec) : Option State :=
  let x := s.seqr q
  let lost (s : State) : Option State := some ((s.fqWrite r).faultTask q.core.val)
  if x.tvec = 0 ∨ x.handler ∨ x.entering.isSome ∨ x.status = .stopped then lost s
  else
    match writeRecord q r s with
    | .ok _ s =>
      let s := (s.endStall q).enterHandler q ((x.boundary).getD x.point)
      some (s.onCore q.core.val fun x => { x with task := x.task.map fun t => { t with watchAt := s.clock } })
    | .error (.stall _) _ => none
    | .error _ s => lost s

/-- PROGRESS_WATCHDOG_EXPIRY: the handler of AS, or of XS when AS has stopped; where it cannot be delivered the task
becomes faulted (R231, R401). It stands behind every record that the context raised before it. -/
def execProgressWatchdogExpiry (c : CoreId) (s : State) : Out :=
  match (s.core c.val).task with
  | none => .next s
  | some t =>
    if !t.committed ∨ t.gone ∨ s.clock - t.watchAt < 2 ^ (s.die (dieOf c.val)).pwd.toNat then .next s
    else
      let q : SeqId := { core := c, xs := ((s.core c.val).as.status = .stopped : Bool) }
      let r := s.progressRec q t
      if s.mustFollow r then .next s else .next ((s.takeProgress q r).getD s)

end Sys2Proof.Machine
end

