-- ==== Sys2Proof/Machine/Dispatch.lean ====
section
/-! DEFINITION. One arm per constructor of `Instr`: the meaning it has (R245; spec/95 says what each step holds). -/

namespace Sys2Proof.Machine

open Sys2Proof

def exec (i : Instr) (s : State) : Host.Outcome State Fault Refusal :=
  match i with
  | .nop => Sys2Proof.Machine.execNop s
  | .add d a b => Sys2Proof.Machine.execAdd d a b s
  | .sub d a b => Sys2Proof.Machine.execSub d a b s
  | .mul d a b => Sys2Proof.Machine.execMul d a b s
  | .mulh d a b => Sys2Proof.Machine.execMulh d a b s
  | .mulhn d a b => Sys2Proof.Machine.execMulhn d a b s
  | .div d a b => Sys2Proof.Machine.execDiv d a b s
  | .divn d a b => Sys2Proof.Machine.execDivn d a b s
  | .rem d a b => Sys2Proof.Machine.execRem d a b s
  | .remn d a b => Sys2Proof.Machine.execRemn d a b s
  | .and d a b => Sys2Proof.Machine.execAnd d a b s
  | .or d a b => Sys2Proof.Machine.execOr d a b s
  | .xor d a b => Sys2Proof.Machine.execXor d a b s
  | .andn d a b => Sys2Proof.Machine.execAndn d a b s
  | .orn d a b => Sys2Proof.Machine.execOrn d a b s
  | .shl d a b => Sys2Proof.Machine.execShl d a b s
  | .shr d a b => Sys2Proof.Machine.execShr d a b s
  | .sra d a b => Sys2Proof.Machine.execSra d a b s
  | .rol d a b => Sys2Proof.Machine.execRol d a b s
  | .ror d a b => Sys2Proof.Machine.execRor d a b s
  | .min d a b => Sys2Proof.Machine.execMin d a b s
  | .max d a b => Sys2Proof.Machine.execMax d a b s
  | .minn d a b => Sys2Proof.Machine.execMinn d a b s
  | .maxn d a b => Sys2Proof.Machine.execMaxn d a b s
  | .clz d a => Sys2Proof.Machine.execClz d a s
  | .ctz d a => Sys2Proof.Machine.execCtz d a s
  | .popc d a => Sys2Proof.Machine.execPopc d a s
  | .bfx d a b wid => Sys2Proof.Machine.execBfx d a b wid s
  | .bfi d a b wid => Sys2Proof.Machine.execBfi d a b wid s
  | .sel d a b c => Sys2Proof.Machine.execSel d a b c s
  | .cmp cc d a b => Sys2Proof.Machine.execCmp cc d a b s
  | .lea d a b sh => Sys2Proof.Machine.execLea d a b sh s
  | .lit d a => Sys2Proof.Machine.execLit d a s
  | .litWide d lo hi => Sys2Proof.Machine.execLitWide d lo hi s
  | .br off => Sys2Proof.Machine.execBr off s
  | .bcZ a off => Sys2Proof.Machine.execBcZ a off s
  | .bcNz a off => Sys2Proof.Machine.execBcNz a off s
  | .call off => Sys2Proof.Machine.execCall off s
  | .ret a => Sys2Proof.Machine.execRet a s
  | .jr a => Sys2Proof.Machine.execJr a s
  | .loopb a off arm => Sys2Proof.Machine.execLoopb a off arm s
  | .loopIteration c e => Sys2Proof.Machine.execLoopIteration c e s
  | .loopx d a => Sys2Proof.Machine.execLoopx d a s
  | .bopush a => Sys2Proof.Machine.execBopush a s
  | .bobc a off => Sys2Proof.Machine.execBobc a off s
  | .launch d a b => Sys2Proof.Machine.execLaunch d a b s
  | .spawn d a b => Sys2Proof.Machine.execSpawn d a b s
  | .join d a => Sys2Proof.Machine.execJoin d a s
  | .suspendAs a b an => Sys2Proof.Machine.execSuspendAs a b an s
  | .suspendXs => Sys2Proof.Machine.execSuspendXs s
  | .suspendComplete c => Sys2Proof.Machine.execSuspendComplete c s
  | .commit d => Sys2Proof.Machine.execCommit d s
  | .retire => Sys2Proof.Machine.execRetire s
  | .streamEnd q => Sys2Proof.Machine.execStreamEnd q s
  | .cancel d a => Sys2Proof.Machine.execCancel d a s
  | .yield => Sys2Proof.Machine.execYield s
  | .trap code => Sys2Proof.Machine.execTrap code s
  | .eret => Sys2Proof.Machine.execEret s
  | .csrr d c => Sys2Proof.Machine.execCsrr d c s
  | .csrw c a => Sys2Proof.Machine.execCsrw c a s
  | .carve a => Sys2Proof.Machine.execCarve a s
  | .fencei => Sys2Proof.Machine.execFencei s
  | .wait d a b => Sys2Proof.Machine.execWait d a b s
  | .waitEnd q written => Sys2Proof.Machine.execWaitEnd q written s
  | .ld d a disp sz acq => Sys2Proof.Machine.execLd d a disp sz acq s
  | .st d a disp sz rel asy => Sys2Proof.Machine.execSt d a disp sz rel asy s
  | .ldfe d a disp sz clear => Sys2Proof.Machine.execLdfe d a disp sz clear s
  | .stfe d a disp sz => Sys2Proof.Machine.execStfe d a disp sz s
  | .fullEmptyWaitEnd w => Sys2Proof.Machine.execFullEmptyWaitEnd w s
  | .fence o => Sys2Proof.Machine.execFence o s
  | .promote d a disp sc => Sys2Proof.Machine.execPromote d a disp sc s
  | .taggedLineEviction pa => Sys2Proof.Machine.execTaggedLineEviction pa s
  | .amo op d a b sz o nr => Sys2Proof.Machine.execAmo op d a b sz o nr s
  | .cas d a b sz o => Sys2Proof.Machine.execCas d a b sz o s
  | .famo op d a b o nr => Sys2Proof.Machine.execFamo op d a b o nr s
  | .amofence sc => Sys2Proof.Machine.execAmofence sc s
  | .nrAtomicHomeFault c => Sys2Proof.Machine.execNrAtomicHomeFault c s
  | .tlwait t a sc => Sys2Proof.Machine.execTlwait t a sc s
  | .tlwaitReturn q => Sys2Proof.Machine.execTlwaitReturn q s
  | .tlread d t => Sys2Proof.Machine.execTlread d t s
  | .fopen a => Sys2Proof.Machine.execFopen a s
  | .fpub a b sc => Sys2Proof.Machine.execFpub a b sc s
  | .fchase d a b sc => Sys2Proof.Machine.execFchase d a b sc s
  | .chaseSatisfied w => Sys2Proof.Machine.execChaseSatisfied w s
  | .fclose a sc => Sys2Proof.Machine.execFclose a sc s
  | .fhalt a => Sys2Proof.Machine.execFhalt a s
  | .fread d a => Sys2Proof.Machine.execFread d a s
  | .bar b a => Sys2Proof.Machine.execBar b a s
  | .barw b => Sys2Proof.Machine.execBarw b s
  | .barwWake q => Sys2Proof.Machine.execBarwWake q s
  | .bars b a => Sys2Proof.Machine.execBars b a s
  | .hbar sc a => Sys2Proof.Machine.execHbar sc a s
  | .hbarPhaseEnd q outside => Sys2Proof.Machine.execHbarPhaseEnd q outside s
  | .hoff d c a b => Sys2Proof.Machine.execHoff d c a b s
  | .take d a b => Sys2Proof.Machine.execTake d a b s
  | .takeReturn q => Sys2Proof.Machine.execTakeReturn q s
  | .ckpt d => Sys2Proof.Machine.execCkpt d s
  | .fereset a b => Sys2Proof.Machine.execFereset a b s
  | .pref a disp home => Sys2Proof.Machine.execPref a disp home s
  | .cwb a b => Sys2Proof.Machine.execCwb a b s
  | .cinv a b => Sys2Proof.Machine.execCinv a b s
  | .permit a b sc => Sys2Proof.Machine.execPermit a b sc s
  | .shld sh a disp => Sys2Proof.Machine.execShld sh a disp s
  | .shst sh a disp => Sys2Proof.Machine.execShst sh a disp s
  | .shset sh a f => Sys2Proof.Machine.execShset sh a f s
  | .shget d sh f => Sys2Proof.Machine.execShget d sh f s
  | .tdef t sh => Sys2Proof.Machine.execTdef t sh s
  | .tdrop t => Sys2Proof.Machine.execTdrop t s
  | .tget sh t => Sys2Proof.Machine.execTget sh t s
  | .lease a => Sys2Proof.Machine.execLease a s
  | .unlease => Sys2Proof.Machine.execUnlease s
  | .loomLeaseDraw q => Sys2Proof.Machine.execLoomLeaseDraw q s
  | .cgrp d a g => Sys2Proof.Machine.execCgrp d a g s
  | .asyreg a b g => Sys2Proof.Machine.execAsyreg a b g s
  | .asyfence d g => Sys2Proof.Machine.execAsyfence d g s
  | .assayPointEnd ctx g others => Sys2Proof.Machine.execAssayPointEnd ctx g others s
  | .asyget d a g => Sys2Proof.Machine.execAsyget d a g s
  | .crload d a b => Sys2Proof.Machine.execCrload d a b s
  | .crierResume k => Sys2Proof.Machine.execCrierResume k s
  | .vadd t d a b m => Sys2Proof.Machine.execVadd t d a b m s
  | .vsub t d a b m => Sys2Proof.Machine.execVsub t d a b m s
  | .vmul t d a b m => Sys2Proof.Machine.execVmul t d a b m s
  | .vfma t d a b c m => Sys2Proof.Machine.execVfma t d a b c m s
  | .vdiv t d a b m => Sys2Proof.Machine.execVdiv t d a b m s
  | .vsqrt t d a m => Sys2Proof.Machine.execVsqrt t d a m s
  | .vabs t d a m => Sys2Proof.Machine.execVabs t d a m s
  | .vneg t d a m => Sys2Proof.Machine.execVneg t d a m s
  | .vmin t d a b m => Sys2Proof.Machine.execVmin t d a b m s
  | .vmax t d a b m => Sys2Proof.Machine.execVmax t d a b m s
  | .vand t d a b m => Sys2Proof.Machine.execVand t d a b m s
  | .vor t d a b m => Sys2Proof.Machine.execVor t d a b m s
  | .vxor t d a b m => Sys2Proof.Machine.execVxor t d a b m s
  | .vshl t d a b m => Sys2Proof.Machine.execVshl t d a b m s
  | .vshr t d a b m => Sys2Proof.Machine.execVshr t d a b m s
  | .vsra t d a b m => Sys2Proof.Machine.execVsra t d a b m s
  | .vcmp t cc d a b m => Sys2Proof.Machine.execVcmp t cc d a b m s
  | .vsel t d a b c ty => Sys2Proof.Machine.execVsel t d a b c ty s
  | .vmov t d a m => Sys2Proof.Machine.execVmov t d a m s
  | .vbcast t d a b m => Sys2Proof.Machine.execVbcast t d a b m s
  | .vperm t d a b m => Sys2Proof.Machine.execVperm t d a b m s
  | .vslide t d a b c m => Sys2Proof.Machine.execVslide t d a b c m s
  | .vredsum t d a m => Sys2Proof.Machine.execVredsum t d a m s
  | .vredmax t d a m => Sys2Proof.Machine.execVredmax t d a m s
  | .vredmin t d a m => Sys2Proof.Machine.execVredmin t d a m s
  | .vscan t d a m => Sys2Proof.Machine.execVscan t d a m s
  | .vdot t d a b g m => Sys2Proof.Machine.execVdot t d a b g m s
  | .vwmul t d a b m => Sys2Proof.Machine.execVwmul t d a b m s
  | .vcvt t d a st h m => Sys2Proof.Machine.execVcvt t d a st h m s
  | .vcvtef t d a c st h m => Sys2Proof.Machine.execVcvtef t d a c st h m s
  | .vexp2 t d a m => Sys2Proof.Machine.execVexp2 t d a m s
  | .vlog2 t d a m => Sys2Proof.Machine.execVlog2 t d a m s
  | .vrcp t d a m => Sys2Proof.Machine.execVrcp t d a m s
  | .vrsqrt t d a m => Sys2Proof.Machine.execVrsqrt t d a m s
  | .vtmin t d a mask => Sys2Proof.Machine.execVtmin t d a mask s
  | .vtmex t d a m => Sys2Proof.Machine.execVtmex t d a m s
  | .vtmerge t d a b mask => Sys2Proof.Machine.execVtmerge t d a b mask s
  | .tmtab t a pair => Sys2Proof.Machine.execTmtab t a pair s
  | .tmshape t a => Sys2Proof.Machine.execTmshape t a s
  | .vsortk t d a b m => Sys2Proof.Machine.execVsortk t d a b m s
  | .vsegsum t d a b c m => Sys2Proof.Machine.execVsegsum t d a b c m s
  | .vpushc t d a w ty mask => Sys2Proof.Machine.execVpushc t d a w ty mask s
  | .vpopc t d c w ty => Sys2Proof.Machine.execVpopc t d c w ty s
  | .vchain t d a b c sat rnd => Sys2Proof.Machine.execVchain t d a b c sat rnd s
  | .mlog t d a b tt => Sys2Proof.Machine.execMlog t d a b tt s
  | .mpopc t d a ty => Sys2Proof.Machine.execMpopc t d a ty s
  | .mfirst t d a ty => Sys2Proof.Machine.execMfirst t d a ty s
  | .vld t d a disp ty mask plane => Sys2Proof.Machine.execVld t d a disp ty mask plane s
  | .vldg t d a b ty mask => Sys2Proof.Machine.execVldg t d a b ty mask s
  | .vldt t d a b lw ty => Sys2Proof.Machine.execVldt t d a b lw ty s
  | .vldfe t d a disp clear ty => Sys2Proof.Machine.execVldfe t d a disp clear ty s
  | .vst t d a disp ty mask plane asy => Sys2Proof.Machine.execVst t d a disp ty mask plane asy s
  | .vsts t d a b ty mask asy => Sys2Proof.Machine.execVsts t d a b ty mask asy s
  | .vstt t d a b lw asy close ty => Sys2Proof.Machine.execVstt t d a b lw asy close ty s
  | .vstfe t d a disp ty => Sys2Proof.Machine.execVstfe t d a disp ty s
  | .vamo t op d a b c ty mask nr => Sys2Proof.Machine.execVamo t op d a b c ty mask nr s
  | .chainb t => Sys2Proof.Machine.execChainb t s
  | .chaine t slots sig => Sys2Proof.Machine.execChaine t slots sig s
  | .mma t d a b o ty => Sys2Proof.Machine.execMma t d a b o ty s
  | .mmaz t d a b o ty => Sys2Proof.Machine.execMmaz t d a b o ty s
  | .accz t d => Sys2Proof.Machine.execAccz t d s
  | .accst t d a o close ty sat rnd => Sys2Proof.Machine.execAccst t d a o close ty sat rnd s
  | .accld t d a o ty => Sys2Proof.Machine.execAccld t d a o ty s
  | .chainTooLong c => Sys2Proof.Machine.execChainTooLong c s
  | .cpy d a b bind close => Sys2Proof.Machine.execCpy d a b bind close s
  | .cpym a b c bind => Sys2Proof.Machine.execCpym a b c bind s
  | .cpyf d b c bind close => Sys2Proof.Machine.execCpyf d b c bind close s
  | .trig a b sc => Sys2Proof.Machine.execTrig a b sc s
  | .trigFire c => Sys2Proof.Machine.execTrigFire c s
  | .walkerFault c => Sys2Proof.Machine.execWalkerFault c s
  | .ttset a b => Sys2Proof.Machine.execTtset a b s
  | .tready a b => Sys2Proof.Machine.execTready a b s
  | .cred a => Sys2Proof.Machine.execCred a s
  | .cqAck c => Sys2Proof.Machine.execCqAck c s
  | .tileFire ctx tile => Sys2Proof.Machine.execTileFire ctx tile s
  | .collectiveReduce ctx tile others => Sys2Proof.Machine.execCollectiveReduce ctx tile others s
  | .engineEntryStart c e => Sys2Proof.Machine.execEngineEntryStart c e s
  | .engineEntryComplete c e => Sys2Proof.Machine.execEngineEntryComplete c e s
  | .tokenPushDeferred c e => Sys2Proof.Machine.execTokenPushDeferred c e s
  | .lineFetch q stale => Sys2Proof.Machine.execLineFetch q stale s
  | .faultDelivery q f => Sys2Proof.Machine.execFaultDelivery q f s
  | .asyncFaultDelivery q => Sys2Proof.Machine.execAsyncFaultDelivery q s
  | .workRequest q => Sys2Proof.Machine.execWorkRequest q s
  | .launchEnqueue k => Sys2Proof.Machine.execLaunchEnqueue k s
  | .triggeredLaunchFire k => Sys2Proof.Machine.execTriggeredLaunchFire k s
  | .continuationResume ctx k => Sys2Proof.Machine.execContinuationResume ctx k s
  | .taskRetire c => Sys2Proof.Machine.execTaskRetire c s
  | .taskPreempt c => Sys2Proof.Machine.execTaskPreempt c s
  | .progressWatchdogExpiry c => Sys2Proof.Machine.execProgressWatchdogExpiry c s
  | .chaseTimeout w => Sys2Proof.Machine.execChaseTimeout w s
  | .hostWrite via pa bytes => Sys2Proof.Machine.execHostWrite via pa bytes s
  | .hostRead via pa n => Sys2Proof.Machine.execHostRead via pa n s
  | .hostSnoop port pa => Sys2Proof.Machine.execHostSnoop port pa s
  | .remoteRequest pkg r => Sys2Proof.Machine.execRemoteRequest pkg r s
  | .remoteAck a => Sys2Proof.Machine.execRemoteAck a s
  | .linkReplay port => Sys2Proof.Machine.execLinkReplay port s
  | .hostPortTraining port mode => Sys2Proof.Machine.execHostPortTraining port mode s
  | .claimWrite via port v => Sys2Proof.Machine.execClaimWrite via port v s
  | .ownerElectionEnd => Sys2Proof.Machine.execOwnerElectionEnd s
  | .ownerLoss => Sys2Proof.Machine.execOwnerLoss s
  | .hgoWrite w v => Sys2Proof.Machine.execHgoWrite w v s
  | .attgoWrite w v => Sys2Proof.Machine.execAttgoWrite w v s
  | .smapWrite w idx v => Sys2Proof.Machine.execSmapWrite w idx v s
  | .segwWrite w n v => Sys2Proof.Machine.execSegwWrite w n v s
  | .queueDescriptorWrite w q word v => Sys2Proof.Machine.execQueueDescriptorWrite w q word v s
  | .contextDescriptorWrite w c v => Sys2Proof.Machine.execContextDescriptorWrite w c v s
  | .poolDescriptorWrite w p word v => Sys2Proof.Machine.execPoolDescriptorWrite w p word v s
  | .pkgsetWrite w v => Sys2Proof.Machine.execPkgsetWrite w v s
  | .tlbiWrite w v => Sys2Proof.Machine.execTlbiWrite w v s
  | .tlbiComplete => Sys2Proof.Machine.execTlbiComplete s
  | .tlbsRead w => Sys2Proof.Machine.execTlbsRead w s
  | .pwrRead w => Sys2Proof.Machine.execPwrRead w s
  | .svnsetWrite w v => Sys2Proof.Machine.execSvnsetWrite w v s
  | .registerWrite w syc off v => Sys2Proof.Machine.execRegisterWrite w syc off v s
  | .dieQuiesce w sc v => Sys2Proof.Machine.execDieQuiesce w sc v s
  | .dieFence sc => Sys2Proof.Machine.execDieFence sc s
  | .dieQuiesceDeadline sc => Sys2Proof.Machine.execDieQuiesceDeadline sc s
  | .dieTrainingComplete sc failed => Sys2Proof.Machine.execDieTrainingComplete sc failed s
  | .dieReadmit w sc v => Sys2Proof.Machine.execDieReadmit w sc v s
  | .dieFailure sc => Sys2Proof.Machine.execDieFailure sc s
  | .rollback w v => Sys2Proof.Machine.execRollback w v s
  | .logFullForcedClose ctx => Sys2Proof.Machine.execLogFullForcedClose ctx s
  | .correctedError e => Sys2Proof.Machine.execCorrectedError e s
  | .classifierEntryExpiry chan k => Sys2Proof.Machine.execClassifierEntryExpiry chan k s
  | .uncorrectableError e => Sys2Proof.Machine.execUncorrectableError e s
  | .laneSpareSwitch kind index => Sys2Proof.Machine.execLaneSpareSwitch kind index s
  | .packageTrip => Sys2Proof.Machine.execPackageTrip s
  | .throttle pin tj => Sys2Proof.Machine.execThrottle pin tj s
  | .packageReset => Sys2Proof.Machine.execPackageReset s
  | .bringUpStep r => Sys2Proof.Machine.execBringUpStep r s
  | .ready => Sys2Proof.Machine.execReady s
  | .hstatUpdate => Sys2Proof.Machine.execHstatUpdate s
  | .reportReady => Sys2Proof.Machine.execReportReady s
  | .rollbackDone => Sys2Proof.Machine.execRollbackDone s
  | .smapRewriteComplete => Sys2Proof.Machine.execSmapRewriteComplete s
  | .hbmChannelRepairEnd chan => Sys2Proof.Machine.execHbmChannelRepairEnd chan s
  | .sliceRehomingComplete sc => Sys2Proof.Machine.execSliceRehomingComplete sc s
  | .throttleEnd pin tj => Sys2Proof.Machine.execThrottleEnd pin tj s
  | .masterLinkChange p up => Sys2Proof.Machine.execMasterLinkChange p up s

end Sys2Proof.Machine
end

