-- ==== Sys2Proof/Machine/Policy.lean ====
section
/-! DEFINITION. Who moves next (DESIGN CHOICE log 3): the head of the agenda, and with an empty agenda a rotation over every agent that
may have something to do. Any order of steps is an agenda, so the default order decides nothing that a claim rests on. -/

namespace Sys2Proof.Machine

open Sys2Proof

def ev (i : Instr) : Act := .event i

/-- What the queues of a core may do next. -/
def engineActs (c : CoreId) (x : Core) : List Act :=
  allEngs.flatMap fun e =>
    let q := x.eq e
    let head := q.ents.head?
    (if q.ents.any (·.phase = .done) then [ev (.engineEntryComplete c e)] else []) ++
    (if q.held.isEmpty then [] else [ev (.tokenPushDeferred c e)]) ++
    (if q.ents.any (·.phase = .waiting) then [ev (.engineEntryStart c e)] else []) ++
    (match head with
     | some h =>
       if h.phase = .started then
         [ev (.chaseSatisfied (.eng c e)), ev (.fullEmptyWaitEnd (.eng c e))] ++
           (if e = .wq then [ev (.trigFire c)] else []) ++ (if e = .cq then [ev (.cqAck c)] else [])
       else []
     | none => []) ++
    (if q.armed.isSome then [ev (.loopIteration c e)] else []) ++
    [ev (.chaseTimeout (.eng c e))]

/-- What a core may do next. -/
def coreActs (k : Nat) (x : Core) : List Act :=
  let c : CoreId := Fin.ofNat 768 k
  (match x.task with
   | none => []
   | some _ =>
     [.seq { core := c, xs := false }, .seq { core := c, xs := true }] ++
     (if x.as.status = .stopped && x.xs.status = .stopped then [ev (.taskRetire c)] else []) ++
     (if x.as.status = .suspended && x.xs.status = .suspended then [ev (.suspendComplete c)] else []) ++
     (if x.tickets = 0 then [] else [ev (.loomLeaseDraw (Fin.ofNat 192 (k / 4)))]) ++
     [ev (.chaseTimeout (.seq { core := c, xs := false })), ev (.chaseTimeout (.seq { core := c, xs := true })),
      ev (.progressWatchdogExpiry c)] ++
     engineActs c x) ++
  (if x.nrOut.isEmpty then [] else [ev (.nrAtomicHomeFault c)])

/-- Some quad of a bound die has an idle core. -/
def workActs (s : State) : List Act :=
  s.dies.flatMap fun d =>
    if d.2.cbind = 0 ∨ d.2.state ≠ 0 then []
    else (List.range 32).map fun k => ev (.workRequest (Fin.ofNat 192 (32 * d.1 + k)))

/-- What a context's units may do next. -/
def ctxActs (k : Nat) (c : Ctx) : List Act :=
  let x : Fin 64 := Fin.ofNat 64 k
  ((List.range c.watches.length).map fun w => ev (.continuationResume x w)) ++
    (c.tiles.flatMap fun t =>
      (if t.2.armed.isSome then [ev (.tileFire x (Fin.ofNat 4096 t.1))] else []) ++
      (if t.2.fired.isSome then [ev (.collectiveReduce x (Fin.ofNat 4096 t.1) [])] else [])) ++
    (c.groups.flatMap fun g => if g.2.point.isSome then [ev (.assayPointEnd x (Fin.ofNat 64 g.1) [])] else [])

/-- Every agent that may have something to do. -/
def State.acts (s : State) : List Act :=
  s.cores.flatMap (fun c => coreActs c.1 c.2) ++ workActs s ++ s.ctxs.flatMap (fun c => ctxActs c.1 c.2) ++
    ((List.range s.launches.length).flatMap fun k => [ev (.launchEnqueue k), ev (.triggeredLaunchFire k)]) ++
    (if s.tlbi.isSome then [ev .tlbiComplete] else []) ++
    (if s.syc.electionAt.isSome then [ev .ownerElectionEnd] else []) ++
    (if s.syc.hgoBusy then [ev .hstatUpdate] else []) ++
    (if s.syc.attgo then [ev .reportReady] else []) ++
    (if s.rollback.isSome then [ev .rollbackDone] else []) ++
    (if s.smap.any (·.2.rewrite.isSome) then [ev .smapRewriteComplete] else [])

/-! ## Acts of one clock -/

/-- The sequencer pops an outcome of a full queue into which the other one pushes (R261). -/
def State.popsFull (s : State) (q : SeqId) : Bool :=
  match s.seqNext q with
  | some (.bobc .., _) => 16 ≤ (s.seqr (otherSeq q)).outq.length
  | _ => false

/-- The place of a sequencer's turn among the acts of its clock: `hoff` before other accesses to its pages (R391), a pop of a
full outcome queue before the push (R261), AS before XS (R21, R163, R275, R306, R357, R368), `fhalt` after publications
(R334, R368), and a `yield`, which may pre-empt its task, after commits (R243, R271). -/
def State.seqKey (s : State) (q : SeqId) : Nat :=
  match s.seqNext q with
  | some (.hoff .., _) => 1
  | some (.fhalt .., _) => 800
  | some (.yield .., _) => 899
  | _ => if s.popsFull q then 3 else if q.xs then 5 else 4

/-- An act of an engine makes an entry of its queue fault that may set HALTED: what its outcome shows. -/
def State.faultsNow (s : State) (c : CoreId) (e : Eng) (o : Out) : Bool :=
  match o with
  | .next t => ((t.core c.val).eq e).faulted && !((s.core c.val).eq e).faulted
  | _ => false

/-- The command in the walker's hand is bound to a barrier. -/
def Core.boundWalker (x : Core) : Bool := x.wq.ents.head?.any fun n => (boundOf n.instr).isSome

/-- The place of an act of an engine whose place is otherwise `k`: where its entry faults now, a bound walker command comes before
the `bar` of its clock (R357, R368), and any other writer that sets HALTED comes after publications (R334; DESIGN CHOICE log 3). -/
def State.engKey (s : State) (c : CoreId) (e : Eng) (k : Nat) (o : Out) : Nat :=
  if (e = .lp ∨ e = .wq ∨ e = .ve ∨ e = .sq) ∧ s.faultsNow c e o then
    if e = .wq ∧ (s.core c.val).boundWalker then 2 else 800
  else k

/-- The place of an act among the acts of one clock; of two with one place, the order of the agenda stands. A trip and READY come
first (R427), then a bound walker command's fault (R368), the sequencers, SQ and LQ (R368), requests for work by quad (R223), claims
and changes of links, and then the end of an election (R375, R427), every other act (R91, R357), faults that set HALTED (R334),
pre-emption (R243, R418), the chase monitor (R327, R334), and an uncorrectable error (R306). -/
def State.actKey (s : State) : Act → Nat
  | .seq q => s.seqKey q
  | .event (.packageTrip ..) => 0
  | .event (.ready ..) => 0
  | .event (.walkerFault c) => s.engKey c .wq 700 (execWalkerFault c s)
  | .event (.engineEntryStart c e) =>
    s.engKey c e (match e with | .sq => 6 | .lq => 7 | _ => 700) (execEngineEntryStart c e s)
  | .event (.fullEmptyWaitEnd (.eng c e)) =>
    s.engKey c e (match e with | .sq => 6 | .lq => 7 | _ => 700) (execFullEmptyWaitEnd (.eng c e) s)
  | .event (.fullEmptyWaitEnd (.seq q)) => if q.xs then 5 else 4
  | .event (.chaseSatisfied (.eng c e)) => s.engKey c e 700 (execChaseSatisfied (.eng c e) s)
  | .event (.trigFire c) => s.engKey c .wq 700 (execTrigFire c s)
  | .event (.workRequest q) => 100 + q.val
  | .event (.claimWrite ..) => 690
  | .event (.masterLinkChange ..) => 690
  | .event (.ownerElectionEnd ..) => 695
  | .event (.taskPreempt _) => 900
  | .event (.dieQuiesce ..) => 900
  | .event (.chaseTimeout _) => 902
  | .event (.uncorrectableError ..) => 903
  | .event _ => 700

/-- The index of the first smallest number. -/
def argMin : List Nat → Nat
  | [] => 0
  | k :: ks =>
    match ks with
    | [] => 0
    | _ => let i := argMin ks; if k ≤ ks.getD i k then 0 else i + 1

/-- The acts of the agenda's first clock, and the rest (R243, R306, R334, R368, R391, R418, R427). -/
def clockGroup : List Agendum → List Agendum × List Agendum
  | [] => ([], [])
  | a :: as => (a :: as.takeWhile (·.dt = 0), as.dropWhile (·.dt = 0))

/-- The act of the agenda that comes first in its clock, and the agenda without it. -/
def State.fromAgenda (s : State) (a : Agendum) (rest : List Agendum) : Agendum × List Agendum :=
  match clockGroup (a :: rest) with
  | ([_], _) => (a, rest)
  | (g, later) =>
    let now := { s with clock := s.clock + a.dt }
    let i := argMin (g.map fun x => now.actKey x.act)
    ({ dt := a.dt, act := (g.getD i a).act }, (listDel g i).map (fun x => { x with dt := 0 }) ++ later)

/-- The agenda still holds an act of this clock that comes before the write of a register: one that would pre-empt waits for the
commits of its clock (R243). -/
def State.agendaFirst (s : State) (i : Instr) : Bool :=
  match s.agenda with
  | [] => false
  | a :: rest => a.dt == 0 && decide (900 ≤ s.actKey (.event i)) && decide (s.actKey (s.fromAgenda a rest).1.act < s.actKey (.event i))

/-- The next act of the agenda, or with an empty agenda of the rotation. -/
def State.nextAct (s : State) : Option Agendum × State :=
  match s.agenda with
  | a :: rest => let p := s.fromAgenda a rest; (some p.1, { s with agenda := p.2 })
  | [] =>
    let l := s.acts
    (l[s.turn % l.length]?.map fun a => { dt := 1, act := a }, { s with turn := s.turn + 1 })

/-- The next act and the clocks before it, and the state with the choice made: a register that a store has written (DESIGN CHOICE
log 20), the agenda, or the rotation. -/
def State.choose (s : State) : Option Agendum × State :=
  match s.regWrites with
  | [] => s.nextAct
  | i :: is => if s.agendaFirst i then s.nextAct else (some { dt := 0, act := .event i }, { s with regWrites := is })

/-- The unit that an event names stands in the package. -/
def unitExists (s : State) : Instr → Bool
  | .launchEnqueue k => k < s.launches.length
  | .triggeredLaunchFire k => k < s.launches.length
  | .continuationResume c k => k < (s.ctx c.val).watches.length
  | _ => true

/-- What a step does. -/
inductive Pick
  | run (i : Instr) (s : State)
  | idle (s : State)
  | stop (f : Fault)
  | refuse (r : Refusal)

/-- Choose what a step does (DESIGN CHOICE log 3). -/
def State.pick (s : State) : Pick :=
  match s.choose with
  | (none, s) => .idle { s with clock := s.clock + 1 }
  | (some a, s) =>
    let s := { s with clock := s.clock + a.dt }
    match a.act with
    | .seq q =>
      (match s.seqNext q with
       | some (i, s) => .run i s
       | none => .idle s)
    | .event i => if i.encoded then .refuse .outsideStream else if unitExists s i then .run i s else .stop .noSuchUnit

/-! ## Placing an instruction (DESIGN CHOICE log 5) -/

/-- A task that runs in context 0. -/
def plainTask : Task :=
  { ctx := 0, queue := 0, slot := 0, jobid := 0, lidx := 0, frame := SVal.zero, join := 0, inst := 0, team := 0, crew := 0,
    committed := true, commitAt := 0, watchAt := 0, commitStale := some false, cancel := false, buffered := [], suspA := none,
    nextA := 0, nextX := 0, carve := none, preempt := false, gone := false }

/-- The header code of a class (R59). -/
def clsHdr : Cls → Nat
  | .seq _ => 1 | .lq => 3 | .ve => 4 | .sq => 5 | .lp => 6 | .wq => 7 | .cq => 8

/-- The line that holds an instruction in lane 1, and the sequencer that routes it. -/
def placedLine (nbits w : Nat) : SeqId × FLine :=
  let tw := tableWords (w % 2 ^ nbits)
  match tableTry tw.1 tw.2 tableClasses with
  | some (k, n, _) =>
    let xs := k = .seq true
    let h := clsHdr k * 16 + ((List.range n).map fun j => 2 * 16 ^ (j + 2)).sum
    ({ core := 0, xs := xs }, lineOfWords 0 (h :: tw.1 :: tw.2.take n))
  | none => ({ core := 0, xs := false }, lineOfWords 0 [0x10, tw.1])

/-- Put a line before a sequencer: it routes lane 1 in the next step. -/
def State.stage (s : State) (q : SeqId) (l : FLine) : State :=
  let s := s.onCore q.core.val fun x => { x with task := match x.task with | none => some plainTask | some t => some t }
  let s := s.onSeqr q fun x =>
    { x with pcLine := BitVec.ofNat 52 l.addr, pcLane := 1, entry := 1, line := some l, status := .live, wait := .none,
             asyncRecs := [], slotPois := false, kvals := [], entering := none }
  let later := match s.agenda with
    | [] => []
    | a :: rest => { a with dt := Nat.max 1 a.dt } :: rest
  { s with agenda := { dt := 1, act := .seq q } :: later, regWrites := [], syc := { s.syc with state := 5 } }

end Sys2Proof.Machine
end

