-- ==== Sys2Proof/Machine/Step.lean ====
section
/-! DEFINITION. One step of the package (DESIGN CHOICE log 3), and placing an instruction where the next step fetches it (DESIGN CHOICE log 5). -/

namespace Sys2Proof.Machine

open Sys2Proof

/-- One step: the act that comes next. -/
def step (s : State) : Host.Outcome State Fault Refusal :=
  match s.pick with
  | .run i s' => exec i s'
  | .idle s' => .next s'
  | .stop f => .fault f
  | .refuse r => .refused r

/-- `s` with an instruction in the line that the next step routes (DESIGN CHOICE log 5). -/
def State.withFetchWord (s : State) (nbits w : Nat) : State :=
  let p := placedLine nbits w
  s.stage p.1 p.2

end Sys2Proof.Machine
end

