-- ==== Sys2Proof/Safety.lean ====
section
/-! DEFINITION. What claims call a safe run: the invariant of the package's state, and runs that end in no stop. -/

namespace Sys2Proof

open Sys2Proof.Machine

/-- A step that completes: it answers a next state. -/
def Completes (s : State) : Prop := ∃ t, step s = .next t

/-- `t` is reached from `s` by steps that all complete. -/
inductive Reaches : State → State → Prop
  | refl (s : State) : Reaches s s
  | tail {s t u : State} (h : Reaches s t) (hs : step t = .next u) : Reaches s u

/-- Memory stands in its one canonical form, so that equal memories are equal lists (DESIGN CHOICE log 2). -/
def MemOk (s : State) : Prop := Memory.wf s.mem = true

end Sys2Proof
end

