-- ==== Sys2Proof/WellFormed.lean ====
section
/-! DEFINITION. Which terms of `Instr` are instructions: what the forms tables R133, R177, R200, R249, R339, R347 and R359
admit beyond what the types say, with at most three continuation words (R61). An event is well-formed when it names something the package has. -/

namespace Sys2Proof

/-- Operands of the kinds S, K and L. -/
def EOpd.isSkl : EOpd → Bool
  | .vec _ => false
  | _ => true
def EOpd.isSl : EOpd → Bool
  | .reg _ | .lit _ => true
  | _ => false
def EOpd.isSk : EOpd → Bool
  | .reg _ | .const _ => true
  | _ => false
def EOpd.isVec : EOpd → Bool
  | .vec _ => true
  | _ => false

def noX (t : ElemTy → Bool) (m : Mods) (sat : ElemTy → Bool) (rnd : ElemTy → Rnd → Bool) : Bool :=
  t m.ty && (!m.sat || sat m.ty) && rnd m.ty m.rnd

def rneOnly (_ : ElemTy) (r : Rnd) : Bool := r = .rne
def noSat (_ : ElemTy) : Bool := false

/-- The mask is m0 on a block type (R128). -/
def maskFI (ty : ElemTy) (mask : MReg) : Bool := isFI ty || mask = 0

/-- No ordering and no destination with `.nr` (R344). -/
def nrOk (nr : Bool) (d : Nat) (o : Ordr) : Bool := !nr || (d == 0 && o = .none)

/-- A well-formed instruction. -/
def Instr.wf : Instr → Bool
  | .loopb _ off arm => 1 ≤ off.toNat && off.toNat < 2 ^ 19 &&
      (arm.lq.isSome || arm.ve.isSome || arm.sq.isSome || arm.lp.isSome || arm.wq.isSome || arm.cq.isSome)
  | .csrw c _ => c.writable
  | .fence o => o ≠ .none
  | .promote _ _ _ s => 2 ≤ s.code
  | .amo _ d _ _ sz o nr => 2 ≤ sz.code && nrOk nr d.val o
  | .cas _ _ _ sz _ => 2 ≤ sz.code
  | .famo op d _ _ o nr => op.famoOk && nrOk nr d.val o
  | .hbar s _ => 1 ≤ s.code
  | .vadd _ _ _ _ m | .vsub _ _ _ _ m | .vmul _ _ _ _ m => noX isFI m yesT rndF
  | .vfma _ _ a b c m => noX isFI m yesT rndF && decide ((a.enc.v ++ b.enc.v ++ c.enc.v).length ≤ 2)
  | .vdiv _ _ _ _ m | .vsqrt _ _ _ m => noX ElemTy.isF m yesT anyRnd
  | .vexp2 _ _ _ m | .vlog2 _ _ _ m | .vrcp _ _ _ m | .vrsqrt _ _ _ m => noX ElemTy.isF m yesT anyRnd
  | .vabs _ _ _ m | .vneg _ _ _ m => noX absTy m ElemTy.isSigned rneOnly
  | .vmin _ _ _ _ m | .vmax _ _ _ _ m | .vand _ _ _ _ m | .vor _ _ _ _ m | .vxor _ _ _ _ m =>
      noX isFI m noSat rneOnly
  | .vshl _ _ _ _ m => noX ElemTy.isI m yesT rneOnly
  | .vshr _ _ _ _ m | .vsra _ _ _ _ m => noX ElemTy.isI m noSat rneOnly
  | .vcmp _ cc _ _ _ m => noX isFI m noSat rneOnly && !(4 ≤ cc.code && m.ty.isF)
  | .vsel _ _ _ _ _ ty => isFI ty
  | .vmov _ _ a m => noX yesT m noSat rneOnly && maskFI m.ty m.mask && (isFI m.ty || a.isVec)
  | .vbcast _ _ _ b m => noX isFI m noSat rneOnly && b.isSl
  | .vslide _ _ _ b _ m => noX isFI m noSat rneOnly && b.isSl
  | .vperm _ _ _ _ m => noX permTy m noSat rneOnly
  | .vredsum _ _ _ m | .vscan _ _ _ m => noX isFI m ElemTy.isI rndF
  | .vredmax _ _ _ m | .vredmin _ _ _ m => noX isFI m noSat rneOnly
  | .vdot _ d _ _ g m => noX (fun t => t ≠ .i32 && t ≠ .n32) m ElemTy.isI rneOnly &&
      vdotW m.ty g.val ≤ 4 && d.val % vdotW m.ty g.val == 0
  | .vwmul _ d _ _ m => noX (fun t => t = .bf16 || t.isB || (t.isI && t ≠ .i32 && t ≠ .n32)) m noSat
      (fun t r => !t.isI || r = .rne) && d.val % (if m.ty.isB then 4 else 2) == 0
  | .vcvt _ d a sty h m => maskFI m.ty m.mask && sty ≠ m.ty && (!h || rho sty m.ty == 8) &&
      (if sty.width < m.ty.width then d.val else a.val) % Nat.min (rho sty m.ty) 4 == 0
  | .vcvtef _ d a c sty h m => maskFI m.ty m.mask && !m.sat && (m.rnd = .rne || m.rnd = .rz) &&
      efPair sty m.ty && (!h || rho sty m.ty == 8) && a.val % Nat.min (rho sty m.ty) 4 == 0 &&
      c.val % Nat.min (rho sty m.ty) 4 == 0 && !(c.val ≤ d.val && d.val < c.val + Nat.min (rho sty m.ty) 4)
  | .vtmin _ d _ _ => d.val % 2 == 0
  | .vtmex _ _ a m => m.ty.isF && a.val % 2 == 0
  | .vtmerge _ d a b _ => d.val % 2 == 0 && a.val % 2 == 0 && b.val % 2 == 0
  | .tmtab _ _ p => p ≠ 0
  | .tmshape _ a => a.isSk
  | .vsortk _ d _ _ m => noX permTy m noSat rneOnly && d.val % 2 == 0
  | .vsegsum _ _ _ _ _ m => noX permTy m ElemTy.isI rndF
  | .vpushc _ _ a w ty _ => is4B ty && a.val % 2 ^ w.val == 0
  | .vpopc _ d _ w ty => is4B ty && d.val % 2 ^ w.val == 0
  | .vchain _ _ _ b _ _ _ => b.isSk
  | .vld _ _ _ _ ty mask p => maskFI ty mask && p.isSome == ty.isB
  | .vst _ _ _ _ ty mask p _ => maskFI ty mask && p.isSome == ty.isB
  | .vldg _ _ _ _ ty _ | .vsts _ _ _ _ ty _ _ => is4B ty
  | .vldt _ d _ b lw _ | .vstt _ d _ b lw _ _ _ => b.isSkl && d.val % 2 ^ lw.val == 0
  | .vldfe _ _ _ _ _ ty | .vstfe _ _ _ _ ty => isFI ty
  | .vamo _ op d _ _ _ ty _ nr => op.vamoOk ty && (!nr || d = 0)
  | .mma _ _ _ _ o ty | .mmaz _ _ _ _ o ty => o.isSkl && mmaTy ty
  | .accst _ _ _ o _ _ _ _ | .accld _ _ _ o _ => o.isSkl
  | .cpy _ _ b _ _ => b.isSkl
  | .cpym _ _ c _ => c.isSkl
  | .cpyf _ b c _ _ => b.isSkl && c.isSkl
  | .trig _ b _ => b.isSkl
  | .ttset a _ | .cred a => a.isSkl
  | .tready a b => a.isSkl && b.isSkl
  | _ => true

end Sys2Proof
end

