-- ==== Sys2Proof/Certificates/Slice0/Obligations.lean ====
section
/-! DEFINITION. The statements for the provers. Each says what rules of spec/ say of the machine; the names that a
statement shares with the model are those of Sys2Proof/Machine. -/

namespace Sys2Proof.Machine

open Sys2Proof

/-! ## What the statements share -/

/-- Operand `o` of sequencer `q` reads as `v` in `s` and leaves `t`: a register and a literal leave `s` itself, a
constant-bank word may fill a TLB and L1 (R75). -/
abbrev Reads (q : SeqId) (o : SOpd) (s : State) (v : SVal) (t : State) : Prop := opd q o s = .ok v t

/-- `i` completes from `s`: register `d` of the sequencer in hand takes a value that meets `P`, with poison `p`, over the
state `t` that reading the operands left; the sequencer stands at its next lane; nothing else differs from `t`. -/
def Writes (i : Instr) (s t : State) (d : Reg) (p : Bool) (P : Word → Prop) : Prop :=
  ∃ v, exec i s = .next ((t.setReg s.focus d { v := v, p := p }).advance s.focus) ∧ P v

/-- The chapter 13 access of sequencer `q` at `va`, aligned to `al`, finds target `t` in `s`: translation, permission, mapping,
ownership, alignment and home pass (R56), and `t1` differs from `s` in TLBs. -/
abbrev Finds (q : SeqId) (p : Perm) (va al : Nat) (s : State) (t : Target) (t1 : State) : Prop :=
  access (chap13 0) (.core q.core.val) (s.ctxOf q.core.val) p va al false s = .ok t t1

/-- The same for an access that is made at its home, past L1: the holds and the die of its home, and of the core's own dirty bytes of the
line, pass too (R290, R292, R314). -/
abbrev FindsHome (q : SeqId) (p : Perm) (va al : Nat) (s : State) (t : Target) (t1 : State) : Prop :=
  accessHome (chap13 0) (.core q.core.val) (s.ctxOf q.core.val) p va al s = .ok t t1

/-- An operation without a value completes from `s` in `t`. -/
abbrev Runs (m : Mx Unit) (s t : State) : Prop := m s = .ok () t

/-- `t` differs from `s` in core `c` alone. -/
def OnlyCore (s t : State) (c : Nat) : Prop := t = { s with cores := t.cores } ∧ ∀ k, k ≠ c → t.core k = s.core k

/-- `t` differs from `s` in sequencer `q` alone. -/
def OnlySeqr (s t : State) (q : SeqId) : Prop :=
  OnlyCore s t q.core.val ∧ t.core q.core.val = (s.core q.core.val).setSeqr q.xs (t.seqr q)

/-- `i` takes sequencer `q` from `s` to `t`: where it is routed, and where the event `w` runs it again out of the wait `k` in which it
stands (R245). `s` has its focus on `q`; the event may come with the focus on any sequencer `f`. -/
def RunsOrWakes (i w : Instr) (k : WaitKind) (q : SeqId) (s t : State) : Prop :=
  exec i s = .next t ∧
    ∀ f : SeqId, (s.seqr q).wait = k → (s.seqr q).cur = some i → exec w { s with focus := f } = .next t

/-- The address of base `a` and displacement `disp` (R335). -/
def dispAddr (s : State) (q : SeqId) (a : Reg) (disp : BitVec 32) : Nat := ((s.reg q a).v + disp.signExtend 64).toNat

/-- The bytes from place `p` on of `m` spell the low `n` bytes of `v` (R5). -/
def Spells (m : List Host.Cell) (p n v : Nat) : Prop := ∀ k < n, sget m (p + k) memInit = BitVec.ofNat 8 (v / 256 ^ k)

/-- Every byte of memory outside the `n` places from `p` reads in `m'` as in `m`. -/
def SameOutside (m m' : List Host.Cell) (p n : Nat) : Prop := ∀ j, j < p ∨ p + n ≤ j → sget m' j memInit = sget m j memInit

/-- A write at physical address `pa` through leaf `l` on core `c`'s behalf changes memory directly: the frame is memory of this
package, the core's L1 holds no dirty byte of the line, and the page is not checkpointed. -/
def Direct (s : State) (c pa : Nat) (l : Leaf) : Prop :=
  s.isLocal pa = true ∧ paIdx pa ≠ 15 ∧ l.ckp = false ∧ ((s.core c).l1Of (lineOf pa)).dirty = 0

/-- In turn, each item of a list takes the machine on and gives a result. -/
def Each {α β : Type} (f : α → State → β → State → Prop) : List α → State → List β → State → Prop
  | [], s, bs, t => bs = [] ∧ t = s
  | a :: as, s, bs, t => ∃ b bs' u, bs = b :: bs' ∧ f a s b u ∧ Each f as u bs' t

/-- The engine words: the queue that each enters, and what it captures when it is routed (R22, R75, R164): scalar operands,
tensor-table entries, and for `vchain` its constants. `tmshape`, which acts at routing, stands apart (R146). -/
def engineWord : Instr → Option (Eng × (SeqId → Mx Caps))
  | .vadd _ _ a b _ => some (.ve, caps a b)
  | .vsub _ _ a b _ => some (.ve, caps a b)
  | .vmul _ _ a b _ => some (.ve, caps a b)
  | .vfma _ _ a b c _ => some (.ve, caps a b c)
  | .vdiv _ _ a b _ => some (.ve, caps a b)
  | .vsqrt _ _ a _ => some (.ve, caps a)
  | .vabs _ _ a _ => some (.ve, caps a)
  | .vneg _ _ a _ => some (.ve, caps a)
  | .vmin _ _ a b _ => some (.ve, caps a b)
  | .vmax _ _ a b _ => some (.ve, caps a b)
  | .vand _ _ a b _ => some (.ve, caps a b)
  | .vor _ _ a b _ => some (.ve, caps a b)
  | .vxor _ _ a b _ => some (.ve, caps a b)
  | .vshl _ _ a b _ => some (.ve, caps a b)
  | .vshr _ _ a b _ => some (.ve, caps a b)
  | .vsra _ _ a b _ => some (.ve, caps a b)
  | .vcmp _ _ _ a b _ => some (.ve, caps a b)
  | .vsel _ _ a b _ _ => some (.ve, caps a b)
  | .vmov _ _ a _ => some (.ve, caps a)
  | .vbcast _ _ _ b _ => some (.ve, caps b)
  | .vperm .. => some (.ve, caps)
  | .vslide _ _ _ b _ _ => some (.ve, caps b)
  | .vredsum .. => some (.ve, caps)
  | .vredmax .. => some (.ve, caps)
  | .vredmin .. => some (.ve, caps)
  | .vscan .. => some (.ve, caps)
  | .vdot .. => some (.ve, caps)
  | .vwmul .. => some (.ve, caps)
  | .vcvt .. => some (.ve, caps)
  | .vcvtef .. => some (.ve, caps)
  | .vexp2 _ _ a _ => some (.ve, caps a)
  | .vlog2 _ _ a _ => some (.ve, caps a)
  | .vrcp _ _ a _ => some (.ve, caps a)
  | .vrsqrt _ _ a _ => some (.ve, caps a)
  | .vtmin _ _ a _ => some (.ve, caps a)
  | .vtmex .. => some (.ve, caps)
  | .vtmerge .. => some (.ve, caps)
  | .tmtab _ a _ => some (.ve, caps (.reg a))
  | .vsortk .. => some (.ve, caps)
  | .vsegsum .. => some (.ve, caps)
  | .vpushc .. => some (.ve, caps)
  | .vpopc .. => some (.ve, caps)
  | .vchain _ d a b c _ _ => some (.ve, capsChain d a b c)
  | .mlog .. => some (.ve, caps)
  | .mpopc .. => some (.ve, caps)
  | .mfirst .. => some (.ve, caps)
  | .vld _ _ a _ _ _ plane => some (.lq, caps (.reg a) noE (match plane with | some r => .reg r | none => noE))
  | .vldg _ _ a _ _ _ => some (.lq, caps (.reg a))
  | .vldt _ _ a b _ _ => some (.lq, caps noE b noE (some a))
  | .vldfe _ _ a _ _ _ => some (.lq, caps (.reg a))
  | .vst _ _ a _ _ _ plane _ => some (.sq, caps (.reg a) noE (match plane with | some r => .reg r | none => noE))
  | .vsts _ _ a _ _ _ _ => some (.sq, caps (.reg a))
  | .vstt _ _ a b _ _ _ _ => some (.sq, caps noE b noE (some a))
  | .vstfe _ _ a _ _ => some (.sq, caps (.reg a))
  | .vamo _ _ _ a _ c _ _ _ => some (.sq, caps (.reg a) noE c)
  | .chainb _ => some (.lp, caps)
  | .chaine .. => some (.lp, caps)
  | .mma _ _ a b o _ => some (.lp, caps o noE noE (some a) (some b))
  | .mmaz _ _ a b o _ => some (.lp, caps o noE noE (some a) (some b))
  | .accz .. => some (.lp, caps)
  | .accst _ _ a o _ _ _ _ => some (.lp, caps o noE noE (some a))
  | .accld _ _ a o _ => some (.lp, caps o noE noE (some a))
  | .cpy d a b _ _ => some (.wq, caps noE b noE (some d) (some a))
  | .cpym a b c _ => some (.wq, caps (.reg a) (.reg b) c)
  | .cpyf d b c _ _ => some (.wq, caps noE b c (some d))
  | .trig a b _ => some (.wq, caps (.reg a) b)
  | .ttset a b => some (.cq, caps a (.reg b))
  | .tready a b => some (.cq, caps a b)
  | .cred a => some (.cq, caps a)
  | _ => none

/-- The entry that queue `e` of core `c` starts next is `n`, and every wait token it needs is there (R24). -/
def Starts (s : State) (c : CoreId) (e : Eng) (n : Entry) : Prop :=
  (s.core c.val).startable e = some n ∧ (s.core c.val).missing e n = []

/-- Element `k` of vector register `r`, as its bits. -/
def elemAt (s : State) (c : CoreId) (r : VReg) (ty : ElemTy) (k : Nat) : Nat := (((s.core c.val).vreg r.val).el ty.width k).1

/-- Entry `n` of queue `e` of core `c` has popped its wait tokens and started (R24). -/
abbrev begun (s : State) (c : CoreId) (e : Eng) (n : Entry) : State :=
  (s.onCore c.val (·.popToks (waitFifos e n.instr))).onEnt c.val e n.num fun _ => { n with phase := .started, since := none }

/-- Core `c` as entry `n` of queue `e`, which starts in `s`, reads it: where a writer of a vector register is in flight, each unit of the
register is the old one or the new one (R125). -/
def readCore (s : State) (c : CoreId) (e : Eng) (n : Entry) : Core := ((begun s c e n).racing c.val).core c.val

/-- Element `k` of vector register `r`, with its granule's poison, as VE entry `n`, which starts in `s`, reads it (R125). -/
def elemIn (s : State) (c : CoreId) (n : Entry) (r : VReg) (ty : ElemTy) (k : Nat) : Nat × Bool :=
  ((readCore s c .ve n).vsrc r.val).el ty.width k

/-- Element `k` of an operand of VE entry `n`, as its bits with poison (R125, R126). -/
def srcIn (s : State) (c : CoreId) (n : Entry) (m : Mods) (o : EOpd) (x : SVal) (k : Nat) : Nat × Bool :=
  (readCore s c .ve n).src m.ty m.rnd o x k

/-- An element result of an integer type (R92): the exact value modulo 2^w, or with `.sat` the nearest value of the type. -/
def IntResultOf (ty : ElemTy) (sat : Bool) (r : Nat) (exact : Int) : Prop :=
  r < 2 ^ ty.width ∧ (sat = false → ((r : Int) - exact) % (2 ^ ty.width : Nat) = 0) ∧
  (sat = true → intOf ty r = max (tyLo ty) (min (tyHi ty) exact))

abbrev IntResult (m : Mods) (r : Nat) (exact : Int) : Prop := IntResultOf m.ty m.sat r exact

/-- The `w` registers from `r` on (R127). -/
def regs (r : VReg) (w : Nat := 1) : List Nat := (List.range w).map (r.val + ·)

/-- A VE entry with the destination registers `vs` and the destination masks `ms` leaves `t` from `s`: nothing outside the core but the
count of free values, no other vector register, no other mask register, no mode and status register but through its completion, no scalar
register. -/
def VeFrame (s t : State) (c : CoreId) (vs : List Nat) (ms : List MReg := []) : Prop :=
  t = { s with cores := t.cores, free := t.free } ∧ (∀ k, k ≠ c.val → t.core k = s.core k) ∧
  (∀ r, r ∉ vs → (t.core c.val).vreg r = (s.core c.val).vreg r) ∧
  (ms = [] → (t.core c.val).mregs = (s.core c.val).mregs) ∧
  (∀ r : MReg, r ∉ ms → (t.core c.val).mreg r.val = (s.core c.val).mreg r.val) ∧
  (t.core c.val).cflags = (s.core c.val).cflags ∧ ∀ (q : SeqId) (r : Reg), t.reg q r = s.reg q r

/-- Element `i` of the group of `w` registers from `d` on, of `wd` bits each, as its bits (R127). -/
def grpAt (s : State) (c : CoreId) (d : VReg) (w wd i : Nat) : Nat := (((s.core c.val).vreg (d.val + i % w)).el wd (i / w)).1

/-- From `s` to `t` the group of `w` registers of core `c` from `d` on is written: element `i` takes a value that meets `P i` where
`act i`, and stays where not. A granule is poisoned where `pois` holds of an active element of it, or where it was poisoned and holds an
inactive element (R129). -/
def VeEffect (s t : State) (c : CoreId) (d : VReg) (w wd : Nat) (act : Nat → Bool) (P : Nat → Nat → Prop) (pois : Nat → Bool) : Prop :=
  let N := w * (4096 / wd)
  (∀ i < N, (act i = true → P i (grpAt t c d w wd i)) ∧ (act i = false → grpAt t c d w wd i = grpAt s c d w wd i)) ∧
  ∀ r < w, ∀ g < 32, ((t.core c.val).vreg (d.val + r)).pois.getLsbD g = true ↔
    (∃ i < N, i % w = r ∧ wd * (i / w) / 128 = g ∧ act i = true ∧ pois i = true) ∨
    (((s.core c.val).vreg (d.val + r)).pois.getLsbD g = true ∧ ∃ i < N, i % w = r ∧ wd * (i / w) / 128 = g ∧ act i = false)

/-- VE entry `n` is done in `t`, and holds the flags that `fl` gives those of `N` elements that are active (R90). -/
def VeFlags (t : State) (c : CoreId) (n : Entry) (N : Nat) (act : Nat → Bool) (fl : Nat → Flg) : Prop :=
  ∀ o ∈ (t.core c.val).ve.ents, o.num = n.num → o.phase = .done ∧
    ∀ b < 4, o.flags.getLsbD b = true ↔ ∃ i < N, act i = true ∧ (fl i).bits.getLsbD b = true

/-- VE entry `n`, which starts in `s`, has that effect on a group, and changes nothing else but the masks `ms`; the tags of the group are
zero, since its type is no block type (R95, R131), and `Q` holds of the state it leaves. -/
def VeGroup (s : State) (c : CoreId) (n : Entry) (d : VReg) (w wd : Nat) (act : Nat → Bool) (P : Nat → Nat → Prop) (pois : Nat → Bool)
    (fl : Nat → Flg) (ms : List MReg := []) (Q : State → Prop := fun _ => True) : Prop :=
  ∃ t, exec (.engineEntryStart c .ve) s = .next t ∧ VeEffect s t c d w wd act P pois ∧ VeFlags t c n (w * (4096 / wd)) act fl ∧
    (∀ r < w, ((t.core c.val).vreg (d.val + r)).tag = 0) ∧ VeFrame s t c (regs d w) ms ∧ Q t

/-- The same of one register. -/
def VeSets (s : State) (c : CoreId) (n : Entry) (d : VReg) (ty : ElemTy) (act : Nat → Bool) (P : Nat → Nat → Prop) (pois : Nat → Bool)
    (fl : Nat → Flg := fun _ => Flg.none) : Prop := VeGroup s c n d 1 ty.width act P pois fl

/-- Every next entry of the VE of core `c` that is `i` does that when it starts. -/
def VeWrites (s : State) (c : CoreId) (i : Instr) (d : VReg) (ty : ElemTy) (act : Nat → Bool) (P : Entry → Nat → Nat → Prop)
    (pois : Entry → Nat → Bool) (fl : Entry → Nat → Flg := fun _ _ => Flg.none) : Prop :=
  ∀ n, Starts s c .ve n → n.instr = i → VeSets s c n d ty act (P n) (pois n) (fl n)

/-- Division truncating toward zero, as R251 words it. -/
def truncDiv (x y : Int) : Int := if 0 ≤ x * y then x.natAbs / y.natAbs else -(x.natAbs / y.natAbs : Nat)

end Sys2Proof.Machine

open Sys2Proof Sys2Proof.Machine

/-! ## Sequencer arithmetic (chapter 10) -/

/-- R250: the two-operand instructions. The result is poisoned when a source is (R247); no flag of `cflags` changes, since
nothing but xd and the sequencer's place differs. -/
def Obligations.ArithmeticResults : Prop :=
  ∀ (s s1 s2 : State) (d : Reg) (a b : SOpd) (x y : SVal), Reads s.focus a s x s1 → Reads s.focus b s1 y s2 →
    let n := y.v.toNat % 64
    let W (i : Instr) (P : Word → Prop) : Prop := Writes i s s2 d (x.p || y.p) P
    W (.add d a b) (fun v => v.toNat = (x.v.toNat + y.v.toNat) % 2 ^ 64) ∧
    W (.sub d a b) (fun v => (v.toNat : Int) = ((x.v.toNat : Int) - y.v.toNat) % 2 ^ 64) ∧
    W (.mul d a b) (fun v => v.toNat = x.v.toNat * y.v.toNat % 2 ^ 64) ∧
    W (.mulh d a b) (fun v => v.toInt = x.v.toInt * y.v.toInt / 2 ^ 64) ∧
    W (.mulhn d a b) (fun v => v.toNat = x.v.toNat * y.v.toNat / 2 ^ 64) ∧
    W (.and d a b) (fun v => ∀ k : Nat, v.getLsbD k = (x.v.getLsbD k && y.v.getLsbD k)) ∧
    W (.or d a b) (fun v => ∀ k : Nat, v.getLsbD k = (x.v.getLsbD k || y.v.getLsbD k)) ∧
    W (.xor d a b) (fun v => ∀ k : Nat, v.getLsbD k = (x.v.getLsbD k != y.v.getLsbD k)) ∧
    W (.andn d a b) (fun v => ∀ k : Nat, k < 64 → v.getLsbD k = (x.v.getLsbD k && !y.v.getLsbD k)) ∧
    W (.orn d a b) (fun v => ∀ k : Nat, k < 64 → v.getLsbD k = (x.v.getLsbD k || !y.v.getLsbD k)) ∧
    W (.shl d a b) (fun v => v.toNat = x.v.toNat * 2 ^ n % 2 ^ 64) ∧
    W (.shr d a b) (fun v => v.toNat = x.v.toNat / 2 ^ n) ∧
    W (.sra d a b) (fun v => v.toInt = x.v.toInt / 2 ^ n) ∧
    W (.rol d a b) (fun v => v.toNat = (x.v.toNat * 2 ^ n + x.v.toNat / 2 ^ (64 - n)) % 2 ^ 64) ∧
    W (.ror d a b) (fun v => v.toNat = (x.v.toNat / 2 ^ n + x.v.toNat * 2 ^ (64 - n)) % 2 ^ 64) ∧
    W (.min d a b) (fun v => v.toInt = min x.v.toInt y.v.toInt) ∧
    W (.max d a b) (fun v => v.toInt = max x.v.toInt y.v.toInt) ∧
    W (.minn d a b) (fun v => v.toNat = min x.v.toNat y.v.toNat) ∧
    W (.maxn d a b) (fun v => v.toNat = max x.v.toNat y.v.toNat)

/-- R251: division truncates toward zero, the remainder takes the sign of the dividend, and neither division by zero nor
signed overflow raises anything. -/
def Obligations.DivisionResults : Prop :=
  ∀ (s s1 s2 : State) (d : Reg) (a b : SOpd) (x y : SVal), Reads s.focus a s x s1 → Reads s.focus b s1 y s2 →
    let past : Prop := x.v.toInt = -2 ^ 63 ∧ y.v.toInt = -1
    let W (i : Instr) (P : Word → Prop) : Prop := Writes i s s2 d (x.p || y.p) P
    W (.div d a b) (fun v => (y.v = 0 → v = BitVec.allOnes 64) ∧ (past → v.toInt = -2 ^ 63) ∧
      (y.v ≠ 0 → ¬past → v.toInt = truncDiv x.v.toInt y.v.toInt)) ∧
    W (.rem d a b) (fun v => (y.v = 0 → v = x.v) ∧ (past → v = 0) ∧
      (y.v ≠ 0 → ¬past → v.toInt = x.v.toInt - y.v.toInt * truncDiv x.v.toInt y.v.toInt)) ∧
    W (.divn d a b) (fun v => (y.v = 0 → v = BitVec.allOnes 64) ∧ (y.v ≠ 0 → v.toNat = x.v.toNat / y.v.toNat)) ∧
    W (.remn d a b) (fun v => (y.v = 0 → v = x.v) ∧ (y.v ≠ 0 → v.toNat = x.v.toNat % y.v.toNat))

/-- R253: `cmp` writes 1 or 0 by its condition; `sel` picks by xc, and takes the poison of xc and of the selected source. -/
def Obligations.CompareAndSelect : Prop :=
  ∀ (s s1 s2 : State) (d : Reg) (a b : SOpd) (c : Reg) (x y : SVal), Reads s.focus a s x s1 → Reads s.focus b s1 y s2 →
    let C (cc : Cond) (P : Prop) : Prop :=
      Writes (.cmp cc d a b) s s2 d (x.p || y.p) (fun v => (P → v = 1) ∧ (¬P → v = 0))
    C .eq (x.v = y.v) ∧ C .ne (x.v ≠ y.v) ∧ C .lt (x.v.toInt < y.v.toInt) ∧ C .ge (y.v.toInt ≤ x.v.toInt) ∧
    C .ltn (x.v.toNat < y.v.toNat) ∧ C .gen (y.v.toNat ≤ x.v.toNat) ∧
    (let z := s2.reg s.focus c
     (z.v ≠ 0 → Writes (.sel d a b c) s s2 d (z.p || x.p) (fun v => v = x.v)) ∧
     (z.v = 0 → Writes (.sel d a b c) s s2 d (z.p || y.p) (fun v => v = y.v)))

/-- R252: `bfx` takes a field, zero-extended; `bfi` replaces one, and its result is poisoned when a, b or the old xd is. -/
def Sys2Proof.Machine.BitFieldResultsRule : Prop :=
  ∀ (s s1 s2 : State) (d : Reg) (a b : SOpd) (wid : Fin 64) (x y : SVal), Reads s.focus a s x s1 → Reads s.focus b s1 y s2 →
    let p := y.v.toNat
    let w := wid.val + 1
    let old := s2.reg s.focus d
    Writes (.bfx d a b wid) s s2 d (x.p || y.p) (fun v => v.toNat = x.v.toNat / 2 ^ p % 2 ^ w) ∧
    Writes (.bfi d a b wid) s s2 d (x.p || y.p || old.p) (fun v => ∀ k : Nat, k < 64 →
      v.getLsbD k = if p ≤ k ∧ k < p + w then x.v.getLsbD (k - p) else old.v.getLsbD k)

/-- R250, R254, R255, R282: the bit counts, `lea`, both forms of `lit`, and `nop`. -/
def Sys2Proof.Machine.CountsAddressesLiteralsRule : Prop :=
  ∀ (s s1 : State) (d : Reg) (a : SOpd) (x : SVal), Reads s.focus a s x s1 →
    Writes (.clz d a) s s1 d x.p (fun v => v.toNat ≤ 64 ∧ (∀ k : Nat, 64 - v.toNat ≤ k → x.v.getLsbD k = false) ∧
      (x.v ≠ 0 → x.v.getLsbD (63 - v.toNat) = true) ∧ (x.v = 0 → v = 64)) ∧
    Writes (.ctz d a) s s1 d x.p (fun v => v.toNat ≤ 64 ∧ (∀ k : Nat, k < v.toNat → x.v.getLsbD k = false) ∧
      (x.v ≠ 0 → x.v.getLsbD v.toNat = true) ∧ (x.v = 0 → v = 64)) ∧
    Writes (.popc d a) s s1 d x.p (fun v => v.toNat = ((List.range 64).filter fun k => x.v.getLsbD k).length) ∧
    Writes (.lit d a) s s1 d x.p (fun v => v = x.v) ∧
    (∀ (b : SOpd) (y : SVal) (s2 : State) (sh : Fin 8), Reads s.focus b s1 y s2 →
      Writes (.lea d a b sh) s s2 d (x.p || y.p) (fun v => v.toNat = (x.v.toNat + y.v.toNat * 2 ^ sh.val) % 2 ^ 64)) ∧
    (∀ lo hi : Word32, Writes (.litWide d lo hi) s s d false (fun v => v.toNat = lo.toNat + hi.toNat * 2 ^ 32)) ∧
    exec .nop s = .next (s.advance s.focus)

/-- The instructions on bit fields, counts, addresses and literals complete with the values of their rules. -/
def Obligations.BitAndLiteralResults : Prop :=
  Sys2Proof.Machine.BitFieldResultsRule ∧ Sys2Proof.Machine.CountsAddressesLiteralsRule
/-! ## Transfers of control (chapter 10) -/

/-- R68, R256: the transfers by a J or C target. `t` is the target line; a transfer inside an open body is another matter
(R239). A poisoned condition and a target outside [0, 2^52) are faults at the instruction, which has no effect. -/
def Sys2Proof.Machine.BranchResultsRule : Prop :=
  ∀ (s : State) (a : Reg) (off : BitVec 25) (coff : BitVec 20), (s.seqr s.focus).inBody = none →
    let q := s.focus
    let line : Int := (s.seqr q).pcLine.toNat
    let there (o : Int) : Word := BitVec.ofNat 64 ((line + 32 * o).toNat + 4)
    let inside (o : Int) : Prop := 0 ≤ line + 32 * o ∧ line + 32 * o < 2 ^ 52
    let x := s.reg q a
    let out := Host.Outcome.next (s.precise q (mkFault 5 0x79))
    (inside off.toInt → exec (.br off) s = .next (s.jump q (there off.toInt)) ∧
      exec (.call off) s = .next ((s.setReg q 30 { v := (s.seqr q).next, p := false }).jump q (there off.toInt))) ∧
    (¬inside off.toInt → exec (.br off) s = out ∧ exec (.call off) s = out) ∧
    (inside coff.toInt → x.p = false →
      exec (.bcZ a coff) s = .next (if x.v = 0 then s.jump q (there coff.toInt) else s.advance q) ∧
      exec (.bcNz a coff) s = .next (if x.v ≠ 0 then s.jump q (there coff.toInt) else s.advance q)) ∧
    (inside coff.toInt → x.p = true →
      exec (.bcZ a coff) s = .next (s.precise q (mkFault 0x0A (detailOf 0 1 0x77))) ∧
      exec (.bcNz a coff) s = .next (s.precise q (mkFault 0x0A (detailOf 0 1 0x77)))) ∧
    (¬inside coff.toInt → exec (.bcZ a coff) s = out ∧ exec (.bcNz a coff) s = out)

/-- R62, R257: `jr` and `ret` go to the point in xa; entry lane 0 or nonzero low bits are alignment, nonzero bits 63-52
translation. That a target that breaks both raises alignment is the model's choice (log 46). -/
def Obligations.RegisterTransfers : Prop :=
  ∀ (s : State) (a : Reg) (i : Instr), (i = .jr a ∨ i = .ret a) → (s.seqr s.focus).inBody = none →
    let q := s.focus
    let x := s.reg q a
    let lane := x.v.toNat / 4 % 8
    let aligned := lane ≠ 0 ∧ x.v.toNat % 4 = 0
    x.p = false →
    (aligned → x.v.toNat < 2 ^ 52 → exec i s = .next (s.jump q x.v)) ∧
    (¬aligned → exec i s = .next (s.precise q (mkFault 4 (detailOf x.v.toNat 1 0x78)))) ∧
    (aligned → 2 ^ 52 ≤ x.v.toNat → exec i s = .next (s.precise q (mkFault 5 (detailOf x.v.toNat 1 0x79))))

/-- R62, R64: a transfer to a point makes its line and lane the next that the sequencer fetches, and keeps every register. -/
def Sys2Proof.Machine.TransferTargetRule : Prop :=
  ∀ (s : State) (q : SeqId) (p : Word), p.toNat < 2 ^ 52 →
    let x := (s.jump q p).seqr q
    x.pcLine.toNat + 4 * x.pcLane = p.toNat / 4 * 4 ∧ x.pcLine.toNat % 32 = 0 ∧ x.line = none ∧
      x.regs = (s.seqr q).regs ∧ (s.jump q p).mem = s.mem

/-- R25, R261: `bopush` adds an outcome to the sequencer's own queue, of 16; `bobc` takes the oldest outcome of the other
sequencer into xa and branches on it. A full and an empty queue stall, with no effect. -/
def Sys2Proof.Machine.BranchOutcomesRule : Prop :=
  ∀ (s : State) (a : SOpd) (d : Reg) (off : BitVec 20) (x : SVal) (s1 : State), (s.seqr s.focus).inBody = none →
    let q := s.focus
    let o : SeqId := { q with xs := !q.xs }
    let target : Int := (s.seqr q).pcLine.toNat + 32 * off.toInt
    (Reads q a s x s1 → x.p = false → (s1.seqr q).outq.length < 16 →
      exec (.bopush a) s = .next ((s1.onSeqr q fun y => { y with outq := y.outq ++ [x.v != 0] }).advance q)) ∧
    (Reads q a s x s1 → x.p = false → 16 ≤ (s1.seqr q).outq.length → exec (.bopush a) s = .next (s.stalled q .outcome)) ∧
    (0 ≤ target → target < 2 ^ 52 →
      (∀ (b : Bool) (rest : List Bool), (s.seqr o).outq = b :: rest →
        let t := (s.onSeqr o fun y => { y with outq := rest }).setReg q d { v := if b then 1 else 0, p := false }
        exec (.bobc d off) s = .next (if b then t.jump q (BitVec.ofNat 64 (target.toNat + 4)) else t.advance q)) ∧
      ((s.seqr o).outq = [] → exec (.bobc d off) s = .next (s.stalled q .outcome)))

/-- Branches are taken on their conditions and on the outcomes between the sequencers, to targets whose lane is legal. -/
def Obligations.BranchesAndTargets : Prop :=
  Sys2Proof.Machine.BranchResultsRule ∧ Sys2Proof.Machine.BranchOutcomesRule ∧ Sys2Proof.Machine.TransferTargetRule

/-- R236, R258: `loopb` arms its queues, each with its skew and an empty template, for a bundle of N iterations whose body it opens, up
to the end label's line; nothing else of the package changes but bundles that had ended. A queue that is armed already stalls it; a
poisoned count and one of 2^32 or more are faults at the instruction. -/
def Sys2Proof.Machine.LoopbArmsRule : Prop :=
  ∀ (s : State) (a : Reg) (off : BitVec 20) (arm : Arming), (s.seqr s.focus).inBody = none →
    let q := s.focus
    let c := q.core.val
    let x := s.core c
    let n := s.reg q a
    let target : Int := (s.seqr q).pcLine.toNat + 32 * off.toInt
    0 ≤ target → target < 2 ^ 52 →
    (n.p = false → n.v.toNat < 2 ^ 32 →
      ((∀ e ∈ armsOf arm, (x.eq e.1).armed = none) →
        ∃ (t : State) (b : Bundle), exec (.loopb a off arm) s = .next t ∧ OnlyCore s t c ∧
          b ∈ (t.core c).bundles ∧ b.id = x.nextBundle ∧ b.count = n.v.toNat ∧ b.last = n.v.toNat - 1 ∧ b.ended = false ∧
          b.endLine = (target.toNat + 4) / 32 * 32 ∧ b.routing = true ∧ b.bodyPos = 0 ∧
          (∀ e ∈ armsOf arm, b.arms.find? (·.1 == e.1.code) =
            some (e.1.code, { skew := e.2, template := [], produced := 0, pos := 0, completed := 0, byIter := [] })) ∧
          (∀ o ∈ x.bundles, o.ended = false → o ∈ (t.core c).bundles) ∧
          t.seqr q = { (s.seqr q).advance with openBundle := some b.id, lastBundle := some b.id } ∧
          t.seqr (otherSeq q) = s.seqr (otherSeq q) ∧
          (∀ e ∈ armsOf arm, (t.core c).eq e.1 = { x.eq e.1 with armed := some b.id }) ∧
          (∀ e : Eng, (∀ k, (e, k) ∉ armsOf arm) → (t.core c).eq e = x.eq e) ∧
          t.core c = { x with
            nextBundle := x.nextBundle + 1, bundles := (t.core c).bundles, as := (t.core c).as, xs := (t.core c).xs,
            lq := (t.core c).lq, ve := (t.core c).ve, sq := (t.core c).sq, lp := (t.core c).lp, wq := (t.core c).wq,
            cq := (t.core c).cq }) ∧
      ((∃ e ∈ armsOf arm, (x.eq e.1).armed ≠ none) → exec (.loopb a off arm) s = .next (s.stalled q .armed))) ∧
    (n.p = true → exec (.loopb a off arm) s = .next (s.precise q (mkFault 0x0A (detailOf 0 1 0x77)))) ∧
    (n.p = false → 2 ^ 32 ≤ n.v.toNat → exec (.loopb a off arm) s = .next (s.precise q (mkFault 2 (detailOf n.v.toNat 1 0x7A))))

/-- R238, R260: `loopx` on a bundle that has not ended lowers its last iteration to n', which is what xa allows and no less than the
highest iteration started, and writes n'; from then on no queue of the bundle produces an entry of an iteration above n'. A bundle
that has ended keeps its last iteration, which is written; one of no iterations, and no bundle, write all ones. -/
def Sys2Proof.Machine.LoopxResultsRule : Prop :=
  ∀ (s s1 : State) (d : Reg) (a : SOpd) (n : SVal), Reads s.focus a s n s1 →
    let q := s.focus
    let c := q.core.val
    let x := s1.core c
    let out (v : Word) : State := (s1.setReg q d { v := v, p := false }).advance q
    (n.p = true → exec (.loopx d a) s = .next (s1.precise q (mkFault 0x0A (detailOf 0 1 0x77)))) ∧
    (n.p = false →
      ((x.seqr q.xs).lastBundle = none → exec (.loopx d a) s = .next (out (BitVec.allOnes 64))) ∧
      (∀ b : Bundle, (x.seqr q.xs).lastBundle.bind x.bundle = some b →
        (b.count = 0 → exec (.loopx d a) s = .next (out (BitVec.allOnes 64))) ∧
        (b.count ≠ 0 → b.ended = true → exec (.loopx d a) s = .next (out (BitVec.ofNat 64 b.last))) ∧
        (b.count ≠ 0 → b.ended = false →
          let n' := min b.last (max n.v.toNat (b.started - 1))
          ∃ (t : State) (o : Bundle), exec (.loopx d a) s = .next t ∧ OnlyCore s1 t c ∧
            (d ≠ 0 → t.reg q d = { v := BitVec.ofNat 64 n', p := false }) ∧ (∀ r : Reg, r ≠ d → t.reg q r = s1.reg q r) ∧
            (t.core c).bundle b.id = some o ∧ o.last = n' ∧ o.arms = b.arms ∧ o.count = b.count ∧
            (∀ (e : Eng) (k : Nat) (arm : BArm), ((t.core c).eq e).armed = some b.id →
              o.arms.find? (·.1 == e.code) = some (k, arm) → n' < arm.produced → exec (.loopIteration q.core e) t = .next t))))

/-- R236, R237: an armed queue produces the next word of its template as an entry, where the body is closed, the bundle has
iterations left, every armed queue is within the skew, and the queue has room; a halted queue counts the entry and drops it (R404).
Past the last iteration nothing is produced. -/
def Sys2Proof.Machine.LoopIterationProducesRule : Prop :=
  ∀ (s : State) (c : CoreId) (e : Eng) (b : Bundle) (arm : BArm) (n : Entry) (k : Nat),
    let x := s.core c.val
    (x.eq e).armed.bind x.bundle = some b → b.arms.find? (·.1 == e.code) = some (k, arm) → arm.template[arm.pos]? = some n →
    let wrap := arm.pos + 1 = arm.template.length
    let next : BArm := { arm with pos := if wrap then 0 else arm.pos + 1, produced := if wrap then arm.produced + 1 else arm.produced }
    (b.last < arm.produced → exec (.loopIteration c e) s = .next s) ∧
    (b.routing = false → b.ended = false → b.count ≠ 0 → arm.produced ≤ b.last → b.mayStart arm.skew arm.produced = true →
      ((x.eq e).halted = true ∨ (x.eq e).full e = false) →
      ∃ t : State, exec (.loopIteration c e) s = .next t ∧ OnlyCore s t c.val ∧
        (t.core c.val).eq e = { x.eq e with
          ents := if (x.eq e).halted then (x.eq e).ents
            else (x.eq e).ents ++ [{ n with iter := some (b.id, arm.produced), num := (x.eq e).nextNum }],
          nextNum := (x.eq e).nextNum + 1 } ∧
        (∀ o : Eng, o ≠ e → (t.core c.val).eq o = x.eq o) ∧
        (t.core c.val).bundle b.id = some { b with arms := sput b.arms e.code next } ∧
        (∀ j, j ≠ b.id → (t.core c.val).bundle j = x.bundle j) ∧
        (∀ q : SeqId, t.seqr q = s.seqr q))

/-- A loop bundle is armed, cut short, and produces its iterations. -/
def Obligations.LoopBundles : Prop :=
  Sys2Proof.Machine.LoopbArmsRule ∧ Sys2Proof.Machine.LoopxResultsRule ∧ Sys2Proof.Machine.LoopIterationProducesRule

/-! ## Traps, control registers, waiting (chapter 10) -/

/-- R400: a fault at a point of a sequencer: with a `tvec`, outside handler mode, and with its record written, the handler is
entered, to resume at `resume`; with no `tvec`, in handler mode, or where the record cannot be written, the record goes to the
context's fault queue and the task is faulted; a record area that is held stalls. `precise` is that fault at the instruction in
hand, which is resumed at itself (R272). -/
def Sys2Proof.Machine.FaultTakingRule : Prop :=
  ∀ (s : State) (q : SeqId) (r : FRec) (resume : Word) (f : FaultInfo),
    let x := s.seqr q
    let lost (t : State) : State := (t.fqWrite r).faultTask q.core.val
    ((x.tvec = 0 ∨ x.handler = true) → s.takeFault q r resume = lost s) ∧
    (x.tvec ≠ 0 → x.handler = false →
      (∀ t : State, writeRecord q r s = .ok () t → s.takeFault q r resume = t.enterHandler q resume) ∧
      (∀ (e : FaultInfo) (t : State), writeRecord q r s = .error (.fault e) t → s.takeFault q r resume = lost t) ∧
      (∀ (p : Word) (e : FaultInfo) (t : State), writeRecord q r s = .error (.faultAt p e) t → s.takeFault q r resume = lost t) ∧
      (∀ (k : WaitKind) (t : State), writeRecord q r s = .error (.stall k) t → s.takeFault q r resume = s.stalled q k)) ∧
    s.precise q f = s.takeFault q (s.mkRec q.core.val (if q.xs then 1 else 0) x.point false f) x.point

/-- R402: the record of a sequencer stands at its place of the record area of its context: a plain store of 64 bytes, with its SEQ;
the context's SEQ counts on. The release that follows it is the wait of entering the handler. A context without a record area has the
write fail. -/
def Sys2Proof.Machine.RecordWriteRule : Prop :=
  ∀ (s s1 : State) (q : SeqId) (r : FRec) (pa : Nat) (l : Leaf),
    let c := q.core.val
    let k := s.ctx r.ctx
    let at_ := (s.ctx (s.ctxOf c)).frb.toNat + 128 * c + (if q.xs then 64 else 0)
    (k.frb = 0 → ∃ f : FaultInfo, writeRecord q r s = .error (.fault f) s) ∧
    (k.frb ≠ 0 → Runs (vwrite (chap13 0) (.core c) r.ctx at_ 64 (r.toBytes64 k.fseq) false) s s1 →
      Runs (writeRecord q r) s (s1.onCtx r.ctx fun y => { y with fseq := y.fseq + 1 })) ∧
    (∀ f : FaultInfo, k.frb ≠ 0 → access (chap13 0) (.core c) r.ctx .w at_ 64 false s = .error (.fault f) s1 →
      writeRecord q r s = .error (.fault f) s1) ∧
    (k.frb ≠ 0 → access (chap13 0) (.core c) r.ctx .w at_ 64 false s = .ok (.phys pa l) s1 → s1.usesL1 (.core c) pa l = false →
      Direct s1 c pa l →
      ∃ t : State, Runs (writeRecord q r) s t ∧ (∀ j < 64, sget t.mem (s1.place pa + j) memInit = (r.toBytes64 k.fseq).getD j 0) ∧
        SameOutside s1.mem t.mem (s1.place pa) 64 ∧ (t.ctx r.ctx).fseq = k.fseq + 1 ∧
        (∀ (o : SeqId) (g : Reg), t.reg o g = s.reg o g) ∧ ((t.core c).vregs = (s.core c).vregs))

/-- R400: a faulted task leaves its core: both sequencers stop, buffered enqueues are discarded, and of its entries those stay that
had started. -/
def Sys2Proof.Machine.FaultedTaskRule : Prop :=
  ∀ (s : State) (c : CoreId) (u : Task), (s.core c.val).task = some u →
    let x := (s.faultTask c.val).core c.val
    x.as.status = .stopped ∧ x.xs.status = .stopped ∧ x.as.handler = false ∧ x.xs.handler = false ∧ x.fifos = Fifos.reset ∧
      x.bundles = [] ∧ x.tickets = 0 ∧ (∀ e : Eng, ∀ n ∈ (x.eq e).ents, n.phase ≠ .waiting) ∧
      (∀ v : Task, x.task = some v → v.gone = true ∧ v.buffered = []) ∧
      ((∀ e : Eng, (x.eq e).ents = []) → x.task = none)

/-- R272, R273, R402: `trap` outside handler mode writes its record, of class 0x00 with its code, and enters the handler,
which resumes at the next instruction; inside handler mode it is illegal. -/
def Sys2Proof.Machine.TrapDeliveryRule : Prop :=
  ∀ (s : State) (code : Fin 64),
    let q := s.focus
    let x := s.seqr q
    let r := s.seqRec q x.point (mkFault 0 (detailOf code.val 0 0x80))
    (x.handler = true → exec (.trap code) s = .next (s.precise q (mkFault 2 0x7B))) ∧
    (∀ t : State, x.handler = false → x.tvec ≠ 0 → writeRecord q r s = .ok () t →
      exec (.trap code) s = .next (t.enterHandler q x.next)) ∧
    (∀ (f : FaultInfo) (t : State), x.handler = false → x.tvec ≠ 0 → writeRecord q r s = .error (.fault f) t →
      exec (.trap code) s = .next ((t.fqWrite r).faultTask q.core.val)) ∧
    (x.handler = false → x.tvec = 0 → exec (.trap code) s = .next ((s.fqWrite r).faultTask q.core.val))

/-- R272, R402: what entering a handler leaves, once the release that follows its record is complete: handler mode, the record's address in `frec`, the resume point in `tepc`, and the
handler's first lane as the next to be fetched; the scalar registers and the other sequencer are as they were. While a write of the core to another package is not acknowledged, the
sequencer waits with the resume point. -/
def Sys2Proof.Machine.HandlerEntryRule : Prop :=
  ∀ (s : State) (q : SeqId) (resume : Word),
    let x := s.seqr q
    let t := s.enterHandler q resume
    let y := t.seqr q
    (0 < (s.core q.core.val).remoteOut →
      t = s.onSeqr q fun z => { z with entering := some resume, wait := .release, waitSince := s.clock }) ∧
    ((s.core q.core.val).remoteOut = 0 →
      y.handler = true ∧ y.entering = none ∧ y.tepc = resume ∧ y.frec = BitVec.ofNat 64 (s.recordAddr q) ∧ y.tvec = x.tvec ∧ y.regs = x.regs ∧
      (x.tvec.toNat < 2 ^ 52 → x.tvec.toNat % 32 = 0 → y.pcLine.toNat = x.tvec.toNat ∧ y.pcLane = 1) ∧
      t.seqr { q with xs := !q.xs } = s.seqr { q with xs := !q.xs } ∧ t.mem = s.mem)

/-- R274: `eret` leaves handler mode and continues at the target in `tepc`, whose entry lane and high bits are checked as those of
`ret` (alignment first where it breaks both: the model's choice, log 46); outside handler mode it is illegal. A pre-emption that met a handled fault takes an uncommitted task then (R418). -/
def Sys2Proof.Machine.ReturnFromHandlerRule : Prop :=
  ∀ (s : State), (s.seqr s.focus).inBody = none →
    let q := s.focus
    let x := s.seqr q
    (x.handler = false → exec .eret s = .next (s.precise q (mkFault 2 0x7B))) ∧
    (x.handler = true → ¬(x.tepc.toNat / 4 % 8 ≠ 0 ∧ x.tepc.toNat % 4 = 0) →
      exec .eret s = .next (s.precise q (mkFault 4 (detailOf x.tepc.toNat 0 0x78)))) ∧
    (x.handler = true → x.tepc.toNat / 4 % 8 ≠ 0 → x.tepc.toNat % 4 = 0 →
      (2 ^ 52 ≤ x.tepc.toNat → exec .eret s = .next (s.precise q (mkFault 5 (detailOf x.tepc.toNat 0 0x79)))) ∧
      (x.tepc.toNat < 2 ^ 52 →
        let back := s.onSeqr q fun y => { y with handler := false }.jump x.tepc
        ((∀ u : Task, (s.core q.core.val).task = some u → u.preempt = false ∨ u.committed = true) →
          exec .eret s = .next back ∧ OnlySeqr s back q ∧ (back.seqr q).handler = false ∧
            (back.seqr q).pcLine.toNat + 4 * (back.seqr q).pcLane = x.tepc.toNat ∧ (back.seqr q).regs = x.regs) ∧
        (∀ u : Task, (s.core q.core.val).task = some u → u.preempt = true → u.committed = false →
          exec .eret s = .next (back.discardTask q.core.val))))

/-- A fault reaches a handler or the fault queue; a trap takes its own fault; `eret` returns. -/
def Obligations.FaultEntryAndReturn : Prop :=
  Sys2Proof.Machine.FaultTakingRule ∧ Sys2Proof.Machine.RecordWriteRule ∧ Sys2Proof.Machine.FaultedTaskRule ∧
  Sys2Proof.Machine.TrapDeliveryRule ∧ Sys2Proof.Machine.HandlerEntryRule ∧ Sys2Proof.Machine.ReturnFromHandlerRule

/-- R275, R276: `csrr` reads each control register. -/
def Sys2Proof.Machine.ControlRegisterReadsRule : Prop :=
  ∀ (s : State) (d : Reg),
    let q := s.focus
    let c := q.core.val
    let x := s.core c
    let y := s.seqr q
    let R (k : Csr) (v : Word) : Prop := exec (.csrr d k) s = .next ((s.setReg q d { v := v, p := false }).advance q)
    R .pkgno (BitVec.ofNat 64 s.pkg.toNat) ∧ R .tvec y.tvec ∧ R .tepc y.tepc ∧ R .frec y.frec ∧
      R .carvew x.carvew ∧ R .cflags (BitVec.ofNat 64 x.cflags.toNat) ∧ R .clock (BitVec.ofNat 64 s.clock) ∧
      R .chto (BitVec.ofNat 64 (s.die (c / 128)).chto.toNat) ∧
      R .cbase (BitVec.ofNat 64 (x.carvew.toNat / 2 ^ 16 % 2 ^ 36 * 65536)) ∧
      R .cctl (BitVec.ofNat 64 (x.as.handler.toNat * 2 ^ 63 + x.xs.handler.toNat * 2 ^ 62 + x.tmq.toNat)) ∧
      (∀ t : Task, x.task = some t → R .lidx t.lidx ∧ R .jobid t.jobid)

/-- R275, R277: `csrw` to `tvec` takes a line's address below 2^52 and refuses anything else; `tepc` takes any value;
R278: a write to `cflags` clears the flags whose bits are 1 and no others; a poisoned value is refused. A word that names a register
which software does not write is refused by the decoder with CAUSE 0x14. -/
def Sys2Proof.Machine.ControlRegisterWritesRule : Prop :=
  ∀ (s s1 : State) (a : SOpd) (v : SVal), Reads s.focus a s v s1 →
    let q := s.focus
    (∀ k : Csr, v.p = true → exec (.csrw k a) s = .next (s1.precise q (mkFault 0x0A (detailOf 0 1 0x77)))) ∧
    (v.p = false →
    (v.v.toNat % 32 = 0 → v.v.toNat < 2 ^ 52 →
      exec (.csrw .tvec a) s = .next ((s1.onSeqr q fun y => { y with tvec := v.v }).advance q)) ∧
    ((v.v.toNat % 32 ≠ 0 ∨ 2 ^ 52 ≤ v.v.toNat) →
      exec (.csrw .tvec a) s = .next (s1.precise q (mkFault 4 (detailOf v.v.toNat 1 0x78)))) ∧
    exec (.csrw .tepc a) s = .next ((s1.onSeqr q fun y => { y with tepc := v.v }).advance q) ∧
    (v.v.toNat / 2 % 2 ^ 61 = 0 →
      exec (.csrw .cctl a) s = .next ((s1.onCore q.core.val fun x => { x with tmq := v.v.getLsbD 0 }).advance q)) ∧
    (v.v.toNat / 2 % 2 ^ 61 ≠ 0 → exec (.csrw .cctl a) s = .next (s1.precise q (mkFault 3 (detailOf v.v.toNat 1 0x7D)))) ∧
    (∃ f : BitVec 4, exec (.csrw .cflags a) s = .next ((s1.onCore q.core.val fun x => { x with cflags := f }).advance q) ∧
      (∀ k < 4, f.getLsbD k = ((s1.core q.core.val).cflags.getLsbD k && !v.v.getLsbD k)))) ∧
    (∀ (k : Csr) (xs : Bool), k ∉ [Csr.cctl, .cflags, .tvec, .tepc] → ∀ w cs, encode (.csrw k a) = w :: cs →
      decode (.seq xs) w cs = .bad 2 0x14 0)

/-- Control registers as they read and as they are written. -/
def Obligations.ControlRegisters : Prop :=
  Sys2Proof.Machine.ControlRegisterReadsRule ∧ Sys2Proof.Machine.ControlRegisterWritesRule
/-- R242, R279: a task alone in its team carves at once: the low bits of its carve-out word take the code of C, and it goes on. A
member that others have yet to join stands at the barrier, its code kept, and nothing else of the package changes; with the last of
them the barrier acts on every member. A value that is no size, and a poisoned one, is refused. A line that leaves L1 and is behind a
hold leaves the last member waiting, and one whose home is in an absent die is a fault (the model's choice, log 98). -/
def Sys2Proof.Machine.CarveArrivesRule : Prop :=
  ∀ (s s1 : State) (a : SOpd) (v : SVal), Reads s.focus a s v s1 →
    let q := s.focus
    let c := q.core.val
    let arrived (k : Nat) : State := s1.onCore c fun x => { x with task := x.task.map fun t => { t with carve := some (q.xs, k) } }
    (v.p = true → exec (.carve a) s = .next (s1.precise q (mkFault 0x0A (detailOf 0 1 0x77)))) ∧
    (v.p = false → carveCode v.v.toNat = none →
      exec (.carve a) s = .next (s1.precise q (mkFault 3 (detailOf v.v.toNat 1 0x7D)))) ∧
    (∀ (k : Nat) (u : Task), v.p = false → carveCode v.v.toNat = some k → (s1.core c).task = some u → u.carve = none →
      (s1.teamCores c = [c] → u.gone = false → (arrived k).wbStops c ((arrived k).carveLines c k) = none →
        ∃ t : State, exec (.carve a) s = .next t ∧ (t.core c).carvew = ((s1.core c).carvew &&& ~~~7#64) ||| BitVec.ofNat 64 k ∧
          (t.core c).task = some u ∧ (t.seqr q).wait = .none ∧
          (t.seqr q).pcLane = Nat.min 8 ((s1.seqr q).pcLane + (s1.seqr q).ir.length) ∧ (∀ r : Reg, t.reg q r = s1.reg q r)) ∧
      (s1.teamCores c = [c] → u.gone = false → (arrived k).wbStops c ((arrived k).carveLines c k) = some .absent →
        exec (.carve a) s = .next (((arrived k).leaveCarve c).precise q (mkFault 0x13 (detailOf 0 0 0x93)))) ∧
      (s1.teamCores c = [c] → u.gone = false → (arrived k).wbStops c ((arrived k).carveLines c k) = some .held →
        exec (.carve a) s = .next ((arrived k).stalled q .held)) ∧
      (∀ o : Nat, o ∈ s1.teamCores c → o ≠ c → (s1.carveOf o) = none →
        exec (.carve a) s = .next ((arrived k).stalled q .carve)) ∧
      ((∀ o : Nat, o ∈ s1.teamCores c → o ≠ c → ((s1.carveOf o)).isSome = true) →
        exec (.carve a) s = .next ((arrived k).carveMeetOrWait q)))

/-- R242: with every current member of the team at the barrier, equal values of C are applied on each member's core and every member
goes on; with differing values no carve-out changes, and each member raises carve with CAUSE 0x76. -/
def Sys2Proof.Machine.CarveMeetsRule : Prop :=
  ∀ (s : State) (q : SeqId) (x : Bool) (k : Nat),
    let arr := s.carveArrivals q.core.val
    let t := s.carveMeetOrWait q
    (∀ (o : Nat) (xs : Bool) (j : Nat), (o, xs, j) ∈ arr ↔ o ∈ s.teamCores q.core.val ∧ s.carveOf o = some (xs, j)) ∧
    (s.carveOf q.core.val = some (x, k) → (∀ a ∈ arr, s.wbStops a.1 (s.carveLines a.1 a.2.2) ≠ some .held) →
      ((∀ a ∈ arr, a.2.2 = k) → t = arr.foldl (fun y a => y.carveMember a.1 a.2.1 k) s ∧
        ((∀ a ∈ arr, s.carveLines a.1 k = []) →
          (∀ a ∈ arr, (t.core a.1).carvew = ((s.core a.1).carvew &&& ~~~7#64) ||| BitVec.ofNat 64 k ∧ t.carveOf a.1 = none ∧
            t.seqr (carveSeq a.1 a.2.1) = (s.seqr (carveSeq a.1 a.2.1)).advance) ∧
          (∀ o : Nat, (∀ a ∈ arr, a.1 ≠ o) → t.core o = s.core o) ∧ t = { s with cores := t.cores })) ∧
      ((∃ a ∈ arr, a.2.2 ≠ k) →
        t = arr.foldl (fun y a => (y.leaveCarve a.1).precise (carveSeq a.1 a.2.1) (mkFault 0x10 0x76)) s))

/-- `carve`: arriving, and the meeting of a team. -/
def Obligations.CarveResults : Prop := Sys2Proof.Machine.CarveArrivesRule ∧ Sys2Proof.Machine.CarveMeetsRule

/-- R280, R281: `fencei` discards every line fetched ahead. `wait` with b = 0 writes 0 at once, and otherwise stands for at
most b clocks; WAIT_END writes 1 where a write to the line has become visible, or the core's copy has been evicted, 0 where the limit has
passed, and else nothing. -/
def Sys2Proof.Machine.FenceAndWaitResultsRule : Prop :=
  ∀ (s s1 s2 : State) (d a : Reg) (b : SOpd) (n : SVal) (t : Target) (q' : SeqId),
    let q := s.focus
    let line := watchedLine t
    (exec .fencei s = .next ((s.onSeqr q fun x => { x with ibuf := [] }).advance q)) ∧
    ((s.reg q a).p = false → Reads q b s n s1 → n.p = false → n.v.toNat < 2 ^ 24 →
      resolve (chap10 1) (.core q.core.val) (s1.ctxOf q.core.val) .r (s.reg q a).v.toNat false s1 = .ok t s2 →
      (n.v = 0 → exec (.wait d a b) s = .next ((s2.setReg q d SVal.zero).advance q)) ∧
      (n.v ≠ 0 → exec (.wait d a b) s = .next ((s2.onSeqr q fun x =>
        { x with wait := .waitLine, waitSince := s2.clock, waitArg := n.v.toNat }).watchLine q line))) ∧
    ((s.seqr q').wait = .waitLine → (s.seqr q').cur = some (.wait d a b) →
      (∀ w : LineWait, s.waits.find? (·.seq = q') = some w → w.hit = true →
        exec (.waitEnd q' false) s = .next (((s.setReg q' d { v := 1, p := false }).advance q').watchLine q' none)) ∧
      ((∀ w : LineWait, s.waits.find? (·.seq = q') = some w → w.hit = false) →
        ((s.seqr q').waitSince + (s.seqr q').waitArg ≤ s.clock →
          exec (.waitEnd q' false) s = .next (((s.setReg q' d SVal.zero).advance q').watchLine q' none)) ∧
        (s.clock < (s.seqr q').waitSince + (s.seqr q').waitArg → exec (.waitEnd q' false) s = .next s)) ∧
      (∀ w : LineWait, s.waits.find? (·.seq = q') = some w →
        exec (.waitEnd q' true) s = .next (((s.setReg q' d { v := 1, p := false }).advance q').watchLine q' none)))

/-- R281: a write that becomes visible to a core ends each `wait` of that core on its line; that a write at the home is the moment for every
core is the model's choice (log 59). -/
def Sys2Proof.Machine.WritesEndWaitsRule : Prop :=
  ∀ (s : State) (by_ : WBy) (pa : Nat) (bs : List Byte) (p : Bool) (w : LineWait), bs ≠ [] → s.isLocal pa = true →
    pa % 64 + bs.length ≤ 64 → w ∈ s.waits → w.line = lineOf pa →
      { w with hit := true } ∈ (s.homeWrite by_ pa bs p).waits

/-- `fencei` and `wait`, and the writes that end a wait. -/
def Obligations.FenceAndWait : Prop :=
  Sys2Proof.Machine.FenceAndWaitResultsRule ∧ Sys2Proof.Machine.WritesEndWaitsRule

/-! ## Tasks (chapters 9 and 10) -/

/-- The generation of a job of a context reads as `g` in its table, whose place is neither held nor in an absent die (R226). -/
abbrev Sys2Proof.Machine.Generation (s : State) (ctx job g : Nat) : Prop := readGen ctx job s = .ok g s

/-- R226: the generation of a job is the two bytes of its entry, which a `cancel` writes; a held place stalls the instruction, and a
home in an absent die is a fault of class 0x13 (R13, R18). -/
def Sys2Proof.Machine.GenerationRule : Prop :=
  ∀ (s : State) (ctx job : Nat),
    let pa := s.genAt ctx job
    let absent : Prop := s.isLocal pa = true ∧ s.frameHome pa = 1 ∧ s.cachedAbsent (lineOf pa) = true
    (s.heldAt pa = false → ¬absent → Sys2Proof.Machine.Generation s ctx job (s.physNat pa 2) ∧
      ∀ g : Nat, Runs (writeGen ctx job g) s (s.physWrite pa (toBytes 2 g))) ∧
    (s.heldAt pa = true → readGen ctx job s = .error (.stall .held) s) ∧
    (s.heldAt pa = false → absent → ∃ f : FaultInfo, f.cls = 0x13 ∧ readGen ctx job s = .error (.fault f) s)

/-- R222, R228, R268: a commit of a task whose generation is current hands its buffered enqueues to the queue engine in the order in
which they were issued, after a release, frees the slot of its record, starts the watchdog's clock, and writes 0; one whose generation is
stale discards them and writes 1, and nothing else changes; a later `commit` answers what the first did. -/
def Sys2Proof.Machine.CommitResultsRule : Prop :=
  ∀ (s s1 : State) (d : Reg) (u : Task) (g : Nat),
    let q := s.focus
    let c := q.core.val
    let current := g = genField u.jobid
    (s.core c).task = some u → Sys2Proof.Machine.Generation s u.ctx (jobOf u.jobid) g →
    (∀ b : Bool, u.commitStale = some b →
      exec (.commit d) s = .next ((s.setReg q d { v := if b then 1 else 0, p := false }).advance q)) ∧
    (u.commitStale = none → ¬current →
      exec (.commit d) s = .next (((s.onCore c fun x => { x with task := some { u with buffered := [], commitStale := some true } }).setReg q d
        { v := 1, p := false }).advance q)) ∧
    (u.commitStale = none → current → (u.buffered = [] ∧ s1 = s ∨ u.buffered ≠ [] ∧ release c .pkg s = .ok () s1) →
      let u' : Task := { u with buffered := [], committed := true, commitAt := s1.clock, watchAt := s1.clock, commitStale := some false }
      let done : State := s1.onCore c fun x => { x with task := some u' }
      let handed (e : Enq) : Pending :=
        { enq := e, next := 0, trig := e.trig, gate := gateOf e.spawn (fld e.img.toNat 304 16), counted := false }
      let out : State := { done with launches := s1.launches ++ u.buffered.map handed }
      exec (.commit d) s = .next (((out.freeSlot u.queue u.slot).setReg q d SVal.zero).advance q))

/-- R222: a slot that is freed is neither held nor returned any longer; FREE passes it where no slot before it is still taken, the rest of
the queue's descriptor stands, and where no record waits for a slot nothing else changes. -/
def Sys2Proof.Machine.SlotFreedRule : Prop :=
  ∀ (s : State) (qn idx : Nat), s.heldRecs = [] →
    let t := s.freeSlot qn idx
    let d := s.queue qn
    let e := t.queue qn
    t = { s with queues := t.queues } ∧ (∀ k, k ≠ qn → t.queue k = s.queue k) ∧
      e = { d with slots := e.slots, free := e.free } ∧ shas e.slots idx = false ∧ (∀ j, j ≠ idx → shas e.slots j = shas d.slots j) ∧
      (d.free.toNat = idx → d.free ≠ d.head → (d.free + 1 = d.head ∨ shas d.slots (d.free + 1).toNat = true) → e.free = d.free + 1) ∧
      (shas d.slots d.free.toNat = true → d.free.toNat ≠ idx → e.free = d.free)

/-- R228, R229: an enqueue of a task that has not committed is held in its core, at most 16 of them; one of a committed task
goes to the queue engine after a release. -/
def Sys2Proof.Machine.EnqueueHeldUntilCommitRule : Prop :=
  ∀ (s s1 : State) (c : Nat) (e : Enq) (u : Task), (s.core c).task = some u →
    (u.committed = false → u.buffered.length < 16 →
      ∃ t : State, enqueueTask c e s = .ok () t ∧ (t.core c).task = some { u with buffered := u.buffered ++ [e] } ∧
        t.launches = s.launches ∧ t.mem = s.mem) ∧
    (u.committed = true → release c .pkg s = .ok () s1 →
      ∃ t : State, enqueueTask c e s = .ok () t ∧ t.launches.length = s1.launches.length + 1 ∧
        (t.launches.getLast?.map (·.enq)) = some e ∧ (t.core c).task = (s1.core c).task)

/-- The counter of a record is none, or stands on a cached or memory-side page that the task may read and write (R213). -/
def Sys2Proof.Machine.CounterOk (s : State) (q : SeqId) (join : Nat) (t : State) : Prop :=
  join = 0 ∧ t = s ∨
    join ≠ 0 ∧ ∃ k : Target, resolve (chap10 5) (.core q.core.val) (s.ctxOf q.core.val) .rw join false s = .ok k t ∧
      (k.effHome = 1 ∨ k.effHome = 4)

/-- R228, R229, R262-R264: `launch` and `spawn` read their record and check it; a record, or a spawning task, whose job's generation is
stale is not enqueued, and the instruction writes 1; a task that has not committed keeps the enqueue in its core, up to 16 of them, and
that of a committed task goes to the queue engine after a release; either way the instruction writes 0. -/
def Sys2Proof.Machine.LaunchAndSpawnRule : Prop :=
  ∀ (s s1 s2 s3 s4 s5 : State) (d a : Reg) (b : SOpd) (y : SVal) (w g : Nat) (trg : Option Trigger) (u : Task),
    let q := s.focus
    let c := q.core.val
    let Enqueues (i : Instr) (x : State) (e : Enq) : Prop :=
      (u.committed = false → u.buffered.length < 16 → exec i s =
        .next (((x.onCore c fun k => { k with task := some { u with buffered := u.buffered ++ [e] } }).setReg q d SVal.zero).advance q)) ∧
      (u.committed = true → Runs (release c .pkg) x s5 → exec i s = .next (((s5.handOver e).setReg q d SVal.zero).advance q))
    let img := BitVec.ofNat 2048 w
    let va := (s.reg q a).v.toNat
    (s.reg q a).p = false → Reads q b s y s1 → y.p = false → imgWord img 24 % 16 = 0 →
    (let qn := imgWord img 56 % 256
     let f := imgWord img 32
     readBlock q va 64 64 1 s1 = .ok w s2 → launchRecOk img = true → (s2.queue qn).ctx = s2.ctxOf c →
      CounterOk s2 q (imgWord img 24) s3 → (y.v = 0 ∧ trg = none ∧ s4 = s3 ∨ y.v ≠ 0 ∧ readTrigger q y.v.toNat s3 = .ok trg s4) →
      (s4.core c).task = some u → Sys2Proof.Machine.Generation s4 (s2.ctxOf c) (f % 2 ^ 32) g →
      (g ≠ f / 2 ^ 32 % 2 ^ 16 →
        exec (.launch d a b) s = .next ((s4.setReg q d { v := 1, p := false }).advance q)) ∧
      (g = f / 2 ^ 32 % 2 ^ 16 →
        Enqueues (.launch d a b) s4 { spawn := false, img := img, pois := 0, queue := qn, ctx := s2.ctxOf c, trig := trg })) ∧
    (y.v.toNat ≤ 255 → readBlock q va 256 64 1 s1 = .ok w s2 → spawnRecOk img = true → (s2.queue y.v.toNat).ctx = s2.ctxOf c →
      CounterOk s2 q (imgWord img 24) s3 → (s3.core c).task = some u →
      let j := u.jobid
      Sys2Proof.Machine.Generation s3 (s2.ctxOf c) (jobOf j) g →
      (g ≠ genField j →
        exec (.spawn d a b) s = .next ((s3.setReg q d { v := 1, p := false }).advance q)) ∧
      (g = genField j →
        Enqueues (.spawn d a b) s3 { spawn := true, img := spawnCopy img j, pois := 0, queue := y.v.toNat, ctx := s2.ctxOf c, trig := none }))

/-- Commit, the enqueues that it holds back, and what they hand over. -/
def Obligations.CommitAndEnqueue : Prop :=
  Sys2Proof.Machine.GenerationRule ∧ Sys2Proof.Machine.CommitResultsRule ∧ Sys2Proof.Machine.SlotFreedRule ∧ Sys2Proof.Machine.EnqueueHeldUntilCommitRule ∧ Sys2Proof.Machine.LaunchAndSpawnRule

/-- R265: `join` reads the done flag (at its home, DEDUCED log 48); nonzero, it acquires and writes the flag, and a poisoned one is
refused; zero, it waits with no effect. An address that is no multiple of 16 is refused. -/
def Sys2Proof.Machine.JoinResultsRule : Prop :=
  ∀ (s s1 s2 : State) (d a : Reg) (t : Target) (bs : List Byte) (p : Bool),
    let q := s.focus
    let c := q.core.val
    let va := (s.reg q a).v.toNat
    ((s.reg q a).p = true → exec (.join d a) s = .next (s.precise q (mkFault 0x0A (detailOf 0 1 0x77)))) ∧
    ((s.reg q a).p = false → va % 16 ≠ 0 → exec (.join d a) s = .next (s.precise q (mkFault 4 (detailOf va 1 0x78)))) ∧
    ((s.reg q a).p = false → va % 16 = 0 → accessHome (chap10 1) (.core c) (s.ctxOf c) .r (va + 8) 8 s = .ok t s1 →
      readHome (.core c) t 8 s1 = .ok (bs, p) s2 →
      (ofBytes bs ≠ 0 → p = false →
        exec (.join d a) s = .next (((s2.acquire c .pkg).setReg q d { v := BitVec.ofNat 64 (ofBytes bs), p := false }).advance q)) ∧
      (ofBytes bs ≠ 0 → p = true → exec (.join d a) s = .next (s2.precise q (mkFault 0x0A (detailOf 0 1 0x77)))) ∧
      (ofBytes bs = 0 → exec (.join d a) s = .next (s.stalled q .join)))

/-- R266, R269: both halves of `suspend` stand until the other has come, each having left the point after it, the AS form also its record
area, its watched word and AN; one stands only where the other sequencer has not stopped; a page that is core-pinned or uncached is
refused at once. Nothing else of the package changes but TLBs. -/
def Sys2Proof.Machine.SuspendStandsRule : Prop :=
  ∀ (s s1 : State) (a b : Reg) (an : Fin 17) (t : Target),
    let q := s.focus
    let c := q.core.val
    let va := (s.reg q a).v.toNat
    let vb := (s.reg q b).v.toNat
    let stand (x : State) : State := x.onSeqr q fun y => { y with status := .suspended, wait := .suspend, waitSince := s.clock, waitArg := 0 }
    ((s.seqr (otherSeq q)).status ≠ .stopped → exec .suspendXs s =
      .next (stand (s.onCore c fun x => { x with task := x.task.map fun u => { u with nextX := (s.seqr q).next } }))) ∧
    ((s.seqr (otherSeq q)).status = .stopped → exec .suspendXs s = .next (s.precise q (mkFault 2 0x7E))) ∧
    ((s.reg q a).p = false → (s.reg q b).p = false → (s.seqr (otherSeq q)).status ≠ .stopped → va % 64 = 0 → vb % 8 = 0 →
      resolve (chap10 2) (.core c) (s.ctxOf c) .r vb false s = .ok t s1 →
      (t.effHome ≠ 0 → t.effHome ≠ 3 → exec (.suspendAs a b an) s =
        .next (stand (s1.onCore c fun x => { x with task := x.task.map fun u =>
          { u with suspA := some { area := va, word := vb, an := an.val, wrote := false, done := false }, nextA := (s.seqr q).next } }))) ∧
      ((t.effHome = 0 ∨ t.effHome = 3) → exec (.suspendAs a b an) s =
        .next (s1.precise q { mkFault 7 (detailOf vb 2 0x7F) with addr := (s.reg q b).v })))

/-- R267: what the continuation record holds: the two points after the `suspend`s, x31 of AS, the counter, the job id with KIND 2 and AN,
the launch index, the carve-out word, zeros, and the registers of the slots. -/
def Sys2Proof.Machine.ContinuationRecordRule : Prop :=
  ∀ (x : Core) (t : Task) (u : Susp), u.an ≤ 16 →
    let ws := contRecord x t u
    let at_ (off : Nat) : Word × Bool := ws.getD (off / 8) (0, false)
    ws.length = 32 ∧ at_ 0 = (t.nextA, false) ∧ at_ 8 = (t.nextX, false) ∧ at_ 16 = ((x.as.reg 31).v, (x.as.reg 31).p) ∧
      at_ 24 = (BitVec.ofNat 64 t.join, false) ∧
      (at_ 32).1.toNat % 2 ^ 48 = t.jobid.toNat % 2 ^ 48 ∧ (at_ 32).1.toNat / 2 ^ 62 = 2 ∧ (at_ 32).1.toNat / 2 ^ 55 % 2 ^ 7 = 0 ∧
      (at_ 32).1.toNat / 2 ^ 53 % 4 = t.jobid.toNat / 2 ^ 53 % 4 ∧ (at_ 32).1.toNat / 2 ^ 48 % 32 = u.an ∧
      at_ 40 = (t.lidx, false) ∧ at_ 48 = (x.carvew, false) ∧ at_ 56 = (0, false) ∧
      (∀ j : Fin 16, at_ (64 + 8 * j.val) =
        (let r := if j.val < u.an then x.as.reg (Fin.ofNat 32 (j.val + 1)) else x.xs.reg (Fin.ofNat 32 (j.val - u.an + 1))
         (r.v, r.p))) ∧
      (∀ k : Fin 8, at_ (192 + 8 * k.val) = (0, false))

/-- R266, R267, R303: with both sequencers at `suspend` and every entry completed, SUSPEND_COMPLETE commits, writes the record (eight words to
a 64-byte store, the poison of the sector being that of its words), discards tokens, outcomes and the switch stream, releases, and hands the
continuation over: a watch on its word is added, and the core is left. A release that has to wait leaves the record written, and the rest
follows when it can; while 4,096 continuations of the context wait, only the hand-over waits. -/
def Sys2Proof.Machine.SuspendCompletesRule : Prop :=
  ∀ (s s0 s1 s2 s3 s4 s5 : State) (core : CoreId) (t y : Task) (u v : Susp),
    let c := core.val
    let handed (x : State) (y : Task) : State := (x.onCtx y.ctx fun k => { k with watches := k.watches ++
      [{ area := u.area, word := u.word, queue := y.queue, jobid := y.jobid, join := y.join }] }).clearCore c
    let ws := contRecord (s0.core c) t u
    let write (k : Nat) : Mx Unit := writeArea c t.ctx (u.area + 64 * k) ((ws.drop (8 * k)).take 8)
    let written : State := s4.onCore c fun x => { x with
      fifos := Fifos.reset, stream := [], as := { x.as with outq := [], waitArg := 1 }, xs := { x.xs with outq := [], waitArg := 1 },
      task := x.task.map fun y => { y with suspA := some { u with wrote := true } } }
    let last (x : State) : State := x.onCore c fun z => { z with task := some { y with suspA := some { v with done := true } } }
    let after (x : State) : Prop := Runs (release c .pkg) x s5 → (s5.core c).task = some y → y.suspA = some v →
      v.area = u.area → v.word = u.word → exec (.suspendComplete core) s =
        .next (if 4096 ≤ ((last s5).ctx y.ctx).watches.length then last s5 else handed (last s5) y)
    (s.core c).task = some t → t.gone = false → t.suspA = some u → (s.core c).suspendReady = true →
    (u.done = true → (s.ctx t.ctx).watches.length < 4096 → exec (.suspendComplete core) s = .next (handed s t)) ∧
    (u.done = true → 4096 ≤ (s.ctx t.ctx).watches.length → exec (.suspendComplete core) s = .next s) ∧
    (u.done = false → u.wrote = true → after s) ∧
    (u.done = false → u.wrote = false → commitTask c s = .ok false s0 → Runs (write 0) s0 s1 → Runs (write 1) s1 s2 →
      Runs (write 2) s2 s3 → Runs (write 3) s3 s4 →
      (written.releaseWaits c = true → exec (.suspendComplete core) s = .next written) ∧
      (written.releaseWaits c = false → after written))

/-- R267, R303: eight words of the record area at their home: the bytes at the address spell the words, every other byte of memory reads as before,
and the sector is poisoned exactly where one of the words is. -/
def Sys2Proof.Machine.RecordAreaRule : Prop :=
  ∀ (s s1 : State) (c ctx va pa : Nat) (l : Leaf) (ws : List (Word × Bool)), ws.length = 8 →
    access (chap10 1) (.core c) ctx .w va 64 false s = .ok (.phys pa l) s1 → s1.usesL1 (.core c) pa l = false → Direct s1 c pa l →
    ∃ t : State, Runs (writeArea c ctx va ws) s t ∧
      (∀ k < 8, Spells t.mem (s1.place pa + 8 * k) 8 (ws.getD k (0, false)).1.toNat) ∧ SameOutside s1.mem t.mem (s1.place pa) 64 ∧
      t.secPois pa = ws.any (·.2)

/-- Join counters and suspension. -/
def Obligations.JoinAndSuspend : Prop :=
  Sys2Proof.Machine.JoinResultsRule ∧ Sys2Proof.Machine.SuspendStandsRule ∧ Sys2Proof.Machine.ContinuationRecordRule ∧
  Sys2Proof.Machine.SuspendCompletesRule ∧ Sys2Proof.Machine.RecordAreaRule

/-- R63, R228, R269: `retire`, and the end of the stream, stop a sequencer after the commit, unless the other one stands at
`suspend`; of a task whose generation is stale they set the cancel mark of its counter too. Records that waited for the sequencer go to the
fault queue (R401). -/
def Sys2Proof.Machine.SequencerStopsRule : Prop :=
  ∀ (s s1 : State) (q : SeqId) (stale : Bool),
    let stop (x : State) : State := (x.flushAsync q).onSeqr q fun y => { y.advance with status := .stopped, line := none }
    let out : State := if stale then (stop s1).cancelMark q.core.val else stop s1
    ((s.seqr (otherSeq q)).status ≠ .suspended → commitTask q.core.val s = .ok stale s1 →
      (s.focus = q → exec .retire s = .next out) ∧
      ((s.seqr q).inBody = none → (s.seqr q).atStreamEnd q.xs = true → exec (.streamEnd q) s = .next out)) ∧
    ((s.seqr (otherSeq q)).status = .suspended →
      (s.focus = q → exec .retire s = .next (s.precise q (mkFault 2 0x7E))) ∧
      ((s.seqr q).inBody = none → (s.seqr q).atStreamEnd q.xs = true →
        let p := BitVec.ofNat 64 (s.seqr q).pcLine.toNat
        exec (.streamEnd q) s = .next (s.takeFault q (s.seqRec q p (mkFault 2 0x7E)) p)))

/-- R228, R233, R270: `cancel` commits, then adds 1 to the generation of the job and writes it; R230, R271: `yield` gives up
the core of a task that has not committed, its record returning to its slot, and does nothing in one that has; in a handler it is
illegal. A `cancel` whose commit finds a stale generation raises cancelled. -/
def Sys2Proof.Machine.CancelAndYieldRule : Prop :=
  ∀ (s s1 s2 : State) (d : Reg) (a : SOpd) (v : SVal) (u : Task) (old : Nat),
    let q := s.focus
    let c := q.core.val
    (Reads q a s v s1 → v.p = false → commitTask c s1 = .ok false s2 →
      let job := v.v.toNat % 2 ^ 32
      Sys2Proof.Machine.Generation s2 (s2.ctxOf c) job old →
      let g := (old + 1) % 2 ^ 16
      exec (.cancel d a) s = .next (((s2.physWrite (s2.genAt (s2.ctxOf c) job) (toBytes 2 g)).setReg q d
        { v := BitVec.ofNat 64 g, p := false }).advance q)) ∧
    (Reads q a s v s1 → v.p = false → commitTask c s1 = .ok true s2 →
      exec (.cancel d a) s = .next (s2.precise q (mkFault 0x18 (detailOf 0 0 0x75)))) ∧
    ((s.seqr q).handler = true → exec .yield s = .next (s.precise q (mkFault 2 0x7B))) ∧
    ((s.seqr q).handler = false → (s.core c).task = some u → u.committed = true → exec .yield s = .next (s.advance q)) ∧
    ((s.seqr q).handler = false → (s.core c).task = some u → u.committed = false →
      exec .yield s = .next ((s.returnSlot u.queue u.slot u.crew).clearCore c))

/-- How sequencers stop, and `cancel` and `yield`. -/
def Obligations.StopCancelYield : Prop :=
  Sys2Proof.Machine.SequencerStopsRule ∧ Sys2Proof.Machine.CancelAndYieldRule
/-! ## Loads and stores (R340) -/

/-- R289, R303, R340: `ld` writes the bytes that its access reads, zero-extended, and their poison; with `.acq` poison is refused
and the acquire follows the read. An access that L1 does not take reads its bytes at the home. -/
def Obligations.LoadResults : Prop :=
  ∀ (s s1 s2 : State) (d a : Reg) (disp : BitVec 32) (sz : Size) (t : Target) (bs : List Byte) (p : Bool),
    let q := s.focus
    let c := q.core.val
    let n := sizeBytes sz
    (s.reg q a).p = false → Finds q .r (dispAddr s q a disp) n s t s1 → readAt (.core c) t n 0 s1 = .ok (bs, p) s2 →
    (exec (.ld d a disp sz none) s = .next ((s2.setReg q d { v := BitVec.ofNat 64 (ofBytes bs), p := p }).advance q)) ∧
    (∀ sc : Scope, p = false → exec (.ld d a disp sz (some sc)) s =
      .next (((s2.acquire c sc).setReg q d { v := BitVec.ofNat 64 (ofBytes bs), p := false }).advance q)) ∧
    (∀ sc : Scope, p = true → exec (.ld d a disp sz (some sc)) s = .next (s2.precise q (mkFault 0x0A 0x9A))) ∧
    (∀ (pa : Nat) (l : Leaf), t = .phys pa l → s1.isLocal pa = true → paIdx pa ≠ 15 → s1.usesL1 (.core c) pa l = false →
      l.effHome ≠ 1 → pa % 64 + n ≤ 64 → s2 = s1 ∧ p = s1.poisAt pa n ∧ bs = (List.range n).map fun k => sget s1.mem (s1.place (pa + k)) memInit)

/-- R290: a sector fetched into L1 keeps the line's dirty bytes, takes every other byte of the sector, and touches no byte of
the other sector. -/
def Sys2Proof.Machine.FillKeepsDirtyBytesRule : Prop :=
  ∀ (l : L1Line) (sec : Nat) (bs : List Byte) (p : Bool), sec < 2 → bs.length = 64 →
    (∀ k < 64, (l.fillSector sec bs p).byte (64 * sec + k) =
      if l.dirty.getLsbD (64 * sec + k) then l.byte (64 * sec + k) else bs.getD k 0) ∧
    (∀ k < 64, (l.fillSector sec bs p).byte (64 * (1 - sec) + k) = l.byte (64 * (1 - sec) + k)) ∧
    (l.fillSector sec bs p).dirty = l.dirty

/-- The access of a store: at its home where it is a release at `.quad` or wider (R314). -/
abbrev Sys2Proof.Machine.FindsStore (q : SeqId) (rel : Option Scope) (va n : Nat) (s : State) (t : Target) (t1 : State) : Prop :=
  if rel.any (·.wideQ) then FindsHome q .w va n s t t1 else Finds q .w va n s t t1

/-- R310, R314, R340: `st` passes its access, performs its release, and writes the low bytes of xd; a release at `.quad` or wider
writes through to the home, and leaves or clears the releaser tag (R315); with `.asy` the bytes join the digest of their group
(R207). A release store of a poisoned register is refused. -/
def Sys2Proof.Machine.StoresCompleteRule : Prop :=
  ∀ (s s1 s2 s3 : State) (d a : Reg) (disp : BitVec 32) (sz : Size) (rel : Option Scope) (asy : Bool) (t : Target),
    let q := s.focus
    let c := q.core.val
    let n := sizeBytes sz
    let va := dispAddr s q a disp
    let v := s.reg q d
    let bs := toBytes n v.v.toNat
    let digest (x : State) : State := if asy then x.digestStore (s.ctxOf c) (storedBytes va bs v.p) else x
    (s.reg q a).p = false →
    (rel.isSome = true → v.p = true → exec (.st d a disp sz rel asy) s = .next (s.precise q (mkFault 0x0A 0x9A))) ∧
    (Sys2Proof.Machine.FindsStore q rel va n s t s1 →
      (rel = none → Runs (writeAt (.core c) (s.ctxOf c) t bs v.p) s1 s2 →
        exec (.st d a disp sz rel asy) s = .next ((digest s2).advance q)) ∧
      (∀ sc : Scope, rel = some sc → v.p = false → Runs (release c sc) s1 s2 →
        Runs (writeAt (.core c) (s.ctxOf c) t bs v.p 0 sc.wideQ) s2 s3 →
        exec (.st d a disp sz rel asy) s = .next ((digest (s3.tagRelease c sc t)).advance q)))

/-- R289, R340: where a store reaches its home, the bytes at the address hold the low bytes of xd, every other byte of memory
reads as it did before the write, and no register changes. -/
def Sys2Proof.Machine.StoreWritesItsBytesRule : Prop :=
  ∀ (s s1 s2 : State) (d a : Reg) (disp : BitVec 32) (sz : Size) (rel : Option Scope) (asy : Bool) (pa : Nat) (l : Leaf),
    let q := s.focus
    let c := q.core.val
    let n := sizeBytes sz
    (s.reg q a).p = false → (rel.isSome = true → (s.reg q d).p = false) →
    Sys2Proof.Machine.FindsStore q rel (dispAddr s q a disp) n s (.phys pa l) s1 → Runs (releaseOpt c rel) s1 s2 →
    (s2.usesL1 (.core c) pa l = false ∨ ∃ sc, rel = some sc ∧ sc.wideQ = true) → Direct s2 c pa l →
    ∃ t : State, exec (.st d a disp sz rel asy) s = .next t ∧
      Spells t.mem (s2.place pa) n (s.reg q d).v.toNat ∧ SameOutside s2.mem t.mem (s2.place pa) n ∧
      (∀ r : Reg, t.reg q r = s2.reg q r) ∧ (t.core c).vregs = (s2.core c).vregs ∧ (t.core c).cflags = (s2.core c).cflags

/-- Scalar stores complete, and change exactly their bytes. -/
def Obligations.StoreResults : Prop :=
  Sys2Proof.Machine.StoresCompleteRule ∧ Sys2Proof.Machine.StoreWritesItsBytesRule

/-- R290, R340: a store that L1 takes makes exactly its bytes dirty in the line, and writes no memory beyond the eviction that
makes room, for which its write-backs must be free to go (R13, R18, R417). -/
def Sys2Proof.Machine.StoreIntoL1Rule : Prop :=
  ∀ (s s1 : State) (d a : Reg) (disp : BitVec 32) (sz : Size) (pa : Nat) (l : Leaf),
    let q := s.focus
    let c := q.core.val
    let n := sizeBytes sz
    (s.reg q a).p = false → Finds q .w (dispAddr s q a disp) n s (.phys pa l) s1 → s1.isLocal pa = true → paIdx pa ≠ 15 →
    s1.usesL1 (.core c) pa l = true → pa % 128 + n ≤ 128 → s1.wbStops c ((s1.core c).victim (lineOf pa)).toList = none →
    let s' := s1.l1Room c (lineOf pa)
    let l' := (s'.core c).l1Of (lineOf pa)
    ∃ t : State, exec (.st d a disp sz none false) s = .next t ∧ t.mem = s'.mem ∧
      (let e := (t.core c).l1Of (lineOf pa)
       (∀ k < n, e.byte (pa % 128 + k) = BitVec.ofNat 8 ((s.reg q d).v.toNat / 256 ^ k) ∧ e.dirty.getLsbD (pa % 128 + k) = true) ∧
       (∀ j < 128, j < pa % 128 ∨ pa % 128 + n ≤ j → e.byte j = l'.byte j ∧ e.dirty.getLsbD j = l'.dirty.getLsbD j) ∧
       e.valid = l'.valid) ∧
      (∀ r : Reg, t.reg q r = s1.reg q r)

/-- L1 keeps dirty bytes, and takes stores to cached homes. -/
def Obligations.L1Results : Prop :=
  Sys2Proof.Machine.FillKeepsDirtyBytesRule ∧ Sys2Proof.Machine.StoreIntoL1Rule

/-- R385: an access that finds its target, whoever makes it, has changed TLBs and walk caches alone: the state after it is the state before
but for the entries of core TLBs, fetch TLBs, quad TLBs, walk caches and criers' TLBs. No byte of memory and no poison, no register, no L1
line, no cell with its full bit and its poison, no queue, FIFO, barrier, shape, tensor entry, tag, launch or message is another. -/
def Obligations.TranslationFrame : Prop :=
  ∀ (ch : Chap) (a : Agent) (ctx : Nat) (p : Perm) (va al : Nat) (loom : Bool) (s s1 : State) (t : Target),
    access ch a ctx p va al loom s = .ok t s1 →
    s1 = { s with cores := s1.cores, quads := s1.quads, criers := s1.criers } ∧
      (∀ k : Nat, s1.core k = { s.core k with
        coreTlb := (s1.core k).coreTlb,
        as := { (s.core k).as with fetchTlb := (s1.core k).as.fetchTlb },
        xs := { (s.core k).xs with fetchTlb := (s1.core k).xs.fetchTlb } }) ∧
      (∀ k : Nat, s1.quad k = { s.quad k with quadTlb := (s1.quad k).quadTlb, walkCache := (s1.quad k).walkCache }) ∧
      (∀ k : Nat, s1.crier k = { s.crier k with tlb := (s1.crier k).tlb })

/-! ## Full and empty cells, fences, promotion (R341-R343) -/

/-- R341: `ldfe` waits for a full cell and reads it, emptying it with `.clear`; `stfe` waits for an empty cell, writes it and sets
it full; a poisoned cell is refused with the cell as it was. The wait's end runs the instruction again, with the same result. Of the
cells, `stfe` changes the bytes at its address and the full bit of that cell: every other byte, full bit and poison bit stands, and of the
rest of the package only the watches on the line (R281). -/
def Obligations.FullEmptyResults : Prop :=
  ∀ (s s1 : State) (d a : Reg) (disp : BitVec 32) (sz : Size) (clear : Bool) (p : Nat),
    let q := s.focus
    let c := q.core.val
    let n := sizeBytes sz
    let va := dispAddr s q a disp
    let x := s1.core c
    let ld (t : State) : Prop := RunsOrWakes (.ldfe d a disp sz clear) (.fullEmptyWaitEnd (.seq q)) .cell q s t
    let st (t : State) : Prop := RunsOrWakes (.stfe d a disp sz) (.fullEmptyWaitEnd (.seq q)) .cell q s t
    ((s.reg q a).p = false → cellAt c va n .r s = .ok p s1 →
      (x.cellFull p = false → ld (s.stalled q .cell)) ∧
      (x.cellFull p = true → x.cellPois p = true → ld (s1.precise q (mkFault 0x0A 0x9A))) ∧
      (x.cellFull p = true → x.cellPois p = false →
        ld (((if clear then s1.onCore c fun y => { y with scFull := ndel y.scFull (p / 16) } else s1).setReg q d
          { v := BitVec.ofNat 64 (ofBytes ((addrs p n).map x.cellByte)), p := false }).advance q))) ∧
    ((s.reg q a).p = false → (s.reg q d).p = true → st (s.precise q (mkFault 0x0A 0x9A))) ∧
    ((s.reg q a).p = false → (s.reg q d).p = false → cellAt c va n .w s = .ok p s1 →
      (x.cellFull p = true → st (s.stalled q .cell)) ∧
      (x.cellFull p = false → x.cellPois p = true → st (s1.precise q (mkFault 0x0A 0x9A))) ∧
      (x.cellFull p = false → x.cellPois p = false → x.remoteOut = 0 →
        ∃ u t : State, st t ∧ t = u.advance q ∧
          u = { s1 with cores := u.cores, waits := u.waits } ∧ (∀ k, k ≠ c → u.core k = s1.core k) ∧
          u.core c = { x with scratch := (u.core c).scratch, scFull := (u.core c).scFull } ∧
          (∀ k < n, (u.core c).cellByte (p + k) = BitVec.ofNat 8 ((s.reg q d).v.toNat / 256 ^ k)) ∧
          (∀ j, j < p ∨ p + n ≤ j → (u.core c).cellByte j = x.cellByte j) ∧
          (∀ g, g ∈ (u.core c).scFull ↔ g = p / 16 ∨ g ∈ x.scFull)))

/-- R310, R342: a fence performs its release, then its acquire. R316, R343: `promote` has the tagged core publish, reads the
location at its home, and acquires; on a memory-side page it is the acquire and the read; a core-pinned or uncached page is refused before
its alignment is looked at (R56). R315: a tagged line is published before its eviction, once its write-backs may go. -/
def Sys2Proof.Machine.FenceAndPromoteRule : Prop :=
  ∀ (s s1 s2 s3 : State) (o : Ordr) (d a : Reg) (disp : BitVec 32) (sc : Scope) (pa : Nat) (l : Leaf) (bs : List Byte)
    (p : BitVec 48),
    let q := s.focus
    let c := q.core.val
    let ans := BitVec.ofNat 64 (ofBytes bs)
    (Runs (releaseOpt c o.relOf) s s1 → Runs (acquireOpt c o.acqOf) s1 s2 → exec (.fence o) s = .next (s2.advance q)) ∧
    (∀ t : Target, (s.reg q a).p = false → resolve (chap13 0) (.core c) (s.ctxOf c) .r (dispAddr s q a disp) false s = .ok t s1 →
      (t.effHome = 0 ∨ t.effHome = 3) →
      exec (.promote d a disp sc) s = .next (s1.precise q (mapFault 0x90 (dispAddr s q a disp)))) ∧
    ((s.reg q a).p = false → FindsHome q .r (dispAddr s q a disp) 8 s (.phys pa l) s1 → l.effHome ≠ 0 →
      (l.effHome = 4 → readHome (.core c) (.phys pa l) 8 s1 = .ok (bs, false) s2 →
        exec (.promote d a disp sc) s = .next (((s2.acquire c sc).setReg q d { v := ans, p := false }).advance q)) ∧
      (l.effHome ≠ 3 → l.effHome ≠ 4 →
        (∀ k u, s1.relTags.find? (·.1 == lineOf pa) = some (k, u) → (sc = .pod → (s1.core u).remoteOut = 0) ∧ s1.wbFree u = true) →
        readHome (.core c) (.phys pa l) 8 (s1.publishTag (lineOf pa)) = .ok (bs, false) s3 →
        exec (.promote d a disp sc) s = .next (((s3.acquire c sc).setReg q d { v := ans, p := false }).advance q))) ∧
    (s.relTags.find? (·.1 == lineOf p.toNat) = none → exec (.taggedLineEviction p) s = .next s) ∧
    (∀ k u, s.relTags.find? (·.1 == lineOf p.toNat) = some (k, u) →
      (s.wbFree u = true → exec (.taggedLineEviction p) s = .next (s.publishTag (lineOf p.toNat))) ∧
      (s.wbFree u = false → exec (.taggedLineEviction p) s = .next s)) ∧
    (∀ k u, s.relTags.find? (·.1 == lineOf pa) = some (k, u) →
      let t := s.publishTag (lineOf pa)
      (∀ line, ((t.core u).l1Of line).dirty = 0) ∧ shas t.relTags (lineOf pa) = false)

/-- R291, R314: a release at `.quad` or wider leaves no dirty byte in the core's L1, and an acquire at `.die` or wider no valid
sector; at `.core` neither changes anything; a release waits for the writes that other packages have yet to acknowledge (R333), and for
what holds its write-backs (R13, R417); an absent home refuses them (R18), with a CAUSE that is the model's choice (log 70). -/
def Sys2Proof.Machine.ReleaseAndAcquireRule : Prop :=
  ∀ (s : State) (c : Nat) (sc : Scope),
    (0 < (s.core c).remoteOut → release c sc s = .error (.stall .release) s) ∧
    ((s.core c).remoteOut = 0 → sc.wideQ = true →
      (s.wbFree c = true → ∃ t, Runs (release c sc) s t ∧ (∀ line, ((t.core c).l1Of line).dirty = 0) ∧
        (∀ q : SeqId, t.seqr q = s.seqr q)) ∧
      (s.wbStops c (s.core c).lines = some .held → release c sc s = .error (.stall .held) s) ∧
      (s.wbStops c (s.core c).lines = some .absent → release c sc s = .error (.fault (mkFault 0x13 0x93)) s)) ∧
    ((s.core c).remoteOut = 0 → Runs (release c .core) s s) ∧
    (sc.wideD = true → ∀ line, (((s.acquire c sc).core c).l1Of line).valid = 0) ∧
    (sc.wideD = true → swf (fun _ => L1Line.none) (s.core c).l1 = true → ∀ line,
      (((s.acquire c sc).core c).l1Of line).dirty = ((s.core c).l1Of line).dirty) ∧
    s.acquire c .core = s

/-- Fences, promotion, releases and acquires. -/
def Obligations.FencesReleasesAcquires : Prop :=
  Sys2Proof.Machine.FenceAndPromoteRule ∧ Sys2Proof.Machine.ReleaseAndAcquireRule

/-! ## Atomics (R344-R346) -/

/-- R328: a read-modify-write at a home reads the old value and writes the new one in one step: the bytes at the address hold it,
every other byte is unchanged; a function that answers nothing writes nothing, and so does a poisoned place. No sequencer changes. -/
def Sys2Proof.Machine.AtomicAtHomeRule : Prop :=
  ∀ (s : State) (c ctx pa n : Nat) (l : Leaf) (f : Nat → Option Nat), Direct s c pa l → 0 < n → n ≤ 8 →
    let old := s.physNat pa n
    (s.poisAt pa n = true → ∃ t, rmwAt (.core c) ctx (.phys pa l) n f none s = .ok (old, true) t ∧ t.mem = s.mem ∧
      t.mpois = s.mpois ∧ ∀ q : SeqId, t.seqr q = s.seqr q) ∧
    (s.poisAt pa n = false → f old = none → ∃ t, rmwAt (.core c) ctx (.phys pa l) n f none s = .ok (old, false) t ∧ t.mem = s.mem ∧
      t.mpois = s.mpois ∧ ∀ q : SeqId, t.seqr q = s.seqr q) ∧
    (∀ v, s.poisAt pa n = false → f old = some v →
      ∃ t, rmwAt (.core c) ctx (.phys pa l) n f none s = .ok (old, false) t ∧ Spells t.mem (s.place pa) n v ∧
        SameOutside s.mem t.mem (s.place pa) n ∧ ∀ q : SeqId, t.seqr q = s.seqr q)

/-- R344: the new value of an integer atomic of 4 or 8 bytes. -/
def Sys2Proof.Machine.AtomicNewValuesRule : Prop :=
  ∀ (n old v : Nat), (n = 4 ∨ n = 8) → old < 2 ^ (8 * n) → v < 2 ^ (8 * n) →
    let x := BitVec.ofNat (8 * n) old
    let y := BitVec.ofNat (8 * n) v
    newInt .add n old v = (x + y).toNat ∧ newInt .and n old v = (x &&& y).toNat ∧ newInt .or n old v = (x ||| y).toNat ∧
    newInt .xor n old v = (x ^^^ y).toNat ∧ newInt .swap n old v = v ∧
    newInt .min n old v = (if x.toInt ≤ y.toInt then old else v) ∧ newInt .max n old v = (if x.toInt ≤ y.toInt then v else old) ∧
    newInt .minn n old v = min old v ∧ newInt .maxn n old v = max old v

/-- An atomic is one read and write at its home, with the new value of its operation. -/
def Obligations.AtomicsAtHome : Prop :=
  Sys2Proof.Machine.AtomicAtHomeRule ∧ Sys2Proof.Machine.AtomicNewValuesRule

/-- R228, R310, R345: `amo`, `famo` and `cas` commit, release, change the location in one step at its home, tag it (R315),
acquire, and write the old value, zero-extended; a poisoned location is refused. A literal of `famo` is converted to f32 (R76). -/
def Obligations.AtomicResults : Prop :=
  ∀ (s s1 s1' s2 s3 s4 s5 s6 : State) (op : AtomOp) (d a : Reg) (b : SOpd) (v : SVal) (sz : Size) (o : Ordr) (t : Target) (old : Nat),
    let q := s.focus
    let c := q.core.val
    let n := sizeBytes sz
    let va := (s1.reg q a).v.toNat
    let tag (x : State) : State := match o.relOf with | some sc => x.tagRelease c sc t | none => x
    let run (i : Instr) (m : Nat) (f : Nat → Option Nat) (msg : Option OutMsg) : Prop :=
      atomTarget (chap13 0) c (s1.ctxOf c) va m 0xA2 s1 = .ok t s2 → Runs (implicitCommit c) s2 s3 →
      Runs (poolCheck (chap13 0) (.core c) (s1.ctxOf c) va t) s3 s3 → s3.nrAhead (.core c) t m = false →
      Runs (homeReach (chap13 0) (.core c) va t) s3 s3 → Runs (releaseOpt c o.relOf) s3 s4 →
      (rmwAt (.core c) (s1.ctxOf c) t m f msg s4 = .ok (old, false) s5 → Runs (acquireOpt c o.acqOf) (tag s5) s6 →
        exec i s = .next ((s6.setReg q d { v := BitVec.ofNat 64 old, p := false }).advance q)) ∧
      (rmwAt (.core c) (s1.ctxOf c) t m f msg s4 = .ok (old, true) s5 → exec i s = .next (s5.precise q (mkFault 0x0A 0x9A)))
    Reads q b s v s1 → v.p = false → (s1.reg q a).p = false →
    run (.amo op d a b sz o false) n (fun w => some (newInt op n w v.v.toNat)) (atomMsg t op false (n == 8) v.v.toNat) ∧
    run (.famo op d a b o false) 4 (fun w => some (newF32 op w (f32Opd b v.v).toNat)) (atomMsg t op true false (f32Opd b v.v).toNat) ∧
    ((s1.reg q d).p = false →
      run (.cas d a b sz o) n (fun w => if w = (s1.reg q d).v.toNat % 2 ^ (8 * n) then some (v.v.toNat % 2 ^ (8 * n)) else none)
        (match t with | .phys pa _ => some (.remoteCas pa (n == 8) (s1.reg q d).v v.v) | .scratch _ => none)) ∧
    (resolve (chap13 0) (.core c) (s1.ctxOf c) .rw va false s1 = .ok t s1' → t.effHome = 3 → va % n = 0 →
      exec (.amo op d a b sz o false) s = .next (s1'.precise q { mkFault 9 0xA2 with addr := BitVec.ofNat 64 va }))

/-- R329, R346: a return-free atomic leaves the core after its commit, and its register is not written; its home, in memory or in the
core's own array, performs it later, and a fault there, its alignment among them, goes to the fault queue and is kept; `amofence` waits for it, reports a failure at
itself without a release, which is forgotten once the fault has been taken, and otherwise releases. -/
def Obligations.ReturnFreeAtomics : Prop :=
  ∀ (s s1 s2 s3 s4 : State) (op : AtomOp) (d a : Reg) (b : SOpd) (v : SVal) (sz : Size) (o : Ordr) (t : Target) (sc : Scope)
    (c' : CoreId) (e : NrOp) (rest : List NrOp) (old : Nat),
    let q := s.focus
    let c := q.core.val
    let va := (s1.reg q a).v.toNat
    let left (wide f32 : Bool) (w : Word) : State := s3.onCore c fun x => { x with nrOut := x.nrOut ++
      [{ pa := (match t with | .phys pa _ => pa | .scratch k => k), ctx := s1.ctxOf c, op := op, f32 := f32, wide := wide,
         v := { v := w, p := false }, ckp := (match t with | .phys _ l => l.ckp | .scratch _ => false), va := va,
         scratch := (match t with | .phys _ _ => false | .scratch _ => true) }] }
    (Reads q b s v s1 → v.p = false → (s1.reg q a).p = false → Runs (implicitCommit c) s2 s3 →
      (atomTarget (chap13 0) c (s1.ctxOf c) va (sizeBytes sz) 0xA2 s1 = .ok t s2 →
        exec (.amo op d a b sz o true) s = .next ((left (sizeBytes sz == 8) false v.v).advance q)) ∧
      (atomTarget (chap13 0) c (s1.ctxOf c) va 4 0xA2 s1 = .ok t s2 →
        exec (.famo op d a b o true) s = .next ((left false true (f32Opd b v.v)).advance q))) ∧
    ((s.core c).nrOut ≠ [] → exec (.amofence sc) s = .next (s.stalled q .amofence)) ∧
    ((s.core c).nrOut = [] → (s.core c).nrFail = none → Runs (release c sc) s s4 → exec (.amofence sc) s = .next (s4.advance q)) ∧
    (∀ f : BitVec 8 × BitVec 8, (s.core c).nrOut = [] → (s.core c).nrFail = some f →
      let u := s.precise q (mkFault f.1.toNat (detailOf 0 0 f.2.toNat))
      ((u.seqr q).wait = .none → exec (.amofence sc) s = .next (u.onCore c fun x => { x with nrFail := none })) ∧
      ((u.seqr q).wait ≠ .none → exec (.amofence sc) s = .next u)) ∧
    ((s.core c'.val).nrOut = e :: rest →
      let s' := s.onCore c'.val fun x => { x with nrOut := rest }
      let at_ : Target := if e.scratch then .scratch e.pa else .phys e.pa (s'.homeLeaf e.pa e.ckp)
      let n := if e.wide then 8 else 4
      let home : Mx (Nat × Bool) := rmwAt (.core c'.val) e.ctx at_ n (fun w => some (newAtom e.f32 e.op n w e.v.v.toNat))
        (atomMsg at_ e.op e.f32 e.wide e.v.v.toNat)
      s'.pinCheck (.core c'.val) false at_ = true → Runs (poolCheck (chap13 0) (.core c'.val) e.ctx e.va at_) s' s' →
      (∀ f : FaultInfo, alignCheck (chap13 0) e.va n s' = .error (.fault f) s' → f.cls = 4 ∧
        exec (.nrAtomicHomeFault c') s = .next (s'.nrReport c'.val e.ctx f)) ∧
      (Runs (alignCheck (chap13 0) e.va n) s' s' → Runs (homeReach (chap13 0) (.core c'.val) e.va at_) s' s' → e.v.p = false →
      (home s' = .ok (old, false) s4 → exec (.nrAtomicHomeFault c') s = .next s4) ∧
      (home s' = .ok (old, true) s4 → exec (.nrAtomicHomeFault c') s =
        .next (s4.nrReport c'.val e.ctx { mkFault 0x0A 0x9A with addr := BitVec.ofNat 64 e.va }))))
/-! ## Timelines, frontiers, barriers (R354-R358) -/

/-- R354: `tlread` writes the counter with its halted flag and waits for nothing; `tlwait` waits for its count, has the completed commands'
bytes performed at its scope (R318), which its write-backs may hold, and acquires; it raises chase-halted where the queue has halted short of
the count, and with n = 0 returns at once, acquiring alone. Its wait's end runs it again, with the same result. -/
def Obligations.TimelineResults : Prop :=
  ∀ (s s1 : State) (d : Reg) (a : SOpd) (v : SVal) (t : Eng) (sc : Scope),
    let q := s.focus
    let c := q.core.val
    let n := v.v.toNat % 2 ^ 63
    let e := (s1.core c).eq t
    let w := ((s.core c).eq t)
    let To (u : State) : Prop := RunsOrWakes (.tlwait t a sc) (.tlwaitReturn q) .timeline q s u
    (∃ x : Word, exec (.tlread d t) s = .next ((s.setReg q d { v := x, p := false }).advance q) ∧
      x.toNat % 2 ^ 63 = w.tl % 2 ^ 63 ∧ x.getLsbD 63 = w.halted) ∧
    (Reads q a s v s1 → v.p = true → To (s1.precise q (mkFault 0x0A 0x9A))) ∧
    (Reads q a s v s1 → v.p = false →
      (n = 0 → To ((s1.acquire c sc).advance q)) ∧
      (0 < n → n ≤ e.tl → sc.wideQ = false → To ((s1.acquire c sc).advance q)) ∧
      (0 < n → n ≤ e.tl → sc.wideQ = true → s1.wbFree c = true → To (((s1.wbAll c).acquire c sc).advance q)) ∧
      (e.tl < n → e.halted = true → To (s1.precise q (mkFault 0x0C 0x92))) ∧
      (e.tl < n → e.halted = false → To (s.stalled q .timeline)))

/-- R321, R355: what the frontier instructions do to the fields of the word: COUNT in bits [47:0], GEN in [55:48], the reserved
bits [61:56], CLOSED in bit 62 and HALTED in bit 63. -/
def Sys2Proof.Machine.FrontierWordsRule : Prop :=
  ∀ (w k : Nat), w < 2 ^ 64 → k < 2 ^ 48 →
    let rsv (x : Nat) : Nat := x / 2 ^ 56 % 2 ^ 6
    let gen (x : Nat) : Nat := x / 2 ^ 48 % 2 ^ 8
    (let o := fwOpen w
     fwCount o = 0 ∧ gen o = (gen w + 1) % 256 ∧ rsv o = rsv w ∧ fwClosed o = false ∧ fwHalted o = false ∧ o < 2 ^ 64) ∧
    (let o := fwPublish k w
     fwCount o = max (fwCount w) k ∧ gen o = gen w ∧ rsv o = rsv w ∧ fwClosed o = fwClosed w ∧ fwHalted o = fwHalted w) ∧
    (let o := fwClose w
     fwClosed o = true ∧ fwCount o = fwCount w ∧ gen o = gen w ∧ rsv o = rsv w ∧ fwHalted o = fwHalted w) ∧
    (let o := fwHalt w
     fwHalted o = true ∧ fwCount o = fwCount w ∧ gen o = gen w ∧ rsv o = rsv w ∧ fwClosed o = fwClosed w) ∧
    fwApply [.fopen] w = fwOpen w ∧ fwApply [.publish k] w = fwPublish k w ∧ fwApply [.close] w = fwClose w ∧
    fwApply [.halt] w = fwHalt w ∧ fwApply [.publish k, .closeLive] w = (if fwHalted w then fwPublish k w else fwClose (fwPublish k w))

/-- R356: `fopen`, `fpub`, `fclose` and `fhalt` change the word at its home in one step, `fpub` and `fclose` after a release;
`fread` reads it; `fchase` waits for CLOSED or its count, acquires, and writes the word, and raises chase-halted where HALTED is
set and its condition is not met; its wait's end runs it again, with the same result. -/
def Sys2Proof.Machine.FrontierOperationsRule : Prop :=
  ∀ (s s1 s2 s3 s4 : State) (d a : Reg) (b : SOpd) (n : SVal) (sc : Scope) (t t0 : Target) (w : Nat) (bs : List Byte),
    let q := s.focus
    let c := q.core.val
    let ctx := s.ctxOf c
    let va := (s.reg q a).v.toNat
    let A : Agent := .core c
    let Chases (u : State) : Prop := RunsOrWakes (.fchase d a b sc) (.chaseSatisfied (.seq q)) .chase q s u
    (s.reg q a).p = false →
    (frontRmw (front13) A ctx va [.fopen] s = .ok (w, t) s1 →
      exec (.fopen a) s = .next (({ s1 with openers := sput s1.openers (frontKey c t) (ctx, q) } : State).advance q)) ∧
    (Reads q b s n s1 → n.p = false → n.v.toNat < 2 ^ 48 → frontAccess (front13) A (s1.ctxOf c) .w va s1 = .ok t0 s2 →
      Runs (release c sc) s2 s3 → frontRmw (front13) A (s1.ctxOf c) va [.publish n.v.toNat] s3 = .ok (w, t) s4 →
      exec (.fpub a b sc) s = .next ((s4.tagRelease c sc t).advance q)) ∧
    (Reads q b s n s1 → n.p = false → 2 ^ 48 ≤ n.v.toNat → exec (.fpub a b sc) s = .next (s1.precise q (mkFault 2 0x9C))) ∧
    (frontAccess (front13) A ctx .w va s = .ok t0 s2 → Runs (release c sc) s2 s3 →
      frontRmw (front13) A ctx va [.close] s3 = .ok (w, t) s4 → exec (.fclose a sc) s = .next ((s4.tagRelease c sc t).advance q)) ∧
    (frontAccess (front13) A ctx .w va s = .ok t0 s2 → frontRmw (front13) A ctx va [.halt] s2 = .ok (w, t) s4 →
      exec (.fhalt a) s = .next (s4.advance q)) ∧
    (frontAccess (front13) A ctx .r va s = .ok t s2 → readAt A t 8 0 s2 = .ok (bs, false) s3 →
      exec (.fread d a) s = .next ((s3.setReg q d { v := BitVec.ofNat 64 (ofBytes bs), p := false }).advance q)) ∧
    (Reads q b s n s1 → n.p = false → frontRead (front13) A (s1.ctxOf c) va s1 = .ok w s2 →
      (fwClosed w = true ∨ n.v.toNat ≤ fwCount w →
        Chases (((s2.acquire c sc).setReg q d { v := BitVec.ofNat 64 w, p := false }).advance q)) ∧
      (fwClosed w = false → fwCount w < n.v.toNat →
        (fwHalted w = true → Chases (s2.precise q (mkFault 0x0C 0x92))) ∧
        (fwHalted w = false → Chases (s.stalled q .chase))))

/-- R321, R328: a change of a frontier word at a directly written home is one step: the word there becomes what the operations make of it,
every other byte of memory reads as before, and the answer is the word as it was. -/
def Sys2Proof.Machine.FrontierWordChangeRule : Prop :=
  ∀ (s s1 : State) (c ctx va pa : Nat) (l : Leaf) (ops : List FrontOp),
    frontAccess front13 (.core c) ctx .w va s = .ok (.phys pa l) s1 → Direct s1 c pa l → s1.poisAt pa 8 = false →
    let old := s1.physNat pa 8
    ∃ t : State, frontRmw front13 (.core c) ctx va ops s = .ok (old, .phys pa l) t ∧
      Spells t.mem (s1.place pa) 8 (fwApply ops old) ∧ SameOutside s1.mem t.mem (s1.place pa) 8 ∧ ∀ q : SeqId, t.seqr q = s1.seqr q

/-- Frontier words, and the instructions on them. -/
def Obligations.FrontierResults : Prop :=
  Sys2Proof.Machine.FrontierWordsRule ∧ Sys2Proof.Machine.FrontierOperationsRule ∧ Sys2Proof.Machine.FrontierWordChangeRule

/-- R357: an arrival fixes NEED where it is 0, is refused with another count, and otherwise raises ARR and sets PEND to the phase;
with the last one the phase advances and NEED and ARR are 0. `barw` leaves once the phase has passed PEND, clearing it, and stands
until then; `bars` is both; a failed phase is refused with the bytes delivered. -/
def Obligations.NamedBarrierResults : Prop :=
  ∀ (s s1 : State) (b : Fin 32) (a : SOpd) (v : SVal) (q' : SeqId),
    let q := s.focus
    let c := q.core.val
    let k := (s1.core c).bar b.val
    (Reads q a s v s1 → v.p = false → 1 ≤ v.v.toNat → v.v.toNat ≤ 255 → k.failed = false → (s1.core c).remoteOut = 0 → k.arr < 255 →
      (k.need = 0 ∨ k.need = v.v.toNat →
        ∃ u : State, exec (.bar b a) s = .next (u.advance q) ∧ OnlyCore s1 u c ∧
          u.core c = { s1.core c with bars := (u.core c).bars, as := (u.core c).as, xs := (u.core c).xs } ∧
          u.seqr q = { s1.seqr q with pend := sput (s1.seqr q).pend b.val k.phase } ∧ u.seqr (otherSeq q) = s1.seqr (otherSeq q) ∧
          (u.core c).bar b.val = (if v.v.toNat ≤ k.arr + 1 then { k with phase := k.phase + 1, arr := 0, need := 0, walked := false }
            else { k with arr := k.arr + 1, need := v.v.toNat }) ∧
          (∀ o : Nat, o ≠ b.val → (u.core c).bar o = (s1.core c).bar o)) ∧
      (k.need ≠ 0 → k.need ≠ v.v.toNat →
        exec (.bar b a) s = .next ((s1.onCore c fun x => x.setBar b.val k).precise q (mkFault 0x10 0x97)))) ∧
    (Reads q a s v s1 → v.p = true → exec (.bar b a) s = .next (s1.precise q (mkFault 0x0A 0x9A))) ∧
    (Reads q a s v s1 → v.p = false → k.failed = true →
      exec (.bar b a) s = .next (s1.precise q (mkFault 0x0F (detailOf k.failBytes 0 0x96)))) ∧
    (Reads q a s v s1 → v.p = false → k.failed = false → ¬(1 ≤ v.v.toNat ∧ v.v.toNat ≤ 255) →
      exec (.bar b a) s = .next (s1.precise q (mkFault 2 0x9C))) ∧
    (let h := (s.core c).bar b.val
     let p := (s.core c).pendOf q.xs b.val
     (h.failed = true → exec (.barw b) s = .next (s.precise q (mkFault 0x0F (detailOf h.failBytes 0 0x96)))) ∧
     (h.failed = false → phasePassed h.phase p = true →
       exec (.barw b) s = .next (((s.acquire c .core).onSeqr q fun x => { x with pend := sdel x.pend b.val }).advance q)) ∧
     (h.failed = false → phasePassed h.phase p = false →
       exec (.barw b) s = .next (s.onSeqr q fun x => { x with wait := .barrier, waitSince := s.clock, waitArg := p.toNat }))) ∧
    (∀ t : State, Runs (arrive q b a) s t →
      let h := (t.core c).bar b.val
      let p := (t.core c).pendOf q.xs b.val
      (phasePassed h.phase p = true →
        exec (.bars b a) s = .next (((t.acquire c .core).onSeqr q fun x => { x with pend := sdel x.pend b.val }).advance q)) ∧
      (phasePassed h.phase p = false →
        exec (.bars b a) s = .next (t.onSeqr q fun x => { x with wait := .barrier, waitSince := t.clock, waitArg := p.toNat }))) ∧
    ((s.seqr q').wait = .barrier → (s.seqr q').cur = some (.barw b) →
      let h := (s.core q'.core.val).bar b.val
      h.failed = false → phasePassed h.phase (BitVec.ofNat 16 (s.seqr q').waitArg) = true →
      exec (.barwWake q') s = .next (((s.acquire q'.core.val .core).onSeqr q' fun x => { x with pend := sdel x.pend b.val }).advance q'))

/-- R358: `hbar` of a committed task releases and stands as one arrival at its level's barrier for the task's context and job; the
first arrival fixes the count, another count is refused, and so is an uncommitted task. With the last arrival every waiter
acquires and leaves, all in one step (the model's choice, log 51); arrivals of other packages count at `.pod` alone, and only while a Duthar
port is up (R423). -/
def Sys2Proof.Machine.HierarchicalBarrierResultsRule : Prop :=
  ∀ (s s1 s2 : State) (lv : Scope) (a : SOpd) (v : SVal) (u : Task) (q' : SeqId) (out : Nat),
    let q := s.focus
    let c := q.core.val
    let ctx := s1.ctxOf c
    let job := jobOf (s1.jobidOf c)
    let fresh : HBar := { level := lv, place := placeAt lv c, ctx := ctx, job := job, need := v.v.toNat, arr := 0, waiters := [] }
    let h := (s1.hbarAt lv c ctx job).getD fresh
    (Reads q a s v s1 → v.p = false → (s1.core c).task = some u →
      (u.committed = false → exec (.hbar lv a) s = .next (s1.precise q (mkFault 2 0x98))) ∧
      (u.committed = true → ¬(1 ≤ v.v.toNat ∧ v.v.toNat ≤ 65535) → exec (.hbar lv a) s = .next (s1.precise q (mkFault 2 0x9C))) ∧
      (u.committed = true → 1 ≤ v.v.toNat → v.v.toNat ≤ 65535 →
        (h.need ≠ v.v.toNat → exec (.hbar lv a) s = .next (s1.precise q (mkFault 0x10 0x97))) ∧
        (h.need = v.v.toNat → Runs (release c lv) s1 s2 →
          ∃ t : State, exec (.hbar lv a) s = .next t ∧ { h with arr := h.arr + 1, waiters := h.waiters ++ [q] } ∈ t.hbars ∧
            (∀ o ∈ s2.hbars, ¬(o.level = lv ∧ o.place = h.place ∧ o.ctx = ctx ∧ o.job = job) → o ∈ t.hbars) ∧
            t = { s2 with hbars := t.hbars, cores := t.cores } ∧ (∀ k, k ≠ c → t.core k = s2.core k) ∧
            t.core c = (s2.core c).setSeqr q.xs { s2.seqr q with wait := .hbar, waitSince := s2.clock }))) ∧
    (∀ w : HBar, s.hbars.find? (fun x => x.waiters.contains q') = some w →
      let here := w.arr + (if w.level = .pod ∧ s.fabricUp = true then out else 0)
      (here < w.need → exec (.hbarPhaseEnd q' out) s = .next s) ∧
      (w.need ≤ here → exec (.hbarPhaseEnd q' out) s =
        .next (w.waiters.foldl (fun x o => if (x.seqr o).wait = .hbar then (x.acquire o.core.val w.level).advance o else x)
          { s with hbars := s.hbars.erase w }))) ∧
    (s.hbars.find? (fun x => x.waiters.contains q') = none → exec (.hbarPhaseEnd q' out) s = .next s)

/-- R363, R390: `hoff` checks its operands and every page before it changes anything, commits, releases, flips the owner bit of each frame of
the run and writes the flag in one step. R364: `take` waits until the flag is at least b, acquires, and writes the flag's value, which it reads
at the flag's home (the model's choice, log 48); its wait's end runs it again, with the same result. -/
def Sys2Proof.Machine.HandoverResultsRule : Prop :=
  ∀ (s s1 s2 s3 s4 s5 s6 : State) (d cr a : Reg) (b : SOpd) (n : SVal) (t : Target) (pas : List Nat) (bs : List Byte) (p : Bool),
    let q := s.focus
    let c := q.core.val
    let va := (s.reg q a).v.toNat
    let vd := (s.reg q d).v.toNat
    let Takes (u : State) : Prop := RunsOrWakes (.take d a b) (.takeReturn q) .take q s u
    (s.reg q a).p = false →
    ((s.reg q d).p = false → Reads q b s n s1 → n.p = false → (s1.reg q cr).p = false →
      (¬(va % 65536 = 0 ∧ vd % 8 = 0) → exec (.hoff d cr a b) s = .next (s1.precise q (mkFault 4 0x9D))) ∧
      (va % 65536 = 0 → vd % 8 = 0 → ¬(1 ≤ n.v.toNat ∧ n.v.toNat ≤ 4096) →
        exec (.hoff d cr a b) s = .next (s1.precise q (mkFault 2 0x9C))) ∧
      (va % 65536 = 0 → vd % 8 = 0 → 1 ≤ n.v.toNat → n.v.toNat ≤ 4096 → Runs (implicitCommit c) s1 s2 →
        let ctx := s2.ctxOf c
        ((List.range n.v.toNat).mapM fun j => handPage c ctx (va + 65536 * j) j) s2 = .ok pas s3 →
        resolve (chap13 0) (.core c) ctx .rw vd false s3 = .ok t s4 → (t.effHome = 1 ∨ t.effHome = 4) →
        Runs (poolCheck (chap13 0) (.core c) ctx vd t) s4 s4 → s4.nrAhead (.core c) t 8 = false →
        Runs (homeReach (chap13 0) (.core c) vd t) s4 s4 → Runs (release c .pkg) s4 s5 →
        Runs (writeAt (.core c) ctx t (toBytes 8 (s1.reg q cr).v.toNat) false 0 true)
          ((pas.map (· / 65536)).eraseDups.foldl (fun x f => x.flipOwner (65536 * f)) s5) s6 →
        exec (.hoff d cr a b) s = .next ((s6.tagRelease c .pkg t).advance q))) ∧
    (Reads q b s n s1 → n.p = false → FindsHome q .r va 8 s1 t s2 → readHome (.core c) t 8 s2 = .ok (bs, p) s3 →
      (p = false → n.v.toNat ≤ ofBytes bs →
        Takes (((s3.acquire c .pkg).setReg q d { v := BitVec.ofNat 64 (ofBytes bs), p := false }).advance q)) ∧
      (p = false → ofBytes bs < n.v.toNat → Takes (s.stalled q .take)) ∧
      (p = true → Takes (s3.precise q (mkFault 0x0A 0x9A))))

/-- R389, R390: flipping the owner of a pool page turns its owner bit, and changes no other bit of memory. -/
def Sys2Proof.Machine.OwnerFlipRule : Prop :=
  ∀ (s : State) (pa p : Nat), s.poolOf pa = some p → s.isLocal ((s.pool p).ownerAt pa).1 = true →
    let d := s.pool p
    let t := s.flipOwner pa
    t.ownerBit d pa = !s.ownerBit d pa ∧ SameOutside s.mem t.mem (s.place (d.ownerAt pa).1) 1 ∧
      (∀ k < 8, k ≠ (d.ownerAt pa).2 → (t.byte (d.ownerAt pa).1).getLsbD k = (s.byte (d.ownerAt pa).1).getLsbD k) ∧
      t.cores = s.cores ∧ t.pools = s.pools

/-- Hierarchical barriers, and the instructions that hand work over. -/
def Obligations.HierarchicalBarriersAndHandover : Prop :=
  Sys2Proof.Machine.HierarchicalBarrierResultsRule ∧ Sys2Proof.Machine.HandoverResultsRule ∧ Sys2Proof.Machine.OwnerFlipRule

/-- R362, R365: `permit` releases and raises the counter in one step; `ckpt` commits, writes back, closes the interval and writes
its number, which rises once also where a full log closes the interval on the way; `fereset` empties exactly the cells of its range; `pref` never faults and never waits; `cwb` leaves no dirty byte in the lines of its
range and keeps them, `cinv` drops them, no other line of the core's L1 changing; an address that cannot be translated or is not cached is
passed over, and a length of 2^32 or more is refused. -/
def Obligations.MaintenanceResults : Prop :=
  ∀ (s s1 s2 s3 s4 : State) (d a : Reg) (b : SOpd) (n : SVal) (disp : BitVec 32) (home : Bool) (sc : Scope) (t : Target) (old p : Nat),
    let q := s.focus
    let c := q.core.val
    let va := (s.reg q a).v.toNat
    (Runs (implicitCommit c) s s1 → Runs (ckpCheck (s1.ctxOf c)) s1 s1 →
      let ctx := s1.ctxOf c
      let w := s1.wbCkp ctx
      let Ends (u : State) : Prop :=
        exec (.ckpt d) s = .next ((u.setReg q d { v := BitVec.ofNat 64 (u.ctx ctx).ckIntv.toNat, p := false }).advance q)
      ((w.ctx ctx).ckIntv = (s1.ctx ctx).ckIntv → Ends (w.closeInterval ctx)) ∧
      ((w.ctx ctx).ckIntv ≠ (s1.ctx ctx).ckIntv → ∃ u : State, Ends u ∧ (u.ctx ctx).ckIntv = (w.ctx ctx).ckIntv ∧
        (u.ctx ctx).ckUsed = 0 ∧ (u.ctx ctx).ckLines = [] ∧ u.mem = w.mem)) ∧
    ((s.reg q a).p = false → Reads q b s n s1 → n.p = false →
      (resolve (chap13 0) (.core c) (s1.ctxOf c) .w va false s1 = .ok t s2 → t.effHome ≠ 0 → t.effHome ≠ 3 → va % 8 = 0 →
        Runs (poolCheck (chap13 0) (.core c) (s1.ctxOf c) va t) s2 s2 → s2.nrAhead (.core c) t 8 = false →
        Runs (homeReach (chap13 0) (.core c) va t) s2 s2 → Runs (release c sc) s2 s3 →
        let change := rmwAt (.core c) (s1.ctxOf c) t 8 (fun w => some (max w n.v.toNat)) (atomMsg t .maxn false true n.v.toNat) s3
        (change = .ok (old, false) s4 → exec (.permit a b sc) s = .next ((s4.tagRelease c sc t).advance q)) ∧
        (change = .ok (old, true) s4 → exec (.permit a b sc) s = .next (s4.precise q (mkFault 0x0A 0x9A)))) ∧
      (va % 16 = 0 → n.v.toNat % 16 = 0 → n.v.toNat < 2 ^ 24 → 0 < n.v.toNat → va % 65536 + n.v.toNat ≤ 65536 →
        cellAt c va 1 .w s1 = .ok p s2 →
        ∃ f : NSet, exec (.fereset a b) s = .next ((s2.onCore c fun x => { x with scFull := f }).advance q) ∧
          (∀ g : Nat, f.contains g = ((s2.core c).scFull.contains g && !(decide (p / 16 ≤ g) && decide (g < (p + n.v.toNat) / 16))))) ∧
      (∀ (pa : Nat) (l : Leaf), 0 < n.v.toNat → n.v.toNat < 2 ^ 32 → va % 65536 + n.v.toNat ≤ 65536 →
        softTarget c va s1 = .ok (some (pa, l)) s2 → swf (fun _ => L1Line.none) (s2.core c).l1 = true →
        s2.wbStops c ((s2.core c).linesIn pa n.v.toNat) = none →
        let inside (line : Nat) : Prop := lineOf pa ≤ line ∧ line ≤ lineOf (pa + n.v.toNat - 1)
        let old (line : Nat) : L1Line := (s2.core c).l1Of line
        (∃ t : State, exec (.cwb a b) s = .next t ∧ (∀ line, inside line → ((t.core c).l1Of line).dirty = 0 ∧
          ((t.core c).l1Of line).valid = (old line).valid ∧ ((t.core c).l1Of line).data = (old line).data) ∧
          (∀ line, ¬inside line → (t.core c).l1Of line = old line) ∧ (∀ r : Reg, t.reg q r = s1.reg q r)) ∧
        (∃ u : State, exec (.cinv a b) s = .next u ∧ (∀ line, inside line → (u.core c).l1Of line = L1Line.none) ∧
          (∀ line, ¬inside line → (u.core c).l1Of line = old line) ∧ (∀ r : Reg, u.reg q r = s1.reg q r))) ∧
      (0 < n.v.toNat → n.v.toNat < 2 ^ 32 → va % 65536 + n.v.toNat ≤ 65536 → softTarget c va s1 = .ok none s2 →
        exec (.cwb a b) s = .next (s2.advance q) ∧ exec (.cinv a b) s = .next (s2.advance q)) ∧
      (2 ^ 32 ≤ n.v.toNat → exec (.cwb a b) s = .next (s1.precise q (mkFault 2 0x9C)) ∧
        exec (.cinv a b) s = .next (s1.precise q (mkFault 2 0x9C)))) ∧
    (∃ t : State, exec (.pref a disp home) s = .next t ∧ (t.seqr q).wait = .none ∧ (t.seqr q).pcLane = Nat.min 8 ((s.seqr q).pcLane + (s.seqr q).ir.length) ∧
      (∀ r : Reg, t.reg q r = s.reg q r) ∧ t.seqr (otherSeq q) = s.seqr (otherSeq q) ∧ (t.core c).vregs = (s.core c).vregs ∧
      (t.core c).scratch = (s.core c).scratch)
/-! ## Shapes, the tensor table, leases (R165-R171) -/

/-- R166-R168: `shld` and `shst` move a whole record; `shset` replaces one field and leaves every other bit; `shget` reads one,
zero-extended; `tdef` copies a legal record into an entry and reports the failure of another; `tdrop` clears the entry; `tget`
copies it, or zero. R170: `lease` sets the ticket count, `unlease` clears it. Nothing else of the package changes; poison is refused. -/
def Sys2Proof.Machine.ShapeAndLeaseResultsRule : Prop :=
  ∀ (s s1 s2 : State) (sh : Fin 16) (d a : Reg) (disp : BitVec 32) (o : SOpd) (v : SVal) (f : Fin 22) (t : TEnt) (tg : Target)
    (bs : List Byte) (p : Bool),
    let q := s.focus
    let c := q.core.val
    let ctx := s.ctxOf c
    let va := ((s.reg q a).v + disp.signExtend 64 * 64).toNat
    let rec_ := (s.core c).sreg sh.val
    let lo := (shField f.val).1
    let n := (shField f.val).2
    ((s.reg q a).p = false →
      (access chapShape (.core c) ctx .r va 64 false s = .ok tg s1 → readAt (.core c) tg 64 0 s1 = .ok (bs, p) s2 →
        (p = false →
          exec (.shld sh a disp) s = .next ((s2.onCore c fun x => x.setSreg sh.val (BitVec.ofNat 512 (ofBytes bs))).advance q)) ∧
        (p = true → exec (.shld sh a disp) s = .next (s2.precise q (mkFault 0x0A 0x57)))) ∧
      (access chapShape (.core c) ctx .w va 64 false s = .ok tg s1 →
        Runs (writeAt (.core c) ctx tg (toBytes 64 rec_.toNat) false) s1 s2 → exec (.shst sh a disp) s = .next (s2.advance q))) ∧
    (Reads q o s v s1 → v.p = true → exec (.shset sh o f) s = .next (s1.precise q (mkFault 0x0A 0x57)) ∧
      exec (.lease o) s = .next (s1.precise q (mkFault 0x0A 0x4A))) ∧
    (Reads q o s v s1 → v.p = false →
      (v.v.toNat < 2 ^ n → ∃ w : BitVec 512,
        exec (.shset sh o f) s = .next ((s1.onCore c fun x => x.setSreg sh.val w).advance q) ∧
        (∀ k < 512, w.getLsbD k =
          if lo ≤ k ∧ k < lo + n then v.v.getLsbD (k - lo) else ((s1.core c).sreg sh.val).getLsbD k)) ∧
      (2 ^ n ≤ v.v.toNat → exec (.shset sh o f) s = .next (s1.precise q (mkFault 2 0x54))) ∧
      (1 ≤ v.v.toNat → v.v.toNat ≤ 255 →
        exec (.lease o) s = .next ((s1.onCore c fun x => { x with tickets := v.v.toNat }).advance q)) ∧
      (¬(1 ≤ v.v.toNat ∧ v.v.toNat ≤ 255) → exec (.lease o) s = .next (s1.precise q (mkFault 2 0x55)))) ∧
    (exec .unlease s = .next ((s.onCore c fun x => { x with tickets := 0 }).advance q)) ∧
    (∃ x : Word, exec (.shget d sh f) s = .next ((s.setReg q d { v := x, p := false }).advance q) ∧
      ∀ k < 64, x.getLsbD k = (decide (k < n) && rec_.getLsbD (lo + k))) ∧
    let InTable (i : Instr) (v : Option (BitVec 512)) : Prop := ∃ m : SMap (BitVec 512),
      let u := s.onCore c fun x => { x with ttab := m }
      exec i s = .next (u.advance q) ∧ (u.core c).tent t.val = v ∧ ∀ j, j ≠ t.val → (u.core c).tent j = (s.core c).tent j
    (tdefFail rec_ = none → InTable (.tdef t sh) (some rec_)) ∧
    (∀ e : Nat × Nat × Nat, tdefFail rec_ = some e → exec (.tdef t sh) s = .next (s.precise q (mkFault e.1 (detailOf 0 e.2.2 e.2.1)))) ∧
    InTable (.tdrop t) none ∧
    exec (.tget sh t) s = .next ((s.onCore c fun x => x.setSreg sh.val (((s.core c).tent t.val).getD 0)).advance q)

/-- R171: with no holder and some contender, a draw steps the lottery register and gives the lease to the core into whose tickets
the number falls, in ascending order of cores; without a contender, or with a holder, nothing changes. -/
def Sys2Proof.Machine.LeaseDrawRule : Prop :=
  ∀ (s : State) (k : QuadId),
    let d := s.quad k.val
    let core (i : Nat) : Nat := 4 * k.val + i
    let counted (i : Nat) : Nat := if (s.core (core i)).chainbAtHead then (s.core (core i)).tickets else 0
    let total := counted 0 + counted 1 + counted 2 + counted 3
    let x := qlxNext d.qlx
    let p := x.toNat % total
    (d.holder.isSome = true ∨ total = 0 → exec (.loomLeaseDraw k) s = .next s) ∧
    (d.holder = none → 0 < total →
      let winner := if p < counted 0 then core 0 else if p < counted 0 + counted 1 then core 1
        else if p < counted 0 + counted 1 + counted 2 then core 2 else core 3
      exec (.loomLeaseDraw k) s = .next (s.setQuad k.val { d with qlx := x, holder := some winner, leaseAt := s.clock, leaseCmds := 0 }))

/-- Shapes, tensor entries, Loom tickets, and the draw of a lease. -/
def Obligations.ShapesAndLeases : Prop :=
  Sys2Proof.Machine.ShapeAndLeaseResultsRule ∧ Sys2Proof.Machine.LeaseDrawRule

/-! ## Groups, the assay, crier firmware (R198-R211) -/

/-- R198: a list that names this package once and no package twice defines the group: its members, its signature, digest and
poison flag 0, and xd takes this package's rank. R205: `asyreg` registers a region that meets no other, or removes one. -/
def Sys2Proof.Machine.GroupAndRegionResultsRule : Prop :=
  ∀ (s s1 s2 s3 : State) (d a : Reg) (g : Fin 64) (b : SOpd) (n : SVal) (tg : Target) (hb : List Byte) (l : List (Byte × Bool)) (k : Nat),
    let q := s.focus
    let c := q.core.val
    let ctx := s.ctxOf c
    let va := (s.reg q a).v.toNat
    let m := ofBytes hb % 2 ^ 16
    let ps := l.map fun x => x.1.toNat
    (s.reg q a).p = false →
    (access chap8 (.core c) ctx .r va 8 false s = .ok tg s1 → readAt (.core c) tg 8 0 s1 = .ok (hb, false) s2 →
      headerByte (ofBytes hb) = none → 1 ≤ m → m ≤ 256 → readRange chap8 (.core c) ctx (va + 8) m 1 0 false s2 = .ok l s3 →
      l.any (·.2) = false → dupAt ps = none → s3.pkg.toNat ∈ ps → ((s3.ctx ctx).groupBusy g.val) = false →
      exec (.cgrp d a g) s = .next (((s3.onGroup ctx g.val fun x =>
        { x with members := ps, sig := crcBytes (hb ++ l.map (·.1)), digest := 0, pois := false,
                 key0 := (s3.ctx ctx).k0, key1 := (s3.ctx ctx).k1 }).setReg q d
          { v := BitVec.ofNat 64 (ps.idxOf s3.pkg.toNat), p := false }).advance q)) ∧
    (Reads q b s n s1 → n.p = false → va % 64 = 0 → n.v.toNat % 64 = 0 → n.v.toNat ≤ 2 ^ 40 →
      let ctx1 := s1.ctxOf c
      let rs := (s1.ctx ctx1).regions
      (n.v.toNat ≠ 0 → (s1.group ctx1 g.val).defined = true →
        (∀ r ∈ rs, r.2.meets va n.v.toNat = false) → k < 16 → shas rs k = false → (∀ j < k, shas rs j = true) →
        exec (.asyreg a b g) s = .next ((s1.onCtx ctx1 fun y =>
          { y with regions := sput y.regions k { base := va, len := n.v.toNat, group := g.val } }).advance q)) ∧
      (∀ r : Nat × Region, n.v = 0 → rs.find? (fun x => x.2.base == va) = some r →
        exec (.asyreg a b g) s = .next ((s1.onCtx ctx1 fun y => { y with regions := sdel y.regions r.1 }).advance q)) ∧
      (n.v = 0 → rs.find? (fun x => x.2.base == va) = none → exec (.asyreg a b g) s = .next (s1.precise q (mkFault 2 0x6A))))

/-- R208, R209: `asyfence` commits, sends the digest and its poison to the other members where a Duthar port is up (R423), and stands; behind another point of its group it
waits. ASSAY_POINT_END, with every member's digest (none comes while every Duthar port is down, R423), records the point, settles the gated
launches, and passes (the digest of the point taken out and the poison flag cleared, xd the count of divergent ranks, an acquire at `.pod`) or
raises divergence or poison-sync where this package is divergent; a sequencer that no longer waits at the point is left alone (that what came after the snapshot
stays in the digest, and that such a sequencer takes nothing, are the model's choices, log 60). R210: `asyget`
reads by its selector. -/
def Sys2Proof.Machine.AssayPointResultsRule : Prop :=
  ∀ (s s1 : State) (d : Reg) (a : SOpd) (g x : Fin 64) (n : SVal) (others : List AssayMsg) (q' : SeqId) (inst : Nat)
    (dg : BitVec 128) (pz : Bool) (posts : List (BitVec 128 × Bool)),
    let q := s.focus
    let c := q.core.val
    let ctx := s.ctxOf c
    let stand (y : State) : State := y.onSeqr q fun z => { z with wait := .assay, waitSince := y.clock }
    ((s.group ctx g.val).defined = false → exec (.asyfence d g) s = .next (s.precise q (mkFault 2 0x65))) ∧
    ((s.group ctx g.val).defined = true → Runs (implicitCommit c) s s1 →
      let k := s1.group ctx g.val
      let u := s1.onGroup ctx g.val fun k => { k with point := some (q, s1.instOf c, k.digest, k.pois) }
      (k.point = none → exec (.asyfence d g) s =
        .next (stand (if 1 < k.members.length ∧ s1.fabricUp = true then u.send (.assay ctx g.val k.digest k.pois) else u))) ∧
      (∀ o m e z, k.point = some (o, m, e, z) → (o, m) ≠ (q, s1.instOf c) → exec (.asyfence d g) s = .next (s.stalled q .pointBusy))) ∧
    (Reads q a s n s1 → n.p = false → n.v.toNat ≤ 6 → (s1.group (s1.ctxOf c) g.val).defined = true →
      exec (.asyget d a g) s =
        .next ((s1.setReg q d { v := (s1.group (s1.ctxOf c) g.val).sel n.v.toNat, p := false }).advance q)) ∧
    (let k := s.group x.val g.val
     let come := if s.fabricUp then others else []
     let all := k.members.map fun p => if p = s.pkg.toNat then some (dg, pz)
        else (come.find? (·.pkg.val == p)).map fun o => (o.digest, o.poison)
     k.point = some (q', inst, dg, pz) →
     (none ∈ all → exec (.assayPointEnd x g others) s = .next s) ∧
     (all = posts.map some →
      let v := verdictOf posts
      let here := v.contains (k.members.idxOf s.pkg.toNat)
      let mine (p : Pending) : Bool := p.enq.ctx == x.val && p.gate == some g.val
      let gates (ps : List Pending) : List Pending :=
        if here then ps.filter fun p => !mine p else ps.map fun p => if mine p then { p with gate := none } else p
      let u := s.onGroup x.val g.val fun k => { k with
        points := k.points + 1, verdict := BitVec.ofNat 256 ((v.map (2 ^ ·)).sum), lastCount := v.length, faulted := here,
        point := none, key0 := (s.ctx x.val).k0, key1 := (s.ctx x.val).k1,
        digest := if here then k.digest else k.digest - dg, pois := here && k.pois }
      let t : State := { u with launches := gates s.launches }
      let Ends (w : State) : Prop := exec (.assayPointEnd x g others) s = .next w
      (t.assayDest x.val g q' inst = none → Ends t) ∧
      (t.assayDest x.val g q' inst = some d →
        (here = false → pz = false →
          Ends (((t.setReg q' d { v := BitVec.ofNat 64 v.length, p := false }).acquire q'.core.val .pod).advance q')) ∧
        (pz = true → Ends (t.precise q' (mkFault 0x0A (detailOf v.length (v.headD 0) 0x6E)))) ∧
        (here = true → pz = false → Ends (t.precise q' (mkFault 0x12 (detailOf v.length (v.headD 0) 0x6D)))))))

/-- R208: with a strict majority V of clear digests the verdict names exactly the ranks that are poisoned or differ from it, and
without one every rank. -/
def Sys2Proof.Machine.AssayVerdictRule : Prop :=
  ∀ (posts : List (BitVec 128 × Bool)),
    let holders (v : BitVec 128) : Nat := posts.countP fun o => !o.2 && o.1 == v
    (∀ v, posts.length < 2 * holders v → ∀ k, k ∈ verdictOf posts ↔ ∃ o, posts[k]? = some o ∧ (o.2 = true ∨ o.1 ≠ v)) ∧
    ((∀ v, 2 * holders v ≤ posts.length) → ∀ k, k ∈ verdictOf posts ↔ k < posts.length)

/-- Assay points and their verdicts. -/
def Obligations.AssayPoints : Prop :=
  Sys2Proof.Machine.AssayPointResultsRule ∧ Sys2Proof.Machine.AssayVerdictRule

/-- R211: `crload` of the management context stands while its crier drains, and answers 2 where another load of the crier is in progress,
another sequencer's or an earlier task's;
CRIER_RESUME waits for the drained crier, loads and verifies the image, runs it where the status is 0 and goes on with the firmware before
otherwise, and xd takes the status of a load whose sequencer still waits for that
crier in the same task; that a load takes effect without its sequencer is the model's choice (log 31). -/
def Sys2Proof.Machine.CrierLoadResultsRule : Prop :=
  ∀ (s s1 s2 s3 : State) (d a : Reg) (b : SOpd) (n : SVal) (k : Fin 48) (q' : SeqId) (inst ctx va st : Nat) (dig : BitVec 256) (svn : BitVec 16),
    let q := s.focus
    let c := q.core.val
    ((s.reg q a).p = false → Reads q b s n s1 → n.p = false → n.v.toNat ≤ 47 →
      ((s1.ctx (s1.ctxOf c)).mgmt = false → exec (.crload d a b) s = .next (s1.precise q (mkFault 6 0x69))) ∧
      ((s1.ctx (s1.ctxOf c)).mgmt = true → Runs (implicitCommit c) s1 s2 → (s2.crier n.v.toNat).load = none →
        exec (.crload d a b) s = .next ((s2.setCrier n.v.toNat { s2.crier n.v.toNat with load := some (q, s2.instOf c, s1.ctxOf c, (s.reg q a).v.toNat) }).onSeqr q
          fun y => { y with wait := .crier, waitSince := s2.clock, waitArg := n.v.toNat })) ∧
      (∀ e : SeqId × Nat × Nat × Nat, (s1.ctx (s1.ctxOf c)).mgmt = true → Runs (implicitCommit c) s1 s2 → (s2.crier n.v.toNat).load = some e →
        (e.1, e.2.1) ≠ (q, s2.instOf c) → exec (.crload d a b) s = .next ((s2.setReg q d { v := 2, p := false }).advance q))) ∧
    ((s.crier k.val).load = some (q', inst, ctx, va) → s.crierBusy k.val = false →
      verifyImage q'.core.val ctx va s = .ok (st, dig, svn) s3 →
      ∃ t u : State, exec (.crierResume k) s = .next u ∧ t = { s3 with criers := t.criers } ∧
        (∀ j, j ≠ k.val → t.crier j = s3.crier j) ∧
        (st = 0 → t.crier k.val = { s3.crier k.val with load := none, digest := dig, svn := svn, verified := true }) ∧
        (st ≠ 0 → t.crier k.val = { s3.crier k.val with load := none }) ∧
        (∀ e : Reg, t.crloadDest k.val q' inst = some e → u = (t.setReg q' e { v := BitVec.ofNat 64 st, p := false }).advance q') ∧
        (t.crloadDest k.val q' inst = none → u = t)) ∧
    ((s.crier k.val).load = none → exec (.crierResume k) s = .next s) ∧
    (∀ e : SeqId × Nat × Nat × Nat, (s.crier k.val).load = some e → s.crierBusy k.val = true → exec (.crierResume k) s = .next s)

/-- R211, R394, R395: the status of an image whose bytes are these: refused with 1 where no key that crier images may have signed it (a vendor
key whose slot is not revoked, or the fused operator key), with 4 where its class is not 2 or its SVN is below the class minimum, and 0
otherwise, with its digest and SVN. The order of these checks (log 31) and the keys tried (log 79) are the model's choices. -/
def Sys2Proof.Machine.CrierImageStatusRule : Prop :=
  ∀ (y : Syc) (msg : List Byte) (hdr : Nat) (sig : List Byte),
    let r := y.judge 2 msg hdr sig
    let signed : Prop := ∃ n ∈ Config.publicKeys, rsaOk n sig (sha256 msg) = true ∧
      ((∃ i < 4, y.revoked.getLsbD i = false ∧ keyDigest n = Config.vendorDigest i) ∨
        (y.opFused = true ∧ keyDigest n = Config.operatorDigest))
    (¬signed → r.1 = 1) ∧
    (signed → (hdr / 2 ^ 16 % 16 ≠ 2 ∨ BitVec.ofNat 16 hdr < y.svnMin.getD 2 0) → r.1 = 4) ∧
    (signed → hdr / 2 ^ 16 % 16 = 2 → y.svnMin.getD 2 0 ≤ BitVec.ofNat 16 hdr → r = (0, sha256 msg, BitVec.ofNat 16 hdr))

/-- Replica groups, assay regions, and crier firmware. -/
def Obligations.GroupsAndCriers : Prop :=
  Sys2Proof.Machine.GroupAndRegionResultsRule ∧ Sys2Proof.Machine.CrierLoadResultsRule ∧ Sys2Proof.Machine.CrierImageStatusRule
/-! ## Engine words at routing and at their engines (R20-R24) -/

/-- R20-R22, R82, R236: an engine word captures its operands and enters its queue under the next number; a full queue stalls it with no
effect once its captures could be made, a halted one takes the number and drops the word (R404); inside a bundle's body it joins the template. -/
def Sys2Proof.Machine.EngineWordsRouteRule : Prop :=
  ∀ (s s1 : State) (i : Instr) (e : Eng) (cap : SeqId → Mx Caps) (k : Caps), engineWord i = some (e, cap) →
    let q := s.focus
    let c := q.core.val
    let old := (s.core c).eq e
    ((s.seqr q).inBody.bind (s.core c).bundle = none →
      (cap q s = .ok k s1 →
        (old.halted = false → e.depth ≤ old.ents.length → exec i s = .next (s.stalled q .queueFull)) ∧
        (old.halted = false → old.ents.length < e.depth →
          ∃ t : State, exec i s = .next t ∧
            (t.core c).eq e = { old with ents := old.ents ++ [{ s1.entryOf q i k with num := old.nextNum }], nextNum := old.nextNum + 1 } ∧
            (∀ o : Eng, o ≠ e → (t.core c).eq o = (s.core c).eq o) ∧ (∀ r : Reg, t.reg q r = s.reg q r) ∧
            (t.core c).vregs = (s.core c).vregs ∧ t.mem = s1.mem) ∧
        (old.halted = true →
          ∃ t : State, exec i s = .next t ∧ (t.core c).eq e = { old with nextNum := old.nextNum + 1 } ∧ t.mem = s1.mem))) ∧
    (∀ b : Bundle, (s.seqr q).inBody.bind (s.core c).bundle = some b → cap q s = .ok k s1 →
      exec i s = .next ((s1.onCore c fun x => x.setBundle (b.addWord e (s1.entryOf q i k))).advance q))

/-- R146: `tmshape` sets `tms` when it is routed, where the value is legal, and enters the VE queue. -/
def Sys2Proof.Machine.TmshapeAtRoutingRule : Prop :=
  ∀ (s s1 : State) (t : Tok) (a : EOpd) (v : SVal),
    let q := s.focus
    let c := q.core.val
    let old := (s.core c).ve
    (s.seqr q).inBody.bind (s.core c).bundle = none → old.halted = false → old.ents.length < 64 → capture q a s = .ok v s1 →
    (v.p = false → tmsLegal v.v = true →
      ∃ u : State, exec (.tmshape t a) s = .next u ∧ (u.core c).tms = v.v ∧ (u.core c).ve.ents.length = old.ents.length + 1 ∧
        (∀ r : Reg, u.reg q r = s.reg q r) ∧ u.mem = s1.mem) ∧
    (v.p = true → exec (.tmshape t a) s = .next (s1.precise q (mkFault 0x0A 0x34))) ∧
    (v.p = false → tmsLegal v.v = false → exec (.tmshape t a) s = .next (s1.precise q (mkFault 0x0B 0x38)))

/-- Every engine word captures its operands and enters its queue; `tmshape` also acts when it is routed. -/
def Obligations.EngineRouting : Prop :=
  Sys2Proof.Machine.EngineWordsRouteRule ∧ Sys2Proof.Machine.TmshapeAtRoutingRule

/-- R20, R24, R56: the next entry of a queue pops its wait tokens and takes the effect of its instruction, reading vector registers as
R125 lets it; it stands where its effect waits, and a fault of it halts the queue. A missing token, or an earlier entry in its way,
leaves it where it stands. -/
def Sys2Proof.Machine.EntryStartRule : Prop :=
  ∀ (s : State) (c : CoreId) (e : Eng) (n : Entry),
    ((s.core c.val).startable e = none → exec (.engineEntryStart c e) s = .next s) ∧
    ((s.core c.val).startable e = some n → (s.core c.val).missing e n ≠ [] →
      exec (.engineEntryStart c e) s = .next (s.markSince c.val e n.num)) ∧
    (Starts s c e n →
      let n' : Entry := { n with phase := .started, since := none }
      let s0 := begun s c e n
      (e ≠ .cq → ∀ r : Nat → Entry → Mx Flg, runVe n.instr = some r →
        (∀ (f : Flg) (t : State), r c.val n' (s0.racing c.val) = .ok f t → exec (.engineEntryStart c e) s =
          .next ((t.calm s0 c.val e n.num).onEnt c.val e n.num fun o =>
            { o with phase := .done, flags := f.bits, asy := [], since := none })) ∧
        (∀ (f : FaultInfo) (t : State), r c.val n' (s0.racing c.val) = .error (.fault f) t →
          exec (.engineEntryStart c e) s = .next ((t.calm s0 c.val e n.num).entryFault c.val e n' f))) ∧
      (e ≠ .cq → ∀ r : Nat → Entry → Mx Prog, runVe n.instr = none → runUnits n.instr = some r →
        (∀ (p : Prog) (t : State), r c.val n' (s0.racing c.val) = .ok p t →
          exec (.engineEntryStart c e) s = .next ((t.calm s0 c.val e n.num).settle c.val e n' p)) ∧
        (∀ (f : FaultInfo) (t : State), r c.val n' (s0.racing c.val) = .error (.fault f) t →
          exec (.engineEntryStart c e) s = .next ((t.calm s0 c.val e n.num).entryFault c.val e n' f)) ∧
        (∀ (k : WaitKind) (t : State), r c.val n' (s0.racing c.val) = .error (.stall k) t →
          exec (.engineEntryStart c e) s = .next (if isChainb n.instr then s.markSince c.val e n.num else s))) ∧
      (e = .cq →
        (∀ (n2 : Entry) (t : State), startCq c.val n' s0 = .ok n2 t →
          exec (.engineEntryStart c e) s = .next (t.onEnt c.val .cq n.num fun _ => { n2 with phase := .started })) ∧
        (∀ (f : FaultInfo) (t : State), startCq c.val n' s0 = .error (.fault f) t →
          exec (.engineEntryStart c e) s = .next (t.entryFault c.val .cq n' f))))

/-- R125: between engines the unit of access is one 16-byte granule with its poison bit, and one register's exponent tag is another:
where no writer of a register is in flight, an entry reads what the register holds; where one is, it reads each unit as it stood
before one of the writes, or as the register holds it, and no mix within a unit. What a writing entry replaced stays beside it until
it completes. -/
def Sys2Proof.Machine.VectorUnitsRule : Prop :=
  ∀ (s t : State) (c : CoreId) (e : Eng) (num r : Nat), r < 64 →
    let now := (s.core c.val).vreg r
    let seen := ((s.racing c.val).core c.val).vsrc r
    let before (w : VRegVal) : Prop := w = now ∨ ∃ n ∈ (s.core c.val).entries, shas n.olds r = true ∧ sget n.olds r now = w
    ((∀ n ∈ (s.core c.val).entries, shas n.olds r = false) → seen = now) ∧
    (∀ g < 32, ∃ w, before w ∧ seen.bits.extractLsb' (128 * g) 128 = w.bits.extractLsb' (128 * g) 128 ∧
      seen.pois.getLsbD g = w.pois.getLsbD g) ∧
    (∃ w, before w ∧ seen.tag = w.tag) ∧
    ((t.core c.val).vreg r ≠ now → ∀ n ∈ ((t.core c.val).eq e).ents, n.num = num → n.olds = [] →
      ∃ n' ∈ (((t.calm s c.val e num).core c.val).eq e).ents, n'.num = num ∧ shas n'.olds r = true ∧ sget n'.olds r VRegVal.zero = now)

/-- R125: what a completed writer wrote is what every later reader finds: of an earlier writer that has not completed, each unit that
the completed one changed is no longer kept as it stood before, but as the register now holds it; every other unit is kept. -/
def Sys2Proof.Machine.CompletedWriteStandsRule : Prop :=
  ∀ (x : Core) (e : Eng) (n o : Entry) (r : Nat), o ∈ (x.eq e).ents → o.wrote < n.wrote → shas n.olds r = true → shas o.olds r = true →
    let now := x.vreg r
    let was := sget n.olds r VRegVal.zero
    let kept := sget o.olds r VRegVal.zero
    let gran (v : VRegVal) (g : Nat) : BitVec 128 × Bool := (v.bits.extractLsb' (128 * g) 128, v.pois.getLsbD g)
    (x.standing n).vregs = x.vregs ∧
    ∃ o' ∈ ((x.standing n).eq e).ents, o'.num = o.num ∧ shas o'.olds r = true ∧
      let then_ := sget o'.olds r VRegVal.zero
      (∀ g < 32, gran then_ g = if gran was g = gran now g then gran kept g else gran now g) ∧
      then_.tag = if was.tag = now.tag then kept.tag else now.tag

/-- The next entry of a queue starts, and reads vector registers unit by unit. -/
def Obligations.EntryStart : Prop :=
  Sys2Proof.Machine.EntryStartRule ∧ Sys2Proof.Machine.VectorUnitsRule ∧ Sys2Proof.Machine.CompletedWriteStandsRule

/-- R92, R129, R134: the integer results of the element-wise VE instructions, each element on its own, with the poison of its sources;
no flag is set. -/
def Obligations.VeIntegerResults : Prop :=
  ∀ (s : State) (c : CoreId) (tk : Tok) (d : VReg) (a b k3 : EOpd) (m : Mods), m.ty.isI = true →
    let act (k : Nat) : Bool := (s.core c.val).act m.mask k
    let A (n : Entry) (k : Nat) : Nat × Bool := srcIn s c n m a n.a k
    let B (n : Entry) (k : Nat) : Nat × Bool := srcIn s c n m b n.b k
    let K (n : Entry) (k : Nat) : Nat × Bool := srcIn s c n m k3 n.c k
    let u (n : Entry) (k : Nat) : Nat := (A n k).1
    let v (n : Entry) (k : Nat) : Nat := (B n k).1
    let x (n : Entry) (k : Nat) : Int := intOf m.ty (u n k)
    let y (n : Entry) (k : Nat) : Int := intOf m.ty (v n k)
    let z (n : Entry) (k : Nat) : Int := intOf m.ty (K n k).1
    let sh (n : Entry) (k : Nat) : Nat := v n k % m.ty.width
    let one (n : Entry) (k : Nat) : Bool := (A n k).2
    let two (n : Entry) (k : Nat) : Bool := (A n k).2 || (B n k).2
    let I (i : Instr) (p : Entry → Nat → Bool) (f : Entry → Nat → Int) : Prop :=
      VeWrites s c i d m.ty act (fun n k r => IntResult m r (f n k)) p
    let W (i : Instr) (f : Entry → Nat → Nat) : Prop := VeWrites s c i d m.ty act (fun n k r => r = f n k % 2 ^ m.ty.width) two
    I (.vadd tk d a b m) two (fun n k => x n k + y n k) ∧ I (.vsub tk d a b m) two (fun n k => x n k - y n k) ∧
    I (.vmul tk d a b m) two (fun n k => x n k * y n k) ∧
    I (.vfma tk d a b k3 m) (fun n k => two n k || (K n k).2) (fun n k => x n k * y n k + z n k) ∧
    I (.vabs tk d a m) one (fun n k => (x n k).natAbs) ∧ I (.vneg tk d a m) one (fun n k => -x n k) ∧
    I (.vmin tk d a b m) two (fun n k => min (x n k) (y n k)) ∧ I (.vmax tk d a b m) two (fun n k => max (x n k) (y n k)) ∧
    I (.vshl tk d a b m) two (fun n k => x n k * 2 ^ sh n k) ∧
    W (.vand tk d a b m) (fun n k => u n k &&& v n k) ∧ W (.vor tk d a b m) (fun n k => u n k ||| v n k) ∧
    W (.vxor tk d a b m) (fun n k => u n k ^^^ v n k) ∧ W (.vshr tk d a b m) (fun n k => u n k / 2 ^ sh n k) ∧
    VeWrites s c (.vsra tk d a b m) d m.ty act (fun n k r =>
      r = ((BitVec.ofNat m.ty.width (u n k)).sshiftRight (sh n k)).toNat) two

/-- R87-R90, R129, R134, R145: the results of f32 and bf16 are the exact result of the operation, rounded once by the word's mode; each
sets the flags of its rounding, and takes the poison of its sources. -/
def Sys2Proof.Machine.FloatElementsRule : Prop :=
  ∀ (s : State) (c : CoreId) (tk : Tok) (d : VReg) (a b k3 : EOpd) (m : Mods), m.ty.isF = true →
    let act (k : Nat) : Bool := (s.core c.val).act m.mask k
    let A (n : Entry) (k : Nat) : Nat × Bool := srcIn s c n m a n.a k
    let B (n : Entry) (k : Nat) : Nat × Bool := srcIn s c n m b n.b k
    let K (n : Entry) (k : Nat) : Nat × Bool := srcIn s c n m k3 n.c k
    let x (n : Entry) (k : Nat) : Machine.Num := numOf m.ty (A n k).1
    let y (n : Entry) (k : Nat) : Machine.Num := numOf m.ty (B n k).1
    let z (n : Entry) (k : Nat) : Machine.Num := numOf m.ty (K n k).1
    let one (n : Entry) (k : Nat) : Bool := (A n k).2
    let two (n : Entry) (k : Nat) : Bool := (A n k).2 || (B n k).2
    let W (i : Instr) (p : Entry → Nat → Bool) (f : Entry → Nat → Nat × Flg) : Prop :=
      VeWrites s c i d m.ty act (fun n k r => r = (f n k).1 % 2 ^ m.ty.width) p fun n k => (f n k).2
    let F (i : Instr) (p : Entry → Nat → Bool) (f : Entry → Nat → Machine.Num) : Prop :=
      W i p fun n k => (tyFmt m.ty).fin m.rnd m.sat (f n k)
    let S (i : Instr) (f : Entry → Nat → Machine.Num × Flg) : Prop := W i one fun n k => ((tyFmt m.ty).bits (f n k).1, (f n k).2)
    F (.vadd tk d a b m) two (fun n k => Machine.Num.add m.rnd (x n k) (y n k)) ∧
    F (.vsub tk d a b m) two (fun n k => Machine.Num.add m.rnd (x n k) (y n k).neg) ∧
    F (.vmul tk d a b m) two (fun n k => (x n k).mul (y n k)) ∧
    F (.vfma tk d a b k3 m) (fun n k => two n k || (K n k).2) (fun n k => Machine.Num.add m.rnd ((x n k).mul (y n k)) (z n k)) ∧
    F (.vdiv tk d a b m) two (fun n k => (x n k).div (y n k)) ∧ F (.vsqrt tk d a m) one (fun n k => (x n k).sqrt) ∧
    F (.vabs tk d a m) one (fun n k => (x n k).abs) ∧ F (.vneg tk d a m) one (fun n k => (x n k).neg) ∧
    F (.vmin tk d a b m) two (fun n k => (x n k).min (y n k)) ∧ F (.vmax tk d a b m) two (fun n k => (x n k).max (y n k)) ∧
    S (.vexp2 tk d a m) (fun n k => exp2Num (tyFmt m.ty) m.rnd m.sat (x n k)) ∧
    S (.vlog2 tk d a m) (fun n k => log2Num (tyFmt m.ty) m.rnd m.sat (x n k)) ∧
    S (.vrcp tk d a m) (fun n k => (tyFmt m.ty).round m.rnd m.sat (x n k).rcp) ∧
    S (.vrsqrt tk d a m) (fun n k => (tyFmt m.ty).round m.rnd m.sat (x n k).rsqrt)

/-- A multiple `n` of `u` is the rounding of the magnitude `x` by a mode (R89). -/
def Sys2Proof.Machine.RoundsTo (mode : Rnd) (neg : Bool) (x u n : Nat) : Prop :=
  let down : Prop := n * u ≤ x ∧ x < n * u + u
  let up : Prop := x ≤ n * u ∧ n * u < x + u
  match mode with
  | .rne => 2 * (n * u) ≤ 2 * x + u ∧ 2 * x ≤ 2 * (n * u) + u ∧ ((2 * (n * u) = 2 * x + u ∨ 2 * x = 2 * (n * u) + u) → n % 2 = 0)
  | .rz => down
  | .rup => if neg then down else up
  | .rdn => if neg then up else down

/-- R86, R88-R90: the one rounding. A finite value m x 2^e, or with `st` one between it and (m + 1) x 2^e, becomes the multiple of the
format's quantum that its mode picks; from 2^128 on it overflows to an infinity or the largest finite value of its sign. Inexact is set
where the result differs, underflow where it does and the value rounded with an unbounded exponent is below 2^-126. NaNs become the
canonical one, and infinities and signed zeros stay. -/
def Sys2Proof.Machine.RoundingRule : Prop :=
  ∀ (ty : ElemTy) (mode : Rnd) (sat neg : Bool), ty.isF = true →
    let f := tyFmt ty
    let w : Int := (if ty = .bf16 then 7 else 23 : Nat)
    let sign : Nat := if neg then 2 ^ (ty.width - 1) else 0
    let inf : Nat := if ty = .bf16 then 0x7F80 else 0x7F800000
    f.fin mode sat .nan = (if ty = .bf16 then 0x7FC0 else 0x7FC00000, Flg.none) ∧
    f.fin mode sat (.inf neg) = (sign + inf, Flg.none) ∧ (∀ e : Int, f.fin mode sat (.fin neg 0 e false) = (sign, Flg.none)) ∧
    ∀ (m : Nat) (e : Int) (st : Bool), m ≠ 0 → (st = true → 2 ^ (w + 1).toNat ≤ m) →
      let q0 := e + Nat.log2 m - w
      let q := max q0 (-126 - w)
      let x (q : Int) : Nat := (2 * m + st.toNat) * 2 ^ (e - q).toNat
      let u (q : Int) : Nat := 2 * 2 ^ (q - e).toNat
      ∃ n n0 : Nat, Sys2Proof.Machine.RoundsTo mode neg (x q) (u q) n ∧ Sys2Proof.Machine.RoundsTo mode neg (x q0) (u q0) n0 ∧
        let inx := decide (n * u q ≠ x q)
        (2 ^ (128 - q).toNat ≤ n → f.fin mode sat (.fin neg m e st) =
          (if sat = false ∧ (mode = .rne ∨ (mode = .rup ∧ neg = false) ∨ (mode = .rdn ∧ neg = true)) then sign + inf else sign + inf - 1,
            { Flg.none with inx := true })) ∧
        (n < 2 ^ (128 - q).toNat → f.fin mode sat (.fin neg m e st) =
          (sign + (q + w + 126).toNat * 2 ^ w.toNat + n,
            { Flg.none with inx := inx, udf := inx && decide (q0 + Nat.log2 n0 < -126) }))

/-- Element-wise floating results, and the rounding that they go through. -/
def Obligations.VeFloatResults : Prop :=
  Sys2Proof.Machine.FloatElementsRule ∧ Sys2Proof.Machine.RoundingRule

/-- R129, R135-R138, R157: `vcmp` writes one bit for each active element; `vsel` picks by a mask, `vmov` copies, and of a block type
whole registers with their tags, `vbcast`, `vperm` and `vslide` move elements, an index past the end reading zero; each with the poison of
what it moves. `mlog` combines masks by its truth table, `mpopc` counts and `mfirst` finds, into element 0 of a register of zeros that is
clear of poison. -/
def Obligations.VeMoveAndMaskResults : Prop :=
  ∀ (s : State) (c : CoreId) (tk : Tok) (cc : Cond) (d a b : VReg) (o o2 : EOpd) (m : Mods) (md ma mb : MReg) (tt : Fin 16),
    let act (k : Nat) : Bool := (s.core c.val).act m.mask k
    let mask (r : MReg) (k : Nat) : Bool := ((s.core c.val).mreg r.val).getLsbD k
    let cnt := m.ty.count
    let at_ (n : Entry) (r : VReg) (j : Nat) : Nat × Bool := if j < cnt then elemIn s c n r m.ty j else (0, false)
    let MaskFrame (t : State) : Prop := VeFrame s t c [] [md] ∧ (t.core c.val).vregs = (s.core c.val).vregs
    let pick (n : Entry) (k : Nat) : Nat × Bool :=
      let X := readCore s c .ve n
      if mask ma k then X.src m.ty .rne o n.a k else X.src m.ty .rne o2 n.b k
    VeWrites s c (.vsel tk d o o2 ma m.ty) d m.ty (fun _ => true) (fun n k r => r = (pick n k).1 % 2 ^ m.ty.width)
      (fun n k => (pick n k).2) ∧
    (m.ty.isB = false → VeWrites s c (.vmov tk d o m) d m.ty act (fun n k r => r = (srcIn s c n m o n.a k).1 % 2 ^ m.ty.width)
      fun n k => (srcIn s c n m o n.a k).2) ∧
    (∀ n, Starts s c .ve n → m.ty.isB = true → n.instr = .vmov tk d (.vec a) m →
      ∃ t, exec (.engineEntryStart c .ve) s = .next t ∧ VeFrame s t c (regs d) ∧
        let v := (t.core c.val).vreg d.val
        let u := (readCore s c .ve n).vsrc a.val
        v.bits = u.bits ∧ v.pois = u.pois ∧ ∀ j < m.ty.count / 32, v.blkExp j = u.blkExp j) ∧
    VeWrites s c (.vperm tk d a b m) d m.ty act (fun n k r => r = (at_ n a (elemIn s c n b m.ty k).1).1)
      (fun n k => (at_ n a (elemIn s c n b m.ty k).1).2 || (elemIn s c n b m.ty k).2) ∧
    (∀ n, Starts s c .ve n → n.instr = .vbcast tk d a o m → n.a.p = false →
      VeSets s c n d m.ty act (fun _ r => r = (at_ n a n.a.v.toNat).1) fun _ => (at_ n a n.a.v.toNat).2) ∧
    (∀ (n : Entry) (up : Option VReg), Starts s c .ve n → n.instr = .vslide tk d a o up m → n.a.p = false →
      let at2 (k : Nat) : Nat × Bool :=
        let j : Int := k + n.a.v.toInt
        if 0 ≤ j ∧ j < cnt then elemIn s c n a m.ty j.toNat
        else match up with
          | none => (0, false)
          | some r => if cnt ≤ j ∧ j < 2 * cnt then elemIn s c n r m.ty (j - cnt).toNat
            else if -(cnt : Int) ≤ j ∧ j < 0 then elemIn s c n r m.ty (j + cnt).toNat else (0, false)
      VeSets s c n d m.ty act (fun k r => r = (at2 k).1) fun k => (at2 k).2) ∧
    (∀ n, Starts s c .ve n → n.instr = .vcmp tk cc md o o2 m →
      (∀ k < cnt, act k = true → (srcIn s c n m o n.a k).2 = false ∧ (srcIn s c n m o2 n.b k).2 = false) →
      ∃ t, exec (.engineEntryStart c .ve) s = .next t ∧ MaskFrame t ∧
        ∀ k < cnt, ((t.core c.val).mreg md.val).getLsbD k =
          if act k then condElem cc m.ty (srcIn s c n m o n.a k).1 (srcIn s c n m o2 n.b k).1 else mask md k) ∧
    (∀ n, Starts s c .ve n → n.instr = .mlog tk md ma mb tt →
      ∃ t, exec (.engineEntryStart c .ve) s = .next t ∧ MaskFrame t ∧
        ∀ k < 1024, ((t.core c.val).mreg md.val).getLsbD k = tt.val.testBit (2 * (mask ma k).toNat + (mask mb k).toNat)) ∧
    (let First (i : Instr) (P : Nat → Prop) : Prop := VeWrites s c i d .n32 (fun _ => true) (fun _ k r => if k = 0 then P r else r = 0)
       fun _ _ => false
     First (.mpopc tk d ma m.ty) (fun r => r = (List.range cnt).countP (mask ma)) ∧
     First (.mfirst tk d ma m.ty) (fun r => r ≤ cnt ∧ (∀ k < r, mask ma k = false) ∧ (r < cnt → mask ma r = true)))

/-- R108-R110, R129, R139, R140: integer reductions: element 0 takes the sum, the greatest or the least of the active elements (0, or the
least or greatest value of the type where none is active), with the poison of any of them, and every other element is zero; `vscan` gives
each active element the sum, and the poison, of the active elements up to it. -/
def Sys2Proof.Machine.IntegerReductionsRule : Prop :=
  ∀ (s : State) (c : CoreId) (tk : Tok) (d a : VReg) (m : Mods), m.ty.isI = true →
    let act (k : Nat) : Bool := (s.core c.val).act m.mask k
    let x (n : Entry) (k : Nat) : Int := intOf m.ty (elemIn s c n a m.ty k).1
    let on (j : Nat) : List Nat := (List.range j).filter act
    let upTo (n : Entry) (j : Nat) : List Int := (on j).map (x n)
    let pois (n : Entry) (j : Nat) : Bool := (on j).any fun k => (elemIn s c n a m.ty k).2
    let cnt := m.ty.count
    let Reduces (i : Instr) (P : Entry → Nat → Prop) : Prop :=
      VeWrites s c i d m.ty (fun _ => true) (fun n k r => if k = 0 then P n r else r = 0) fun n k => k == 0 && pois n cnt
    Reduces (.vredsum tk d a m) (fun n r => IntResult m r (upTo n cnt).sum) ∧
    Reduces (.vredmax tk d a m) (fun n r => intOf m.ty r = (upTo n cnt).foldl max (tyLo m.ty)) ∧
    Reduces (.vredmin tk d a m) (fun n r => intOf m.ty r = (upTo n cnt).foldl min (tyHi m.ty)) ∧
    VeWrites s c (.vscan tk d a m) d m.ty act (fun n k r => IntResult m r (upTo n (k + 1)).sum) fun n k => pois n (k + 1)

/-- R102: a group sum aligns every product to the greatest leading exponent with 40 bits, truncating toward zero, adds the integers
exactly, and rounds to f32 once; the accumulator takes it by one more rounding. -/
def Sys2Proof.Machine.GroupSumRule : Prop :=
  ∀ (acc : Machine.Num) (ps : List (Bool × Nat × Int)) (E : Int), ps ≠ [] → (∀ p ∈ ps, p.2.1 ≠ 0) →
    (∀ p ∈ ps, p.2.2 + Nat.log2 p.2.1 ≤ E) → (∃ p ∈ ps, p.2.2 + Nat.log2 p.2.1 = E) →
    let int (p : Bool × Nat × Int) : Int :=
      let k := p.2.1 * 2 ^ (p.2.2 - (E - 40)).toNat / 2 ^ (E - 40 - p.2.2).toNat
      if p.1 then -(k : Int) else k
    let sum : Int := (ps.map int).sum
    let cut : Flg := { Flg.none with inx := ps.any fun p => p.2.1 % 2 ^ (E - 40 - p.2.2).toNat != 0 }
    let g := fmtF32.round .rne false (.fin (decide (sum < 0)) sum.natAbs (E - 40) false)
    let r := fmtF32.round .rne false (Machine.Num.add .rne acc (if sum = 0 then Machine.Num.zero else g.1))
    accGroup acc (ps.map fun p => .fin p.1 p.2.1 p.2.2 false) = (r.1, ((if sum = 0 then cut else g.2.or cut)).or r.2)

/-- R141, R142: `vdot` adds its group of products to each active element, exactly for integers and by R102 otherwise; `vwmul` writes
each product in its wider type. -/
def Sys2Proof.Machine.WideProductsRule : Prop :=
  ∀ (s : State) (c : CoreId) (tk : Tok) (d a b : VReg) (g : Fin 6) (m : Mods) (n : Entry), Starts s c .ve n →
    let X := readCore s c .ve n
    let act (k : Nat) : Bool := X.act m.mask k
    let t := m.ty
    let A (k : Nat) : Machine.Num × Bool := (X.vsrc a.val).any t k
    let B (k : Nat) : Machine.Num × Bool := (X.vsrc b.val).any t k
    let prod (k : Nat) : Int := intOf t (elemIn s c n a t k).1 * intOf t (elemIn s c n b t k).1
    let p (k : Nat) : Bool := (A k).2 || (B k).2
    let none_ (_ : Nat) : Flg := Flg.none
    (n.instr = .vdot tk d a b g m →
      let N := 2 ^ g.val
      let outs := t.count / N
      let w := max 1 (outs / 128)
      let on (j : Nat) : Bool := decide (j < outs) && act j
      let old (j : Nat) : Nat × Bool := (X.vsrc (d.val + j % w)).el 32 (j / w)
      let its (j : Nat) : List Nat := (List.range N).map (j * N + ·)
      let pois (j : Nat) : Bool := (old j).2 || (its j).any p
      let acc : ElemTy := if t.isSigned then .i32 else .n32
      let F (j : Nat) : Machine.Num × Flg := accGroup (numF32 (old j).1) ((its j).map fun k => (A k).1.mul (B k).1)
      (t.isI = true → VeGroup s c n d w 32 on (fun j r => IntResultOf acc m.sat r (intOf acc (old j).1 + ((its j).map prod).sum)) pois none_) ∧
      (t.isI = false → VeGroup s c n d w 32 on (fun j r => r = fmtF32.bits (F j).1) pois fun j => (F j).2)) ∧
    (n.instr = .vwmul tk d a b m →
      let dt := wideTy t
      let w := if t.isB then 4 else 2
      let F (i : Nat) : Nat × Flg := (tyFmt dt).fin m.rnd false ((A i).1.mul (B i).1)
      let on (i : Nat) : Bool := decide (i < t.count) && act i
      (t.isI = true → VeGroup s c n d w dt.width on (fun i r => ((r : Int) - prod i) % (2 ^ dt.width : Nat) = 0) p none_) ∧
      (t.isI = false → VeGroup s c n d w dt.width on (fun i r => r = (F i).1 % 2 ^ dt.width) p fun i => (F i).2))

/-- R97-R101, R143, R144: `vcvt` converts each active conversion element, and to a block type the 32 of each destination block together
with their exponents; `vcvtef` converts with `.sat`, and writes each residual beside. -/
def Sys2Proof.Machine.ConversionsRule : Prop :=
  ∀ (s : State) (c : CoreId) (tk : Tok) (d a e : VReg) (st : ElemTy) (h : Bool) (m : Mods) (n : Entry), Starts s c .ve n →
    let X := readCore s c .ve n
    let dt := m.ty
    let k := cvtMap st dt h
    let wide := !k.srcWide
    let w := k.regs wide
    let N := w * (4096 / dt.width)
    let elem (i : Nat) : Option Nat := k.at_ wide (i % w) (i / w)
    let raw (j : Nat) : Nat × Bool := let pl := k.place a.val k.srcWide j; (X.vsrc pl.1).el st.width pl.2
    let val (j : Nat) : Machine.Num := let pl := k.place a.val k.srcWide j; ((X.vsrc pl.1).any st pl.2).1
    let on (i : Nat) : Bool := (elem i).any fun j => dt.isB || X.act m.mask j
    let mates (i : Nat) : List Nat := (List.range 32).filterMap fun t => elem ((i / w / 32 * 32 + t) * w + i % w)
    let enc (i : Nat) : Nat × Nat × List (Nat × Flg) := (blkFmt dt).encode m.rnd ((mates i).map val)
    let out (sat ef : Bool) (i : Nat) : Nat × Flg :=
      if dt.isB then (enc i).2.2.getD (i / w % 32) (0, Flg.none)
      else match elem i with
        | some j => convOne st dt m.rnd sat ef (val j) (raw j).1
        | none => (0, Flg.none)
    let pois (i : Nat) : Bool := if dt.isB then (mates i).any fun j => (raw j).2 else (elem i).any fun j => (raw j).2
    let Conv (t : State) (sat ef : Bool) : Prop := VeEffect s t c d w dt.width on (fun i r => r = (out sat ef i).1 % 2 ^ dt.width) pois ∧
      ∀ r < w, let v := (t.core c.val).vreg (d.val + r)
        (dt.isB = false → v.tag = 0) ∧ (dt.isB = true → ∀ b < dt.count / 32, v.blkExp b =
          let i := 32 * b * w + r
          if on i then ((enc i).1, (enc i).2.1) else ((s.core c.val).vreg (d.val + r)).blkExp b)
    (n.instr = .vcvt tk d a st h m → ∃ t, exec (.engineEntryStart c .ve) s = .next t ∧ Conv t m.sat false ∧
      VeFlags t c n N on (fun i => (out m.sat false i).2) ∧ VeFrame s t c (regs d w)) ∧
    (n.instr = .vcvtef tk d a e st h m → efPair st dt = true → d.val < e.val ∨ e.val + k.w ≤ d.val →
      let y (i : Nat) : Machine.Num :=
        if dt.isB then (blkFmt dt).decode (enc i).1 (enc i).2.1 (out true true i).1 else numOf dt (out true true i).1
      let at_ (j : Nat) : Nat := k.off + j
      let res (j : Nat) : Nat × Flg := residual st (val j) (y (at_ j))
      let live (j : Nat) : Bool := decide (j < k.n) && (dt.isB || X.act m.mask j)
      ∃ t, exec (.engineEntryStart c .ve) s = .next t ∧ Conv t true true ∧
        VeEffect s t c e k.w st.width live (fun j r => r = (res j).1 % 2 ^ st.width) (fun j => pois (at_ j)) ∧
        VeFlags t c n k.n live (fun j => (out true true (at_ j)).2.or (res j).2) ∧ VeFrame s t c (regs d ++ regs e k.w))

/-- The pairwise tree over `2 ^ k` leaves from `lo` on (R108): a side with no active leaf passes the other. -/
def Sys2Proof.Machine.pairTree {α : Type} (node : α → α → α) (leaf : Nat → Option α) : Nat → Nat → Option α
  | 0, lo => leaf lo
  | k + 1, lo =>
    match Sys2Proof.Machine.pairTree node leaf k lo, Sys2Proof.Machine.pairTree node leaf k (lo + 2 ^ k) with
    | some x, some y => some (node x y)
    | some x, none => some x
    | none, y => y

/-- R108-R110, R139, R140, R150: floating reductions by the fixed tree, and running sums rounded at each step; `vsegsum` restarts at
each segment and marks its last element. -/
def Sys2Proof.Machine.ScansAndSegmentsRule : Prop :=
  ∀ (s : State) (c : CoreId) (tk : Tok) (d a b : VReg) (mk : MReg) (m : Mods) (n : Entry), Starts s c .ve n →
    let X := readCore s c .ve n
    let act (k : Nat) : Bool := X.act m.mask k
    let t := m.ty
    let cnt := t.count
    let x (k : Nat) : Machine.Num := numOf t (elemIn s c n a t k).1
    let p (k : Nat) : Bool := (elemIn s c n a t k).2
    let key (k : Nat) : Nat := (elemIn s c n b t k).1
    let same (j k : Nat) : Bool := decide (j ≤ k) && act j && act k &&
      (List.range (k + 1)).all fun i => !(decide (j ≤ i) && act i) || key i == key k
    let segFirst (k : Nat) : Prop := act k = true ∧ ∀ j < k, same j k = false
    let segLast (k : Nat) : Prop := k < cnt ∧ act k = true ∧ ∀ j, k < j → j < cnt → same k j = false
    let prev (k j : Nat) : Prop := j < k ∧ act j = true ∧ ∀ i, j < i → i < k → act i = false
    let fin (v : Machine.Num) : Nat × Flg := (tyFmt t).fin m.rnd false v
    let add (u v : Machine.Num × Flg) : Machine.Num × Flg :=
      let r := fmtF32.round m.rnd false (Machine.Num.add m.rnd u.1 v.1)
      (r.1, (u.2.or v.2).or r.2)
    let Reduce (i : Instr) (node : Machine.Num × Flg → Machine.Num × Flg → Machine.Num × Flg) (empty : Machine.Num) : Prop :=
      let r := (Sys2Proof.Machine.pairTree node (fun k => if act k then some (x k, Flg.none) else none) (Nat.log2 cnt) 0).getD (empty, Flg.none)
      n.instr = i → VeGroup s c n d 1 t.width (fun _ => true) (fun k v => v = if k = 0 then (fin r.1).1 % 2 ^ t.width else 0)
        (fun k => k == 0 && (List.range cnt).any fun j => act j && p j) (fun k => if k = 0 then r.2.or (fin r.1).2 else Flg.none)
    let Running (first : Nat → Prop) (ms : List MReg) (Q : State → Prop) : Prop :=
      ∃ (S : Nat → Machine.Num × Flg) (P : Nat → Bool),
        (∀ k < cnt, act k = true → (first k → S k = (x k, Flg.none) ∧ P k = p k) ∧ (¬ first k → ∀ j, prev k j →
          S k = fmtF32.round m.rnd false (Machine.Num.add m.rnd (S j).1 (x k)) ∧ P k = (p k || P j))) ∧
        VeGroup s c n d 1 t.width act (fun k v => v = (fin (S k).1).1 % 2 ^ t.width) P (fun k => (S k).2.or (fin (S k).1).2) ms Q
    (t.isF = true →
      Reduce (.vredsum tk d a m) add Machine.Num.zero ∧
      Reduce (.vredmax tk d a m) (fun u v => (u.1.max v.1, Flg.none)) (.inf true) ∧
      Reduce (.vredmin tk d a m) (fun u v => (u.1.min v.1, Flg.none)) (.inf false) ∧
      (n.instr = .vscan tk d a m → Running (fun k => ∀ j < k, act j = false) [] fun _ => True)) ∧
    (n.instr = .vsegsum tk d a b mk m → (∀ k < cnt, act k = true → (elemIn s c n b t k).2 = false) →
      let marks (u : State) : Prop := ∀ k < 1024, ((u.core c.val).mreg mk.val).getLsbD k = true ↔ segLast k
      (t.isF = true → Running segFirst [mk] marks) ∧
      (t.isI = true →
        let S (k : Nat) : List Nat := (List.range cnt).filter fun j => same j k
        VeGroup s c n d 1 t.width act (fun k v => IntResult m v ((S k).map fun j => intOf t (elemIn s c n a t j).1).sum)
          (fun k => (S k).any p) (fun _ => Flg.none) [mk] marks))

/-- R149, R151: `vsortk` puts the active elements first in a stable order of their keys, payloads beside; `vpushc` appends the records of
active lanes while they fit and says which, and `vpopc` takes whole records out. -/
def Sys2Proof.Machine.SortAndStreamRule : Prop :=
  ∀ (s : State) (c : CoreId) (tk : Tok) (d a b : VReg) (mk : MReg) (wf : Fin 3) (ty : ElemTy) (mask : MReg) (m : Mods) (n : Entry),
    Starts s c .ve n →
    let X := readCore s c .ve n
    let t := m.ty
    let key (k : Nat) : Nat × Bool := elemIn s c n a t k
    let w := 2 ^ wf.val
    let st := (s.core c.val).stream
    let none_ (_ : Nat) : Flg := Flg.none
    (n.instr = .vsortk tk d a b m → (∀ k < t.count, X.act m.mask k = true → (key k).2 = false) →
      ∃ o : Nat → Nat, (∀ k < t.count, o k < t.count) ∧ (∀ j < t.count, ∃ k < t.count, o k = j) ∧
        (∀ j k, j < k → k < t.count →
          let on (i : Nat) : Bool := X.act m.mask (o i)
          (on k = true → on j = true) ∧ (on j = false → o j < o k) ∧
          (on k = true → keyLt t (key (o k)).1 (key (o j)).1 = false ∧
            (keyLt t (key (o j)).1 (key (o k)).1 = false → o j < o k))) ∧
        VeGroup s c n d 2 t.width (fun _ => true)
          (fun i r => r = (elemIn s c n (if i % 2 = 0 then a else b) t (o (i / 2))).1)
          (fun i => (elemIn s c n (if i % 2 = 0 then a else b) t (o (i / 2))).2) none_) ∧
    (n.instr = .vpushc tk mk a wf ty mask →
      let on := (List.range 128).filter (X.act mask)
      let rec_ (i : Nat) : List (BitVec 32 × Bool) := (List.range w).map fun k =>
        let v := (X.vsrc (a.val + k)).el 32 i
        (BitVec.ofNat 32 v.1, v.2)
      let went := on.take ((448 - st.length) / w)
      ∃ u, exec (.engineEntryStart c .ve) s = .next u ∧ VeFrame s u c [] [mk] ∧ (u.core c.val).stream = st ++ went.flatMap rec_ ∧
        ∀ k < 1024, ((u.core c.val).mreg mk.val).getLsbD k = true ↔ k ∈ went) ∧
    (n.instr = .vpopc tk d mk wf ty →
      let cnt := min 128 (st.length / w)
      VeGroup s c n d w 32 (fun j => decide (j < cnt * w)) (fun j r => ∃ v, st[j]? = some v ∧ r = v.1.toNat)
        (fun j => (st[j]?).any (·.2)) none_ [mk] fun u => (u.core c.val).stream = st.drop (cnt * w) ∧
          ∀ k < 1024, ((u.core c.val).mreg mk.val).getLsbD k = true ↔ k < cnt)

/-- R90, R113-R119, R146-R148: the transformed mean, lane by lane: `vtmin` updates a state, `vtmerge` merges two, `vtmex` takes a state
out; a refused lane gives the NaN and the domain flag with TMQ, and without it refuses the entry. `tmtab` loads a legal pair of tables. -/
def Sys2Proof.Machine.TransformedMeanRule : Prop :=
  ∀ (s : State) (c : CoreId) (tk : Tok) (d a b : VReg) (o : EOpd) (ra : Reg) (pair : Fin 8) (mask : MReg) (m : Mods) (n : Entry),
    Starts s c .ve n →
    let X := readCore s c .ve n
    let tab := X.tmTab n.tms
    let lane (r : VReg) (i : Nat) : TmLane × Bool :=
      let s := (X.vsrc r.val).el 32 i
      let o := (X.vsrc (r.val + 1)).el 32 i
      (tmUnpack s.1 o.1, s.2 || o.2)
    let States (f : Nat → TmRes × Bool) : Prop :=
      (n.tmq = true ∨ ∀ i < 128, X.act mask i = true → (f i).1.cause = 0) →
      VeGroup s c n d 2 32 (fun j => X.act mask (j / 2))
        (fun j r => r = (if j % 2 = 0 then (f (j / 2)).1.s else (f (j / 2)).1.odd) % 2 ^ 32) (fun j => (f (j / 2)).2)
        fun j => { Flg.none with inx := (f (j / 2)).1.inx, dom := (f (j / 2)).1.cause != 0 }
    (n.instr = .vtmin tk d o mask → States fun i =>
      (tmUpdate n.tms tab (lane d i).1 (numF32 (X.src .f32 .rne o n.a i).1), (lane d i).2 || (X.src .f32 .rne o n.a i).2)) ∧
    (n.instr = .vtmerge tk d a b mask → States fun i =>
      (tmMerge n.tms (tmsPair n.tms == 0 || tab.isSome) (lane a i).1 (lane b i).1, (lane a i).2 || (lane b i).2)) ∧
    (n.instr = .vtmex tk d a m → m.ty.isF = true →
      let ex (i : Nat) : Option (Machine.Num × Flg) :=
        (lane a i).1.v.bind fun v => tmExit n.tms tab (tyFmt m.ty) m.rnd m.sat v (lane a i).1.n
      let refused (i : Nat) : Prop := (lane a i).1.v.isSome = true ∧ ex i = none
      (n.tmq = true ∨ ∀ i < 128, X.act m.mask i = true → ¬ refused i) →
      VeGroup s c n d 1 m.ty.width (fun i => decide (128 ≤ i) || X.act m.mask i)
        (fun i r => (128 ≤ i → r = 0) ∧ (i < 128 → r = match ex i with
          | some v => (tyFmt m.ty).bits v.1 % 2 ^ m.ty.width
          | none => qnan m.ty))
        (fun i => decide (i < 128) && (lane a i).2)
        fun i => if 128 ≤ i then Flg.none else match ex i with
          | some v => v.2
          | none => { Flg.none with dom := (lane a i).1.v.isSome }) ∧
    (∀ (bs : List (Byte × Bool)) (u : State), n.instr = .tmtab tk ra pair → n.a.p = false →
      readRange (chapOne 0x37 0 0) (.core c) (s.ctxOf c.val) n.a.v.toNat 540 8 0 false ((begun s c .ve n).racing c.val) = .ok bs u →
      let tb := BitVec.ofNat 4320 (ofBytes (bs.map (·.1)))
      bs.all (fun b => !b.2) = true → tabPairOk tb = true →
      ∃ t, exec (.engineEntryStart c .ve) s = .next t ∧ t.mem = u.mem ∧ (t.core c.val).vregs = (u.core c.val).vregs ∧
        ((t.core c.val).tmTabs.find? (·.1 == pair.val)).map (·.2) = some tb)

/-- Reductions, scans and segments, wide products, conversions, sorting, streams and the transformed mean. -/
def Obligations.VeReductionResults : Prop :=
  Sys2Proof.Machine.IntegerReductionsRule ∧ Sys2Proof.Machine.ScansAndSegmentsRule ∧ Sys2Proof.Machine.GroupSumRule ∧
  Sys2Proof.Machine.WideProductsRule ∧ Sys2Proof.Machine.ConversionsRule ∧ Sys2Proof.Machine.SortAndStreamRule ∧
  Sys2Proof.Machine.TransformedMeanRule
/-! ## Engine queues at work (R20-R24, R322, R354, R360, R404) -/

/-- R20, R24, R91, R354: an entry whose effect is whole leaves its queue; its flags are ORed into `cflags`, and the timeline counter
stands at the highest number up to which all have completed; each signal token is pushed where its FIFO has room and none for it is
held, and otherwise held behind those; a command of a bundle counts for its iteration (R236), and nothing outside the core changes. An entry that may store waits
for the acknowledgements of its core's writes to other packages (R314, R360); of a task that has left, the entry goes and no more
happens (R230). What it stored with `.asy` joins the digest first (R207). -/
def Sys2Proof.Machine.EntryCompletionRule : Prop :=
  ∀ (s s' : State) (c : CoreId) (e : Eng) (n : Entry),
    let x := s.core c.val
    let old := x.eq e
    s.finishing c.val e = (some n, s') →
    (mayStore e n.instr = true → 0 < x.remoteOut → exec (.engineEntryComplete c e) s = .next s) ∧
    ((mayStore e n.instr = true → x.remoteOut = 0) → x.task.any (·.gone) = true → ∀ u, s'.digestStore (s.ctxOf c.val) n.asy = u →
      exec (.engineEntryComplete c e) s =
        .next ((u.onEq c.val e fun k => { k with ents := k.ents.filter fun o => o.num ≠ n.num }).drainCore c.val)) ∧
    ((mayStore e n.instr = true → x.remoteOut = 0) → x.task.any (·.gone) = false →
    ∃ t : State, exec (.engineEntryComplete c e) s = .next t ∧ t.mem = s.mem ∧ OnlyCore (s'.digestStore (s.ctxOf c.val) n.asy) t c.val ∧
      (n.asy = [] → OnlyCore s' t c.val) ∧
      (∀ id k : Nat, n.iter = some (id, k) → ∀ b ∈ (t.core c.val).bundles, b.id = id → ∃ b0 ∈ x.bundles, b0.id = id ∧
        b.arms = b0.arms.map fun a : Nat × BArm =>
          if a.1 = e.code then (a.1, { a.2 with completed := a.2.completed + 1, byIter := sput a.2.byIter k (sget a.2.byIter k 0 + 1) })
          else a) ∧
      (t.core c.val).cflags = x.cflags ||| n.flags ∧
      ((t.core c.val).eq e).ents = ((x.standing n).eq e).ents.filter (fun o => o.num ≠ n.num) ∧ (t.core c.val).vregs = x.vregs ∧
      (let tl := ((t.core c.val).eq e).tl
       let past (m : Nat) : Prop := m ∈ old.ahead ∨ m = n.num
       old.tl ≤ tl ∧ (∀ m, old.tl < m → m ≤ tl → past m) ∧ ¬ past (tl + 1) ∧
         ∀ m, tl < m → (m ∈ ((t.core c.val).eq e).ahead ↔ past m)) ∧
      (let signals := signalFifos e n.instr
       let room (f : Fifo) : Bool := decide (x.fifos.get f < 16) && !old.held.contains f
       (∀ f : Fifo, (t.core c.val).fifos.get f = x.fifos.get f + if signals.contains f && room f then 1 else 0) ∧
         ((t.core c.val).eq e).held = old.held ++ signals.filter fun f => !room f) ∧
      (∀ o : Eng, o ≠ e → ((t.core c.val).eq o).ents = ((x.standing n).eq o).ents) ∧
      (∀ (q : SeqId) (r : Reg), t.reg q r = s.reg q r))

/-- R20, R353: the first entry whose effect is whole completes next, and nothing else changes; among several such loads it is any of them,
by a free value (the model's choice, log 97). -/
def Sys2Proof.Machine.CompletionOrderRule : Prop :=
  ∀ (s : State) (c : CoreId) (e : Eng),
    let whole := ((s.core c.val).eq e).ents.filter (·.phase = .done)
    (whole.length ≤ 1 → s.finishing c.val e = (whole.head?, s)) ∧ (e ≠ .lq → s.finishing c.val e = (whole.head?, s)) ∧
    (e = .lq → 2 ≤ whole.length → ∃ n ∈ whole, s.finishing c.val e = (some n, { s with free := s.free + 1 })) ∧
    (∀ s' : State, s.finishing c.val e = (none, s') → exec (.engineEntryComplete c e) s = .next s)

/-- R24: held tokens go into their FIFOs as far as each has room for them, and stay held beyond that; nothing else changes. -/
def Sys2Proof.Machine.HeldTokensRule : Prop :=
  ∀ (s : State) (c : CoreId) (e : Eng),
    let x := s.core c.val
    let fits (f : Fifo) : Nat := min ((x.eq e).held.count f) (16 - x.fifos.get f)
    ∃ t : State, exec (.tokenPushDeferred c e) s = .next t ∧ OnlyCore s t c.val ∧
      t.core c.val = { x.setEq e { x.eq e with held := ((t.core c.val).eq e).held } with fifos := (t.core c.val).fifos } ∧
      (∀ f : Fifo, (t.core c.val).fifos.get f = x.fifos.get f + fits f ∧
        ((t.core c.val).eq e).held.count f = (x.eq e).held.count f - fits f)

/-- The event `w` takes the effect of entry `n` of queue `e` on from where it stands (R24, R125): it comes as far as it can, or faults
and halts the queue, or stands where nothing has changed. -/
def Sys2Proof.Machine.GoesOn (w : Instr) (s : State) (c : CoreId) (e : Eng) (n : Entry) : Prop :=
  (∀ (p : Prog) (t : State), runEntry c.val n (s.racing c.val) = .ok p t →
    exec w s = .next ((t.calm s c.val e n.num).settle c.val e n p)) ∧
  (∀ (f : FaultInfo) (t : State), runEntry c.val n (s.racing c.val) = .error (.fault f) t →
    exec w s = .next ((t.calm s c.val e n.num).entryFault c.val e n f)) ∧
  (∀ (k : WaitKind) (t : State), runEntry c.val n (s.racing c.val) = .error (.stall k) t → exec w s = .next s)

/-- R322, R341, R360, R361, R174, R199: an entry that waits goes on when its frontier, its cells or its counter are looked at again;
a walker command whose effect faults halts its queue; the 257th command of a chain is received; a crier that takes commands
accepts or refuses the CQ entry in hand. -/
def Sys2Proof.Machine.WaitingEntriesGoOnRule : Prop :=
  ∀ (s : State) (c : CoreId) (e : Eng) (n : Entry),
    ((((s.core c.val).eq e).going = [n]) → e ≠ .cq → isFe n.instr = false → isTrig n.instr = false →
      GoesOn (.chaseSatisfied (.eng c e)) s c e n) ∧
    ((((s.core c.val).eq e).going = [n]) → isFe n.instr = true → GoesOn (.fullEmptyWaitEnd (.eng c e)) s c e n) ∧
    ((s.core c.val).wq.going = [n] → isTrig n.instr = true → GoesOn (.trigFire c) s c .wq n) ∧
    (∀ (f : FaultInfo) (s' : State), (s.core c.val).wq.going = [n] → runEntry c.val n s = .error (.fault f) s' →
      exec (.walkerFault c) s = .next (s'.entryFault c.val .wq n f)) ∧
    (∀ ch : Chain, s.chainOf c.val = some ch → Starts s c .lp n → 256 ≤ ch.slots →
      exec (.chainTooLong c) s = .next (s.startEntry c.val .lp n)) ∧
    ((s.core c.val).cq.going = [n] → s.crierTakes (crierOf (s.ctxOf c.val) n.a.v.toNat) = true →
      (∀ s' : State, ackCq (s.ctxOf c.val) n s = .ok s' →
        exec (.cqAck c) s = .next (s'.onEnt c.val .cq n.num fun o => { o with phase := .done })) ∧
      (∀ f : FaultInfo, ackCq (s.ctxOf c.val) n s = .error f → exec (.cqAck c) s = .next (s.entryFault c.val .cq n f))) ∧
    ((s.core c.val).cq.going = [n] → s.crierTakes (crierOf (s.ctxOf c.val) n.a.v.toNat) = false → exec (.cqAck c) s = .next s)


/-- Entries complete, push their tokens, and go on where they waited. -/
def Obligations.QueueProgress : Prop :=
  Sys2Proof.Machine.EntryCompletionRule ∧ Sys2Proof.Machine.CompletionOrderRule ∧ Sys2Proof.Machine.HeldTokensRule ∧ Sys2Proof.Machine.WaitingEntriesGoOnRule

/-! ## Collectives (R191-R203) -/

/-- R191, R192, R202, R203: `ttset` replaces the image of an entry that is not pending, where the image breaks no rule (that an armed entry
stays armed is the model's choice, log 78); an entry is
pending once it has fired, and while its instance is not complete; `tready` and `cred` arm an entry that has an image, and it fires
at once without a trigger frontier; an armed entry fires when its trigger is met. -/
def Sys2Proof.Machine.TileCommandsRule : Prop :=
  ∀ (s s1 : State) (ctx : Fin 64) (tile : Fin 4096) (n : Entry) (gen : Nat),
    let i := tile.val
    let t := s.tile ctx.val i
    (t.pending = true ↔ t.fired ≠ none) ∧
    (n.a.v.toNat = i → t.pending = true → ackTtset ctx.val n s = .error (mkFault 2 (detailOf i 0 0x64))) ∧
    (n.a.v.toNat = i → t.pending = false →
      (∀ f : Nat × Nat, imageFail (s.group ctx.val (tGrp (n.ta.getD 0))).defined (n.ta.getD 0) = some f →
        ackTtset ctx.val n s = .error (mkFault f.1 (detailOf i 0 f.2))) ∧
      (imageFail (s.group ctx.val (tGrp (n.ta.getD 0))).defined (n.ta.getD 0) = none →
        ∃ u, ackTtset ctx.val n s = .ok u ∧ u.tile ctx.val i = { t with img := n.ta.getD 0 } ∧
          ∀ j, j ≠ i → u.tile ctx.val j = s.tile ctx.val j)) ∧
    (n.a.v.toNat = i → t.img ≠ 0 → t.pending = false → tFwa t.img ≠ 0 →
      ackTready ctx.val n s = .ok (s.onTile ctx.val i fun x => { x with armed := some n.b.v.toNat })) ∧
    (n.a.v.toNat = i → t.img ≠ 0 → t.pending = false → tFwa t.img = 0 →
      ackTready ctx.val n s = .ok ((s.onTile ctx.val i fun x => { x with armed := some n.b.v.toNat }).fireTile ctx.val i)) ∧
    (n.a.v.toNat = i → t.img ≠ 0 → t.pending = true → ackTready ctx.val n s = .error (mkFault 2 (detailOf i 0 0x64)) ∧
      ackCred ctx.val n s = .error (mkFault 2 (detailOf i 0 0x64))) ∧
    (n.a.v.toNat = i → t.img ≠ 0 → t.pending = false → credOk t.img = false → ackCred ctx.val n s = .error (mkFault 2 (detailOf i 0 0x68))) ∧
    (n.a.v.toNat = i → t.img ≠ 0 → t.pending = false → tFwa t.img = 0 → credOk t.img = true →
      ackCred ctx.val n s = .ok ((s.onTile ctx.val i fun x => { x with armed := some 0 }).fireTile ctx.val i)) ∧
    (n.a.v.toNat = i → t.img = 0 → ackTready ctx.val n s = .error (mkFault 2 (detailOf i 0 0x62)) ∧
      ackCred ctx.val n s = .error (mkFault 2 (detailOf i 0 0x62))) ∧
    (t.armed = some gen → s.crierTakes (crierOf ctx.val i) = true →
      (tileTrigger ctx.val i gen t.img s = .ok true s1 → exec (.tileFire ctx tile) s = .next (s1.fireTile ctx.val i)) ∧
      (tileTrigger ctx.val i gen t.img s = .ok false s1 → exec (.tileFire ctx tile) s = .next s1) ∧
      (∀ f : FaultInfo, tileTrigger ctx.val i gen t.img s = .error (.fault f) s1 →
        exec (.tileFire ctx tile) s = .next (s1.abortTile ctx.val i f)))

/-- R191, R193, R195, R314, R423: with a firing of every member the instance lands its reduction in rank order; a firing that
disagrees, or that carries a fault, aborts it; while one is missing nothing happens, and with every fabric port down none comes. The
instance is complete, its entry pending no longer, when COUNT of CFW has risen by 1, once the crier's writes to other packages are
acknowledged; an abort leaves the entry neither armed nor pending. -/
def Sys2Proof.Machine.CollectiveCompletionRule : Prop :=
  ∀ (s : State) (ctx : Fin 64) (tile : Fin 4096) (others : List Firing) (mine : Firing),
    let t := s.tile ctx.val tile.val
    let members := (s.group ctx.val (tGrp t.img)).members
    let rest := others.filter fun f => f.pkg.val ≠ s.pkg.toNat
    let fs := members.map fun p => if p = s.pkg.toNat then some mine else rest.find? (·.pkg.val == p)
    t.fired = some mine → t.landed = false →
    (s.fabricUp = true → (∀ f ∈ rest, firingRefuses members mine f = none) → (∀ o ∈ fs, o.isSome = true) →
      exec (.collectiveReduce ctx tile others) s = .next (s.landTile ctx.val tile.val (reduceAll t.img (fs.filterMap id)))) ∧
    (s.fabricUp = true → (∀ f ∈ rest, firingRefuses members mine f = none) → none ∈ fs →
      exec (.collectiveReduce ctx tile others) s = .next s) ∧
    (s.fabricUp = false → (∃ p ∈ members, p ≠ s.pkg.toNat) → exec (.collectiveReduce ctx tile others) s = .next s) ∧
    (∀ cls : Nat, s.fabricUp = true → rest.findSome? (firingRefuses members mine) = some cls →
      exec (.collectiveReduce ctx tile others) s = .next (s.abortTile ctx.val tile.val (mkFault cls (detailOf tile.val 0 0x6F))))

/-- R193, R195, R314, R333: a reduced result is written at DST; then COUNT of CFW rises by 1, when no write of the crier to another
package is unacknowledged, and the entry is pending no longer; a fault of either ends the instance here with one record. An abort
disarms the entry, sets HALTED on CFW and leaves every other entry as it was; a DST that cannot be written sets it too. -/
def Sys2Proof.Machine.CollectiveEndRule : Prop :=
  ∀ (s s1 s2 : State) (ctx : Fin 64) (tile : Fin 4096) (others : List Firing) (mine : Firing) (r : Nat × Target) (f : FaultInfo)
    (res : List (Nat × Bool)),
    let i := tile.val
    let t := s.tile ctx.val i
    let k := crierOf ctx.val i
    let ended (u : State) : State := u.onTile ctx.val i fun x => { x with fired := none, landed := false }
    (landResult k ctx.val i t.img res s = .ok () s1 →
      s.landTile ctx.val i res = (s1.onTile ctx.val i fun x => { x with landed := true }).finishTile ctx.val i) ∧
    (t.fired = some mine → t.landed = true →
      (tCfw t.img = 0 → exec (.collectiveReduce ctx tile others) s = .next (ended s)) ∧
      (tCfw t.img ≠ 0 → 0 < (s.crier k).remoteOut → exec (.collectiveReduce ctx tile others) s = .next s) ∧
      (tCfw t.img ≠ 0 → (s.crier k).remoteOut = 0 →
        (frontRmw (frontCrier i) (.crier k) ctx.val (tCfw t.img) [.bump] s = .ok r s1 →
          exec (.collectiveReduce ctx tile others) s = .next (ended (s1.tagRelease 0 .pkg r.2))) ∧
        (frontRmw (frontCrier i) (.crier k) ctx.val (tCfw t.img) [.bump] s = .error (.fault f) s1 →
          exec (.collectiveReduce ctx tile others) s = .next ((ended s1).fqWrite (s1.crierRec ctx.val i f))))) ∧
    (∀ g : FaultInfo, landResult k ctx.val i t.img res s = .error (.fault g) s1 →
      let u := s1.onTile ctx.val i fun x => { x with fired := none }
      (tCfw t.img = 0 → s.landTile ctx.val i res = u.fqWrite (s1.crierRec ctx.val i g)) ∧
      (tCfw t.img ≠ 0 → frontRmw frontSecond (.crier k) ctx.val (tCfw t.img) [.halt] u = .ok r s2 →
        s.landTile ctx.val i res = s2.fqWrite (s1.crierRec ctx.val i g))) ∧
    (let u := (s.onTile ctx.val i fun x => { x with armed := none, fired := none }).sendFiring ctx.val i (tGrp t.img)
        (s.firingOf ctx.val t.img 0 [] (some f.cls))
     (tCfw t.img = 0 → s.abortTile ctx.val i f = u.fqWrite (s.crierRec ctx.val i f)) ∧
     (tCfw t.img ≠ 0 → frontRmw frontSecond (.crier k) ctx.val (tCfw t.img) [.halt] u = .ok r s2 →
       s.abortTile ctx.val i f = s2.fqWrite (s.crierRec ctx.val i f)) ∧
     (tCfw t.img ≠ 0 → ∀ g : FaultInfo, frontRmw frontSecond (.crier k) ctx.val (tCfw t.img) [.halt] u = .error (.fault g) s2 →
       s.abortTile ctx.val i f =
         (s2.fqWrite (s2.crierRec ctx.val i { g with addr := w64 (tCfw t.img) })).fqWrite (s.crierRec ctx.val i f))) ∧
    (((s.abortTile ctx.val i f).tile ctx.val i).armed = none ∧ ((s.abortTile ctx.val i f).tile ctx.val i).fired = none ∧
      ∀ j, j ≠ i → (s.abortTile ctx.val i f).tile ctx.val j = s.tile ctx.val j)

/-- R193, R122: the result is written to DST, 4 bytes an element, sector by sector; where each sector is at home in memory of this package
every other byte stays as it was, and a sector is poisoned where one of its elements is, or it is not written whole and was. -/
def Sys2Proof.Machine.LandingRule : Prop :=
  ∀ (s s1 : State) (ctx : Fin 64) (tile : Fin 4096) (res : List (Nat × Bool)) (ps : List Nat),
    let i := tile.val
    let k := crierOf ctx.val i
    let img := (s.tile ctx.val i).img
    let here (b : Nat) : List (Nat × Bool) := (res.drop (16 * b)).take 16
    let bytes (b : Nat) : List Byte := (here b).flatMap fun r => toBytes 4 r.1
    let lands (b : Nat) (x : State) (p : Nat) (x' : State) : Prop := ∃ pa l x1 x2,
      access (chapCrier i) (.crier k) ctx.val .w (tDst img + 64 * b) 64 false x = .ok (.phys pa l) x1 ∧
      x1.isLocal pa = true ∧ paIdx pa ≠ 15 ∧ l.ckp = false ∧ p = x1.place pa ∧
      writeAt (.crier k) ctx.val (.phys pa l) (bytes b) ((here b).any (·.2)) 0 false x1 = .ok () x2 ∧
      x' = x2.digestStore ctx.val (storedBytes (tDst img + 64 * b) (bytes b) ((here b).any (·.2)))
    Each lands (List.range ((4 * tNel img + 63) / 64)) s ps s1 →
    landResult k ctx.val i img res s = .ok () s1 ∧
    (∀ j, sget s1.mem j memInit = (ps.zipIdx.flatMap fun p => (bytes p.2).zipIdx.map fun b => (p.1 + b.2, b.1)).foldl
      (fun (v : Byte) w => if w.1 = j then w.2 else v) (sget s.mem j memInit)) ∧
    ∀ (x x' : State) (pa : Nat) (l : Leaf) (bs : List Byte) (p : Bool), x.isLocal pa = true → paIdx pa ≠ 15 → l.ckp = false →
      writeAt (.crier k) ctx.val (.phys pa l) bs p 0 false x = .ok () x' → x'.secPois pa = (p || (x.secPois pa && bs.length != 64))

/-- Tiles are set, armed, fired, reduced and aborted. -/
def Obligations.CollectiveResults : Prop :=
  Sys2Proof.Machine.TileCommandsRule ∧ Sys2Proof.Machine.CollectiveCompletionRule ∧ Sys2Proof.Machine.CollectiveEndRule ∧
    Sys2Proof.Machine.LandingRule

/-! ## Lines and delivery (R58-R64, R400, R401) -/

/-- R62, R64, R280: a sequencer whose line is over fetches the next line in sequence, at lane 1 where it had one in hand, with one
32-byte read that needs execute permission; a line fetched earlier may be taken instead. A refused fetch is a precise fault. The
line after the end label of an open body that breaks no rule closes the body (R236, R259). -/
def Sys2Proof.Machine.LineFetchResultsRule : Prop :=
  ∀ (s s1 s2 : State) (q : SeqId) (t : Target) (bs : List Byte) (k : WaitKind) (f : FaultInfo),
    let x := s.seqr q
    let addr := match x.line with | none => x.pcLine.toNat | some _ => x.pcLine.toNat + 32
    let lane := match x.line with | none => x.pcLane | some _ => 1
    let took (u : State) (l : FLine) : State := u.onSeqr q fun y =>
      { y with pcLine := BitVec.ofNat 52 addr, pcLane := lane, entry := lane, line := some l, ibuf := sput y.ibuf addr l, wait := .none }
    x.status = .live → (∀ l, x.line = some l → l.eos = false ∧ walkLine q.xs l 8 x.pcLane = .gone) → (x.wait = .none ∨ x.wait = .held) →
    x.inBody = none →
    (∀ l : FLine, shas x.ibuf addr = true → sget x.ibuf addr (lineOfWords 0 []) = l → exec (.lineFetch q true) s = .next (took s l)) ∧
    (access chapFetch (.fetch q) (s.ctxOf q.core.val) .x addr 32 false s = .ok t s1 → readAt (.fetch q) t 32 0 s1 = .ok (bs, false) s2 →
      exec (.lineFetch q false) s = .next (took s2 { addr := addr, bytes := BitVec.ofNat 256 (ofBytes bs), pois := false })) ∧
    (access chapFetch (.fetch q) (s.ctxOf q.core.val) .x addr 32 false s = .error (.stall k) s1 →
      exec (.lineFetch q false) s = .next (s.stalled q k)) ∧
    (access chapFetch (.fetch q) (s.ctxOf q.core.val) .x addr 32 false s = .error (.fault f) s1 →
      exec (.lineFetch q false) s = .next ((s1.onSeqr q fun y => { y with wait := .none }).takeFault q
        (s1.seqRec q (BitVec.ofNat 64 (addr + 4 * lane)) f) (BitVec.ofNat 64 (addr + 4 * lane))))

/-- R236, R259: where the next line in sequence is that of the end label, an open body that breaks no rule is closed before its line
is taken; one that breaks a rule is refused. -/
def Sys2Proof.Machine.BodyCloseRule : Prop :=
  ∀ (s : State) (q : SeqId) (b : Bundle) (l : FLine) (cause hdr pos : Nat),
    let x := s.seqr q
    let addr := b.endLine
    let closed := s.onCore q.core.val fun y =>
      ((y.setBundle { b with routing := false }).setSeqr q.xs { y.seqr q.xs with openBundle := none }).endBundles
    let dropped := s.onCore q.core.val fun y =>
      (y.dropBundle b.id).setSeqr q.xs { (y.dropBundle b.id).seqr q.xs with openBundle := none }
    x.status = .live → x.wait = .none → x.nextLine = (addr, 1) → x.inBody.bind (s.core q.core.val).bundle = some b →
    (∀ m, x.line = some m → m.eos = false ∧ walkLine q.xs m 8 x.pcLane = .gone) → shas x.ibuf addr = true →
    sget x.ibuf addr (lineOfWords 0 []) = l →
    (b.refusal = none → exec (.lineFetch q true) s = .next (closed.onSeqr q fun y =>
      { y with pcLine := BitVec.ofNat 52 addr, pcLane := 1, entry := 1, line := some l, ibuf := sput y.ibuf addr l, wait := .none })) ∧
    (b.refusal = some (cause, hdr, pos) →
      exec (.lineFetch q true) s = .next (dropped.takeFault q (dropped.seqRec q b.point (mkFault 0x16 (detailOf hdr pos cause))) b.point))

/-- R83, R272, R401, R402, R418: a fault that the walk of a line finds is precise at its lane; the oldest record that waits for a
sequencer goes to its handler at a boundary between lanes, ending the stall it stands in, and to the fault queue where no handler can
take it, or the handler's area refuses the record; records that stood behind it go on, and a pre-emption that met it takes the task
where no handler does. A sequencer whose record is written enters its handler when its release is complete. A record waits while an older one of its
context has not reached its destination, or while a remapping holds the handler's area. -/
def Sys2Proof.Machine.FaultDeliveryResultsRule : Prop :=
  ∀ (s s1 : State) (q : SeqId) (f : FaultInfo) (r : FRec) (rest : List FRec) (p : Word),
    let x := s.seqr q
    let s' := s.onSeqr q fun y => { y with asyncRecs := rest }
    let after (u : State) : State := u.fqResume.preemptMet q.core.val
    (x.entering = none → x.status = .live → exec (.faultDelivery q f) s = .next (s.precise q f)) ∧
    (x.entering = some p → 0 < (s.core q.core.val).remoteOut → exec (.faultDelivery q f) s = .next s) ∧
    (x.entering = some p → (s.core q.core.val).remoteOut = 0 → exec (.faultDelivery q f) s = .next (s.enterHandler q p)) ∧
    (x.asyncRecs = [] → exec (.asyncFaultDelivery q) s = .next s) ∧
    (x.asyncRecs = r :: rest → s.mustFollow r = true → exec (.asyncFaultDelivery q) s = .next s) ∧
    (x.asyncRecs = r :: rest → s.mustFollow r = false →
      (x.boundary = none → exec (.asyncFaultDelivery q) s = .next (after (s'.fqWrite r))) ∧
      (x.boundary = some p → x.deaf = true → exec (.asyncFaultDelivery q) s = .next (after (s'.fqWrite r))) ∧
      (x.boundary = some p → x.deaf = false →
        (Runs (writeRecord q r) s' s1 → exec (.asyncFaultDelivery q) s = .next (after ((s1.endStall q).enterHandler q p))) ∧
        (∀ g : FaultInfo, writeRecord q r s' = .error (.fault g) s1 →
          exec (.asyncFaultDelivery q) s = .next (after (s1.fqWrite r))) ∧
        (∀ k : WaitKind, writeRecord q r s' = .error (.stall k) s1 → exec (.asyncFaultDelivery q) s = .next s))) ∧
    (x.deaf = true ↔ x.tvec = 0 ∨ x.handler = true ∨ x.entering.isSome = true ∨ x.status = .stopped ∨ x.inEffect = true)

/-- Lines are fetched in sequence, and faults delivered at their points. -/
def Obligations.LinesAndDelivery : Prop :=
  Sys2Proof.Machine.LineFetchResultsRule ∧ Sys2Proof.Machine.BodyCloseRule ∧ Sys2Proof.Machine.FaultDeliveryResultsRule
/-! ## Scheduling (R214-R234) -/

/-- R224: the lottery register of a class is its number plus 1 at reset, and a write of 0 to it is ignored; a draw of
the class: with tickets among its ready queues the class's register takes the three steps and the queue into whose tickets the number falls wins, in ascending index; without any, nothing is drawn and the register stays. -/
def Obligations.TicketDraw : Prop :=
  ∀ (s : State) (k : Nat), swf (fun _ => Queue.reset) s.queues = true → (∀ e ∈ s.queues, e.1 < 256) →
    let tickets (q : Nat) : Nat := if (s.queue q).cls = k ∧ s.queueReady q = true then (s.queue q).tickets else 0
    let before (q : Nat) : Nat := ((List.range q).map tickets).sum
    let total := before 256
    let x0 := (s.clxOf k).toNat
    let x1 := (x0 ^^^ (x0 * 2 ^ 13)) % 2 ^ 32
    let x2 := x1 ^^^ (x1 / 2 ^ 17)
    let x := (x2 ^^^ (x2 * 2 ^ 5)) % 2 ^ 32
    (total = 0 → s.draw k = (none, s)) ∧
    (0 < total → ∃ w < 256, before w ≤ x % total ∧ x % total < before w + tickets w ∧
      s.draw k = (some w, s.setClx k (BitVec.ofNat 32 x))) ∧
    State.reset.clxOf k = BitVec.ofNat 32 (k + 1) ∧
    (∀ (w : Writer) (v : Word), s.settled.mayWrite w = true → k < 16 →
      exec (.registerWrite w false (BitVec.ofNat 34 (0x20000 + 8 * k)) v) s =
        .next (if (v.extractLsb' 0 32 : BitVec 32) = 0 then s.settled else s.settled.setClx k (v.extractLsb' 0 32)))

/-- R223, R225, R226: a request of a quad with an idle core, on a die that pops records, tries the bound classes in turn; a class
that starts records remembers itself as the die's last, and one that finds none is passed over. Otherwise nothing is popped; a record
that a remapping holds leaves the request to be tried again. -/
def Sys2Proof.Machine.WorkRequestResultsRule : Prop :=
  ∀ (s s1 u : State) (q : QuadId) (k k2 : Nat) (cs : List Nat),
    let d := q.val / 32
    ((s.idleCores q.val = [] ∨ s.diePops d = false) → exec (.workRequest q) s = .next s) ∧
    (s.idleCores q.val ≠ [] → s.diePops d = true →
      ((s.die d).classOrder = [] → exec (.workRequest q) s = .next s) ∧
      ((s.die d).classOrder = k :: cs →
        (s.tryClass q.val k = .started u → exec (.workRequest q) s = .next (u.onDie d fun x => { x with rrClass := some k })) ∧
        (s.tryClass q.val k = .held → exec (.workRequest q) s = .next s) ∧
        (s.tryClass q.val k = .next u → cs = [] → exec (.workRequest q) s = .next u)) ∧
      ((s.die d).classOrder = k :: k2 :: cs → s.tryClass q.val k = .next s1 → s1.tryClass q.val k2 = .started u →
        exec (.workRequest q) s = .next (u.onDie d fun x => { x with rrClass := some k2 })))

/-- R216, R222: the records of a pop: the returned record of lowest index from FREE with its returned teammates, and only where none is
returned the team at HEAD, as far as it lies in the queue; each is read with the generation of its job. -/
def Sys2Proof.Machine.PoppedRecordsRule : Prop :=
  ∀ (s s1 s2 u : State) (qn i t : Nat) (ps : List Popped) (rest : List (Nat × Nat)) (r : BitVec 2048 × BitVec 4) (g : Nat),
    let d := s.queue qn
    (nextSlots qn s = .ok ps u →
      (d.returned = (i, t) :: rest → ps.map (fun p => (p.idx, p.crew)) = (i, t) :: rest.filter fun o => o.2 = t) ∧
      (d.returned = [] → ∃ (p : Popped) (more : List Popped), ps = p :: more ∧
        ps.length = max 1 (min p.teamLen (d.tail - d.head).toNat) ∧
        ∀ (j : Nat) (o : Popped), ps[j]? = some o → o.idx = (d.head + BitVec.ofNat 32 j).toNat ∧ o.crew = s.nextInst)) ∧
    (readSlot qn i s = .ok r s1 → badRecord r.1 = false → readGen (s1.queue qn).ctx (imgWord r.1 32 % 2 ^ 32) s1 = .ok g s2 →
      popSlot qn i t s = .ok { idx := i, crew := t, rec_ := .ok r, gen := .ok g } s2)

/-- R222, R224-R226: a draw of a class for a quad: the records of the winning queue's pop start on the quad's lowest-numbered idle cores, each a
member of one team, where there are enough, and nothing is popped where there are not. A stale, malformed or unreadable record is dropped,
its slot freed and its counter handled, and the request draws again; a good record popped beside it stands in its slot as a returned one.
A hold on what a pop reads or a start writes back leaves the request to be tried again (log 98); that an unreadable record, or generation, leaves a
record in the fault queue is the model's choice (log 21). -/
def Sys2Proof.Machine.DrawnRecordsRule : Prop :=
  ∀ (s s1 u : State) (quad k qn : Nat) (p p2 : Popped) (ps : List Popped) (r r2 : BitVec 2048 × BitVec 4) (g : Nat) (c c2 : CoreId)
    (cs : List Nat) (f : FaultInfo) (e : Stop),
    let hold (x : State) (p : Popped) : State := x.onQueue qn (·.hold p.idx p.crew)
    let job := BitVec.ofNat 64 (imgWord r.1 32)
    (s.draw k = (none, s1) → s.tryClass quad k = .next s1) ∧
    (s.draw k = (some qn, s1) → nextSlots qn s1 = .error e u → s.tryClass quad k = .held) ∧
    (s.draw k = (some qn, s1) → nextSlots qn s1 = .ok ps u →
      let idle := u.idleCores quad
      (idle.length < ps.length → s.tryClass quad k = .next u) ∧
      (ps.length ≤ idle.length → ps.any (·.stale) = true → s.tryClass quad k = .again (u.popDropping qn ps)) ∧
      (ps.length ≤ idle.length → ps.any (·.stale) = false →
        ((∀ x ∈ idle.zip ps, u.startHeld x.1 (u.queue qn).ctx x.2 = false) → s.tryClass quad k = .started (u.startAll qn idle ps)) ∧
        ((∃ x ∈ idle.zip ps, u.startHeld x.1 (u.queue qn).ctx x.2 = true) → s.tryClass quad k = .held))) ∧
    (p.rec_ = .ok r → s.startAll qn (c.val :: cs) [p] = (hold s p).startTask c.val qn p.idx s.nextInst p.crew r.1 r.2) ∧
    (p.rec_ = .ok r → p2.rec_ = .ok r2 → s.startAll qn (c.val :: c2.val :: cs) [p, p2] =
      (hold ((hold s p).startTask c.val qn p.idx s.nextInst p.crew r.1 r.2) p2).startTask c2.val qn p2.idx s.nextInst p2.crew r2.1 r2.2) ∧
    (p.rec_ = .ok r → p.gen = .ok g → (p.stale = true ↔ badRecord r.1 = true ∨ g ≠ fld (imgWord r.1 32) 32 16)) ∧
    ((p.rec_ = .error f ∨ p.gen = .error f) → p.stale = true) ∧
    (p.rec_ = .ok r → p.gen = .ok g → p.stale = true → s.popDropping qn [p] =
      ((hold s p).freeSlot qn p.idx).joinSub (s.queue qn).ctx job (imgWord r.1 24 % 2 ^ 52) true) ∧
    (p.rec_ = .ok r → p.gen = .error f → s.popDropping qn [p] =
      (((hold s p).fqWrite ((hold s p).qeRec (s.queue qn).ctx job f)).freeSlot qn p.idx).joinSub (s.queue qn).ctx job
        (imgWord r.1 24 % 2 ^ 52) true) ∧
    (p.rec_ = .error f → s.popDropping qn [p] = ((hold s p).fqWrite ((hold s p).qeRec (s.queue qn).ctx 0 f)).freeSlot qn p.idx) ∧
    (p.stale = false → p2.stale = true → s.popDropping qn [p, p2] =
      ((hold (hold s p) p2).returnSlot qn p.idx p.crew).dropPopped qn p2)

/-- R6, R212, R213, R216, R219, R276: what a task start leaves on its core: the task of the record, CARVEW and the entry lines as the
record gives them, reserved bits as 0 (the model's choice, log 71), the slots in the registers, and every queue, FIFO, barrier, tensor entry and flag as after
reset. -/
def Sys2Proof.Machine.TaskStartRule : Prop :=
  ∀ (s : State) (c qn idx team crew : Nat) (img : BitVec 2048),
    let t := s.startTask c qn idx team crew img 0
    let x := t.core c
    let a : SeqId := { core := Fin.ofNat 768 c, xs := false }
    let b : SeqId := { core := Fin.ofNat 768 c, xs := true }
    c < 768 → kindOf (flagsOf (imgWord img 32)) ≠ 2 → imgWord img 0 ≠ 0 → imgWord img 8 ≠ 0 → imgWord img 0 < 2 ^ 52 →
    imgWord img 8 < 2 ^ 52 → imgWord img 0 % 32 = 0 → imgWord img 8 % 32 = 0 →
    (∃ u, x.task = some u ∧ u.ctx = (s.queue qn).ctx ∧ u.jobid = BitVec.ofNat 64 (imgWord img 32) ∧ u.lidx = BitVec.ofNat 64 (imgWord img 40 % 2 ^ 52) ∧
      u.join = imgWord img 24 % 2 ^ 52 ∧ u.queue = qn ∧ u.slot = idx ∧ u.crew = crew ∧ u.committed = false ∧ u.buffered = []) ∧
    x.carvew = BitVec.ofNat 64 (fld (imgWord img 48) 16 36 * 2 ^ 16 + imgWord img 48 % 8) ∧ x.cflags = 0 ∧ x.tmq = false ∧ x.ttab = [] ∧ x.sregs = [] ∧ x.bars = [] ∧ x.tickets = 0 ∧
    x.fifos = Fifos.reset ∧ (∀ e : Eng, x.eq e = EQueue.reset) ∧
    (x.as.pcLine.toNat = imgWord img 0 ∧ x.as.pcLane = 1 ∧ x.as.status = .live ∧ x.as.handler = false ∧ x.as.tvec = 0) ∧
    (x.xs.pcLine.toNat = imgWord img 8 ∧ x.xs.pcLane = 1 ∧ x.xs.status = .live ∧ x.xs.handler = false ∧ x.xs.tvec = 0) ∧
    (∀ j : Fin 16, t.reg a (Fin.ofNat 32 (j.val + 1)) = { v := BitVec.ofNat 64 (imgWord img (64 + 8 * j.val)), p := false } ∧
      t.reg b (Fin.ofNat 32 (j.val + 1)) = { v := BitVec.ofNat 64 (imgWord img (64 + 8 * j.val)), p := false }) ∧
    t.reg a 31 = { v := BitVec.ofNat 64 (imgWord img 16), p := false } ∧ t.reg b 31 = { v := BitVec.ofNat 64 (imgWord img 16), p := false } ∧
    t.reg a 20 = SVal.zero ∧ t.reg a 0 = SVal.zero

/-- R213, R216, R219, R266: a continuation resumes at the lanes its lines name, AS with the first AN slots and XS with the rest, every
other register but x31 zero; an entry line of 0 of any other record starts at stream end, whatever stands in its reserved bits. -/
def Sys2Proof.Machine.ContinuationStartRule : Prop :=
  ∀ (s : State) (c qn idx team crew : Nat) (img : BitVec 2048) (j : Fin 31),
    let t := s.startTask c qn idx team crew img 0
    let x := t.core c
    let a : SeqId := { core := Fin.ofNat 768 c, xs := false }
    let b : SeqId := { core := Fin.ofNat 768 c, xs := true }
    let an := anOf (flagsOf (imgWord img 32))
    let slot (k : Nat) : SVal := { v := BitVec.ofNat 64 (imgWord img (64 + 8 * k)), p := false }
    let r : Reg := Fin.ofNat 32 (j.val + 1)
    c < 768 →
    (kindOf (flagsOf (imgWord img 32)) = 2 → an ≤ 16 → imgWord img 0 < 2 ^ 52 → imgWord img 8 < 2 ^ 52 →
      (x.as.pcLine.toNat = imgWord img 0 / 32 * 32 ∧ x.as.pcLane = imgWord img 0 / 4 % 8) ∧
      (x.xs.pcLine.toNat = imgWord img 8 / 32 * 32 ∧ x.xs.pcLane = imgWord img 8 / 4 % 8) ∧
      (j.val < 30 → t.reg a r = (if j.val < an then slot j.val else SVal.zero) ∧
        t.reg b r = (if j.val < 16 - an then slot (an + j.val) else SVal.zero))) ∧
    (kindOf (flagsOf (imgWord img 32)) ≠ 2 → imgWord img 0 / 32 % 2 ^ 47 = 0 → x.as.pcLane = 8 ∧ ∃ l, x.as.line = some l ∧ l.eos = true) ∧
    (kindOf (flagsOf (imgWord img 32)) ≠ 2 → imgWord img 8 / 32 % 2 ^ 47 = 0 → x.xs.pcLane = 8 ∧ ∃ l, x.xs.line = some l ∧ l.eos = true)

/-- An idle core asks for work, and a task starts. -/
def Obligations.TasksTaken : Prop :=
  Sys2Proof.Machine.WorkRequestResultsRule ∧ Sys2Proof.Machine.PoppedRecordsRule ∧ Sys2Proof.Machine.DrawnRecordsRule ∧ Sys2Proof.Machine.TaskStartRule ∧
  Sys2Proof.Machine.ContinuationStartRule

/-- R214, R215, R220, R228, R234, R263: a launch whose trigger and gate are met adds its tasks to its counter once, and enters its
queue team by team where there is room, behind earlier enqueues and held records; with the last team it is over. The flag of a launch of
no tasks waits for neither. A trigger that has
come to its threshold is met; a counter that cannot be read drops the launch with a record. -/
def Sys2Proof.Machine.LaunchProgressRule : Prop :=
  ∀ (s s1 s2 : State) (k : Nat) (p : Pending) (tr : Trigger) (tg : Target) (bs : List Byte) (f : FaultInfo),
    let e := p.enq
    let s0 := s.countLaunch p
    let marked (x : State) (y : Pending) : State := { x with launches := listSet x.launches k y }
    let away (x : State) : State := { x with launches := listDel x.launches k }
    let counted := marked s0 { p with counted := true }
    let d := counted.queue e.queue
    let room := 2 ^ d.log2n - (d.tail - d.free).toNat
    let total := launchTotal e.img
    let empty : Prop := e.spawn = false ∧ total = 0
    let n := teamSize e.img p.next
    let put : Mx Unit := if e.spawn then pushSlot e.queue e.img e.pois
      else if total = 0 then doneFlag e.ctx (imgWord e.img 24) false
      else pushAll e.queue ((List.range n).map fun i => taskRecord e.img (p.next + i))
    let fits : Prop := if e.spawn then 0 < room else if total = 0 then imgWord e.img 24 ≠ 0 else n ≤ room
    s.launches[k]? = some p →
    ((p.trig.isSome = true ∨ p.gate.isSome = true ∨ ¬empty ∧ s.launchBehind k e.queue = true) → exec (.launchEnqueue k) s = .next s) ∧
    (p.trig = none → p.gate = none → (empty ∨ s.launchBehind k e.queue = false) →
      (¬empty → counted.heldRecs.any (fun h => h.queue == e.queue) = true → exec (.launchEnqueue k) s = .next counted) ∧
      ((empty ∨ counted.heldRecs.any (fun h => h.queue == e.queue) = false) →
        (e.spawn = false → total = 0 → imgWord e.img 24 = 0 → exec (.launchEnqueue k) s = .next (away counted)) ∧
        ((e.spawn = true ∧ room = 0 ∨ e.spawn = false ∧ 0 < total ∧ room < n) → exec (.launchEnqueue k) s = .next counted) ∧
        (fits → ∀ u : State,
          (counted.qeRun e.ctx e.job () put = (none, u) → exec (.launchEnqueue k) s = .next counted) ∧
          (counted.qeRun e.ctx e.job () put = (some (), u) →
            ((e.spawn = true ∨ total ≤ p.next + n) → exec (.launchEnqueue k) s = .next (away u)) ∧
            (e.spawn = false → p.next + n < total →
              exec (.launchEnqueue k) s = .next (marked u { p with counted := true, next := p.next + n })))))) ∧
    (p.trig = some tr → access (chap10 0) .qengine e.ctx .r tr.cnt 8 false s = .ok tg s1 → readHome .qengine tg 8 s1 = .ok (bs, false) s2 →
      (tr.thr ≤ ofBytes bs → exec (.triggeredLaunchFire k) s = .next (marked s2 { p with trig := none })) ∧
      (ofBytes bs < tr.thr → exec (.triggeredLaunchFire k) s = .next s2)) ∧
    (p.trig = some tr → access (chap10 0) .qengine e.ctx .r tr.cnt 8 false s = .error (.fault f) s1 →
      exec (.triggeredLaunchFire k) s = .next (away (s1.fqWrite (s1.qeRec e.ctx e.job f)))) ∧
    (p.trig = none → exec (.triggeredLaunchFire k) s = .next s)

/-- R220, R266: a watched word that is nonzero sends its continuation, with the poison of its slots, to its queue behind those that
wait for it already, and the watch goes; it enters where the queue has room. A zero word changes nothing. A word or record that
cannot be read drops the continuation, with a record and its counter handled. That the word and the counter of a trigger are read at their
homes (log 48), and that poison of a slot travels in it (log 52), are the model's choices. -/
def Sys2Proof.Machine.ContinuationResumeRule : Prop :=
  ∀ (s s1 s2 s3 : State) (ctx : Fin 64) (k : Nat) (w : Watch) (tg : Target) (bs : List Byte) (rs : List (List Byte × Bool)) (f : FaultInfo)
    (pois : BitVec 4),
    let gone (x : State) : State := x.onCtx ctx.val fun c => { c with watches := listDel c.watches k }
    let lost (x : State) (g : FaultInfo) : State := (gone (x.fqWrite (x.qeRec ctx.val w.jobid g))).joinSub ctx.val w.jobid w.join true
    (s.ctx ctx.val).watches[k]? = some w →
    (access (chap10 0) .qengine ctx.val .r w.word 8 false s = .ok tg s1 → readHome .qengine tg 8 s1 = .ok (bs, false) s2 →
      (ofBytes bs = 0 → exec (.continuationResume ctx k) s = .next s2) ∧
      (ofBytes bs ≠ 0 →
        ((List.range 4).mapM fun i => vread (chap10 0) .qengine ctx.val (w.area + 64 * i) 64 64) s2 = .ok rs s3 →
        rs.map (·.2) = false :: (List.range 3).map (fun i => pois.getLsbD (i + 1)) → pois.getLsbD 0 = false →
        let img := BitVec.ofNat 2048 (ofBytes (rs.flatMap (·.1)))
        let v := gone s3
        exec (.continuationResume ctx k) s =
          .next (State.drainHeld { v with heldRecs := v.heldRecs ++ [{ cont := true, img := img, pois := pois, queue := w.queue }] }
            w.queue))) ∧
    (access (chap10 0) .qengine ctx.val .r w.word 8 false s = .error (.fault f) s1 →
      exec (.continuationResume ctx k) s = .next (lost s1 f)) ∧
    (access (chap10 0) .qengine ctx.val .r w.word 8 false s = .ok tg s1 → readHome .qengine tg 8 s1 = .ok (bs, true) s2 →
      exec (.continuationResume ctx k) s = .next (lost s2 { mkFault 0x0A 0x77 with addr := BitVec.ofNat 64 w.word }))

/-- R220: a held record of a queue goes into its slot at TAIL where the queue has room, continuations ahead of the others; where there
is no room, or no held record, nothing changes. -/
def Sys2Proof.Machine.HeldRecordsRule : Prop :=
  ∀ (s u : State) (q : Nat) (h : HeldRec),
    (s.nextHeld q = none → s.drainHeld q = s) ∧ ((s.queue q).full = true → s.drainHeld q = s) ∧
    (s.heldRecs = [h] → h.queue = q → (s.queue q).full = false →
      (s.qeRun (s.queue q).ctx ((h.img.extractLsb' 256 48).setWidth 64) () (pushSlot q h.img h.pois) = (some (), u) →
        s.drainHeld q = { u with heldRecs := u.heldRecs.erase h }) ∧
      (s.qeRun (s.queue q).ctx ((h.img.extractLsb' 256 48).setWidth 64) () (pushSlot q h.img h.pois) = (none, u) → s.drainHeld q = u)) ∧
    (∀ a ∈ s.heldRecs, a.queue = q → a.cont = true → ∃ b, s.nextHeld q = some b ∧ b.queue = q ∧ b.cont = true) ∧
    (s.nextHeld q = none ↔ ∀ a ∈ s.heldRecs, a.queue ≠ q)

/-- What a queue engine does with launches, spawned records, triggers and continuations. -/
def Obligations.QueueEngineResults : Prop :=
  Sys2Proof.Machine.LaunchProgressRule ∧ Sys2Proof.Machine.ContinuationResumeRule ∧ Sys2Proof.Machine.HeldRecordsRule

/-- R230, R232, R404, R418: a task whose sequencers have stopped and whose entries have completed releases, gives back its counter and
its slot, and leaves its core; one whose halted engine holds a faulted entry becomes faulted once both its sequencers have stopped. A
pre-emption returns the record of an uncommitted task to its slot, and leaves a committed one alone; one that meets a fault of its clock, in
a handler or on the way to one, is taken at `eret`, or once the record has found no handler. -/
def Sys2Proof.Machine.TaskEndsRule : Prop :=
  ∀ (s s1 : State) (c : CoreId) (u : Task),
    let x := s.core c.val
    let bad := allEngs.any fun e => (x.eq e).faulted
    let stopped : Prop := x.as.status = .stopped ∧ x.xs.status = .stopped
    let met (y : Seqr) : Prop := y.handler = true ∧ y.handlerAt = s.clock ∨ y.entering.isSome = true ∨ ∃ r ∈ y.asyncRecs, r.clock = s.clock
    let busy (y : Seqr) : Prop := y.handler = true ∨ y.entering.isSome = true ∨ y.asyncRecs ≠ []
    let more : Prop := ∃ b ∈ x.bundles, b.producing = true
    x.task = some u →
    (u.gone = true → exec (.taskRetire c) s = .next s ∧ exec (.taskPreempt c) s = .next s) ∧
    (u.gone = false →
      (stopped → bad = true → exec (.taskRetire c) s = .next (s.faultTask c.val)) ∧
      (¬ stopped ∨ bad = false ∧ (x.anyEntry = true ∨ more) → exec (.taskRetire c) s = .next s) ∧
      (stopped → x.anyEntry = false → ¬ more → bad = false →
        (Runs (release c.val (lscopeOf u.jobid)) s s1 → exec (.taskRetire c) s = .next
          (let a := s1.joinSub u.ctx u.jobid u.join u.cancel
           (if u.committed then a else a.freeSlot u.queue u.slot).clearCore c.val)) ∧
        (∀ k : Stop, release c.val (lscopeOf u.jobid) s = .error k s1 → exec (.taskRetire c) s = .next s)) ∧
      (u.committed = true → exec (.taskPreempt c) s = .next s) ∧
      (u.committed = false → ¬ met x.as → ¬ met x.xs →
        exec (.taskPreempt c) s = .next ((s.returnSlot u.queue u.slot u.crew).clearCore c.val)) ∧
      (u.committed = false → met x.as ∨ met x.xs →
        exec (.taskPreempt c) s = .next (s.onCore c.val fun y => { y with task := some { u with preempt := true } }))) ∧
    (¬ busy x.as → ¬ busy x.xs → u.preempt = true → u.committed = false → s.preemptMet c.val = s.discardTask c.val) ∧
    ((busy x.as ∨ busy x.xs ∨ u.preempt = false ∨ u.committed = true) → s.preemptMet c.val = s)

/-- R231, R244, R400, R401: past its limit a committed task takes progress, whose AUX counts the clocks since its commit: at the handler
of AS, or of XS when AS has stopped, from where the watchdog counts anew, or in the fault queue, and the task becomes faulted. It
stands behind every record that its context raised before it. -/
def Sys2Proof.Machine.ProgressRule : Prop :=
  ∀ (s s1 : State) (c : CoreId) (u : Task) (f : FaultInfo) (k : WaitKind),
    let x := s.core c.val
    let limit := 2 ^ (s.die (dieOf c.val)).pwd.toNat
    let q : SeqId := { core := c, xs := decide (x.as.status = .stopped) }
    let y := s.seqr q
    let r := s.mkRec c.val (if q.xs then 1 else 0) y.point true
      (mkFault 0x15 (detailOf (min (s.clock - u.commitAt) (2 ^ 32 - 1)) 0 0x70))
    let none_ : Prop := y.tvec = 0 ∨ y.handler = true ∨ y.entering.isSome = true ∨ y.status = .stopped
    x.task = some u →
    ((u.committed = false ∨ u.gone = true ∨ s.clock - u.watchAt < limit ∨ s.mustFollow r = true) →
      exec (.progressWatchdogExpiry c) s = .next s) ∧
    (u.committed = true → u.gone = false → limit ≤ s.clock - u.watchAt → s.mustFollow r = false →
      (none_ → exec (.progressWatchdogExpiry c) s = .next ((s.fqWrite r).faultTask c.val)) ∧
      (¬ none_ → writeRecord q r s = .error (.fault f) s1 → exec (.progressWatchdogExpiry c) s = .next ((s1.fqWrite r).faultTask c.val)) ∧
      (¬ none_ → writeRecord q r s = .error (.stall k) s1 → exec (.progressWatchdogExpiry c) s = .next s) ∧
      (¬ none_ → Runs (writeRecord q r) s s1 → exec (.progressWatchdogExpiry c) s =
        .next (((s1.endStall q).enterHandler q (y.boundary.getD y.point)).onCore c.val fun z =>
          { z with task := z.task.map fun t => { t with watchAt := ((s1.endStall q).enterHandler q (y.boundary.getD y.point)).clock } })))

/-- R326, R327, R366: a monitored wait that has not lasted CHTO clocks goes on; past them it takes chase-timeout, where no cycle of
waits goes through it, and otherwise every context of the cycle takes chase-cycle: a sequencer at its handler or in the fault queue
with its stall ended, an engine at the entry that waits. That the outcome is decided when the timeout comes, and engines come first, is the
model's choice (log 58). -/
def Sys2Proof.Machine.ChaseTimeoutResultsRule : Prop :=
  ∀ (s v : State) (w : Waiter) (t : Nat) (cyc : Bool),
    let chto := (s.die (dieOf (waiterCore w))).chto.toNat
    let cls := if cyc then 0x0D else 0x0E
    let cause := if cyc then 0xA0 else 0xA1
    (s.blockedSince w = none → exec (.chaseTimeout w) s = .next s) ∧
    (s.blockedSince w = some t → s.clock < t + chto → exec (.chaseTimeout w) s = .next s) ∧
    (s.blockedSince w = some t → t + chto ≤ s.clock →
      (s.cycleOf w = [] → exec (.chaseTimeout w) s = .next (s.monitorFault false s w)) ∧
      (s.cycleOf w ≠ [] → exec (.chaseTimeout w) s = .next ((engsFirst (s.cycleOf w)).foldl (s.monitorFault true) s))) ∧
    (∀ q : SeqId, let p := (s.seqr q).point
      let r := s.seqRec q p (mkFault cls (detailOf 0 0 cause))
      ((v.seqr q).status ≠ .stopped → s.monitorFault cyc v (.seq q) = (v.endStall q).takeFault q r p) ∧
      ((v.seqr q).status = .stopped → s.monitorFault cyc v (.seq q) = v.fqWrite r)) ∧
    (∀ (c : CoreId) (e : Eng) (n : Entry) (fs : List Fifo) (key b : Nat),
      let f (o : Option Entry) : FaultInfo := mkFault cls (monitorDetail s c.val e o cause)
      ((s.engBlock c.val e = some (.token n fs, b) ∨ s.engBlock c.val e = some (.lease n, b)) →
        s.monitorFault cyc v (.eng c e) = v.entryFault c.val e n (f (some n))) ∧
      (s.engBlock c.val e = some (.chase n key, b) →
        s.monitorFault cyc v (.eng c e) = (v.haltChaser c.val e n).entryFault c.val e n (f (some n))) ∧
      (s.engBlock c.val e = some (.push fs, b) →
        let k := (s.core c.val).eq e
        s.monitorFault cyc v (.eng c e) = (v.haltQueue c.val e { core := c, xs := k.heldXs } k.heldNum (f none)).onEq c.val e
          fun x => { x with held := [] }))

/-- Tasks retire, are discarded or watched, and waits time out. -/
def Obligations.TaskEndsAndDeadlines : Prop :=
  Sys2Proof.Machine.TaskEndsRule ∧ Sys2Proof.Machine.ProgressRule ∧ Sys2Proof.Machine.ChaseTimeoutResultsRule
/-! ## Hosts and other packages (R12, R40, R304, R331, R333) -/

/-- `t` differs from `s` in memory, its poison, the lines that waits watch, and what leaves the package. -/
def Sys2Proof.Machine.MemoryFrame (s t : State) : Prop :=
  t = { s with mem := t.mem, mpois := t.mpois, waits := t.waits, outbox := t.outbox }

/-- R40, R304, R331, R333, R376: a trained port's host reads memory that it may see, and where it is the owner writes it; a write of
another host is refused, and so is an access of what it may not see, as it travelled: nothing answers a posted write; every snoop misses; a
replay goes out again on its port, where that is up; an acknowledgement is counted, and what waited for it goes on; a port trains in the
mode it is given. A port that has not trained, and a range that a remapping holds, do nothing yet (that a hold delays an access whole, and
that a host names frames by physical address, are the model's choices, logs 62 and 81). -/
def Sys2Proof.Machine.HostResultsRule : Prop :=
  ∀ (s : State) (port : Fin 2) (how : Travel) (pa : BitVec 48) (bytes : List Byte) (n : Nat) (mode : PortMode) (p : Fin 48) (c : CoreId)
    (k : Fin 48),
    let a := pa.toNat
    let u := s.settled
    let w := hostMaster port how
    let reach (m : Nat) : Prop := shas s.ports port.val = true ∧ 0 < m ∧ (sectorsOf a m).any s.heldAt = false
    let sees (x : State) (m : Nat) : Bool := (sectorsOf a m).all x.hostSees
    let refused (x : State) : State := if how = .posted then x else x.send (.refusal port.val how)
    (reach bytes.length → u.mayWrite w = false → exec (.hostWrite ⟨port, how⟩ pa bytes) s = .next (u.refuse w)) ∧
    (reach bytes.length → u.mayWrite w = true → sees u bytes.length = false →
      exec (.hostWrite ⟨port, how⟩ pa bytes) s = .next (refused u)) ∧
    (reach bytes.length → u.mayWrite w = true → sees u bytes.length = true →
      exec (.hostWrite ⟨port, how⟩ pa bytes) s = .next ((u.invOthers port.val (sectorsOf a bytes.length)).outsideWrite a bytes false) ∧
      (a % 64 + bytes.length ≤ 64 → ∃ t : State, exec (.hostWrite ⟨port, how⟩ pa bytes) s = .next t ∧ MemoryFrame u t ∧
        (∀ j < bytes.length, sget t.mem (s.place a + j) memInit = bytes.getD j 0) ∧ SameOutside s.mem t.mem (s.place a) bytes.length)) ∧
    ((shas s.ports port.val = false ∨ bytes = [] ∨ (sectorsOf a bytes.length).any s.heldAt = true) →
      exec (.hostWrite ⟨port, how⟩ pa bytes) s = .next s) ∧
    (reach n →
      (sees s n = true → exec (.hostRead ⟨port, how⟩ pa n) s = .next (s.send (.completion port.val true (s.bytes a n)))) ∧
      (sees s n = false → exec (.hostRead ⟨port, how⟩ pa n) s = .next (refused s))) ∧
    (¬ reach n → exec (.hostRead ⟨port, how⟩ pa n) s = .next s) ∧
    ((sget s.ports port.val .pcie = .cxl → exec (.hostSnoop port pa) s = .next (s.send (.snoopMiss port.val))) ∧
      (sget s.ports port.val .pcie = .pcie → exec (.hostSnoop port pa) s = .next s)) ∧
    (exec (.hostPortTraining port mode) s = .next { s with ports := sput s.ports port.val mode }) ∧
    ((s.portUp p.val = true → exec (.linkReplay p) s = .next (s.send (.replay p.val))) ∧
      (s.portUp p.val = false → exec (.linkReplay p) s = .next s)) ∧
    (exec (.remoteAck (.core c)) s = .next (s.onCore c.val fun x => { x with remoteOut := x.remoteOut - 1 }).lateResume) ∧
    (exec (.remoteAck (.crier k)) s = .next (s.setCrier k.val { s.crier k.val with remoteOut := (s.crier k.val).remoteOut - 1 }))

/-- R12, R289, R328, R423: another package's request that comes over a fabric port is served at its home here: a read answers the bytes
and their poison, a write changes exactly its bytes, an atomic answers the old value and writes the new one, a compare-and-swap only
where the old one is as expected; a frame that does not serve other packages is refused (which frames these are is the model's choice,
log 41). With every port down none comes. -/
def Sys2Proof.Machine.RemoteRequestResultsRule : Prop :=
  ∀ (s : State) (pk : Fin 256) (r : RemoteReq) (pa : BitVec 48) (m : Fin 129) (bytes : List Byte) (pz f32 wide : Bool) (op : AtomOp)
    (v old new : Word),
    let a := pa.toNat
    let n := if wide then 8 else 4
    let reach (a n : Nat) : Prop := 0 < n ∧ pk.val ≠ s.pkg.toNat ∧ s.fabricUp = true ∧ (sectorsOf a n).any s.heldAt = false
    let sees (a n : Nat) : Bool := (sectorsOf a n).all s.remoteSees
    let reply (x : State) (ok : Bool) (bs : List Byte) (p : Bool) : State := x.send (.remoteReply pk.val ok bs p)
    let atomOk : Prop := a % n = 0 ∧ s.frameHome a ≠ 3
    let at_ (i : Instr) (x : Nat) : Prop := ∃ t : State, exec i s = .next t ∧ MemoryFrame s t ∧ Spells t.mem (s.place a) n x ∧
      SameOutside s.mem t.mem (s.place a) n ∧ t.outbox.getLast? = some (.remoteReply pk.val true (s.bytes a n) false)
    (s.fabricUp = false → exec (.remoteRequest pk r) s = .next s) ∧
    (reach (reqAddr r) (reqLen r) → sees (reqAddr r) (reqLen r) = false → exec (.remoteRequest pk r) s = .next (reply s false [] false)) ∧
    (reach a m.val → sees a m.val = true → paIdx a ≠ 15 →
      exec (.remoteRequest pk (.read pa m)) s = .next (reply s true (s.bytes a m.val) (s.poisAt a m.val))) ∧
    (reach a m.val → sees a m.val = true → paIdx a = 15 →
      exec (.remoteRequest pk (.read pa m)) s = .next (reply (s.ioRead a m.val).2 true (s.ioRead a m.val).1 false)) ∧
    (reach a bytes.length → sees a bytes.length = true → paIdx a = 15 →
      exec (.remoteRequest pk (.write pa bytes pz)) s = .next (reply (s.ioWrite a bytes) true [] false)) ∧
    (reach a bytes.length → sees a bytes.length = true → paIdx a ≠ 15 →
      exec (.remoteRequest pk (.write pa bytes pz)) s = .next (reply (s.outsideWrite a bytes pz) true [] false) ∧
      (a % 64 + bytes.length ≤ 64 → ∃ t : State, exec (.remoteRequest pk (.write pa bytes pz)) s = .next t ∧ MemoryFrame s t ∧
        (∀ j < bytes.length, sget t.mem (s.place a + j) memInit = bytes.getD j 0) ∧ SameOutside s.mem t.mem (s.place a) bytes.length)) ∧
    (reach a n → sees a n = true → atomOk → s.poisAt a n = false →
      at_ (.remoteRequest pk (.atomic pa op f32 wide v)) (newAtom f32 op n (s.physNat a n) v.toNat) ∧
      (s.physNat a n = old.toNat % 2 ^ (8 * n) → at_ (.remoteRequest pk (.cas pa wide old new)) (new.toNat % 2 ^ (8 * n))) ∧
      (s.physNat a n ≠ old.toNat % 2 ^ (8 * n) →
        exec (.remoteRequest pk (.cas pa wide old new)) s = .next (reply s true (s.bytes a n) false))) ∧
    (reach a n → sees a n = true → atomOk → s.poisAt a n = true →
      exec (.remoteRequest pk (.atomic pa op f32 wide v)) s = .next (reply s true (s.bytes a n) true) ∧
      exec (.remoteRequest pk (.cas pa wide old new)) s = .next (reply s true (s.bytes a n) true)) ∧
    (reach a n → sees a n = true → ¬ atomOk →
      exec (.remoteRequest pk (.atomic pa op f32 wide v)) s = .next (reply s false [] false) ∧
      exec (.remoteRequest pk (.cas pa wide old new)) s = .next (reply s false [] false))

/-- Hosts and other packages reach what they may. -/
def Obligations.OutsideRequests : Prop :=
  Sys2Proof.Machine.HostResultsRule ∧ Sys2Proof.Machine.RemoteRequestResultsRule

/-! ## Owners and registers (R373-R396) -/

/-- R374-R376: a master's claim, the beginning and the end of an election, and the loss of ownership. An election ends 1,250,000 clocks
after it began, and what comes from then on finds it decided, but that a claim and a change of a link in that very clock still count. A refused write changes nothing but the count of refusals, and is answered as it
travelled. -/
def Sys2Proof.Machine.ElectionRule : Prop :=
  ∀ (s : State) (p port : Fin 4) (how : Travel) (v : Word) (up : Bool) (t0 m : Nat),
    let y := s.syc
    let u := s.settled
    let b := s.settledBefore
    let z := b.syc
    let w : Writer := .master p how
    let claims (c : Claim) : State := b.onSyc fun x => { x with claims := listSet x.claims p.val c }
    let begun (x : State) : State :=
      if x.syc.ownerValid = false ∧ x.syc.electionAt = none ∧ x.syc.livePorts ≠ [] ∧ x.syc.state ≠ 0
      then x.onSyc fun o => { o with electionAt := some x.clock } else x
    let lost (x : State) : State :=
      if x.syc.ownerValid then begun (x.onSyc fun o => { o with ownerValid := false, epoch := o.epoch + 1 }) else x
    ((y.electionAt = none ∨ ∃ n, y.electionAt = some n ∧ s.clock < n + 1250000) → u = s) ∧
    ((y.electionAt = none ∨ ∃ n, y.electionAt = some n ∧ s.clock ≤ n + 1250000) → b = s) ∧
    (y.electionAt = some t0 → t0 + 1250000 ≤ s.clock → exec .ownerElectionEnd s = .next u) ∧
    (y.electionAt = some t0 → t0 + 1250000 < s.clock → b = u) ∧
    (p ≠ port → exec (.claimWrite ⟨p, how⟩ port v) s = .next (if u.mayWrite w then u else u.refuse w)) ∧
    ((z.owns p.val && z.hgoBusy) = true → exec (.claimWrite ⟨p, how⟩ p v) s = .next (b.refuse w)) ∧
    (s.refuse w = (let x := s.onSyc fun o => { o with refusals := o.refusals + 1 }
      if how = .posted then x else x.send (.refusal p.val how))) ∧
    ((z.owns p.val && z.hgoBusy) = false →
      (z.state = 0 → exec (.claimWrite ⟨p, how⟩ p v) s = .next b) ∧
      (z.state ≠ 0 → let x := claims { z.claimOf p.val with prio := v.extractLsb' 8 8, claim := v.getLsbD 0 }
        exec (.claimWrite ⟨p, how⟩ p v) s = .next (if z.owns p.val && !v.getLsbD 0 then lost x else begun x))) ∧
    (y.electionAt = some t0 →
      (s.clock < t0 + 1250000 → exec .ownerElectionEnd s = .next s) ∧
      (t0 + 1250000 ≤ s.clock → y.livePorts = [] → exec .ownerElectionEnd s = .next (s.onSyc fun z => { z with electionAt := none })) ∧
      (t0 + 1250000 ≤ s.clock → m < 4 → (y.claimOf m).live = true →
        (∀ j < 4, (y.claimOf j).live = true → (y.claimOf m).prio < (y.claimOf j).prio ∨ ((y.claimOf m).prio = (y.claimOf j).prio ∧ m ≤ j)) →
        exec .ownerElectionEnd s = .next (s.onSyc fun z =>
          { z with electionAt := none, ownerValid := true, ownerPort := BitVec.ofNat 2 m, epoch := z.epoch + 1 }))) ∧
    (y.electionAt = none → exec .ownerElectionEnd s = .next s) ∧
    (exec .ownerLoss s = .next (lost u)) ∧
    (let x := claims { z.claimOf p.val with link := up }
     exec (.masterLinkChange p up) s = .next (if z.owns p.val && !up then lost x else begun x))

/-- R377, R394-R396: handover, reports and SVN minima: who may ask, what stands while a request is checked, and what its end leaves. -/
def Sys2Proof.Machine.HandoverRule : Prop :=
  ∀ (s : State) (w : Writer) (v : Word),
    let y := s.syc
    let u := s.settled
    (u.mayWrite w = false → exec (.hgoWrite w v) s = .next (u.refuse w) ∧ exec (.svnsetWrite w v) s = .next (u.refuse w)) ∧
    (u.mayWrite w = true →
      (v.getLsbD 0 = true → exec (.hgoWrite w v) s = .next (u.onSyc fun z => { z with hgoBusy := true })) ∧
      (v.getLsbD 0 = false → exec (.hgoWrite w v) s = .next (u.onSyc fun z => { z with hnonce := Config.nextNonce z.hnonce })) ∧
      (let c := v.toNat % 16
       (c ≤ 2 → u.syc.svnMin.getD c 0 < u.runningSvn c →
         exec (.svnsetWrite w v) s = .next (u.onSyc fun z => { z with svnMin := listSet z.svnMin c (u.runningSvn c) })) ∧
       ((2 < c ∨ u.runningSvn c ≤ u.syc.svnMin.getD c 0) → exec (.svnsetWrite w v) s = .next u))) ∧
    (y.hgoBusy = false → exec .hstatUpdate s = .next s) ∧
    (y.hgoBusy = true → exec .hstatUpdate s = .next (s.onSyc fun z =>
      let x := { z with hgoBusy := false, hstat := BitVec.ofNat 64 y.handover, hnonce := Config.nextNonce z.hnonce }
      if y.handover = 0 then { x with ownerPort := z.hreq.extractLsb' 0 2, epoch := z.epoch + 1 } else x)) ∧
    (y.handover ≤ 4 ∧ (y.opFused = false → y.handover = 1)) ∧
    ((∀ p how, w = .master p how → u.syc.owns p.val = true → u.syc.hgoBusy = false) →
      (u.syc.attgo = false → v.getLsbD 0 = true →
        exec (.attgoWrite w v) s = .next (u.onSyc fun z => { z with attgo := true, attNonce := z.nonce })) ∧
      ((u.syc.attgo = true ∨ v.getLsbD 0 = false) → exec (.attgoWrite w v) s = .next u)) ∧
    (∀ p how, w = .master p how → u.syc.owns p.val = true → u.syc.hgoBusy = true → exec (.attgoWrite w v) s = .next (u.refuse w)) ∧
    (y.attgo = false → exec .reportReady s = .next s) ∧
    (y.attgo = true → ∃ r : BitVec 4608, exec .reportReady s = .next (s.onSyc fun z => { z with attgo := false, report := r }) ∧
      ∀ k < 192, r.toNat / 256 ^ k % 256 = (s.reportHead.getD k 0).toNat)

/-- Claims, elections, the loss of ownership, handover, reports and SVN minima. -/
def Obligations.OwnershipResults : Prop :=
  Sys2Proof.Machine.ElectionRule ∧ Sys2Proof.Machine.HandoverRule

/-- R13, R15, R221, R376, R379, R386, R388, R392, R424: what a writer with the right to write may change, under the acceptance rule
of each register; a master without it changes nothing but the count of refusals. That CBIND of a die that is not live is not written
(log 49), that a queue's CTX is taken as BASE is (log 61), and what an enabled pool does to lines in L1 (log 80) are the model's choices. -/
def Sys2Proof.Machine.RegisterWriteResultsRule : Prop :=
  ∀ (s : State) (w : Writer) (v : Word) (q : Fin 256) (wd : Fin 4) (c : Fin 64) (pl : Fin 16) (w2 : Fin 2) (i : Fin 12) (n : Fin 3)
    (off : BitVec 34) (sy : Bool) (k : Nat),
    let u := s.settled
    (u.mayWrite w = false →
      exec (.queueDescriptorWrite w q wd v) s = .next (u.refuse w) ∧ exec (.contextDescriptorWrite w c v) s = .next (u.refuse w) ∧
      exec (.poolDescriptorWrite w pl w2 v) s = .next (u.refuse w) ∧ exec (.pkgsetWrite w v) s = .next (u.refuse w) ∧
      (w ≠ .syc → exec (.smapWrite w i v) s = .next (u.refuse w)) ∧ exec (.segwWrite w n v) s = .next (u.refuse w) ∧
      exec (.tlbiWrite w v) s = .next (u.refuse w) ∧
      (¬(sy = true ∧ 0x1000 ≤ off.toNat / 8 * 8 ∧ off.toNat / 8 * 8 < 0x1020) → exec (.registerWrite w sy off v) s = .next (u.refuse w))) ∧
    (u.mayWrite w = true →
      (let d := u.queue q.val
       (d.free = d.tail → exec (.queueDescriptorWrite w q wd v) s = .next (u.setQueue q.val (d.setWord wd.val v))) ∧
       (d.free ≠ d.tail → wd ≠ 3 →
         exec (.queueDescriptorWrite w q wd v) s = .next (if d.setWord wd.val v = d then u.setQueue q.val d else u)) ∧
       (d.free ≠ d.tail → exec (.queueDescriptorWrite w q 3 v) s =
         if min 20 (max 4 (v.toNat / 2 ^ 12 % 32)) = d.log2n ∧ v.toNat / 2 ^ 8 % 16 = d.cls
         then .next (u.setQueue q.val { d with en := v.getLsbD 17, tickets := v.toNat % 256 }) else .next u)) ∧
      (let d := u.ctx c.val
       (d.en = true → v.extractLsb' 16 32 ≠ d.root → exec (.contextDescriptorWrite w c v) s = .next u) ∧
       (d.jtb = 0 → v.getLsbD 63 = true → exec (.contextDescriptorWrite w c v) s = .next u) ∧
       (¬(d.en = true ∧ v.extractLsb' 16 32 ≠ d.root) → ¬(v.getLsbD 63 = true ∧ d.jtb = 0) →
         let x (o : State) : State := o.onCtx c.val fun k => { k with en := v.getLsbD 63, mgmt := v.getLsbD 62, root := v.extractLsb' 16 32 }
         (v.getLsbD 62 = false → exec (.contextDescriptorWrite w c v) s = .next (if v.getLsbD 63 then (x u).lateResume else x u)) ∧
         (v.getLsbD 62 = true → ∃ o : State, (∀ j, (o.ctx j).mgmt = false) ∧ o = { u with ctxs := o.ctxs } ∧
           (swf (fun _ => Ctx.reset) u.ctxs = true → ∀ j, o.ctx j = { u.ctx j with mgmt := false }) ∧
           exec (.contextDescriptorWrite w c v) s = .next (if v.getLsbD 63 then (x o).lateResume else x o)))) ∧
      (let d := u.pool pl.val
       (d.en = true → exec (.poolDescriptorWrite w pl 1 v) s = .next u) ∧
       (d.en = false → exec (.poolDescriptorWrite w pl 1 v) s =
         .next (u.setPool pl.val { d with npg := v.extractLsb' 48 16, bmap := v.extractLsb' 3 45 })) ∧
       (let e : Pool := { d with en := v.getLsbD 63, ctx := v.toNat / 2 ^ 52 % 64, pfb := v.extractLsb' 16 32 }
        let clash := e.en && (List.range 16).any fun k => k != pl.val && (u.pool k).en && e.meets (u.pool k)
        (d.en = true → exec (.poolDescriptorWrite w pl 0 v) s = .next (if e = { d with en := false } then u.setPool pl.val e else u)) ∧
        (d.en = false → clash = true → exec (.poolDescriptorWrite w pl 0 v) s = .next u) ∧
        (d.en = false → clash = false →
          exec (.poolDescriptorWrite w pl 0 v) s = .next ((if e.en then u.dropPool e else u).setPool pl.val e)))) ∧
      (u.allOff = true → exec (.pkgsetWrite w v) s = .next { u with pkg := v.extractLsb' 0 8 }) ∧
      (u.allOff = false → exec (.pkgsetWrite w v) s = .next u) ∧
      (u.windowInUse n.val = true → exec (.segwWrite w n v) s = .next (u.send (.segwInUse n.val))) ∧
      (u.windowInUse n.val = false →
        exec (.segwWrite w n v) s = .next (u.onSyc fun y => { y with segw := listSet y.segw n.val (v.extractLsb' 0 4) })) ∧
      (u.tlbi = none → exec (.tlbiWrite w v) s = .next { u with tlbi := some v }) ∧
      (u.tlbi.isSome = true → exec (.tlbiWrite w v) s = .next { u with tlbDrop := true }) ∧
      (k < 6 → exec (.registerWrite w false (BitVec.ofNat 34 (0x20100 + 8 * k)) v) s =
        if (u.die k).state = 0 then .next (u.onDie k fun d => { d with cbind := v.extractLsb' 0 16 }) else .next u) ∧
      (k < 16 → exec (.registerWrite w false (BitVec.ofNat 34 (0x20000 + 8 * k)) v) s =
        if (v.extractLsb' 0 32 : BitVec 32) = 0 then .next u else .next (u.setClx k (v.extractLsb' 0 32)))) ∧
    ((w = .syc ∨ u.mayWrite w = true) →
      let g : BitVec 5 := v.extractLsb' 0 5
      let x := if w = .syc then s else u
      let clash : Prop := x.syc.trained.getLsbD g.toNat = true ∧ ∃ j < 12, j ≠ i.val ∧ (x.smapOf j).goal = g
      (g.toNat < 6 ∨ 17 < g.toNat ∨ clash → exec (.smapWrite w i v) s = .next x) ∧
      (6 ≤ g.toNat → g.toNat ≤ 17 → ¬ clash →
        exec (.smapWrite w i v) s = .next (x.setSmap i.val { x.smapOf i.val with rewrite := some g }))) ∧
    (exec (.tlbsRead w) s = .next (({ s with tlbDrop := false } : State).answer w
      (BitVec.ofNat 64 (s.tlbi.isSome.toNat + 2 * s.tlbDrop.toNat)))) ∧
    (∃ r : Word, exec (.pwrRead w) s = .next ((s.onSyc fun y => { y with pmax := 0 }).answer w r) ∧
      (r.extractLsb' 32 16 : BitVec 16) = s.syc.pin ∧ (r.extractLsb' 16 16 : BitVec 16) = s.syc.pmax)

/-- R13, R293, R386: a rewrite of the socket map takes effect for every index at once, and its held traffic goes on; a slice-pinned page
stays in its slice and keeps its bytes and poison, where any other page of the index reads as its new socket does (the model's choice,
log 38); an invalidation ends with
no matching entry in any TLB or walk cache of the package, and waits while an access that used one may not be performed: a core's or a
crier's write to another package, a return-free atomic of its context, or a dirty line of its context that cannot be written back (what the wait covers is the model's
choice, log 35). -/
def Sys2Proof.Machine.RemappingCompletesRule : Prop :=
  ∀ (s : State) (v : Word),
    (∃ t : State, exec .smapRewriteComplete s = .next t.lateResume ∧ t = { s with smap := t.smap, mem := t.mem, mpois := t.mpois } ∧
      (∀ i < 12, t.smapOf i = { socket := (s.smapOf i).rewrite.getD (s.smapOf i).socket, rewrite := none }) ∧
      (MemOk s → (∀ i < 12, ∀ j < 12, (s.smapOf i).socket = (s.smapOf j).socket ∨ (t.smapOf i).socket = (t.smapOf j).socket → i = j) →
        ∀ pa : Nat, s.isLocal pa = true → paIdx pa ≤ 11 →
          sget t.mem (t.place pa) memInit = sget s.mem (if s.frameHome pa = 2 then s.place pa else t.place pa) memInit ∧
          (s.frameHome pa = 2 → t.secPois pa = s.secPois pa))) ∧
    (s.tlbi = none → exec .tlbiComplete s = .next s) ∧
    (s.tlbiWaits v.toNat = true ↔ (∃ c ∈ s.cores, 0 < c.2.remoteOut ∨ (∃ o ∈ c.2.nrOut, tlbiCtx v.toNat o.ctx = true) ∨
      s.wbStops c.1 (s.tlbiLines v.toNat c.1) ≠ none) ∨ ∃ k ∈ s.criers, 0 < k.2.remoteOut) ∧
    (s.tlbi = some v → s.tlbiWaits v.toNat = true → exec .tlbiComplete s = .next s) ∧
    (s.tlbi = some v → s.tlbiWaits v.toNat = false →
      let keeps (ctx va size : Nat) : Prop := tlbiMatch v.toNat ctx va size = false
      ∃ t : State, exec .tlbiComplete s = .next t ∧ t.tlbi = none ∧
        (∀ c : CoreId, (∀ e ∈ (t.core c.val).coreTlb, keeps e.ctx e.va (pageSize e.leaf.sz)) ∧
          (∀ e ∈ (t.core c.val).as.fetchTlb, keeps e.ctx e.va (pageSize e.leaf.sz)) ∧
          (∀ e ∈ (t.core c.val).xs.fetchTlb, keeps e.ctx e.va (pageSize e.leaf.sz))) ∧
        (∀ q : QuadId, (∀ e ∈ (t.quad q.val).quadTlb, keeps e.ctx e.va (pageSize e.leaf.sz)) ∧
          ∀ e ∈ (t.quad q.val).walkCache, keeps e.ctx (e.va * walkSpan e.level) (walkSpan e.level)) ∧
        (∀ k : Fin 48, ∀ e ∈ (t.crier k.val).tlb, keeps e.ctx e.va (pageSize e.leaf.sz)))

/-- Register writes under their acceptance rules, and the remappings that complete. -/
def Obligations.RegisterWrites : Prop :=
  Sys2Proof.Machine.RegisterWriteResultsRule ∧ Sys2Proof.Machine.RemappingCompletesRule

/-! ## Dies, checkpoints, errors (R408-R418) -/

/-- R235, R414-R416, R427: a die's life: quiesce, fence, deadline, rehoming, training, re-admission, failure; in a package that has
tripped none of them completes. -/
def Obligations.DieResults : Prop :=
  ∀ (s : State) (w : Writer) (d : Fin 6) (v : Word) (bad : Bool),
    let k := s.die d.val
    let u := s.settled
    let empty (t : State) : Prop := ∀ c : CoreId, dieOf c.val = d.val → t.core c.val = Core.reset
    (u.mayWrite w = false → exec (.dieQuiesce w d v) s = .next (u.refuse w) ∧ exec (.dieReadmit w d v) s = .next (u.refuse w)) ∧
    (s.tripped = true → exec (.dieFence d) s = .next s ∧ exec (.dieQuiesceDeadline d) s = .next s ∧
      exec (.sliceRehomingComplete d) s = .next s ∧ exec (.dieTrainingComplete d bad) s = .next s ∧ exec (.dieFailure d) s = .next s ∧
      (u.mayWrite w = true → exec (.dieQuiesce w d v) s = .next u ∧ exec (.dieReadmit w d v) s = .next u)) ∧
    (s.tripped = false →
      (u.mayWrite w = true → k.state = 5 → exec (.dieQuiesce w d v) s = .next (u.setDie d.val { k.setDl v with state := 2 })) ∧
      (u.mayWrite w = true → k.state = 0 →
        ∃ t : State, exec (.dieQuiesce w d v) s = .next t ∧
          t.die d.val = { k.setDl v with state := 1, saved := k.cbind, cbind := 0, quiesceAt := s.clock }) ∧
      (u.mayWrite w = true → k.state ≠ 0 → k.state ≠ 5 → exec (.dieQuiesce w d v) s = .next u) ∧
      (k.state = 1 → s.dieBusy d.val = false → s.dieOutstanding d.val = false →
        ∃ t : State, exec (.dieFence d) s = .next t ∧ (t.die d.val).state = 2 ∧ empty t) ∧
      ((k.state ≠ 1 ∨ s.dieBusy d.val = true ∨ s.dieOutstanding d.val = true) → exec (.dieFence d) s = .next s) ∧
      ((k.state ≠ 1 ∨ s.clock < k.quiesceAt + 1250 * k.dl.toNat) → exec (.dieQuiesceDeadline d) s = .next s) ∧
      (k.state = 1 → k.quiesceAt + 1250 * k.dl.toNat ≤ s.clock →
        ∃ t : State, exec (.dieQuiesceDeadline d) s = .next t ∧ (t.die d.val).state = 2 ∧ empty t) ∧
      (k.state = 2 → exec (.sliceRehomingComplete d) s =
        .next (s.onDie d.val fun x => { x with state := 3, unhashed := true }).lateResume) ∧
      (k.state ≠ 2 → exec (.sliceRehomingComplete d) s = .next s) ∧
      (k.state = 3 → exec (.dieTrainingComplete d true) s = .next (s.onDie d.val fun x => { x with state := 5 }) ∧
        ∃ t : State, exec (.dieTrainingComplete d false) s = .next t ∧ t.die d.val = { k with state := 4 } ∧
          t = { s with dies := t.dies, syc := { s.syc with hist := t.syc.hist } }) ∧
      (k.state ≠ 3 → exec (.dieTrainingComplete d bad) s = .next s) ∧
      (u.mayWrite w = true → k.state = 4 →
        exec (.dieReadmit w d v) s =
          .next (u.setDie d.val { k.setDl v with state := 0, cbind := k.saved, unhashed := false }).lateResume) ∧
      (u.mayWrite w = true → k.state ≠ 4 → exec (.dieReadmit w d v) s = .next u) ∧
      (k.state < 5 → ∃ t : State, exec (.dieFailure d) s = .next t ∧ (t.die d.val).state = 5 ∧ (t.die d.val).cbind = 0 ∧ empty t) ∧
      (5 ≤ k.state → exec (.dieFailure d) s = .next s))

/-- R408: closing an interval. R410, R411: a rollback's refusals and its beginning, with the tasks that FORCE stops. -/
def Sys2Proof.Machine.RollbackStartRule : Prop :=
  ∀ (s : State) (w : Writer) (v : Word) (ctx : Fin 64) (core : CoreId) (tk : Task),
    let u := s.settled
    let c := v.toNat / 2 ^ 58
    let k := u.ctx c
    let force := v.getLsbD 1
    let stopped := (u.ctxCores c).foldl State.forceStop u
    let busy : Prop := k.en = true ∨ k.pendingWork = true ∨
      (force = false ∧ ∃ x ∈ u.cores, ∃ t : Task, x.2.task = some t ∧ t.ctx = c ∧ t.gone = false)
    (let x := s.ctx ctx.val
     (x.ckEn = true → x.logCap ≤ x.ckUsed → exec (.logFullForcedClose ctx) s = .next (s.forceClose ctx.val)) ∧
     (¬(x.ckEn = true ∧ x.logCap ≤ x.ckUsed) → exec (.logFullForcedClose ctx) s = .next s) ∧
     (let t := s.closeInterval ctx.val
      (t.ctx ctx.val).ckIntv = x.ckIntv + 1 ∧ (t.ctx ctx.val).ckUsed = 0 ∧ (t.ctx ctx.val).ckLines = [] ∧ t.mem = s.mem)) ∧
    (u.mayWrite w = false → exec (.rollback w v) s = .next (u.refuse w)) ∧
    (u.mayWrite w = true → (v.getLsbD 0 = false ∨ u.rollback.isSome = true) → exec (.rollback w v) s = .next u) ∧
    (u.mayWrite w = true → v.getLsbD 0 = true → u.rollback = none →
      (k.ckEn = false → exec (.rollback w v) s = .next { u with rbsStatus := 3, rbsLines := 0 }) ∧
      (k.ckEn = true → busy → exec (.rollback w v) s = .next { u with rbsStatus := 2, rbsLines := 0 }) ∧
      (k.ckEn = true → ¬ busy → exec (.rollback w v) s =
        .next { stopped.onCtx c fun k => { k with watches := [] } with rbsStatus := 1, rbsLines := 0, rollback := some c })) ∧
    ((s.core core.val).task = some tk → tk.gone = false →
      (tk.committed = false → s.forceStop core.val = s.discardTask core.val) ∧
      (tk.committed = true → s.forceStop core.val =
        (s.fqWrite (s.mkRec core.val 11 0 true (mkFault 0x18 (detailOf 0 0 0xC4)))).faultTask core.val))

/-- R212, R408, R411: a restored line takes back the bytes and the poison of its two sectors that its log entry holds. A rollback ends when
what had started has completed (the wait for started entries is the model's choice, log 36): with STATUS 0 and the count of its lines, an empty log, no line in any L1, the context's queues at their
snapshots, and no record of the context, held or spawned, that still waits for a slot. -/
def Sys2Proof.Machine.RollbackEndRule : Prop :=
  ∀ (s : State) (c i q : Nat),
    (let at_ := (s.ctx c).ckLogb.toNat * 65536 + 136 * i
     let line := s.physNat at_ 8 % 2 ^ 48 / 128 * 128
     s.isLocal line = true →
     let t := s.restoreLine c i
     (∀ j < 128, sget t.mem (s.place line + j) memInit = s.byte (at_ + 8 + j)) ∧ SameOutside s.mem t.mem (s.place line) 128 ∧
       MemoryFrame s t ∧ t.secPois line = (s.physNat at_ 8).testBit 0 ∧ t.secPois (line + 64) = (s.physNat at_ 8).testBit 1 ∧
       ∀ k, k ≠ s.secPlace line → k ≠ s.secPlace (line + 64) → t.mpois.contains k = s.mpois.contains k) ∧
    (s.rollback = none → exec .rollbackDone s = .next s) ∧
    (s.rollback = some c → (s.ctxBusy c = true ∨ s.rollbackHeld c = true) → exec .rollbackDone s = .next s) ∧
    (s.rollback = some c → s.ctxBusy c = false → s.rollbackHeld c = false →
      let b := s.wbCores s.coreKeys
      let t := s.restoreCtx c
      exec .rollbackDone s = .next t ∧ t.rbsStatus = 0 ∧ t.rbsLines = BitVec.ofNat 32 (b.ctx c).ckUsed ∧ t.rollback = none ∧
        (t.ctx c).ckUsed = 0 ∧ (t.ctx c).ckLines = [] ∧ (∀ x : CoreId, (t.core x.val).l1 = []) ∧
        (∀ h ∈ t.heldRecs, (t.queue h.queue).ctx ≠ c) ∧
        (∀ p ∈ t.launches, ¬(p.enq.spawn = true ∧ p.trig = none ∧ p.gate = none ∧ (t.queue p.enq.queue).ctx = c)) ∧
        (q < 256 → (b.queue q).ctx = c → t.queue q = (b.queue q).rollBack) ∧ (q < 256 → (b.queue q).ctx ≠ c → t.queue q = b.queue q))

/-- Intervals close, and a rollback begins, restores and ends. -/
def Obligations.CheckpointResults : Prop :=
  Sys2Proof.Machine.RollbackStartRule ∧ Sys2Proof.Machine.RollbackEndRule

/-- R298, R302: an uncorrectable error poisons its granule where the storage exists, a block's metadata all eight sectors of the block,
a flit whose replays run out the sector it was on its way to; and the SYC logs where it arose. -/
def Sys2Proof.Machine.UncorrectableRule : Prop :=
  ∀ (s : State) (pa : BitVec 48) (c : CoreId) (g : Fin 196608) (r : VReg) (gr : Fin 32) (p : Fin 48) (e : ErrPlace),
    let a := pa.toNat
    let here : Prop := s.isLocal a = true ∧ paIdx a ≠ 15
    let logged (x : State) (e : ErrPlace) : State := { x with syc := { s.syc with errLog := s.syc.errLog ++ [e] } }
    let sector (x : State) (k : Nat) : State := { x with mpois := nins x.mpois (s.secPlace k) }
    (here → exec (.uncorrectableError (.mem pa)) s = .next (logged (sector s a) (.mem pa))) ∧
    (here → fld (s.fatEntry a) 3 1 = 1 → exec (.uncorrectableError (.cmpBlock pa)) s =
      .next (logged ((List.range 8).foldl (fun x k => sector x (a / 512 * 512 + 64 * k)) s) (.cmpBlock pa))) ∧
    (here → s.portUp p.val = true → exec (.uncorrectableError (.flit p pa)) s = .next (logged (sector s a) (.flit p pa))) ∧
    (exec (.uncorrectableError (.cell c g)) s =
      .next (logged (s.onCore c.val fun x => { x with scPois := nins x.scPois g.val }) (.cell c g))) ∧
    (∃ t : State, exec (.uncorrectableError (.vgran c r gr)) s = .next (logged t (.vgran c r gr)) ∧ OnlyCore s t c.val ∧
      ((t.core c.val).vreg r.val).pois = ((s.core c.val).vreg r.val).pois ||| BitVec.ofNat 32 (2 ^ gr.val) ∧
      ((t.core c.val).vreg r.val).bits = ((s.core c.val).vreg r.val).bits) ∧
    (s.errAt (.l1 c pa) = true → ∃ t : State, exec (.uncorrectableError (.l1 c pa)) s = .next (logged t (.l1 c pa)) ∧ OnlyCore s t c.val ∧
      ((t.core c.val).l1Of (lineOf a)) = { (s.core c.val).l1Of (lineOf a) with
        pois := ((s.core c.val).l1Of (lineOf a)).pois ||| BitVec.ofNat 2 (2 ^ (a % 128 / 64)) }) ∧
    (s.errAt e = false → exec (.uncorrectableError e) s = .next s)

/-- R412, R413, R417, R418: a mismatch is counted, and at its unit's threshold the unit becomes weak, or stays in use when no spare is
left, with its notice; of a Duthar lane the threshold is a rate. A corrected error of an HBM channel is entered, and the class of its
place decides the action; an old entry is forgotten; a repaired channel's requests go on; a spare lane is switched in. The number of a
sub-array and its STATE (log 32), and the flits over which a lane's rate is judged (log 14), are the model's choices. -/
def Sys2Proof.Machine.CorrectedRule : Prop :=
  ∀ (s : State) (kd : Fin 2) (ix : Fin 16777216) (kind : Fin 5) (ch : Fin 384) (bank row col : Nat) (k : Fin 64) (e : ClassEnt),
    (let old := s.histOf kind.val ix.val
     let h := old.mismatch kind.val (Config.flits ix.val s.clock)
     let g := spareGroup kind.val ix.val
     let spare := s.sparesUsed kind.val g < spareCount kind.val g
     let key := histKey kind.val ix.val
     (unitOk kind.val ix.val = false → exec (.correctedError (.unit kind ix)) s = .next s) ∧
     (unitOk kind.val ix.val = true →
       ((h.state ≠ 0 ∨ h.weak kind.val = false) → exec (.correctedError (.unit kind ix)) s = .next (s.setHist kind.val ix.val h)) ∧
       (h.state = 0 → h.weak kind.val = true → spare → kind.val ≤ 2 →
         exec (.correctedError (.unit kind ix)) s = .next (s.setHist kind.val ix.val { h with state := 1 })) ∧
       (h.state = 0 → h.weak kind.val = true → spare → 2 < kind.val → exec (.correctedError (.unit kind ix)) s =
         .next ((s.setHist kind.val ix.val { h with state := 1 }).mgmtNotice 0xC2 key)) ∧
       (h.state = 0 → h.weak kind.val = true → ¬ spare → exec (.correctedError (.unit kind ix)) s =
         .next ((s.setHist kind.val ix.val { h with state := 3 }).mgmtNotice 0xC3 key))) ∧
     h.state = old.state ∧ h.count.toNat = min (old.count.toNat + 1) (2 ^ 32 - 1) ∧
     (kind.val = 2 ∨ kind.val = 3 → (h.weak kind.val = true ↔ (if kind.val = 2 then 16 else 4) ≤ h.count.toNat)) ∧
     (kind.val = 4 → (h.weak kind.val = true ↔ 32 ≤ h.count.toNat)) ∧
     (kind.val = 1 → h.weak 1 = true → h.recent.length = 64 ∧ h.recent.headD 0 - h.recent.getLastD 0 < 2 ^ 40)) ∧
    (s.classifOf ch.val = [] → exec (.correctedError (.hbm ch bank row col)) s = .next (s.setClassif ch.val
      [{ bank := bank, row := row, col := col, count := 1, at_ := s.clock }])) ∧
    (let t := noteError (s.classifOf ch.val) bank row col s.clock
     let x := s.setClassif ch.val t
     let cause (n : Nat) : State := (x.subArray ch.val bank 3).mgmtNotice n (ch.val * 64 + bank % 64)
     let i : Instr := .correctedError (.hbm ch bank row col)
     (classify t bank row col = .bank → exec i s = .next (cause 0xC5)) ∧
     (classify t bank row col = .column → exec i s = .next (cause 0xC6)) ∧
     (classify t bank row col = .row → ∃ o : State, exec i s = .next o ∧ ch.val ∈ o.chanHeld ∧
       o.classifOf ch.val = t.filter fun e => !(e.bank = bank ∧ e.row = row : Bool)) ∧
     (classify t bank row col = .cell ∨ classify t bank row col = .none → exec i s = .next x)) ∧
    ((s.classifOf ch.val)[k.val]? = none → exec (.classifierEntryExpiry ch k) s = .next s) ∧
    ((s.classifOf ch.val)[k.val]? = some e →
      (2 ^ 40 ≤ s.clock - e.at_ → exec (.classifierEntryExpiry ch k) s =
        .next (s.setClassif ch.val (listDel (s.classifOf ch.val) k.val))) ∧
      (s.clock - e.at_ < 2 ^ 40 → exec (.classifierEntryExpiry ch k) s = .next s)) ∧
    (ch.val ∉ s.chanHeld → exec (.hbmChannelRepairEnd ch) s = .next s) ∧
    (ch.val ∈ s.chanHeld → ∃ t : State, exec (.hbmChannelRepairEnd ch) s = .next t.lateResume ∧ ch.val ∉ t.chanHeld ∧
      (∀ o, o ≠ ch.val → (o ∈ t.chanHeld ↔ o ∈ s.chanHeld)) ∧
      t = { s with chanHeld := t.chanHeld, syc := { s.syc with hist := t.syc.hist } }) ∧
    (let h := s.histOf (kd.val + 1) ix.val
     (h.state = 1 → exec (.laneSpareSwitch kd ix) s =
       .next ((s.setHist (kd.val + 1) ix.val { h with state := 2 }).mgmtNotice 0xC2 (histKey (kd.val + 1) ix.val))) ∧
     (h.state ≠ 1 → exec (.laneSpareSwitch kd ix) s = .next s))

/-- Errors: poison where it is found; mismatches, classifiers, repairs and spares. -/
def Obligations.ErrorResults : Prop :=
  Sys2Proof.Machine.UncorrectableRule ∧ Sys2Proof.Machine.CorrectedRule

/-! ## Power, reset and bring-up (R421-R427) -/

/-- R421, R422, R424, R425, R427: throttling changes the readings and nothing else, under the cap in force in the clock's window; a
junction at 110 degrees trips the package; a trip keeps the second tier and loses the rest of memory; a reset starts the bring-up. Where the
readings and the windows come from (log 14), what else a trip clears (log 39) and what a reset keeps (log 63) are the model's choices. -/
def Sys2Proof.Machine.PowerRule : Prop :=
  ∀ (s : State) (pin : BitVec 16) (tj : BitVec 8),
    let y := s.syc
    let cap := y.capNow s.clock
    let above : Prop := cap.1 = true ∧ cap.2.toNat < pin.toNat
    let read (thr pwr : Bool) : State := s.onSyc fun y =>
      { y with pin := pin, pmax := if y.pmax < pin then pin else y.pmax, tj := tj, thr := thr, pwrthr := pwr }
    let tripped (t : State) : Prop := t.syc.state = 7 ∧ t.cores = [] ∧ t.quads = [] ∧ t.launches = [] ∧
      (∀ p, p < 2 ^ 41 → sget t.mem p memInit = memInit) ∧ (∀ p, 2 ^ 41 ≤ p → sget t.mem p memInit = sget s.mem p memInit) ∧
      t.syc.hist = y.hist ∧ t.dies = s.dies ∧ t.queues = s.queues ∧ t.pools = s.pools ∧ t.pkg = s.pkg
    (y.capOld = none → cap = (y.pcapEn, y.pcap)) ∧
    (∀ n c, y.capOld = some (n, c) → cap = if s.clock / 1250000 = n then c else (y.pcapEn, y.pcap)) ∧
    ((above ∨ 100 ≤ tj.toNat) → tj.toNat < 110 → ∃ b : Bool, (b = true ↔ above) ∧ exec (.throttle pin tj) s = .next (read true b)) ∧
    (110 ≤ tj.toNat → ∃ t : State, exec (.throttle pin tj) s = .next t ∧ tripped t) ∧
    (¬(above ∨ 100 ≤ tj.toNat) → exec (.throttle pin tj) s = .next s ∧ exec (.throttleEnd pin tj) s = .next (read false false)) ∧
    ((above ∨ 100 ≤ tj.toNat) → exec (.throttleEnd pin tj) s = .next s) ∧
    (∃ t : State, exec .packageTrip s = .next t ∧ tripped t) ∧
    (∃ t : State, exec .packageReset s = .next t ∧ t.syc.state = 0 ∧ t.clock = 0 ∧ t.cores = [] ∧ t.mem = [] ∧ t.ctxs = [] ∧
      t.syc.hist = y.hist ∧ (∀ c, t.clxOf c = BitVec.ofNat 32 (c + 1)))

/-- R395, R423, R425, R426: each step of the bring-up goes on to the next or is refused with its cause: an image that is accepted runs;
with a die and the stacks of indices 0 and 1 the bring-up service begins, dies and stacks that failed standing out; with the rest of
the training every crier whose image is accepted runs it; READY needs all of it. The steps as events and the layout of an image are the
model's choices (log 40). -/
def Sys2Proof.Machine.BringUpRule : Prop :=
  ∀ (s : State) (img : List Byte) (imgs : List (List Byte)) (dig : BitVec 256) (svn : BitVec 16) (passed : BitVec 6) (live : BitVec 12)
    (r : BootResult) (d : Fin 6) (k : Fin 48),
    let y := s.syc
    let runs (c next : Nat) : State := s.onSyc fun z =>
      { z with imgDigest := listSet z.imgDigest c dig, svnRun := listSet z.svnRun c svn, state := next }
    (y.state = 0 →
      (y.accepts 0 img = some (dig, svn) → exec (.bringUpStep (.image img)) s = .next (runs 0 1).elect) ∧
      (y.accepts 0 img = none → exec (.bringUpStep (.image img)) s = .next (s.bootRefused 1).elect)) ∧
    (y.state = 1 →
      (y.accepts 1 img = some (dig, svn) → exec (.bringUpStep (.image img)) s = .next (runs 1 2)) ∧
      (y.accepts 1 img = none → exec (.bringUpStep (.image img)) s = .next (s.bootRefused 2))) ∧
    (y.state = 2 →
      (passed = 0 → exec (.bringUpStep (.trained passed live)) s = .next (s.bootRefused 3)) ∧
      (passed ≠ 0 → ¬(live.getLsbD 0 = true ∧ live.getLsbD 1 = true) →
        exec (.bringUpStep (.trained passed live)) s = .next (s.bootRefused 4)) ∧
      (passed ≠ 0 → live.getLsbD 0 = true → live.getLsbD 1 = true →
        ∃ t : State, exec (.bringUpStep (.trained passed live)) s = .next t ∧ t.syc.state = 3 ∧ t.stackLive 0 = true ∧ t.stackLive 1 = true ∧
          (passed.getLsbD d.val = true → (t.die d.val).passed = true) ∧
          (passed.getLsbD d.val = false → (t.die d.val).state = 5 ∧ (t.die d.val).unhashed = true))) ∧
    (y.state = 3 → exec (.bringUpStep .service) s = .next (s.onSyc fun z => { z with state := 4 })) ∧
    (y.state = 4 → y.full = true → exec (.bringUpStep (.full live imgs)) s = .next s) ∧
    (y.state = 4 → y.full = false →
      ∃ t : State, exec (.bringUpStep (.full live imgs)) s = .next t ∧ t.syc.state = 4 ∧ t.syc.full = true ∧
        (y.accepts 2 (imgs.getD k.val []) = some (dig, svn) → t.crier k.val = { s.crier k.val with digest := dig, svn := svn, verified := true }) ∧
        (y.accepts 2 (imgs.getD k.val []) = none → t.crier k.val = s.crier k.val)) ∧
    (4 < y.state → exec (.bringUpStep r) s = .next s) ∧
    (s.bootRefused 1 = s.onSyc fun z => { z with state := 6, cause := 1 }) ∧
    (y.state = 4 → y.full = true → exec .ready s = .next (s.onSyc fun z => { z with state := 5 })) ∧
    ((y.state ≠ 4 ∨ y.full = false) → exec .ready s = .next s)

/-- Power, trips, reset and bring-up. -/
def Obligations.PowerAndBringUpResults : Prop :=
  Sys2Proof.Machine.PowerRule ∧ Sys2Proof.Machine.BringUpRule

/-! ## The whole machine -/

/-- The sequencer is free to route: live, with no record that is to be delivered at this clock, on no way into its handler, and with no
wait (R245, R401, R402). -/
def Sys2Proof.Machine.Routes (clock : Nat) (x : Seqr) : Prop :=
  x.status = .live ∧ asyncDue clock x = false ∧ x.entering = none ∧ wakeOf { core := 0, xs := false } x.wait = none ∧ waitsOutside x.wait = false

/-- R58-R63, R75, R82, R426: when it is a sequencer's turn, and the lane at its program counter (past lanes of code 0) holds a word whose
class and continuations decode to an instruction, the step is that instruction's meaning, with the instruction latched and its
constant-bank operands captured once, and while such a read is held nothing happens; a fault of such a read, or a word that does not
decode, is raised at its lane, and its detail word names the word at fault, which may be a continuation (the model's choice, log 15); the
agenda that gives the turn is the model's own (log 3). A poisoned start
slot, and in bring-up service a word for LP, WQ or CQ, fault in place of the word. Past the last word the line's end or the next line
comes. -/
def Sys2Proof.Machine.SequencerTurnRule : Prop :=
  ∀ (s : State) (q : SeqId) (dt : Nat) (rest : List Agendum) (l : FLine) (lane m : Nat) (k : Cls),
    s.regWrites = [] → s.agenda = { dt := dt, act := .seq q } :: rest → (∀ a, rest.head? = some a → a.dt ≠ 0) →
    let x := s.seqr q
    let s0 : State := { s with agenda := rest, clock := s.clock + dt, focus := q }
    let cs := (List.range m).map fun j => l.lane (lane + 1 + j)
    let word : Prop := x.line = some l ∧ l.code 0 < 2 ∧ x.pcLane ≤ lane ∧ lane < 8 ∧ (∀ j, x.pcLane ≤ j → j < lane → l.code j = 0) ∧
      clsOf q.xs (l.code lane) = some k ∧ contCount l 7 (lane + 1) = m ∧ m < 4
    Routes (s.clock + dt) x →
    (x.line = none → step s = exec (.lineFetch q false) s0) ∧
    (x.line = some l → l.code 0 < 2 → x.pcLane ≤ 8 → (∀ j, x.pcLane ≤ j → j < 8 → l.code j = 0) →
      (l.eos = true → step s = exec (.streamEnd q) s0) ∧
      (l.eos = false → step s = exec (.lineFetch q false) (s0.onSeqr q fun y => { y with pcLane := 8 }))) ∧
    (x.line = some l → 2 ≤ l.code 0 → step s = exec (.faultDelivery q (mkFault 1 (lineDetail (l.lane 0) 0x10 x.entry 0x02)))
      (s0.onSeqr q fun y => { y with pcLane := x.entry })) ∧
    (word → x.slotPois = false → bringUpRefuses s k = false →
      (∀ i : Instr, decode k (l.lane lane) cs = .ok i →
        let s1 := s0.onSeqr q fun y => y.latch lane (l.lane lane :: cs) i
        (x.kvals ≠ [] → step s = exec i s1) ∧
        (x.kvals = [] →
          (∀ t : State, captureConsts q i s1 = .ok () t → step s = exec i t) ∧
          (∀ (w : WaitKind) (t : State), captureConsts q i s1 = .error (.stall w) t →
            step s = .next { s with agenda := rest, clock := s.clock + dt }) ∧
          (∀ (f : FaultInfo) (t : State), captureConsts q i s1 = .error (.fault f) t → step s = exec (.faultDelivery q f) t))) ∧
      (∀ cls cause j : Nat, decode k (l.lane lane) cs = .bad cls cause j →
        step s = exec (.faultDelivery q (mkFault cls (lineDetail (l.lane (lane + j)) (l.code (lane + j)) (lane + j) cause)))
          (s0.onSeqr q fun y => { y with pcLane := lane }))) ∧
    (word → x.slotPois = true → step s = exec (.faultDelivery q (mkFault 0x0A (detailOf 0 5 0x77)))
      (s0.onSeqr q fun y => { y with pcLane := lane, slotPois := false })) ∧
    (word → x.slotPois = false → bringUpRefuses s k = true → ∀ i : Instr, decode k (l.lane lane) cs = .ok i →
      step s = exec (.faultDelivery q (mkFault 2 (lineDetail (l.lane lane) (l.code lane) lane 0xD0)))
        (s0.onSeqr q fun y => { y with pcLane := lane }))

/-- R75: an instruction without a constant-bank operand captures nothing, and one whose only constant is word `n` captures what that
word holds. -/
def Sys2Proof.Machine.ConstantCaptureRule : Prop :=
  ∀ (s t : State) (q : SeqId) (i : Instr) (n : Fin 8192) (v : SVal),
    (seqConsts i = [] → captureConsts q i s = .ok () s) ∧
    (seqConsts i = [n] → constWord q n s = .ok v t →
      captureConsts q i s = .ok () (t.onSeqr q fun x => { x with kvals := sput x.kvals n.val v }))

/-- R21, R163, R306, R357, R368: of the acts of one clock the one with the least place comes first, and of two with one place the
earlier one of the agenda: AS before XS, but for a pop of a full outcome queue, `hoff` before both, and `fhalt` and `yield` after both. The
write of a register that a store has left comes before the agenda, but one that pre-empts tasks, after the acts of its clock that come before
it (R243). -/
def Sys2Proof.Machine.ClockOrderRule : Prop :=
  ∀ (s : State) (a : Agendum) (rest : List Agendum) (c : CoreId),
    let now := { s with clock := s.clock + a.dt }
    let g := a :: rest.takeWhile fun b => b.dt = 0
    let later := rest.dropWhile fun b => b.dt = 0
    let place (j : Nat) : Nat := now.actKey (g.getD j a).act
    let turn (xs : Bool) : Nat := s.actKey (.seq { core := c, xs := xs })
    (s.regWrites = [] → s.agenda = a :: rest → ∃ i < g.length, (∀ j < g.length, place i ≤ place j) ∧ (∀ j < i, place i < place j) ∧
      s.choose = (some { dt := a.dt, act := (g.getD i a).act },
        { s with agenda := (if g.length = 1 then rest else (listDel g i).map (fun b => { b with dt := 0 }) ++ later) })) ∧
    (s.popsFull { core := c, xs := true } = false → (∀ p u b n t, s.seqNext { core := c, xs := true } ≠ some (.hoff p u b n, t)) →
      (∀ p t, s.seqNext { core := c, xs := false } ≠ some (.fhalt p, t)) →
      (∀ t, s.seqNext { core := c, xs := false } ≠ some (.yield, t)) → turn false < turn true) ∧
    (∀ (i : Instr) (is : List Instr), s.regWrites = i :: is →
      ((∀ b, s.agenda.head? = some b → b.dt ≠ 0) ∨ s.actKey (.event i) < 900) →
        s.choose = (some { dt := 0, act := .event i }, { s with regWrites := is }))

/-- A step runs the decoded instruction, with its constants captured, in the order of its clock. -/
def Obligations.StepRunsDecoded : Prop :=
  Sys2Proof.Machine.SequencerTurnRule ∧ Sys2Proof.Machine.ConstantCaptureRule ∧ Sys2Proof.Machine.ClockOrderRule

/-- Words written out from the layouts of R65-R71 and from the examples of R339, R347, R359 and R200 decode to the instructions that
they stand for. -/
def Obligations.EncodedWordsDecode : Prop :=
  decode (.seq false) 0x80645803 [] = .ok (.ld 6 2 0 .d none) ∧
  decode (.seq false) 0x8C7448FB [0] = .ok (.amo .add 7 2 (.reg 3) .d (.ar .pkg) false) ∧
  decode (.seq true) 0x940D201A [] = .ok (.tlwait .sq (.lit 9) .pkg) ∧
  decode .sq 0x01404205 [0x00060010] =
    .ok (.vamo { w := false, s := false, lp := false } .add 0 2 5 (.vec 6) .f32 0 true) ∧
  decode .wq 0x004504C0 [0x0000003C] = .ok (.cpy 5 4 (.lit 0) (some 3) true) ∧
  decode .cq 0x00404344 [] = .ok (.ttset (.reg 3) 4) ∧
  decode (.seq false) 0x00000000 [] = .ok .nop ∧ decode (.seq false) 0x00000001 [] = .bad 3 0x20 0

/-- The words of an instruction decode to it: at most three continuations, each word of 32 bits. -/
def Sys2Proof.Machine.RoundTrip (i : Instr) (k : Cls) : Prop :=
  ∃ w cs, encode i = w :: cs ∧ cs.length ≤ 3 ∧ (∀ x ∈ w :: cs, x < 2 ^ 32) ∧ decode k w cs = .ok i

/-- R65-R68, R73-R78: for every well-formed sequencer instruction, decoding its words gives it back, with every operand at every value
that the encoding admits. -/
def Obligations.SequencerWordsRoundTrip : Prop := ∀ (i : Instr) (xs : Bool), i.wf = true → i.cls = some (.seq xs) → RoundTrip i (.seq xs)

/-- R69-R78: for every well-formed engine instruction, decoding its words gives it back. -/
def Obligations.EngineWordsRoundTrip : Prop :=
  ∀ (i : Instr) (k : Cls), i.wf = true → i.cls = some k → (∀ xs : Bool, k ≠ .seq xs) → RoundTrip i k

/-- R21, R78, R82: what decodes is a well-formed instruction of its class: the decoder refuses every operand, kind, register base and
suffix that the forms tables do not admit. A sequencer instruction is of the class of either sequencer, but for the two forms of `suspend`. -/
def Obligations.DecodedIsWellFormed : Prop :=
  ∀ (k : Cls) (w : Nat) (cs : List Nat) (i : Instr), w < 2 ^ 32 → (∀ x ∈ cs, x < 2 ^ 32) → cs.length ≤ 3 → decode k w cs = .ok i →
    i.wf = true ∧ (i.cls = some k ∨ k = .seq true ∧ i.cls = some (.seq false) ∧ ∀ a b n, i ≠ .suspendAs a b n)

/-- Every step keeps memory in its one canonical form (log 2), from every state that has it: a step of a sequencer, of an engine, of a
device, of a host or of the package's own agents. -/
def Obligations.EveryStepKeepsMemoryForm : Prop := ∀ s t : State, MemOk s → step s = .next t → MemOk t

/-- Every instruction and every event completes, from every state; a step stops only where the agenda names an instruction as an event,
or a unit that the package does not have. A step takes the act that is chosen: of the acts of one clock by their places, and with an empty
agenda by a rotation over every agent that may have something to do (the model's choice, log 3). -/
def Obligations.EveryInstructionCompletes : Prop :=
  (∀ (i : Instr) (s : State), ∃ t, exec i s = .next t) ∧
  (∀ (s : State) (q : SeqId) (dt : Nat) (rest : List Agendum), s.regWrites = [] → s.agenda = { dt := dt, act := .seq q } :: rest →
    (∀ a, rest.head? = some a → a.dt ≠ 0) → Completes s) ∧
  (∀ (s : State) (i : Instr) (is : List Instr), s.regWrites = i :: is →
    let s0 : State := { s with regWrites := is }
    ((∀ a, s.agenda.head? = some a → a.dt ≠ 0) ∨ s.actKey (.event i) < 900) →
    i.encoded = false → unitExists s0 i = true → step s = exec i s0) ∧
  (∀ s s1 : State, s.choose = (none, s1) → step s = .next { s1 with clock := s1.clock + 1 }) ∧
  (∀ (s s1 : State) (d : Nat) (q : SeqId), s.choose = (some { dt := d, act := .seq q }, s1) →
    let s0 : State := { s1 with clock := s1.clock + d }
    (∀ (i : Instr) (t : State), s0.seqNext q = some (i, t) → step s = exec i t) ∧ (s0.seqNext q = none → step s = .next s0)) ∧
  (∀ (s s1 : State) (d : Nat) (i : Instr), s.choose = (some { dt := d, act := .event i }, s1) →
    let s0 : State := { s1 with clock := s1.clock + d }
    (i.encoded = true → step s = .refused .outsideStream) ∧
    (i.encoded = false → unitExists s0 i = true → step s = exec i s0) ∧
    (i.encoded = false → unitExists s0 i = false → step s = .fault .noSuchUnit)) ∧
  (∀ s : State, s.regWrites = [] → s.agenda = [] →
    s.choose = ((s.acts[s.turn % s.acts.length]?).map fun a => { dt := 1, act := a }, { s with turn := s.turn + 1 })) ∧
  (∀ (s : State) (i : Instr) (dt : Nat) (rest : List Agendum), s.regWrites = [] → s.agenda = { dt := dt, act := .event i } :: rest →
    (∀ a, rest.head? = some a → a.dt ≠ 0) →
    let s0 : State := { s with agenda := rest, clock := s.clock + dt }
    (i.encoded = true → step s = .refused .outsideStream) ∧
    (i.encoded = false → unitExists s0 i = true → step s = exec i s0) ∧
    (i.encoded = false → unitExists s0 i = false → step s = .fault .noSuchUnit))

/-- What reset leaves, where the spec gives a value (R13, R15, R19, R224, R231, R366, R379, R387, R392, R393, R414, R424, R425): the
registers read as their rules say, no task runs, and memory lists nothing, in its canonical form. -/
def Obligations.ResetState : Prop :=
  let r (off : Nat) : Word := (State.reset.regRead false off).1
  let y (off : Nat) : Word := (State.reset.regRead true off).1
  (∀ i < 12, r (0x20E00 + 8 * i) = BitVec.ofNat 64 (6 + i)) ∧ (∀ c < 16, r (0x20000 + 8 * c) = BitVec.ofNat 64 (c + 1)) ∧
  (∀ d < 6, ∀ k < 32, r (0x20800 + 8 * (32 * d + k)) = BitVec.ofNat 64 (k + 1)) ∧
  (∀ d < 6, r (0x20200 + 8 * d) = 16 ∧ r (0x20300 + 8 * d) = 100000 ∧ r (0x20140 + 8 * d) = 0 ∧ r (0x20600 + 8 * d) = 2000 * 2 ^ 16) ∧
  (∀ c < 64, r (0x30000 + 8 * c) = 0 ∧ r (0x20400 + 8 * c) = 0) ∧ r 0x20F00 = 0 ∧
  (∀ n < 3, y (0x80 + 8 * n) = BitVec.ofNat 64 n) ∧ y 0x400 = 0 ∧ y 0x408 = 0 ∧ y 0x410 = 0 ∧ y 0x48 &&& 4096 = 0 ∧ y 0 = 0 ∧
  (∀ c : CoreId, (State.reset.core c.val).task = none) ∧ (∀ q : SeqId, State.reset.reg q 0 = { v := 0, p := false }) ∧
  State.reset.clock = 0 ∧ MemOk State.reset

/-! ## What engine entries do to registers, memory and tiles (R152-R156, R173-R184, R347-R361) -/

namespace Sys2Proof.Machine

/-- A byte of memory, by place, or with `true` a byte of the array of core `c`. -/
def byteOf (s : State) (c : Nat) (p : Bool × Nat) : Byte := if p.1 then (s.core c).cellByte p.2 else sget s.mem p.2 memInit

/-- No byte of memory, nor of the array of core `c`, reads otherwise in `t` than in `s`. -/
def SameBytes (s t : State) (c : Nat) : Prop := ∀ p, byteOf t c p = byteOf s c p

/-- Where byte `k` of an access of core `c` to `t` stands, by interleave `il`. -/
def spotAt (s : State) (c : Nat) (t : Target) (k : Nat) (il : Nat := 0) : Bool × Nat :=
  match t with
  | .scratch o => (true, (s.core c).place (o + k) il)
  | .phys pa _ => (false, s.place pa + k)

/-- An access by agent `a` of core `c` is made where its bytes stand: in the core's array, or at a home in memory of this package
directly (see `Direct`). -/
def AtHome (s : State) (a : Agent) (c : Nat) (t : Target) : Prop :=
  match t with
  | .scratch _ => True
  | .phys pa l => s.usesL1 a pa l = false ∧ Direct s c pa l

/-- Bits to write: a byte's place, the byte, the mask of the bits written. -/
abbrev Put := (Bool × Nat) × Byte × Byte

/-- From `s` to `t` exactly those bits are written, in their order; every other byte of memory and of the array of core `c` stands. -/
def Puts (c : Nat) (ws : List Put) (s t : State) : Prop :=
  ∀ p, byteOf t c p = ws.foldl (fun b w => if w.1 = p then (b &&& ~~~w.2.2) ||| (w.2.1 &&& w.2.2) else b) (byteOf s c p)

/-- Whole bytes at the place of an access. -/
def putBytes (s : State) (c : Nat) (t : Target) (bs : List Byte) (il : Nat := 0) : List Put :=
  bs.zipIdx.map fun b => (spotAt s c t b.2 il, b.1, 0xFF)

/-- No scalar, vector or mask register and no flag differs, and no array but that of core `c`. -/
def KeepsRegs (s t : State) (c : Nat) : Prop :=
  (∀ (q : SeqId) (r : Reg), t.reg q r = s.reg q r) ∧ ∀ k, (t.core k).vregs = (s.core k).vregs ∧ (t.core k).mregs = (s.core k).mregs ∧
    (t.core k).cflags = (s.core k).cflags ∧ (k ≠ c → (t.core k).scratch = (s.core k).scratch)

/-- Entry `n` of queue `e` of core `c` stands in a phase. -/
def Stands (t : State) (c : CoreId) (e : Eng) (n : Entry) (p : Phase) : Prop :=
  ∀ o ∈ ((t.core c.val).eq e).ents, o.num = n.num → o.phase = p

/-- An entry that has not begun has no unit, byte, flag or digest store behind it: so routing makes it (`EntriesBeginAtZeroRule`). -/
def Fresh (n : Entry) : Prop := n.units = 0 ∧ n.bytes = 0 ∧ n.flags = 0 ∧ n.asy = []

/-- The state in which entry `n` takes its effect. -/
abbrev atWork (s : State) (c : CoreId) (e : Eng) (n : Entry) : State := (begun s c e n).racing c.val

/-- Entry `n` of queue `e` completes its effect from `u`, with the registers of `vs` as its only destinations among registers, in a state
of which `Q` holds. -/
def EndsIn (s u : State) (c : CoreId) (e : Eng) (n : Entry) (vs : List Nat) (Q : State → Prop) : Prop :=
  ∃ t, exec (.engineEntryStart c e) s = .next t ∧ VeFrame u t c vs ∧ Stands t c e n .done ∧ Q t

/-- It waits: its registers, and every byte of memory, stand as in `u`. -/
def WaitsIn (s u : State) (c : CoreId) (e : Eng) (n : Entry) : Prop :=
  ∃ t, exec (.engineEntryStart c e) s = .next t ∧ VeFrame u t c [] ∧ Stands t c e n .started

/-- Byte `k` of a vector register. -/
def VRegVal.byteAt (v : VRegVal) (k : Nat) : Byte := v.bits.extractLsb' (8 * k) 8

/-- The agent of an engine's accesses to tensors. -/
def viaOf (s : State) (c : CoreId) (a : Nat → Agent) (loom : Bool := false) : Via := { a := a c.val, ctx := s.ctxOf c.val, loom := loom }

end Sys2Proof.Machine

open Sys2Proof.Machine in
/-- An entry begins at zero. -/
def Sys2Proof.Machine.EntriesBeginAtZeroRule : Prop :=
  ∀ (s : State) (q : SeqId) (i : Instr) (k : Caps), (s.entryOf q i k).phase = .waiting ∧ Fresh (s.entryOf q i k)

open Sys2Proof.Machine in
/-- R348, R349: `vld` and `vldg` give each active element the bytes at its address, with their poison, and of a block type the exponents
at xc. -/
def Sys2Proof.Machine.VectorLoadsRule : Prop :=
  ∀ (s u u1 u2 : State) (c : CoreId) (tk : Tok1) (d b : VReg) (a : Reg) (disp : BitVec 32) (ty : ElemTy) (mask : MReg)
    (plane : Option Reg) (n : Entry) (ts : List Target) (rs : List (List Byte × Bool)) (ps : List (Target × Nat)) (pl : List (Byte × Bool)),
    Starts s c .lq n → n.a.p = false →
    let s0 := atWork s c .lq n
    let X := readCore s c .lq n
    let ctx := s.ctxOf c.val
    let core : Agent := .core c.val
    let Loads (u : State) (on : Nat → Bool) (val : Nat → Option (Nat × Bool)) (Q : VRegVal → Prop) : Prop :=
      EndsIn s u c .lq n (regs d) fun t => VeEffect u t c d 1 ty.width on (fun k r => ∃ v, val k = some v ∧ r = v.1 % 2 ^ ty.width)
        (fun k => (val k).any (·.2)) ∧ Q ((t.core c.val).vreg d.val)
    (n.instr = .vld tk d a disp ty mask plane →
      let va := (n.a.v + disp.signExtend 64).toNat
      let gs := X.granList ty mask
      Each (fun g st r st' => ∃ t st1, accessN (chapElem g.2) core ctx .r ((va + 16 * g.1) % 2 ^ 64)
          (if ty = .bx8 ∧ g.1 = 0 then 32 else 16) 16 false false st = .ok t st1 ∧ readAt core t 16 0 st1 = .ok r st') gs s0 rs u →
      let val (k : Nat) : Option (Nat × Bool) := ((gs.zip rs).find? fun q => q.1.1 == k * ty.width / 128).map fun q =>
        (ofBytes q.2.1 / 2 ^ (ty.width * k % 128), q.2.2)
      (ty.isB = false → Loads u (X.act mask) val fun v => v.tag = 0) ∧
      (ty.isB = true → mask.val = 0 → n.c.p = false →
        planePieces c.val ctx n.c.v.toNat (2 * (ty.count / 32)) .r u = .ok ps u1 → readPieces core ps 0 u1 = .ok pl u2 →
        let e (j : Nat) : Byte × Bool := pl.getD j (0, false)
        Loads u2 (fun _ => true) (fun k => (val k).map fun v => (v.1, v.2 || (e (2 * (k / 32))).2 || (e (2 * (k / 32) + 1)).2))
          fun v => ∀ b < ty.count / 32, pl.length = 2 * (ty.count / 32) → v.blkExp b = ((e (2 * b)).1.toNat, (e (2 * b + 1)).1.toNat))) ∧
    (n.instr = .vldg tk d a b ty mask → ty.width = 32 →
      let idx (k : Nat) : Nat × Bool := (X.vsrc b.val).el 32 k
      let on := (List.range 128).filter (X.act mask)
      (∀ k ∈ on, (idx k).2 = false) →
      Each (fun k st t st' => access (chapElem k) core ctx .r ((n.a.v.toNat + 4 * (idx k).1) % 2 ^ 64) 4 false st = .ok t st') on s0 ts u1 →
      Each (fun t st r st' => readAt core t 4 0 st = .ok r st') ts u1 rs u →
      Loads u (X.act mask) (fun k => ((on.zip rs).find? fun q => q.1 == k).map fun q => (ofBytes q.2.1, q.2.2)) fun v => v.tag = 0)

open Sys2Proof.Machine in
/-- R341, R351: `vldfe` waits until its 32 cells are full and takes them, emptying them with `.clear`; `vstfe` waits until all are empty and
fills them. -/
def Sys2Proof.Machine.VectorCellsRule : Prop :=
  ∀ (s u : State) (c : CoreId) (tk : Tok1) (d : VReg) (a : Reg) (disp : BitVec 32) (clear : Bool) (ty : ElemTy) (n : Entry) (ps : List Nat),
    n.a.p = false →
    let va := (n.a.v + disp.signExtend 64).toNat
    let x := u.core c.val
    let clean : Prop := ∀ p ∈ ps, x.cellPois p = false
    (Starts s c .lq n → n.instr = .vldfe tk d a disp clear ty → cells32 c.val va ty .r (atWork s c .lq n) = .ok ps u →
      ((∃ p ∈ ps, x.cellFull p = false) → WaitsIn s u c .lq n) ∧
      ((∀ p ∈ ps, x.cellFull p = true) → clean → EndsIn s u c .lq n (regs d) fun t =>
        let y := t.core c.val
        (∀ k < 512, (y.vreg d.val).byteAt k = x.cellByte (ps.getD (k / 16) 0 + k % 16)) ∧ (y.vreg d.val).pois = 0 ∧ y.scratch = x.scratch ∧
          ∀ g, g ∈ y.scFull ↔ g ∈ x.scFull ∧ ¬ (clear = true ∧ ∃ p ∈ ps, g = p / 16))) ∧
    (Starts s c .sq n → n.instr = .vstfe tk d a disp ty → cells32 c.val va ty .w (atWork s c .sq n) = .ok ps u →
      let v := (readCore s c .sq n).vsrc d.val
      ((∃ p ∈ ps, x.cellFull p = true) → WaitsIn s u c .sq n) ∧
      ((∀ p ∈ ps, x.cellFull p = false) → clean → v.pois = 0 → x.remoteOut = 0 →
        ∃ t, exec (.engineEntryStart c .sq) s = .next t ∧ Stands t c .sq n .done ∧ KeepsRegs s t c.val ∧
          Puts c.val (ps.zipIdx.flatMap fun p => (List.range 16).map fun k => ((true, p.1 + k), v.byteAt (16 * p.2 + k), 0xFF)) s t ∧
          ∀ g, g ∈ (t.core c.val).scFull ↔ g ∈ x.scFull ∨ ∃ p ∈ ps, g = p / 16))

open Sys2Proof.Machine in
/-- R348, R349, R429: `vst` and `vsts` write the bits of each active element at its address, the higher index last, and of a block type the
exponents at xc: where their bytes are written at home, those bits and no others. -/
def Sys2Proof.Machine.VectorStoresRule : Prop :=
  ∀ (s u u1 u2 : State) (c : CoreId) (tk : Tok1) (d b : VReg) (a : Reg) (disp : BitVec 32) (ty : ElemTy) (mask : MReg)
    (plane : Option Reg) (asy : Bool) (n : Entry) (ts : List Target) (wss : List (List Put)) (ps : List (Target × Nat)),
    Starts s c .sq n → n.a.p = false →
    let s0 := atWork s c .sq n
    let X := readCore s c .sq n
    let ctx := s.ctxOf c.val
    let core : Agent := .core c.val
    let v := X.vsrc d.val
    let Stores (ws : List Put) : Prop :=
      ∃ t, exec (.engineEntryStart c .sq) s = .next t ∧ Stands t c .sq n .done ∧ Puts c.val ws s t ∧ KeepsRegs s t c.val
    (n.instr = .vst tk d a disp ty mask plane asy → (ty.isB = true → n.c.p = false ∧ mask.val = 0) →
      let va := (n.a.v + disp.signExtend 64).toNat
      let on (g k : Nat) : Byte :=
        BitVec.ofNat 8 ((List.range 8).map fun j => if X.act mask ((128 * g + 8 * k + j) / ty.width) then 2 ^ j else 0).sum
      Each (fun g st ws st' => ∃ t st1 w, accessN (chapElem g.2) core ctx .w ((va + 16 * g.1) % 2 ^ 64)
          (if ty = .bx8 ∧ g.1 = 0 then 32 else 16) 16 false false st = .ok t st1 ∧ AtHome st1 core c.val t ∧
          storeGran c.val ctx X d ty mask va g st = .ok w st' ∧
          ws = (List.range 16).map fun k => (spotAt st1 c.val t k, v.byteAt (16 * g.1 + k), on g.1 k)) (X.granList ty mask) s0 wss u →
      (ty.isB = false → Stores wss.flatten) ∧
      (ty.isB = true → planePieces c.val ctx n.c.v.toNat (2 * (ty.count / 32)) .w u = .ok ps u1 → (∀ p ∈ ps, AtHome u1 core c.val p.1) →
        let bs := toBytes (2 * (ty.count / 32)) v.tag.toNat
        writePieces core ctx ps bs false 0 u1 = .ok () u2 →
        Stores (wss.flatten ++ ((ps.flatMap fun p => (List.range p.2).map fun k => spotAt u1 c.val p.1 k).zip bs).map fun w =>
          (w.1, w.2, 0xFF)))) ∧
    (n.instr = .vsts tk d a b ty mask asy →
      let idx (k : Nat) : Nat × Bool := (X.vsrc b.val).el 32 k
      let on := (List.range 128).filter (X.act mask)
      (∀ k ∈ on, (idx k).2 = false) →
      Each (fun k st t st' => access (chapElem k) core ctx .w ((n.a.v.toNat + 4 * (idx k).1) % 2 ^ 64) 4 false st = .ok t st') on s0 ts u →
      (∀ t ∈ ts, AtHome u core c.val t) →
      Stores ((on.zip ts).flatMap fun q => putBytes u c.val q.2 (toBytes 4 (v.el 32 q.1).1)))

open Sys2Proof.Machine in
/-- R352: `vamo` commits, and performs each active element as one atomic at its home; d takes the old values. -/
def Sys2Proof.Machine.VectorAtomicsRule : Prop :=
  ∀ (s u u1 u2 : State) (c : CoreId) (tk : Tok1) (op : AtomOp) (d : VReg) (a : Reg) (b : VReg) (k : EOpd) (ty : ElemTy) (mask : MReg)
    (nr : Bool) (n : Entry) (ts : List Target) (rs : List Nat),
    Starts s c .sq n → n.instr = .vamo tk op d a b k ty mask nr → n.a.p = false →
    let X := readCore s c .sq n
    let ctx := s.ctxOf c.val
    let idx (i : Nat) : Nat × Bool := (X.vsrc b.val).el 32 i
    let va (i : Nat) : Nat := (n.a.v.toNat + 4 * (idx i).1) % 2 ^ 64
    let on := (List.range 128).filter (X.act mask)
    let val (i : Nat) : Nat × Bool := X.src ty .rne k n.c i
    let one (i : Nat) (t : Target) : Mx AmoRes := amoElem c.val ctx (decide (ty = .f32)) op i (va i) t (val i)
    (∀ i ∈ on, (idx i).2 = false) →
    Each (fun i st t st' => atomTarget (chapElem i) c.val ctx (va i) 4 (detailOf 0 i 0xA2) st = .ok t st') on (atWork s c .sq n) ts u1 →
    implicitCommit c.val u1 = .ok () u2 →
    (nr = false → Each (fun q st r st' => one q.1 q.2 st = .ok (.ok r) st') (on.zip ts) u2 rs u →
      EndsIn s u c .sq n (regs d) fun t => VeEffect u t c d 1 32 (X.act mask)
        (fun i r => ∃ q, (on.zip rs).find? (fun q => q.1 == i) = some q ∧ r = q.2 % 2 ^ 32) fun _ => false) ∧
    (nr = true → ∃ t, exec (.engineEntryStart c .sq) s = .next t ∧ Stands t c .sq n .done ∧ t.mem = u2.mem ∧ KeepsRegs u2 t c.val ∧
      (t.core c.val).nrOut.length = (u2.core c.val).nrOut.length + (on.zip ts).length) ∧
    (∀ (st st' : State) (i old : Nat) (t : Target), (val i).2 = false → poolCheck (chapElem i) (.core c.val) ctx (va i) t st = .ok () st →
      va i % 4 = 0 → st.nrAhead (.core c.val) t 4 = false → homeReach (chapElem i) (.core c.val) (va i) t st = .ok () st →
      rmwAt (.core c.val) ctx t 4 (fun o => some (newAtom (decide (ty = .f32)) op 4 o (val i).1))
        (atomMsg t op (decide (ty = .f32)) false (val i).1) st = .ok (old, false) st' → one i t st = .ok (.ok old) st')

open Sys2Proof.Machine in
/-- What writing a granule of a tensor puts (R158, R429): one element's bits, or 16 whole bytes. -/
def Sys2Proof.Machine.granPuts (s : State) (c : Nat) (tg : Target) (t : Tens) (g : List Item) : List Put :=
  match g with
  | [i] =>
    if t.fmt.width = 4 then
      let sh := 2 ^ (4 * (t.off i.x % 2))
      [(spotAt s c tg 0 t.il, BitVec.ofNat 8 (i.b % 16 * sh), BitVec.ofNat 8 (15 * sh))]
    else putBytes s c tg (toBytes (t.fmt.width / 8) i.b) t.il
  | _ => putBytes s c tg (toBytes 16 (packBits t.fmt.width (g.map (·.b)))) t.il

open Sys2Proof.Machine in
/-- A granule of elements is written at home: it puts `ws` and leaves `st'`. -/
def Sys2Proof.Machine.GranPut (v : Via) (c : Nat) (t : Tens) (g : List Item) (st : State) (ws : List Put) (st' : State) : Prop :=
  ∃ i tg st1, g.head? = some i ∧
    (∀ ch, viaAccess v ch .w (t.addr i.x) (if g.length = 1 then elemBytes t.fmt else 16) st = .ok tg st1) ∧ AtHome st1 v.a c tg ∧
    (∀ ch, ∃ w, writeGran v ch t g st = .ok w st') ∧ ws = Sys2Proof.Machine.granPuts st1 c tg t g

open Sys2Proof.Machine in
/-- R158-R162, R297, R350: `vldt` chases its window and reads it into a group, FILL beyond the edge; `vstt` writes its window unit by unit and publishes;
writing elements puts their bits at BASE + offset, and nothing else. -/
def Sys2Proof.Machine.WindowsRule : Prop :=
  ∀ (s u u1 u2 : State) (c : CoreId) (tk : Tok1) (d : VReg) (ea : TEnt) (b : EOpd) (lw : Fin 3) (asy close : Bool) (ty : ElemTy) (n : Entry)
    (r : BitVec 512) (es : List (Nat × Bool)) (xps : List (Option (Nat × Nat × Bool))) (us1 : List Unit),
    n.ta = some r → n.b.p = false →
    let t := tensOf r
    let o := winOrg t n.b.v.toNat
    let w := 2 ^ lw.val
    let v := viaOf s c .core
    t.winCount ≤ ty.count * w → (∀ i < 4, t.rank ≤ i → fld n.b.v.toNat (16 * i) 16 = 0) → ty = t.fmt →
    (ty.isB = true → t.win.i0 % 32 = 0 ∧ o.i0 % 32 = 0) →
    (Starts s c .lq n → n.instr = .vldt tk d ea b lw ty →
      let s0 := atWork s c .lq n
      let chase := chaseOnce v c.val front13 halted13 t (t.cover (o, t.win))
      (chase s0 = .ok false u → WaitsIn s s0 c .lq n) ∧
      (chase s0 = .ok true u1 → Each (fun q st e st' => readElem v (chapElem q.2) t q.1 st = .ok e st') (t.winElems o).zipIdx u1 es u2 →
        Each (fun k st e st' => let x := t.winAt o (32 * k)
            if t.inside x = true then ∃ q, readExps v (chapElem (32 * k)) t x st = .ok q st' ∧ e = some q else e = none ∧ st' = st)
          (List.range (if ty.isB then t.winCount / 32 else 0)) u2 xps u →
        let exp (j : Nat) : Option (Nat × Nat × Bool) := xps.getD j none
        EndsIn s u c .lq n (regs d w) fun y =>
          VeEffect u y c d w ty.width (fun _ => true) (fun i e => e = (es.getD i (0, false)).1 % 2 ^ ty.width)
            (fun i => (es.getD i (0, false)).2 || (exp (i / 32)).any (·.2.2)) ∧
          (ty.isB = true → ∀ k < w, ∀ g < ty.count / 32, ∀ m < w, ∀ q, exp (g * w + m) = some q →
            (∀ m' < w, ∀ q', exp (g * w + m') = some q' → (q'.1, q'.2.1) = (q.1, q.2.1)) →
            ((y.core c.val).vreg (d.val + k)).blkExp g = (q.1 % 256, q.2.1 % 256))) ∧
      (∀ (ch : Chap) (x : Ix) (st : State), t.inside x = false → readElem v ch t x st = .ok (t.fill % 2 ^ t.fmt.width, false) st)) ∧
    (Starts s c .sq n → n.instr = .vstt tk d ea b lw asy close ty → Fresh n → t.repeats = false →
      let X := readCore s c .sq n
      let xs := (t.winElems o).zipIdx.filter fun p => t.writable p.1
      let us := unitList t (xs.map (·.1))
      Each (fun k st _ st' => ∃ it st1, vsttUnit X d.val w t (xs.filter fun p => t.unitW p.1 = k) st = .ok it st1 ∧
          ∀ ch, ∃ l, writeItems v ch t it.1 it.2 st1 = .ok l st') us (atWork s c .sq n) us1 u →
      (if t.fw = 0 ∨ (close = false ∧ us = []) then u1 = u
        else publish v c.val front13 t (match us.getLast? with | some k => k + 1 | none => 0) close u = .ok () u1) →
      ∃ y, exec (.engineEntryStart c .sq) s = .next y ∧ Stands y c .sq n .done ∧ y.mem = u1.mem ∧ KeepsRegs u1 y c.val) ∧
    (∀ (X : Core) (here : List (Ix × Nat)) (it : List Item × List ExpItem) (st st' : State), vsttUnit X d.val w t here st = .ok it st' →
      it.1.map (·.x) = here.map (·.1) ∧ SameBytes st st' c.val ∧ ∀ p ∈ here, t.inside p.1 = true →
        let e := (X.vsrc (d.val + p.2 % w)).el t.fmt.width (p.2 / w)
        { x := p.1, b := e.1, p := e.2 } ∈ it.1) ∧
    (∀ (v : Via) (its : List Item) (st st' : State) (wss : List (List Put)), v.a.core? = some c.val →
      Each (Sys2Proof.Machine.GranPut v c.val t) (wholeGranules t.fmt.width (fun i => t.bitAddr i.x) its.length its) st wss st' →
      (∀ ch, ∃ l, writeItems v ch t its [] st = .ok l st') ∧ Puts c.val wss.flatten st st')

open Sys2Proof.Machine in
/-- R102-R107, R173-R184: `accz` clears a tile; `mma` and `mmaz` add or set products over k of the boxes they chase; `accld` loads a tile;
`accst` writes its rows and publishes. -/
def Sys2Proof.Machine.LoomRule : Prop :=
  ∀ (s s1 s2 s3 s4 u u1 : State) (c : CoreId) (tk : Tok) (d : Fin 8) (ea eb : TEnt) (op : EOpd) (ty : ElemTy) (close sat zero : Bool) (rnd : Rnd)
    (n : Entry) (pos : Nat) (ra rb : BitVec 512) (as bs : List (List (Machine.Num × Bool))) (ls : List (BitVec 32 × Bool)) (fs : List Flg),
    Starts s c .lp n → Fresh n →
    let n' : Entry := { n with phase := .started, since := none }
    let s0 := atWork s c .lp n
    let k := quadOf c.val
    let v := viaOf s c .quadUnit true
    let tile (x : State) (j : Nat) : Tile := (x.quad k).tile j
    let mine (x : State) : Tile := (tile x d.val).ownedBy (x.tileTag c.val)
    let Ends (x : State) (Q : State → Prop) : Prop := ∃ t, exec (.engineEntryStart c .lp) s = .next t ∧ Stands t c .lp n .done ∧
      t.mem = x.mem ∧ KeepsRegs x t c.val ∧ (∀ j, j ≠ d.val → tile t j = tile x j) ∧ Q t
    let ta := tensOf ra
    let tb := tensOf rb
    let o := n.a.v
    let slice (t : Tens) : Prop := orgBI o = 0 ∨ 3 ≤ t.rank
    let sides (m w : Nat) : Prop := 1 ≤ m ∧ m ≤ 256 ∧ 1 ≤ w ∧ w ≤ 256
    received c.val n' s0 = .ok pos s1 →
    (n.instr = .accz tk d → Ends s (fun t => ∀ i, (tile t d.val).bits i = 0 ∧ (tile t d.val).poisAt i = false)) ∧
    (n.instr = (if zero then .mmaz tk d ea eb op ty else .mma tk d ea eb op ty) → n.ta = some ra → n.tb = some rb → n.a.p = false →
      ta.fmt = ty → tb.fmt = ty → slice ta → slice tb → 2 ≤ ta.rank → ta.win.i0 = tb.win.i1 → sides ta.win.i1 tb.win.i0 →
      let sl (t : Tens) : Nat × Nat := (orgBI o % t.ext.i2, orgBI o / t.ext.i2)
      let kk := ta.win.i0
      let m := ta.win.i1
      let w := tb.win.i0
      let boxA : Ix × Ix := ({ i0 := orgKI o * kk, i1 := orgMI o * m, i2 := (sl ta).1, i3 := (sl ta).2 }, { i0 := kk, i1 := m, i2 := 1, i3 := 1 })
      let boxB : Ix × Ix := ({ i0 := orgNI o * w, i1 := orgKI o * kk, i2 := (sl tb).1, i3 := (sl tb).2 }, { i0 := w, i1 := kk, i2 := 1, i3 := 1 })
      loomChase c.val pos v ta boxA s1 = .ok true s2 → loomChase c.val pos v tb boxB s2 = .ok true s3 →
      readBox v (chapOne 0x49 pos 0) ta boxA s3 = .ok as s4 → readBox v (chapOne 0x49 pos 0) tb boxB s4 = .ok bs u →
      let row (i : Nat) : List (Machine.Num × Bool) := as.getD i []
      let col (j : Nat) : List (Machine.Num × Bool) := bs.map fun r => r.getD j (Machine.Num.zero, false)
      let old (i : Nat) : BitVec 32 := if zero then 0 else (mine u).bits i
      let oldP (i : Nat) : Bool := !zero && (mine u).poisAt i
      let new (i j : Nat) : BitVec 32 :=
        if ty.isI then BitVec.ofInt 32 ((old (256 * i + j)).toInt + (((row i).zip (col j)).map fun q => q.1.1.int * q.2.1.int).sum)
        else BitVec.ofNat 32 (fmtF32.bits (accDot (numF32 (old (256 * i + j)).toNat) (((row i).zip (col j)).map fun q => q.1.1.mul q.2.1)).1)
      let hot (i : Nat) : Bool := decide (i / 256 < m ∧ i % 256 < w)
      let bad (i : Nat) : Bool := oldP i || (row (i / 256)).any (·.2) || (col (i % 256)).any (·.2)
      Ends u fun t =>
        (∀ i < m, ∀ j < w, (tile t d.val).bits (256 * i + j) = new i j) ∧
        (∀ i, hot i = false → (tile t d.val).bits i = (mine u).bits i) ∧
        ∀ g, ((∃ i < 4, hot (4 * g + i) = true ∧ bad (4 * g + i) = true) → (tile t d.val).poisAt (4 * g) = true) ∧
          ((∀ i < 4, hot (4 * g + i) = true ∧ bad (4 * g + i) = false) → (tile t d.val).poisAt (4 * g) = false)) ∧
    (n.ta = some ra → n.a.p = false → ta.fmt = ty → orgKI o = 0 → slice ta → sides ta.win.i1 ta.win.i0 →
      let m := ta.win.i1
      let w := ta.win.i0
      let box : Ix × Ix := ({ i0 := orgNI o * w, i1 := orgMI o * m, i2 := orgBI o % ta.ext.i2, i3 := orgBI o / ta.ext.i2 },
        { i0 := w, i1 := m, i2 := 1, i3 := 1 })
      let all := boxElems box
      (n.instr = .accld tk d ea op ty → loomChase c.val pos v ta box s1 = .ok true s2 →
        Each (fun x st l st' =>
          if ty = .f32 ∨ ty = .n32 then ∃ e, readElem v (chapOne 0x49 pos 0) ta x st = .ok e st' ∧ l = (BitVec.ofNat 32 e.1, e.2)
          else ∃ e, readVal v (chapOne 0x49 pos 0) ta x st = .ok e st' ∧
            l = ((if ty.isI then BitVec.ofInt 32 e.1.int else BitVec.ofNat 32 (fmtF32.bits e.1)), e.2)) all s2 ls u →
        Ends u fun t => (∀ i < m, ∀ j < w, (tile t d.val).bits (256 * i + j) = (ls.getD (w * i + j) (0, false)).1) ∧
          ∀ i, ¬ (i / 256 < m ∧ i % 256 < w) → (tile t d.val).bits i = (mine u).bits i) ∧
      (n.instr = .accst tk d ea op close ty sat rnd → (ty.isB = true → w % 32 = 0 ∧ (orgNI o * w) % 32 = 0) → ta.repeats = false →
        let point := w64 n.num
        let q : SeqId := n.seqId c.val
        Each (fun i st f st' => storeRow v q point ta rnd sat (mine s1) pos all box i st = .ok f st') (List.range m) s1 fs u →
        let units := unitsOf ta all
        (if ta.fw = 0 ∨ units = [] then u1 = u
          else ∃ u', publish (viaOf s c .quadUnit) c.val (frontLoom pos (min units.length (2 ^ 32 - 1))) ta (maxNat units + 1) false u = .ok () u' ∧
            u1 = u'.noteFront c.val n' (viaOf s c .quadUnit) ta close) →
        ∃ t, exec (.engineEntryStart c .lp) s = .next t ∧ Stands t c .lp n .done ∧ t.mem = u1.mem ∧ ∀ j, tile t j = tile u1 j)) ∧
    (∀ (i : Nat) (st st' : State) (wss : List (List Put)) (tl : Tile) (box : Ix × Ix) (all : List Ix), ta.fmt.isB = false →
      let x (j : Nat) : Ix := { box.1 with i0 := box.1.i0 + j, i1 := box.1.i1 + i }
      let conv (j : Nat) : Nat := (storeConv ta.fmt rnd sat (tl.bits (256 * i + j))).1
      Each (fun j st ws st' => if ta.inside (x j) = true
          then Sys2Proof.Machine.GranPut v c.val ta [{ x := x j, b := conv j, p := tl.poisAt (256 * i + j) }] st ws st'
          else ws = [] ∧ st' = st) (List.range box.2.i0) st wss st' →
      (∃ f, storeRow v (n.seqId c.val) (w64 n.num) ta rnd sat tl pos all box i st = .ok f st') ∧ Puts c.val wss.flatten st st')

open Sys2Proof.Machine in
/-- R172, R175, R406: `chaine` ends its chain where the slots and the signature agree, closing its frontiers; otherwise it spoils the
chain's tiles, counts a mismatch, and faults with the CAUSE of what differs. -/
def Sys2Proof.Machine.HallmarkRule : Prop :=
  ∀ (s s1 u : State) (c : CoreId) (tk : Tok) (slots : Fin 512) (sig : Word32) (n : Entry) (pos : Nat) (ch : Chain) (xs : List Unit),
    Starts s c .lp n → n.instr = .chaine tk slots sig →
    let n' : Entry := { n with phase := .started, since := none }
    let k := quadOf c.val
    receive c.val n' [] (atWork s c .lp n) = .ok pos s1 → s1.chainOf c.val = some ch →
    let okN := decide (slots.val = ch.slots)
    let okS := decide (sig = crcDone ch.crc)
    (okN = true → okS = true →
      Each (fun f st _ st' => if f.close = true then ∃ r, frontRmw (frontLoom ch.slots) (.quadUnit c.val) (s.ctxOf c.val) f.fw [.closeLive] st = .ok r st'
        else st' = st) ch.fronts s1 xs u →
      ∃ t, exec (.engineEntryStart c .lp) s = .next t ∧ Stands t c .lp n .done ∧ t.mem = u.mem ∧ KeepsRegs u t c.val ∧
        t.quad k = { u.quad k with chain := none, holder := if u.keepLease c.val then (u.quad k).holder else none }) ∧
    (¬ (okN = true ∧ okS = true) →
      let x := (s1.spoilTiles c.val ch.tiles).hallmarkCount c.val
      let f := mkFault 0x11 (detailOf 0 ch.slots (if okS then 0x45 else if okN then 0x46 else 0x47))
      exec (.engineEntryStart c .lp) s = .next ((x.calm (begun s c .lp n) c.val .lp n.num).entryFault c.val .lp n' f)) ∧
    ∀ d ∈ ch.tiles, ∀ (x : State), ∃ b, (((x.spoilTiles c.val ch.tiles).quad k).tile d).undef = some b ∧
      (((x.spoilTiles c.val ch.tiles).quad k).tile d).elems = [] ∧ (((x.spoilTiles c.val ch.tiles).quad k).tile d).pois = []

open Sys2Proof.Machine in
/-- R184, R357-R361: `cpy` and `cpyf` write their window unit by unit, each published as it is whole, and CLOSED with `.close`; `cpym` copies its
bytes in ascending order; `trig` waits for a counter and acquires. What is copied at home changes exactly the bytes it covers. -/
def Sys2Proof.Machine.WalkerRule : Prop :=
  ∀ (s u : State) (c : CoreId) (ed es : TEnt) (a b : Reg) (ob oc : EOpd) (bind : Option (Fin 32)) (close : Bool) (sc : Scope) (n : Entry)
    (rd rs : BitVec 512) (ks : List Nat),
    Starts s c .wq n → Fresh n →
    let s0 := atWork s c .wq n
    let v := viaOf s c .quadUnit
    let td := tensOf rd
    let ts := tensOf rs
    let o := winOrg td n.b.v.toNat
    let steps (us : List Nat) : List BulkStep := us.flatMap (fun u => .write u :: if td.fw = 0 then [] else [.pub (u + 1) false]) ++
      if td.fw ≠ 0 ∧ close = true then [.pub (match us.getLast? with | some u => u + 1 | none => 0) true] else []
    let Runs (xs : List Ix) (unit : Nat → List Ix → State → Nat → State → Prop) : Prop :=
      Each (fun st x k x' => match st with
        | .write w => unit w (byOff td (xs.filter fun i => td.unitW i = w)) x k x'
        | .pub m cl => k = 0 ∧ ∀ done, publish v c.val (frontWalk done) td m cl x = .ok () x') (steps (unitList td xs)) s0 ks u →
      ∃ t, exec (.engineEntryStart c .wq) s = .next t ∧ Stands t c .wq n .done ∧ t.mem = u.mem ∧ KeepsRegs u t c.val
    let dead (r : Nat) : Prop := ∀ i < 4, r ≤ i → fld n.b.v.toNat (16 * i) 16 = 0
    (n.instr = .cpy ed es ob bind close → n.ta = some rd → n.tb = some rs → n.b.p = false → td.fmt = ts.fmt → td.win = ts.win →
      dead (min td.rank ts.rank) → (td.fmt.isB = true → td.win.i0 % 32 = 0 ∧ o.i0 % 32 = 0) → td.repeats = false →
      Runs ((td.winElems o).filter td.writable) fun _ here x k x' => ∃ x1,
        (∀ done, chaseOnce v c.val (frontWalk done) (walkFault 0x0C 0x92 done) ts (cpyCover ts here) x = .ok true x1) ∧
        ∀ done, cpyUnit v td ts done here x1 = .ok k x') ∧
    (n.instr = .cpyf ed ob oc bind close → n.ta = some rd → n.b.p = false → n.c.p = false → td.fmt.isB = false → dead td.rank →
      td.repeats = false →
      Runs ((td.winElems o).filter td.inside) fun _ here x k x' => k = here.length * td.fmt.width / 8 ∧
        ∀ ch, ∃ l, writeItems v ch td (here.map fun i => { x := i, b := n.c.v.toNat % 2 ^ td.fmt.width, p := false }) [] x = .ok l x') ∧
    (∀ (here : List Ix) (st st' : State) (wss : List (List Put)), td.fmt.isB = false → td.fmt = ts.fmt → (∀ i ∈ here, td.inside i = true) →
      Each (fun g x ws x' => ∃ ys x1, (∀ ch, Each (fun i y e y' => readElem v ch ts i y = .ok e y') g x ys x1) ∧ SameBytes x x1 c.val ∧
        Sys2Proof.Machine.GranPut v c.val td ((g.zip ys).map fun q => { x := q.1, b := q.2.1, p := q.2.2 }) x1 ws x') (td.grans here) st wss st' →
      (∀ done, cpyUnit v td ts done here st = .ok (here.length * td.fmt.width / 8) st') ∧ Puts c.val wss.flatten st st') ∧
    (∀ (rss : List (Nat × Nat)) (wss : List (List Put)), n.instr = .cpym a b oc bind → n.a.p = false → n.b.p = false → n.c.p = false →
      n.c.v.toNat < 2 ^ 32 → (rss.map (·.2)).sum = n.c.v.toNat → (∀ i r, rss[i]? = some r → r.1 = ((rss.take i).map (·.2)).sum ∧ 0 < r.2) →
      Each (fun r x ws x' => ∃ tr tw x1 x2 x3 bs p,
        let ad := (n.a.v.toNat + r.1) % 2 ^ 64
        let as := (n.b.v.toNat + r.1) % 2 ^ 64
        access (chapWalk r.1) v.a v.ctx .r as 1 false x = .ok tr x1 ∧ access (chapWalk r.1) v.a v.ctx .w ad 1 false x1 = .ok tw x2 ∧
        (let g := min tr.poisonUnit tw.poisonUnit; r.2 = min (n.c.v.toNat - r.1) (min (g - ad % g) (g - as % g))) ∧
        readAt v.a tr r.2 0 x2 = .ok (bs, p) x3 ∧ SameBytes x2 x3 c.val ∧ AtHome x3 v.a c.val tw ∧
        writeAt v.a v.ctx tw bs p 0 false x3 = .ok () x' ∧ ws = putBytes x3 c.val tw bs) rss s0 wss u →
      ∃ t, exec (.engineEntryStart c .wq) s = .next t ∧ Stands t c .wq n .done ∧ Puts c.val wss.flatten s t ∧ KeepsRegs s t c.val) ∧
    (∀ (t : Target) (u1 : State) (bs : List Byte), n.instr = .trig a ob sc → n.a.p = false → n.b.p = false →
      let va := n.a.v.toNat
      resolve (chapWalk 0) v.a v.ctx .r va false s0 = .ok t u1 → t.effHome ≠ 0 → t.effHome ≠ 3 → va % 8 = 0 →
      poolCheck (chapWalk 0) v.a v.ctx va t u1 = .ok () u1 → u1.nrAhead v.a t 8 = false → homeReach (chapWalk 0) v.a va t u1 = .ok () u1 →
      readHome v.a t 8 u1 = .ok (bs, false) u →
      (ofBytes bs < n.b.v.toNat → WaitsIn s u c .wq n) ∧
      (n.b.v.toNat ≤ ofBytes bs → EndsIn s (u.acquire c.val sc) c .wq n [] fun _ => True))

open Sys2Proof.Machine in
/-- R152-R156: `vchain` goes unit by unit in td's order: it chases its sources' boxes, evaluates the word's slots for each element, writes by
granules (the model's choice, log 95) and publishes each unit, and CLOSED at the end; its flags are those of all. -/
def Sys2Proof.Machine.ChainWordRule : Prop :=
  ∀ (s u : State) (c : CoreId) (tk : Tok) (ed ea : TEnt) (ob : EOpd) (ec : Option TEnt) (sat : Bool) (rnd : Rnd) (n : Entry) (td ta : Tens)
    (tc : Option Tens) (fss : List (List Flg)),
    Starts s c .ve n → Fresh n → n.instr = .vchain tk ed ea ob ec sat rnd →
    let n' : Entry := { n with phase := .started, since := none }
    let s0 := atWork s c .ve n
    chainArgs ec.isSome n' s0 = .ok (td, ta, tc) s0 →
    let v := viaOf s c .core
    let steps : List BulkStep := (List.range td.units).flatMap (fun w => .write w :: if td.fw = 0 then [] else [.pub (w + 1) false]) ++
      if td.fw = 0 then [] else [.pub td.units true]
    let chase (t : Tens) (b : Ix × Ix) (x x' : State) : Prop :=
      ∀ m, chaseOnce v c.val (frontVchain m) (mkFault 0x0C (chainDetail m 0 0x92)) t (t.cover b) x = .ok true x'
    let elem (i : Ix) (x : State) (r : Flg × Item) (x' : State) : Prop := ∃ (y k : Nat × Bool) (x1 : State),
      (∀ m, readElem v (chapVchain m) ta i x = .ok y x1) ∧
      (match tc with | some t => ∀ m, readElem v (chapVchain m) t i x1 = .ok k x' | none => k = (0, false) ∧ x' = x1) ∧
      let kv : Machine.Num := match tc with | some t => numOf t.fmt k.1 | none => Machine.Num.zero
      let z := chainEval rnd n.b.v.toNat n.ks n.ksPois kv (List.range 8) (numOf ta.fmt y.1, Flg.none, false)
      let e := (tyFmt td.fmt).fin rnd sat z.1
      r = (z.2.1.or e.2, { x := i, b := e.1, p := y.2 || k.2 || z.2.2 })
    Each (fun st x fs x' => match st with
      | .write w => ∃ x1 x2 gs, chase ta (td.unitBox w) x x1 ∧ (match tc with | some t => chase t (td.unitBox w) x1 x2 | none => x2 = x1) ∧
        Each (fun g y f y' => ∃ rs y1, Each elem g y rs y1 ∧ (∀ ch, ∃ l, writeGran v ch td (rs.map (·.2)) y1 = .ok l y') ∧
          f = orAll (rs.map (·.1))) (td.grans (boxElems (td.unitBox w))) x2 gs x' ∧ fs = gs
      | .pub m cl => fs = [] ∧ ∀ k, publish v c.val (frontVchain k) td m cl x = .ok () x') steps s0 fss u →
    ∃ t, exec (.engineEntryStart c .ve) s = .next t ∧ Stands t c .ve n .done ∧ t.mem = u.mem ∧ KeepsRegs u t c.val ∧
      ∀ o ∈ (t.core c.val).ve.ents, o.num = n.num → o.flags = (orAll fss.flatten).bits

open Sys2Proof.Machine in
/-- R153, R154: one slot of a chain word on f32 values, each operation rounded once; the slots run in order to the first empty one. -/
def Sys2Proof.Machine.ChainSlotsRule : Prop :=
  ∀ (rnd : Rnd) (y b k : Machine.Num) (w : Nat) (ks : BitVec 256) (kp : BitVec 8) (f : Flg) (p : Bool) (j : Nat) (js : List Nat),
    let rd (v : Machine.Num) : Machine.Num × Flg := fmtF32.round rnd false v
    let op (o : Nat) : Machine.Num × Flg := chainOp rnd o y b k
    let code := w / 2 ^ (8 * j + 4) % 16
    let ki := w / 2 ^ (8 * j) % 8
    let x := chainOp rnd code y b (numF32 (ks.extractLsb' (32 * ki) 32).toNat)
    op 1 = rd (Machine.Num.add rnd y b) ∧ op 2 = rd (Machine.Num.add rnd y b.neg) ∧ op 3 = rd (y.mul b) ∧
    op 4 = rd (Machine.Num.add rnd (y.mul b) k) ∧ op 5 = rd (Machine.Num.add rnd y k) ∧ op 6 = rd (y.mul k) ∧
    op 7 = (y.max k, Flg.none) ∧ op 8 = (y.min k, Flg.none) ∧ op 9 = (y.abs, Flg.none) ∧ op 10 = (y.neg, Flg.none) ∧
    op 11 = exp2Num fmtF32 rnd false y ∧ op 12 = log2Num fmtF32 rnd false y ∧ op 13 = rd y.rcp ∧ op 14 = rd y.sqrt ∧ op 15 = rd y.rsqrt ∧
    chainEval rnd w ks kp b (j :: js) (y, f, p) =
      if code = 0 then (y, f, p)
      else chainEval rnd w ks kp b js (x.1, f.or x.2, p || (decide (4 ≤ code ∧ code ≤ 8) && kp.getLsbD ki))

/-- What entries do when they start: loads, stores, atomics, windows, cells, the Loom, the walker, chain words. -/
def Obligations.EngineEffects : Prop :=
  Sys2Proof.Machine.EntriesBeginAtZeroRule ∧ Sys2Proof.Machine.VectorLoadsRule ∧ Sys2Proof.Machine.VectorCellsRule ∧
  Sys2Proof.Machine.VectorStoresRule ∧ Sys2Proof.Machine.VectorAtomicsRule ∧ Sys2Proof.Machine.WindowsRule ∧
  Sys2Proof.Machine.LoomRule ∧ Sys2Proof.Machine.HallmarkRule ∧ Sys2Proof.Machine.WalkerRule ∧ Sys2Proof.Machine.ChainWordRule ∧
  Sys2Proof.Machine.ChainSlotsRule
end

