-- ==== Sys2Proof/Laws/Store.lean ====
section
/-! SUPPORT. Sparse maps, sets and memory: what a read gives after a write, and that every write keeps the canonical form. -/

namespace Sys2Proof.Machine

open Sys2Proof

/-! ## Maps -/

theorem sget_sput_same {α : Type} (m : SMap α) (k : Nat) (v d : α) : sget (sput m k v) k d = v := by
  induction m with
  | nil => simp [sput, sget]
  | cons p m ih =>
    simp only [sput]
    split
    · simp [sget]
    · split
      · simp [sget]
      · rename_i h1 h2
        simp only [sget]
        rw [if_neg (Ne.symm h2)]
        exact ih

theorem sget_sput_other {α : Type} (m : SMap α) (k j : Nat) (v d : α) (h : j ≠ k) :
    sget (sput m k v) j d = sget m j d := by
  induction m with
  | nil => simp [sput, sget, Ne.symm h]
  | cons p m ih =>
    simp only [sput]
    split
    · simp [sget, Ne.symm h]
    · split
      · rename_i _ h2
        simp [sget, Ne.symm h, ← h2]
      · simp only [sget, ih]

theorem sget_sdel_same {α : Type} (m : SMap α) (k : Nat) (d : α) : sget (sdel m k) k d = d := by
  induction m with
  | nil => rfl
  | cons p m ih =>
    simp only [sdel]
    split
    · exact ih
    · rename_i h
      simp only [sget, if_neg h]
      exact ih

theorem sget_sdel_other {α : Type} (m : SMap α) (k j : Nat) (d : α) (h : j ≠ k) : sget (sdel m k) j d = sget m j d := by
  induction m with
  | nil => rfl
  | cons p m ih =>
    simp only [sdel]
    split
    · rename_i h1
      rw [ih]
      simp [sget, h1, Ne.symm h]
    · simp only [sget, ih]

/-- A read after a write to the same key gives the value written. -/
@[simp] theorem sget_sset_same {α : Type} [DecidableEq α] (m : SMap α) (k : Nat) (v d : α) : sget (sset m k v d) k d = v := by
  unfold sset
  split
  · rename_i h
    rw [sget_sdel_same, h]
  · exact sget_sput_same m k v d

/-- A write leaves every other key alone. -/
theorem sget_sset_other {α : Type} [DecidableEq α] (m : SMap α) (k j : Nat) (v d d' : α) (h : j ≠ k) :
    sget (sset m k v d) j d' = sget m j d' := by
  unfold sset
  split
  · exact sget_sdel_other m k j d' h
  · exact sget_sput_other m k j v d' h

theorem swfFrom_mono {α : Type} [DecidableEq α] {d : Nat → α} {lo lo' : Nat} (h : lo' ≤ lo) {m : SMap α}
    (hm : swfFrom d lo m = true) : swfFrom d lo' m = true := by
  cases m with
  | nil => rfl
  | cons p m =>
    simp only [swfFrom, Bool.and_eq_true, decide_eq_true_eq] at hm ⊢
    exact ⟨⟨Nat.le_trans h hm.1.1, hm.1.2⟩, hm.2⟩

theorem swfFrom_sdel {α : Type} [DecidableEq α] {d : Nat → α} (k : Nat) :
    ∀ (m : SMap α) (lo : Nat), swfFrom d lo m = true → swfFrom d lo (sdel m k) = true := by
  intro m
  induction m with
  | nil => intro lo h; exact h
  | cons p m ih =>
    intro lo h
    simp only [swfFrom, Bool.and_eq_true, decide_eq_true_eq] at h
    simp only [sdel]
    split
    · exact ih lo (swfFrom_mono (by omega) h.2)
    · simp only [swfFrom, Bool.and_eq_true, decide_eq_true_eq]
      exact ⟨h.1, ih _ h.2⟩

theorem swfFrom_sput {α : Type} [DecidableEq α] {d : Nat → α} (k : Nat) (v : α) (hv : v ≠ d k) :
    ∀ (m : SMap α) (lo : Nat), lo ≤ k → swfFrom d lo m = true → swfFrom d lo (sput m k v) = true := by
  intro m
  induction m with
  | nil =>
    intro lo hk _
    simp [sput, swfFrom, hk, hv]
  | cons p m ih =>
    intro lo hk h
    simp only [swfFrom, Bool.and_eq_true, decide_eq_true_eq] at h
    simp only [sput]
    split
    · simp only [swfFrom, Bool.and_eq_true, decide_eq_true_eq]
      exact ⟨⟨hk, hv⟩, ⟨by omega, h.1.2⟩, h.2⟩
    · split
      · rename_i _ he
        simp only [swfFrom, Bool.and_eq_true, decide_eq_true_eq]
        exact ⟨⟨hk, hv⟩, he ▸ h.2⟩
      · simp only [swfFrom, Bool.and_eq_true, decide_eq_true_eq]
        exact ⟨h.1, ih _ (by omega) h.2⟩

/-- A write keeps the canonical form. -/
theorem swf_sset {α : Type} [DecidableEq α] {d : Nat → α} (m : SMap α) (k : Nat) (v : α) (h : swf d m = true) :
    swf d (sset m k v (d k)) = true := by
  unfold sset
  split
  · exact swfFrom_sdel k m 0 h
  · rename_i hv
    exact swfFrom_sput k v hv m 0 (Nat.zero_le k) h

/-! ## Sets -/

theorem mem_nins (s : NSet) (k j : Nat) : j ∈ nins s k ↔ j = k ∨ j ∈ s := by
  induction s with
  | nil => simp [nins]
  | cons a s ih =>
    simp only [nins]
    split
    · simp
    · split
      · rename_i _ h
        simp [h]
      · simp [ih, or_left_comm]

theorem mem_ndel (s : NSet) (k j : Nat) : j ∈ ndel s k ↔ j ≠ k ∧ j ∈ s := by
  induction s with
  | nil => simp [ndel]
  | cons a s ih =>
    simp only [ndel]
    split
    · rename_i h
      rw [ih]
      constructor
      · intro h1; exact ⟨h1.1, List.mem_cons_of_mem a h1.2⟩
      · intro h1
        refine ⟨h1.1, ?_⟩
        rcases List.mem_cons.mp h1.2 with h2 | h2
        · exact absurd (h2.trans h) h1.1
        · exact h2
    · rename_i h
      constructor
      · intro h1
        rcases List.mem_cons.mp h1 with h2 | h2
        · exact ⟨by rw [h2]; exact h, by rw [h2]; exact List.mem_cons_self⟩
        · exact ⟨(ih.mp h2).1, List.mem_cons_of_mem a (ih.mp h2).2⟩
      · intro h1
        rcases List.mem_cons.mp h1.2 with h2 | h2
        · rw [h2]; exact List.mem_cons_self
        · exact List.mem_cons_of_mem a (ih.mpr ⟨h1.1, h2⟩)

/-! ## Memory -/

/-- A byte reads as what was written to it. -/
@[simp] theorem sget_memSet_same (m : List Host.Cell) (a : Nat) (b : Byte) : sget (memSet m a b) a memInit = b :=
  sget_sset_same m a b memInit

/-- A write of one byte leaves every other byte alone. -/
theorem sget_memSet_other (m : List Host.Cell) (a j : Nat) (b : Byte) (h : j ≠ a) :
    sget (memSet m a b) j memInit = sget m j memInit :=
  sget_sset_other m a j b memInit memInit h

/-- Writing one byte keeps memory's canonical form. -/
theorem wf_memSet (m : List Host.Cell) (a : Nat) (b : Byte) (h : Memory.wf m = true) : Memory.wf (memSet m a b) = true :=
  swf_sset (d := fun _ => memInit) m a b h

/-- Writing bytes keeps memory's canonical form. -/
theorem wf_memSetAll (bs : List Byte) : ∀ (m : List Host.Cell) (a : Nat), Memory.wf m = true → Memory.wf (memSetAll m a bs) = true := by
  induction bs with
  | nil => intro m a h; exact h
  | cons b bs ih => intro m a h; exact ih _ _ (wf_memSet m a b h)

/-- A write of bytes leaves the bytes outside it alone. -/
theorem sget_memSetAll_other (bs : List Byte) : ∀ (m : List Host.Cell) (a j : Nat), (j < a ∨ a + bs.length ≤ j) →
    sget (memSetAll m a bs) j memInit = sget m j memInit := by
  induction bs with
  | nil => intro m a j _; rfl
  | cons b bs ih =>
    intro m a j h
    simp only [List.length_cons] at h
    rw [memSetAll, ih _ _ _ (by omega), sget_memSet_other _ _ _ _ (by omega)]

/-- Each byte of a write of bytes reads as it was written. -/
theorem sget_memSetAll_same (bs : List Byte) : ∀ (m : List Host.Cell) (a k : Nat) (h : k < bs.length),
    sget (memSetAll m a bs) (a + k) memInit = bs[k] := by
  induction bs with
  | nil => intro m a k h; simp at h
  | cons b bs ih =>
    intro m a k h
    cases k with
    | zero =>
      rw [memSetAll, sget_memSetAll_other _ _ _ _ (by omega)]
      simp
    | succ k =>
      rw [memSetAll, show a + (k + 1) = (a + 1) + k by omega]
      simpa using ih (memSet m a b) (a + 1) k (by simpa using h)

/-! ## Bytes -/

@[simp] theorem length_toBytes (n v : Nat) : (toBytes n v).length = n := by
  induction n generalizing v with
  | zero => rfl
  | succ n ih => simp [toBytes, ih]

/-- The number that the bytes of a number spell (R5). -/
theorem ofBytes_toBytes (n v : Nat) : ofBytes (toBytes n v) = v % 256 ^ n := by
  induction n generalizing v with
  | zero => simp [toBytes, ofBytes, Nat.mod_one]
  | succ n ih =>
    simp only [toBytes, ofBytes, ih, BitVec.toNat_ofNat]
    have h : v % 256 ^ (n + 1) = v % 256 + 256 * (v / 256 % 256 ^ n) := by
      rw [show 256 ^ (n + 1) = 256 * 256 ^ n by omega, Nat.mod_mul]
    exact h.symm

end Sys2Proof.Machine
end

