-- ==== Sys2Proof/Laws/State.lean ====
section
/-! SUPPORT. What each update of the state changes: one lemma per field per update. -/

namespace Sys2Proof.Machine

open Sys2Proof

/-! ## Updates of the package -/

@[simp] theorem State.setCore_clock (s : State) (c : Nat) (v : Core) : (s.setCore c v).clock = s.clock := rfl
@[simp] theorem State.setCore_quads (s : State) (c : Nat) (v : Core) : (s.setCore c v).quads = s.quads := rfl
@[simp] theorem State.setCore_dies (s : State) (c : Nat) (v : Core) : (s.setCore c v).dies = s.dies := rfl
@[simp] theorem State.setCore_ctxs (s : State) (c : Nat) (v : Core) : (s.setCore c v).ctxs = s.ctxs := rfl
@[simp] theorem State.setCore_queues (s : State) (c : Nat) (v : Core) : (s.setCore c v).queues = s.queues := rfl
@[simp] theorem State.setCore_clx (s : State) (c : Nat) (v : Core) : (s.setCore c v).clx = s.clx := rfl
@[simp] theorem State.setCore_launches (s : State) (c : Nat) (v : Core) : (s.setCore c v).launches = s.launches := rfl
@[simp] theorem State.setCore_heldRecs (s : State) (c : Nat) (v : Core) : (s.setCore c v).heldRecs = s.heldRecs := rfl
@[simp] theorem State.setCore_mem (s : State) (c : Nat) (v : Core) : (s.setCore c v).mem = s.mem := rfl
@[simp] theorem State.setCore_mpois (s : State) (c : Nat) (v : Core) : (s.setCore c v).mpois = s.mpois := rfl
@[simp] theorem State.setCore_relTags (s : State) (c : Nat) (v : Core) : (s.setCore c v).relTags = s.relTags := rfl
@[simp] theorem State.setCore_openers (s : State) (c : Nat) (v : Core) : (s.setCore c v).openers = s.openers := rfl
@[simp] theorem State.setCore_waits (s : State) (c : Nat) (v : Core) : (s.setCore c v).waits = s.waits := rfl
@[simp] theorem State.setCore_hbars (s : State) (c : Nat) (v : Core) : (s.setCore c v).hbars = s.hbars := rfl
@[simp] theorem State.setCore_criers (s : State) (c : Nat) (v : Core) : (s.setCore c v).criers = s.criers := rfl
@[simp] theorem State.setCore_pools (s : State) (c : Nat) (v : Core) : (s.setCore c v).pools = s.pools := rfl
@[simp] theorem State.setCore_smap (s : State) (c : Nat) (v : Core) : (s.setCore c v).smap = s.smap := rfl
@[simp] theorem State.setCore_pkg (s : State) (c : Nat) (v : Core) : (s.setCore c v).pkg = s.pkg := rfl
@[simp] theorem State.setCore_tlbi (s : State) (c : Nat) (v : Core) : (s.setCore c v).tlbi = s.tlbi := rfl
@[simp] theorem State.setCore_tlbDrop (s : State) (c : Nat) (v : Core) : (s.setCore c v).tlbDrop = s.tlbDrop := rfl
@[simp] theorem State.setCore_rbsStatus (s : State) (c : Nat) (v : Core) : (s.setCore c v).rbsStatus = s.rbsStatus := rfl
@[simp] theorem State.setCore_rbsLines (s : State) (c : Nat) (v : Core) : (s.setCore c v).rbsLines = s.rbsLines := rfl
@[simp] theorem State.setCore_rollback (s : State) (c : Nat) (v : Core) : (s.setCore c v).rollback = s.rollback := rfl
@[simp] theorem State.setCore_chanHeld (s : State) (c : Nat) (v : Core) : (s.setCore c v).chanHeld = s.chanHeld := rfl
@[simp] theorem State.setCore_ports (s : State) (c : Nat) (v : Core) : (s.setCore c v).ports = s.ports := rfl
@[simp] theorem State.setCore_syc (s : State) (c : Nat) (v : Core) : (s.setCore c v).syc = s.syc := rfl
@[simp] theorem State.setCore_agenda (s : State) (c : Nat) (v : Core) : (s.setCore c v).agenda = s.agenda := rfl
@[simp] theorem State.setCore_turn (s : State) (c : Nat) (v : Core) : (s.setCore c v).turn = s.turn := rfl
@[simp] theorem State.setCore_focus (s : State) (c : Nat) (v : Core) : (s.setCore c v).focus = s.focus := rfl
@[simp] theorem State.setCore_free (s : State) (c : Nat) (v : Core) : (s.setCore c v).free = s.free := rfl
@[simp] theorem State.setCore_nextInst (s : State) (c : Nat) (v : Core) : (s.setCore c v).nextInst = s.nextInst := rfl
@[simp] theorem State.setCore_outbox (s : State) (c : Nat) (v : Core) : (s.setCore c v).outbox = s.outbox := rfl
@[simp] theorem State.setCore_lateRecs (s : State) (c : Nat) (v : Core) : (s.setCore c v).lateRecs = s.lateRecs := rfl
@[simp] theorem State.setCore_fqHeld (s : State) (c : Nat) (v : Core) : (s.setCore c v).fqHeld = s.fqHeld := rfl
@[simp] theorem State.setCore_late (s : State) (c : Nat) (v : Core) : (s.setCore c v).late = s.late := rfl
@[simp] theorem State.setCore_regWrites (s : State) (c : Nat) (v : Core) : (s.setCore c v).regWrites = s.regWrites := rfl

@[simp] theorem State.setQuad_clock (s : State) (q : Nat) (v : Quad) : (s.setQuad q v).clock = s.clock := rfl
@[simp] theorem State.setQuad_cores (s : State) (q : Nat) (v : Quad) : (s.setQuad q v).cores = s.cores := rfl
@[simp] theorem State.setQuad_dies (s : State) (q : Nat) (v : Quad) : (s.setQuad q v).dies = s.dies := rfl
@[simp] theorem State.setQuad_ctxs (s : State) (q : Nat) (v : Quad) : (s.setQuad q v).ctxs = s.ctxs := rfl
@[simp] theorem State.setQuad_queues (s : State) (q : Nat) (v : Quad) : (s.setQuad q v).queues = s.queues := rfl
@[simp] theorem State.setQuad_clx (s : State) (q : Nat) (v : Quad) : (s.setQuad q v).clx = s.clx := rfl
@[simp] theorem State.setQuad_launches (s : State) (q : Nat) (v : Quad) : (s.setQuad q v).launches = s.launches := rfl
@[simp] theorem State.setQuad_heldRecs (s : State) (q : Nat) (v : Quad) : (s.setQuad q v).heldRecs = s.heldRecs := rfl
@[simp] theorem State.setQuad_mem (s : State) (q : Nat) (v : Quad) : (s.setQuad q v).mem = s.mem := rfl
@[simp] theorem State.setQuad_mpois (s : State) (q : Nat) (v : Quad) : (s.setQuad q v).mpois = s.mpois := rfl
@[simp] theorem State.setQuad_relTags (s : State) (q : Nat) (v : Quad) : (s.setQuad q v).relTags = s.relTags := rfl
@[simp] theorem State.setQuad_openers (s : State) (q : Nat) (v : Quad) : (s.setQuad q v).openers = s.openers := rfl
@[simp] theorem State.setQuad_waits (s : State) (q : Nat) (v : Quad) : (s.setQuad q v).waits = s.waits := rfl
@[simp] theorem State.setQuad_hbars (s : State) (q : Nat) (v : Quad) : (s.setQuad q v).hbars = s.hbars := rfl
@[simp] theorem State.setQuad_criers (s : State) (q : Nat) (v : Quad) : (s.setQuad q v).criers = s.criers := rfl
@[simp] theorem State.setQuad_pools (s : State) (q : Nat) (v : Quad) : (s.setQuad q v).pools = s.pools := rfl
@[simp] theorem State.setQuad_smap (s : State) (q : Nat) (v : Quad) : (s.setQuad q v).smap = s.smap := rfl
@[simp] theorem State.setQuad_pkg (s : State) (q : Nat) (v : Quad) : (s.setQuad q v).pkg = s.pkg := rfl
@[simp] theorem State.setQuad_tlbi (s : State) (q : Nat) (v : Quad) : (s.setQuad q v).tlbi = s.tlbi := rfl
@[simp] theorem State.setQuad_tlbDrop (s : State) (q : Nat) (v : Quad) : (s.setQuad q v).tlbDrop = s.tlbDrop := rfl
@[simp] theorem State.setQuad_rbsStatus (s : State) (q : Nat) (v : Quad) : (s.setQuad q v).rbsStatus = s.rbsStatus := rfl
@[simp] theorem State.setQuad_rbsLines (s : State) (q : Nat) (v : Quad) : (s.setQuad q v).rbsLines = s.rbsLines := rfl
@[simp] theorem State.setQuad_rollback (s : State) (q : Nat) (v : Quad) : (s.setQuad q v).rollback = s.rollback := rfl
@[simp] theorem State.setQuad_chanHeld (s : State) (q : Nat) (v : Quad) : (s.setQuad q v).chanHeld = s.chanHeld := rfl
@[simp] theorem State.setQuad_ports (s : State) (q : Nat) (v : Quad) : (s.setQuad q v).ports = s.ports := rfl
@[simp] theorem State.setQuad_syc (s : State) (q : Nat) (v : Quad) : (s.setQuad q v).syc = s.syc := rfl
@[simp] theorem State.setQuad_agenda (s : State) (q : Nat) (v : Quad) : (s.setQuad q v).agenda = s.agenda := rfl
@[simp] theorem State.setQuad_turn (s : State) (q : Nat) (v : Quad) : (s.setQuad q v).turn = s.turn := rfl
@[simp] theorem State.setQuad_focus (s : State) (q : Nat) (v : Quad) : (s.setQuad q v).focus = s.focus := rfl
@[simp] theorem State.setQuad_free (s : State) (q : Nat) (v : Quad) : (s.setQuad q v).free = s.free := rfl
@[simp] theorem State.setQuad_nextInst (s : State) (q : Nat) (v : Quad) : (s.setQuad q v).nextInst = s.nextInst := rfl
@[simp] theorem State.setQuad_outbox (s : State) (q : Nat) (v : Quad) : (s.setQuad q v).outbox = s.outbox := rfl
@[simp] theorem State.setQuad_lateRecs (s : State) (q : Nat) (v : Quad) : (s.setQuad q v).lateRecs = s.lateRecs := rfl
@[simp] theorem State.setQuad_fqHeld (s : State) (q : Nat) (v : Quad) : (s.setQuad q v).fqHeld = s.fqHeld := rfl
@[simp] theorem State.setQuad_late (s : State) (q : Nat) (v : Quad) : (s.setQuad q v).late = s.late := rfl
@[simp] theorem State.setQuad_regWrites (s : State) (q : Nat) (v : Quad) : (s.setQuad q v).regWrites = s.regWrites := rfl

@[simp] theorem State.setDie_clock (s : State) (d : Nat) (v : Die) : (s.setDie d v).clock = s.clock := rfl
@[simp] theorem State.setDie_cores (s : State) (d : Nat) (v : Die) : (s.setDie d v).cores = s.cores := rfl
@[simp] theorem State.setDie_quads (s : State) (d : Nat) (v : Die) : (s.setDie d v).quads = s.quads := rfl
@[simp] theorem State.setDie_ctxs (s : State) (d : Nat) (v : Die) : (s.setDie d v).ctxs = s.ctxs := rfl
@[simp] theorem State.setDie_queues (s : State) (d : Nat) (v : Die) : (s.setDie d v).queues = s.queues := rfl
@[simp] theorem State.setDie_clx (s : State) (d : Nat) (v : Die) : (s.setDie d v).clx = s.clx := rfl
@[simp] theorem State.setDie_launches (s : State) (d : Nat) (v : Die) : (s.setDie d v).launches = s.launches := rfl
@[simp] theorem State.setDie_heldRecs (s : State) (d : Nat) (v : Die) : (s.setDie d v).heldRecs = s.heldRecs := rfl
@[simp] theorem State.setDie_mem (s : State) (d : Nat) (v : Die) : (s.setDie d v).mem = s.mem := rfl
@[simp] theorem State.setDie_mpois (s : State) (d : Nat) (v : Die) : (s.setDie d v).mpois = s.mpois := rfl
@[simp] theorem State.setDie_relTags (s : State) (d : Nat) (v : Die) : (s.setDie d v).relTags = s.relTags := rfl
@[simp] theorem State.setDie_openers (s : State) (d : Nat) (v : Die) : (s.setDie d v).openers = s.openers := rfl
@[simp] theorem State.setDie_waits (s : State) (d : Nat) (v : Die) : (s.setDie d v).waits = s.waits := rfl
@[simp] theorem State.setDie_hbars (s : State) (d : Nat) (v : Die) : (s.setDie d v).hbars = s.hbars := rfl
@[simp] theorem State.setDie_criers (s : State) (d : Nat) (v : Die) : (s.setDie d v).criers = s.criers := rfl
@[simp] theorem State.setDie_pools (s : State) (d : Nat) (v : Die) : (s.setDie d v).pools = s.pools := rfl
@[simp] theorem State.setDie_smap (s : State) (d : Nat) (v : Die) : (s.setDie d v).smap = s.smap := rfl
@[simp] theorem State.setDie_pkg (s : State) (d : Nat) (v : Die) : (s.setDie d v).pkg = s.pkg := rfl
@[simp] theorem State.setDie_tlbi (s : State) (d : Nat) (v : Die) : (s.setDie d v).tlbi = s.tlbi := rfl
@[simp] theorem State.setDie_tlbDrop (s : State) (d : Nat) (v : Die) : (s.setDie d v).tlbDrop = s.tlbDrop := rfl
@[simp] theorem State.setDie_rbsStatus (s : State) (d : Nat) (v : Die) : (s.setDie d v).rbsStatus = s.rbsStatus := rfl
@[simp] theorem State.setDie_rbsLines (s : State) (d : Nat) (v : Die) : (s.setDie d v).rbsLines = s.rbsLines := rfl
@[simp] theorem State.setDie_rollback (s : State) (d : Nat) (v : Die) : (s.setDie d v).rollback = s.rollback := rfl
@[simp] theorem State.setDie_chanHeld (s : State) (d : Nat) (v : Die) : (s.setDie d v).chanHeld = s.chanHeld := rfl
@[simp] theorem State.setDie_ports (s : State) (d : Nat) (v : Die) : (s.setDie d v).ports = s.ports := rfl
@[simp] theorem State.setDie_syc (s : State) (d : Nat) (v : Die) : (s.setDie d v).syc = s.syc := rfl
@[simp] theorem State.setDie_agenda (s : State) (d : Nat) (v : Die) : (s.setDie d v).agenda = s.agenda := rfl
@[simp] theorem State.setDie_turn (s : State) (d : Nat) (v : Die) : (s.setDie d v).turn = s.turn := rfl
@[simp] theorem State.setDie_focus (s : State) (d : Nat) (v : Die) : (s.setDie d v).focus = s.focus := rfl
@[simp] theorem State.setDie_free (s : State) (d : Nat) (v : Die) : (s.setDie d v).free = s.free := rfl
@[simp] theorem State.setDie_nextInst (s : State) (d : Nat) (v : Die) : (s.setDie d v).nextInst = s.nextInst := rfl
@[simp] theorem State.setDie_outbox (s : State) (d : Nat) (v : Die) : (s.setDie d v).outbox = s.outbox := rfl
@[simp] theorem State.setDie_lateRecs (s : State) (d : Nat) (v : Die) : (s.setDie d v).lateRecs = s.lateRecs := rfl
@[simp] theorem State.setDie_fqHeld (s : State) (d : Nat) (v : Die) : (s.setDie d v).fqHeld = s.fqHeld := rfl
@[simp] theorem State.setDie_late (s : State) (d : Nat) (v : Die) : (s.setDie d v).late = s.late := rfl
@[simp] theorem State.setDie_regWrites (s : State) (d : Nat) (v : Die) : (s.setDie d v).regWrites = s.regWrites := rfl

@[simp] theorem State.setCtx_clock (s : State) (c : Nat) (v : Ctx) : (s.setCtx c v).clock = s.clock := rfl
@[simp] theorem State.setCtx_cores (s : State) (c : Nat) (v : Ctx) : (s.setCtx c v).cores = s.cores := rfl
@[simp] theorem State.setCtx_quads (s : State) (c : Nat) (v : Ctx) : (s.setCtx c v).quads = s.quads := rfl
@[simp] theorem State.setCtx_dies (s : State) (c : Nat) (v : Ctx) : (s.setCtx c v).dies = s.dies := rfl
@[simp] theorem State.setCtx_queues (s : State) (c : Nat) (v : Ctx) : (s.setCtx c v).queues = s.queues := rfl
@[simp] theorem State.setCtx_clx (s : State) (c : Nat) (v : Ctx) : (s.setCtx c v).clx = s.clx := rfl
@[simp] theorem State.setCtx_launches (s : State) (c : Nat) (v : Ctx) : (s.setCtx c v).launches = s.launches := rfl
@[simp] theorem State.setCtx_heldRecs (s : State) (c : Nat) (v : Ctx) : (s.setCtx c v).heldRecs = s.heldRecs := rfl
@[simp] theorem State.setCtx_mem (s : State) (c : Nat) (v : Ctx) : (s.setCtx c v).mem = s.mem := rfl
@[simp] theorem State.setCtx_mpois (s : State) (c : Nat) (v : Ctx) : (s.setCtx c v).mpois = s.mpois := rfl
@[simp] theorem State.setCtx_relTags (s : State) (c : Nat) (v : Ctx) : (s.setCtx c v).relTags = s.relTags := rfl
@[simp] theorem State.setCtx_openers (s : State) (c : Nat) (v : Ctx) : (s.setCtx c v).openers = s.openers := rfl
@[simp] theorem State.setCtx_waits (s : State) (c : Nat) (v : Ctx) : (s.setCtx c v).waits = s.waits := rfl
@[simp] theorem State.setCtx_hbars (s : State) (c : Nat) (v : Ctx) : (s.setCtx c v).hbars = s.hbars := rfl
@[simp] theorem State.setCtx_criers (s : State) (c : Nat) (v : Ctx) : (s.setCtx c v).criers = s.criers := rfl
@[simp] theorem State.setCtx_pools (s : State) (c : Nat) (v : Ctx) : (s.setCtx c v).pools = s.pools := rfl
@[simp] theorem State.setCtx_smap (s : State) (c : Nat) (v : Ctx) : (s.setCtx c v).smap = s.smap := rfl
@[simp] theorem State.setCtx_pkg (s : State) (c : Nat) (v : Ctx) : (s.setCtx c v).pkg = s.pkg := rfl
@[simp] theorem State.setCtx_tlbi (s : State) (c : Nat) (v : Ctx) : (s.setCtx c v).tlbi = s.tlbi := rfl
@[simp] theorem State.setCtx_tlbDrop (s : State) (c : Nat) (v : Ctx) : (s.setCtx c v).tlbDrop = s.tlbDrop := rfl
@[simp] theorem State.setCtx_rbsStatus (s : State) (c : Nat) (v : Ctx) : (s.setCtx c v).rbsStatus = s.rbsStatus := rfl
@[simp] theorem State.setCtx_rbsLines (s : State) (c : Nat) (v : Ctx) : (s.setCtx c v).rbsLines = s.rbsLines := rfl
@[simp] theorem State.setCtx_rollback (s : State) (c : Nat) (v : Ctx) : (s.setCtx c v).rollback = s.rollback := rfl
@[simp] theorem State.setCtx_chanHeld (s : State) (c : Nat) (v : Ctx) : (s.setCtx c v).chanHeld = s.chanHeld := rfl
@[simp] theorem State.setCtx_ports (s : State) (c : Nat) (v : Ctx) : (s.setCtx c v).ports = s.ports := rfl
@[simp] theorem State.setCtx_syc (s : State) (c : Nat) (v : Ctx) : (s.setCtx c v).syc = s.syc := rfl
@[simp] theorem State.setCtx_agenda (s : State) (c : Nat) (v : Ctx) : (s.setCtx c v).agenda = s.agenda := rfl
@[simp] theorem State.setCtx_turn (s : State) (c : Nat) (v : Ctx) : (s.setCtx c v).turn = s.turn := rfl
@[simp] theorem State.setCtx_focus (s : State) (c : Nat) (v : Ctx) : (s.setCtx c v).focus = s.focus := rfl
@[simp] theorem State.setCtx_free (s : State) (c : Nat) (v : Ctx) : (s.setCtx c v).free = s.free := rfl
@[simp] theorem State.setCtx_nextInst (s : State) (c : Nat) (v : Ctx) : (s.setCtx c v).nextInst = s.nextInst := rfl
@[simp] theorem State.setCtx_outbox (s : State) (c : Nat) (v : Ctx) : (s.setCtx c v).outbox = s.outbox := rfl
@[simp] theorem State.setCtx_lateRecs (s : State) (c : Nat) (v : Ctx) : (s.setCtx c v).lateRecs = s.lateRecs := rfl
@[simp] theorem State.setCtx_fqHeld (s : State) (c : Nat) (v : Ctx) : (s.setCtx c v).fqHeld = s.fqHeld := rfl
@[simp] theorem State.setCtx_late (s : State) (c : Nat) (v : Ctx) : (s.setCtx c v).late = s.late := rfl
@[simp] theorem State.setCtx_regWrites (s : State) (c : Nat) (v : Ctx) : (s.setCtx c v).regWrites = s.regWrites := rfl

@[simp] theorem State.setQueue_clock (s : State) (q : Nat) (v : Queue) : (s.setQueue q v).clock = s.clock := rfl
@[simp] theorem State.setQueue_cores (s : State) (q : Nat) (v : Queue) : (s.setQueue q v).cores = s.cores := rfl
@[simp] theorem State.setQueue_quads (s : State) (q : Nat) (v : Queue) : (s.setQueue q v).quads = s.quads := rfl
@[simp] theorem State.setQueue_dies (s : State) (q : Nat) (v : Queue) : (s.setQueue q v).dies = s.dies := rfl
@[simp] theorem State.setQueue_ctxs (s : State) (q : Nat) (v : Queue) : (s.setQueue q v).ctxs = s.ctxs := rfl
@[simp] theorem State.setQueue_clx (s : State) (q : Nat) (v : Queue) : (s.setQueue q v).clx = s.clx := rfl
@[simp] theorem State.setQueue_launches (s : State) (q : Nat) (v : Queue) : (s.setQueue q v).launches = s.launches := rfl
@[simp] theorem State.setQueue_heldRecs (s : State) (q : Nat) (v : Queue) : (s.setQueue q v).heldRecs = s.heldRecs := rfl
@[simp] theorem State.setQueue_mem (s : State) (q : Nat) (v : Queue) : (s.setQueue q v).mem = s.mem := rfl
@[simp] theorem State.setQueue_mpois (s : State) (q : Nat) (v : Queue) : (s.setQueue q v).mpois = s.mpois := rfl
@[simp] theorem State.setQueue_relTags (s : State) (q : Nat) (v : Queue) : (s.setQueue q v).relTags = s.relTags := rfl
@[simp] theorem State.setQueue_openers (s : State) (q : Nat) (v : Queue) : (s.setQueue q v).openers = s.openers := rfl
@[simp] theorem State.setQueue_waits (s : State) (q : Nat) (v : Queue) : (s.setQueue q v).waits = s.waits := rfl
@[simp] theorem State.setQueue_hbars (s : State) (q : Nat) (v : Queue) : (s.setQueue q v).hbars = s.hbars := rfl
@[simp] theorem State.setQueue_criers (s : State) (q : Nat) (v : Queue) : (s.setQueue q v).criers = s.criers := rfl
@[simp] theorem State.setQueue_pools (s : State) (q : Nat) (v : Queue) : (s.setQueue q v).pools = s.pools := rfl
@[simp] theorem State.setQueue_smap (s : State) (q : Nat) (v : Queue) : (s.setQueue q v).smap = s.smap := rfl
@[simp] theorem State.setQueue_pkg (s : State) (q : Nat) (v : Queue) : (s.setQueue q v).pkg = s.pkg := rfl
@[simp] theorem State.setQueue_tlbi (s : State) (q : Nat) (v : Queue) : (s.setQueue q v).tlbi = s.tlbi := rfl
@[simp] theorem State.setQueue_tlbDrop (s : State) (q : Nat) (v : Queue) : (s.setQueue q v).tlbDrop = s.tlbDrop := rfl
@[simp] theorem State.setQueue_rbsStatus (s : State) (q : Nat) (v : Queue) : (s.setQueue q v).rbsStatus = s.rbsStatus := rfl
@[simp] theorem State.setQueue_rbsLines (s : State) (q : Nat) (v : Queue) : (s.setQueue q v).rbsLines = s.rbsLines := rfl
@[simp] theorem State.setQueue_rollback (s : State) (q : Nat) (v : Queue) : (s.setQueue q v).rollback = s.rollback := rfl
@[simp] theorem State.setQueue_chanHeld (s : State) (q : Nat) (v : Queue) : (s.setQueue q v).chanHeld = s.chanHeld := rfl
@[simp] theorem State.setQueue_ports (s : State) (q : Nat) (v : Queue) : (s.setQueue q v).ports = s.ports := rfl
@[simp] theorem State.setQueue_syc (s : State) (q : Nat) (v : Queue) : (s.setQueue q v).syc = s.syc := rfl
@[simp] theorem State.setQueue_agenda (s : State) (q : Nat) (v : Queue) : (s.setQueue q v).agenda = s.agenda := rfl
@[simp] theorem State.setQueue_turn (s : State) (q : Nat) (v : Queue) : (s.setQueue q v).turn = s.turn := rfl
@[simp] theorem State.setQueue_focus (s : State) (q : Nat) (v : Queue) : (s.setQueue q v).focus = s.focus := rfl
@[simp] theorem State.setQueue_free (s : State) (q : Nat) (v : Queue) : (s.setQueue q v).free = s.free := rfl
@[simp] theorem State.setQueue_nextInst (s : State) (q : Nat) (v : Queue) : (s.setQueue q v).nextInst = s.nextInst := rfl
@[simp] theorem State.setQueue_outbox (s : State) (q : Nat) (v : Queue) : (s.setQueue q v).outbox = s.outbox := rfl
@[simp] theorem State.setQueue_lateRecs (s : State) (q : Nat) (v : Queue) : (s.setQueue q v).lateRecs = s.lateRecs := rfl
@[simp] theorem State.setQueue_fqHeld (s : State) (q : Nat) (v : Queue) : (s.setQueue q v).fqHeld = s.fqHeld := rfl
@[simp] theorem State.setQueue_late (s : State) (q : Nat) (v : Queue) : (s.setQueue q v).late = s.late := rfl
@[simp] theorem State.setQueue_regWrites (s : State) (q : Nat) (v : Queue) : (s.setQueue q v).regWrites = s.regWrites := rfl

@[simp] theorem State.setClx_clock (s : State) (c : Nat) (v : BitVec 32) : (s.setClx c v).clock = s.clock := rfl
@[simp] theorem State.setClx_cores (s : State) (c : Nat) (v : BitVec 32) : (s.setClx c v).cores = s.cores := rfl
@[simp] theorem State.setClx_quads (s : State) (c : Nat) (v : BitVec 32) : (s.setClx c v).quads = s.quads := rfl
@[simp] theorem State.setClx_dies (s : State) (c : Nat) (v : BitVec 32) : (s.setClx c v).dies = s.dies := rfl
@[simp] theorem State.setClx_ctxs (s : State) (c : Nat) (v : BitVec 32) : (s.setClx c v).ctxs = s.ctxs := rfl
@[simp] theorem State.setClx_queues (s : State) (c : Nat) (v : BitVec 32) : (s.setClx c v).queues = s.queues := rfl
@[simp] theorem State.setClx_launches (s : State) (c : Nat) (v : BitVec 32) : (s.setClx c v).launches = s.launches := rfl
@[simp] theorem State.setClx_heldRecs (s : State) (c : Nat) (v : BitVec 32) : (s.setClx c v).heldRecs = s.heldRecs := rfl
@[simp] theorem State.setClx_mem (s : State) (c : Nat) (v : BitVec 32) : (s.setClx c v).mem = s.mem := rfl
@[simp] theorem State.setClx_mpois (s : State) (c : Nat) (v : BitVec 32) : (s.setClx c v).mpois = s.mpois := rfl
@[simp] theorem State.setClx_relTags (s : State) (c : Nat) (v : BitVec 32) : (s.setClx c v).relTags = s.relTags := rfl
@[simp] theorem State.setClx_openers (s : State) (c : Nat) (v : BitVec 32) : (s.setClx c v).openers = s.openers := rfl
@[simp] theorem State.setClx_waits (s : State) (c : Nat) (v : BitVec 32) : (s.setClx c v).waits = s.waits := rfl
@[simp] theorem State.setClx_hbars (s : State) (c : Nat) (v : BitVec 32) : (s.setClx c v).hbars = s.hbars := rfl
@[simp] theorem State.setClx_criers (s : State) (c : Nat) (v : BitVec 32) : (s.setClx c v).criers = s.criers := rfl
@[simp] theorem State.setClx_pools (s : State) (c : Nat) (v : BitVec 32) : (s.setClx c v).pools = s.pools := rfl
@[simp] theorem State.setClx_smap (s : State) (c : Nat) (v : BitVec 32) : (s.setClx c v).smap = s.smap := rfl
@[simp] theorem State.setClx_pkg (s : State) (c : Nat) (v : BitVec 32) : (s.setClx c v).pkg = s.pkg := rfl
@[simp] theorem State.setClx_tlbi (s : State) (c : Nat) (v : BitVec 32) : (s.setClx c v).tlbi = s.tlbi := rfl
@[simp] theorem State.setClx_tlbDrop (s : State) (c : Nat) (v : BitVec 32) : (s.setClx c v).tlbDrop = s.tlbDrop := rfl
@[simp] theorem State.setClx_rbsStatus (s : State) (c : Nat) (v : BitVec 32) : (s.setClx c v).rbsStatus = s.rbsStatus := rfl
@[simp] theorem State.setClx_rbsLines (s : State) (c : Nat) (v : BitVec 32) : (s.setClx c v).rbsLines = s.rbsLines := rfl
@[simp] theorem State.setClx_rollback (s : State) (c : Nat) (v : BitVec 32) : (s.setClx c v).rollback = s.rollback := rfl
@[simp] theorem State.setClx_chanHeld (s : State) (c : Nat) (v : BitVec 32) : (s.setClx c v).chanHeld = s.chanHeld := rfl
@[simp] theorem State.setClx_ports (s : State) (c : Nat) (v : BitVec 32) : (s.setClx c v).ports = s.ports := rfl
@[simp] theorem State.setClx_syc (s : State) (c : Nat) (v : BitVec 32) : (s.setClx c v).syc = s.syc := rfl
@[simp] theorem State.setClx_agenda (s : State) (c : Nat) (v : BitVec 32) : (s.setClx c v).agenda = s.agenda := rfl
@[simp] theorem State.setClx_turn (s : State) (c : Nat) (v : BitVec 32) : (s.setClx c v).turn = s.turn := rfl
@[simp] theorem State.setClx_focus (s : State) (c : Nat) (v : BitVec 32) : (s.setClx c v).focus = s.focus := rfl
@[simp] theorem State.setClx_free (s : State) (c : Nat) (v : BitVec 32) : (s.setClx c v).free = s.free := rfl
@[simp] theorem State.setClx_nextInst (s : State) (c : Nat) (v : BitVec 32) : (s.setClx c v).nextInst = s.nextInst := rfl
@[simp] theorem State.setClx_outbox (s : State) (c : Nat) (v : BitVec 32) : (s.setClx c v).outbox = s.outbox := rfl
@[simp] theorem State.setClx_lateRecs (s : State) (c : Nat) (v : BitVec 32) : (s.setClx c v).lateRecs = s.lateRecs := rfl
@[simp] theorem State.setClx_fqHeld (s : State) (c : Nat) (v : BitVec 32) : (s.setClx c v).fqHeld = s.fqHeld := rfl
@[simp] theorem State.setClx_late (s : State) (c : Nat) (v : BitVec 32) : (s.setClx c v).late = s.late := rfl
@[simp] theorem State.setClx_regWrites (s : State) (c : Nat) (v : BitVec 32) : (s.setClx c v).regWrites = s.regWrites := rfl

@[simp] theorem State.setPool_clock (s : State) (p : Nat) (v : Pool) : (s.setPool p v).clock = s.clock := rfl
@[simp] theorem State.setPool_cores (s : State) (p : Nat) (v : Pool) : (s.setPool p v).cores = s.cores := rfl
@[simp] theorem State.setPool_quads (s : State) (p : Nat) (v : Pool) : (s.setPool p v).quads = s.quads := rfl
@[simp] theorem State.setPool_dies (s : State) (p : Nat) (v : Pool) : (s.setPool p v).dies = s.dies := rfl
@[simp] theorem State.setPool_ctxs (s : State) (p : Nat) (v : Pool) : (s.setPool p v).ctxs = s.ctxs := rfl
@[simp] theorem State.setPool_queues (s : State) (p : Nat) (v : Pool) : (s.setPool p v).queues = s.queues := rfl
@[simp] theorem State.setPool_clx (s : State) (p : Nat) (v : Pool) : (s.setPool p v).clx = s.clx := rfl
@[simp] theorem State.setPool_launches (s : State) (p : Nat) (v : Pool) : (s.setPool p v).launches = s.launches := rfl
@[simp] theorem State.setPool_heldRecs (s : State) (p : Nat) (v : Pool) : (s.setPool p v).heldRecs = s.heldRecs := rfl
@[simp] theorem State.setPool_mem (s : State) (p : Nat) (v : Pool) : (s.setPool p v).mem = s.mem := rfl
@[simp] theorem State.setPool_mpois (s : State) (p : Nat) (v : Pool) : (s.setPool p v).mpois = s.mpois := rfl
@[simp] theorem State.setPool_relTags (s : State) (p : Nat) (v : Pool) : (s.setPool p v).relTags = s.relTags := rfl
@[simp] theorem State.setPool_openers (s : State) (p : Nat) (v : Pool) : (s.setPool p v).openers = s.openers := rfl
@[simp] theorem State.setPool_waits (s : State) (p : Nat) (v : Pool) : (s.setPool p v).waits = s.waits := rfl
@[simp] theorem State.setPool_hbars (s : State) (p : Nat) (v : Pool) : (s.setPool p v).hbars = s.hbars := rfl
@[simp] theorem State.setPool_criers (s : State) (p : Nat) (v : Pool) : (s.setPool p v).criers = s.criers := rfl
@[simp] theorem State.setPool_smap (s : State) (p : Nat) (v : Pool) : (s.setPool p v).smap = s.smap := rfl
@[simp] theorem State.setPool_pkg (s : State) (p : Nat) (v : Pool) : (s.setPool p v).pkg = s.pkg := rfl
@[simp] theorem State.setPool_tlbi (s : State) (p : Nat) (v : Pool) : (s.setPool p v).tlbi = s.tlbi := rfl
@[simp] theorem State.setPool_tlbDrop (s : State) (p : Nat) (v : Pool) : (s.setPool p v).tlbDrop = s.tlbDrop := rfl
@[simp] theorem State.setPool_rbsStatus (s : State) (p : Nat) (v : Pool) : (s.setPool p v).rbsStatus = s.rbsStatus := rfl
@[simp] theorem State.setPool_rbsLines (s : State) (p : Nat) (v : Pool) : (s.setPool p v).rbsLines = s.rbsLines := rfl
@[simp] theorem State.setPool_rollback (s : State) (p : Nat) (v : Pool) : (s.setPool p v).rollback = s.rollback := rfl
@[simp] theorem State.setPool_chanHeld (s : State) (p : Nat) (v : Pool) : (s.setPool p v).chanHeld = s.chanHeld := rfl
@[simp] theorem State.setPool_ports (s : State) (p : Nat) (v : Pool) : (s.setPool p v).ports = s.ports := rfl
@[simp] theorem State.setPool_syc (s : State) (p : Nat) (v : Pool) : (s.setPool p v).syc = s.syc := rfl
@[simp] theorem State.setPool_agenda (s : State) (p : Nat) (v : Pool) : (s.setPool p v).agenda = s.agenda := rfl
@[simp] theorem State.setPool_turn (s : State) (p : Nat) (v : Pool) : (s.setPool p v).turn = s.turn := rfl
@[simp] theorem State.setPool_focus (s : State) (p : Nat) (v : Pool) : (s.setPool p v).focus = s.focus := rfl
@[simp] theorem State.setPool_free (s : State) (p : Nat) (v : Pool) : (s.setPool p v).free = s.free := rfl
@[simp] theorem State.setPool_nextInst (s : State) (p : Nat) (v : Pool) : (s.setPool p v).nextInst = s.nextInst := rfl
@[simp] theorem State.setPool_outbox (s : State) (p : Nat) (v : Pool) : (s.setPool p v).outbox = s.outbox := rfl
@[simp] theorem State.setPool_lateRecs (s : State) (p : Nat) (v : Pool) : (s.setPool p v).lateRecs = s.lateRecs := rfl
@[simp] theorem State.setPool_fqHeld (s : State) (p : Nat) (v : Pool) : (s.setPool p v).fqHeld = s.fqHeld := rfl
@[simp] theorem State.setPool_late (s : State) (p : Nat) (v : Pool) : (s.setPool p v).late = s.late := rfl
@[simp] theorem State.setPool_regWrites (s : State) (p : Nat) (v : Pool) : (s.setPool p v).regWrites = s.regWrites := rfl

@[simp] theorem State.setCrier_clock (s : State) (k : Nat) (v : Crier) : (s.setCrier k v).clock = s.clock := rfl
@[simp] theorem State.setCrier_cores (s : State) (k : Nat) (v : Crier) : (s.setCrier k v).cores = s.cores := rfl
@[simp] theorem State.setCrier_quads (s : State) (k : Nat) (v : Crier) : (s.setCrier k v).quads = s.quads := rfl
@[simp] theorem State.setCrier_dies (s : State) (k : Nat) (v : Crier) : (s.setCrier k v).dies = s.dies := rfl
@[simp] theorem State.setCrier_ctxs (s : State) (k : Nat) (v : Crier) : (s.setCrier k v).ctxs = s.ctxs := rfl
@[simp] theorem State.setCrier_queues (s : State) (k : Nat) (v : Crier) : (s.setCrier k v).queues = s.queues := rfl
@[simp] theorem State.setCrier_clx (s : State) (k : Nat) (v : Crier) : (s.setCrier k v).clx = s.clx := rfl
@[simp] theorem State.setCrier_launches (s : State) (k : Nat) (v : Crier) : (s.setCrier k v).launches = s.launches := rfl
@[simp] theorem State.setCrier_heldRecs (s : State) (k : Nat) (v : Crier) : (s.setCrier k v).heldRecs = s.heldRecs := rfl
@[simp] theorem State.setCrier_mem (s : State) (k : Nat) (v : Crier) : (s.setCrier k v).mem = s.mem := rfl
@[simp] theorem State.setCrier_mpois (s : State) (k : Nat) (v : Crier) : (s.setCrier k v).mpois = s.mpois := rfl
@[simp] theorem State.setCrier_relTags (s : State) (k : Nat) (v : Crier) : (s.setCrier k v).relTags = s.relTags := rfl
@[simp] theorem State.setCrier_openers (s : State) (k : Nat) (v : Crier) : (s.setCrier k v).openers = s.openers := rfl
@[simp] theorem State.setCrier_waits (s : State) (k : Nat) (v : Crier) : (s.setCrier k v).waits = s.waits := rfl
@[simp] theorem State.setCrier_hbars (s : State) (k : Nat) (v : Crier) : (s.setCrier k v).hbars = s.hbars := rfl
@[simp] theorem State.setCrier_pools (s : State) (k : Nat) (v : Crier) : (s.setCrier k v).pools = s.pools := rfl
@[simp] theorem State.setCrier_smap (s : State) (k : Nat) (v : Crier) : (s.setCrier k v).smap = s.smap := rfl
@[simp] theorem State.setCrier_pkg (s : State) (k : Nat) (v : Crier) : (s.setCrier k v).pkg = s.pkg := rfl
@[simp] theorem State.setCrier_tlbi (s : State) (k : Nat) (v : Crier) : (s.setCrier k v).tlbi = s.tlbi := rfl
@[simp] theorem State.setCrier_tlbDrop (s : State) (k : Nat) (v : Crier) : (s.setCrier k v).tlbDrop = s.tlbDrop := rfl
@[simp] theorem State.setCrier_rbsStatus (s : State) (k : Nat) (v : Crier) : (s.setCrier k v).rbsStatus = s.rbsStatus := rfl
@[simp] theorem State.setCrier_rbsLines (s : State) (k : Nat) (v : Crier) : (s.setCrier k v).rbsLines = s.rbsLines := rfl
@[simp] theorem State.setCrier_rollback (s : State) (k : Nat) (v : Crier) : (s.setCrier k v).rollback = s.rollback := rfl
@[simp] theorem State.setCrier_chanHeld (s : State) (k : Nat) (v : Crier) : (s.setCrier k v).chanHeld = s.chanHeld := rfl
@[simp] theorem State.setCrier_ports (s : State) (k : Nat) (v : Crier) : (s.setCrier k v).ports = s.ports := rfl
@[simp] theorem State.setCrier_syc (s : State) (k : Nat) (v : Crier) : (s.setCrier k v).syc = s.syc := rfl
@[simp] theorem State.setCrier_agenda (s : State) (k : Nat) (v : Crier) : (s.setCrier k v).agenda = s.agenda := rfl
@[simp] theorem State.setCrier_turn (s : State) (k : Nat) (v : Crier) : (s.setCrier k v).turn = s.turn := rfl
@[simp] theorem State.setCrier_focus (s : State) (k : Nat) (v : Crier) : (s.setCrier k v).focus = s.focus := rfl
@[simp] theorem State.setCrier_free (s : State) (k : Nat) (v : Crier) : (s.setCrier k v).free = s.free := rfl
@[simp] theorem State.setCrier_nextInst (s : State) (k : Nat) (v : Crier) : (s.setCrier k v).nextInst = s.nextInst := rfl
@[simp] theorem State.setCrier_outbox (s : State) (k : Nat) (v : Crier) : (s.setCrier k v).outbox = s.outbox := rfl
@[simp] theorem State.setCrier_lateRecs (s : State) (k : Nat) (v : Crier) : (s.setCrier k v).lateRecs = s.lateRecs := rfl
@[simp] theorem State.setCrier_fqHeld (s : State) (k : Nat) (v : Crier) : (s.setCrier k v).fqHeld = s.fqHeld := rfl
@[simp] theorem State.setCrier_late (s : State) (k : Nat) (v : Crier) : (s.setCrier k v).late = s.late := rfl
@[simp] theorem State.setCrier_regWrites (s : State) (k : Nat) (v : Crier) : (s.setCrier k v).regWrites = s.regWrites := rfl

@[simp] theorem State.setSmap_clock (s : State) (i : Nat) (v : SMapEnt) : (s.setSmap i v).clock = s.clock := rfl
@[simp] theorem State.setSmap_cores (s : State) (i : Nat) (v : SMapEnt) : (s.setSmap i v).cores = s.cores := rfl
@[simp] theorem State.setSmap_quads (s : State) (i : Nat) (v : SMapEnt) : (s.setSmap i v).quads = s.quads := rfl
@[simp] theorem State.setSmap_dies (s : State) (i : Nat) (v : SMapEnt) : (s.setSmap i v).dies = s.dies := rfl
@[simp] theorem State.setSmap_ctxs (s : State) (i : Nat) (v : SMapEnt) : (s.setSmap i v).ctxs = s.ctxs := rfl
@[simp] theorem State.setSmap_queues (s : State) (i : Nat) (v : SMapEnt) : (s.setSmap i v).queues = s.queues := rfl
@[simp] theorem State.setSmap_clx (s : State) (i : Nat) (v : SMapEnt) : (s.setSmap i v).clx = s.clx := rfl
@[simp] theorem State.setSmap_launches (s : State) (i : Nat) (v : SMapEnt) : (s.setSmap i v).launches = s.launches := rfl
@[simp] theorem State.setSmap_heldRecs (s : State) (i : Nat) (v : SMapEnt) : (s.setSmap i v).heldRecs = s.heldRecs := rfl
@[simp] theorem State.setSmap_mem (s : State) (i : Nat) (v : SMapEnt) : (s.setSmap i v).mem = s.mem := rfl
@[simp] theorem State.setSmap_mpois (s : State) (i : Nat) (v : SMapEnt) : (s.setSmap i v).mpois = s.mpois := rfl
@[simp] theorem State.setSmap_relTags (s : State) (i : Nat) (v : SMapEnt) : (s.setSmap i v).relTags = s.relTags := rfl
@[simp] theorem State.setSmap_openers (s : State) (i : Nat) (v : SMapEnt) : (s.setSmap i v).openers = s.openers := rfl
@[simp] theorem State.setSmap_waits (s : State) (i : Nat) (v : SMapEnt) : (s.setSmap i v).waits = s.waits := rfl
@[simp] theorem State.setSmap_hbars (s : State) (i : Nat) (v : SMapEnt) : (s.setSmap i v).hbars = s.hbars := rfl
@[simp] theorem State.setSmap_criers (s : State) (i : Nat) (v : SMapEnt) : (s.setSmap i v).criers = s.criers := rfl
@[simp] theorem State.setSmap_pools (s : State) (i : Nat) (v : SMapEnt) : (s.setSmap i v).pools = s.pools := rfl
@[simp] theorem State.setSmap_pkg (s : State) (i : Nat) (v : SMapEnt) : (s.setSmap i v).pkg = s.pkg := rfl
@[simp] theorem State.setSmap_tlbi (s : State) (i : Nat) (v : SMapEnt) : (s.setSmap i v).tlbi = s.tlbi := rfl
@[simp] theorem State.setSmap_tlbDrop (s : State) (i : Nat) (v : SMapEnt) : (s.setSmap i v).tlbDrop = s.tlbDrop := rfl
@[simp] theorem State.setSmap_rbsStatus (s : State) (i : Nat) (v : SMapEnt) : (s.setSmap i v).rbsStatus = s.rbsStatus := rfl
@[simp] theorem State.setSmap_rbsLines (s : State) (i : Nat) (v : SMapEnt) : (s.setSmap i v).rbsLines = s.rbsLines := rfl
@[simp] theorem State.setSmap_rollback (s : State) (i : Nat) (v : SMapEnt) : (s.setSmap i v).rollback = s.rollback := rfl
@[simp] theorem State.setSmap_chanHeld (s : State) (i : Nat) (v : SMapEnt) : (s.setSmap i v).chanHeld = s.chanHeld := rfl
@[simp] theorem State.setSmap_ports (s : State) (i : Nat) (v : SMapEnt) : (s.setSmap i v).ports = s.ports := rfl
@[simp] theorem State.setSmap_syc (s : State) (i : Nat) (v : SMapEnt) : (s.setSmap i v).syc = s.syc := rfl
@[simp] theorem State.setSmap_agenda (s : State) (i : Nat) (v : SMapEnt) : (s.setSmap i v).agenda = s.agenda := rfl
@[simp] theorem State.setSmap_turn (s : State) (i : Nat) (v : SMapEnt) : (s.setSmap i v).turn = s.turn := rfl
@[simp] theorem State.setSmap_focus (s : State) (i : Nat) (v : SMapEnt) : (s.setSmap i v).focus = s.focus := rfl
@[simp] theorem State.setSmap_free (s : State) (i : Nat) (v : SMapEnt) : (s.setSmap i v).free = s.free := rfl
@[simp] theorem State.setSmap_nextInst (s : State) (i : Nat) (v : SMapEnt) : (s.setSmap i v).nextInst = s.nextInst := rfl
@[simp] theorem State.setSmap_outbox (s : State) (i : Nat) (v : SMapEnt) : (s.setSmap i v).outbox = s.outbox := rfl
@[simp] theorem State.setSmap_lateRecs (s : State) (i : Nat) (v : SMapEnt) : (s.setSmap i v).lateRecs = s.lateRecs := rfl
@[simp] theorem State.setSmap_fqHeld (s : State) (i : Nat) (v : SMapEnt) : (s.setSmap i v).fqHeld = s.fqHeld := rfl
@[simp] theorem State.setSmap_late (s : State) (i : Nat) (v : SMapEnt) : (s.setSmap i v).late = s.late := rfl
@[simp] theorem State.setSmap_regWrites (s : State) (i : Nat) (v : SMapEnt) : (s.setSmap i v).regWrites = s.regWrites := rfl

@[simp] theorem State.onCore_clock (s : State) (c : Nat) (f : Core → Core) : (s.onCore c f).clock = s.clock := rfl
@[simp] theorem State.onCore_quads (s : State) (c : Nat) (f : Core → Core) : (s.onCore c f).quads = s.quads := rfl
@[simp] theorem State.onCore_dies (s : State) (c : Nat) (f : Core → Core) : (s.onCore c f).dies = s.dies := rfl
@[simp] theorem State.onCore_ctxs (s : State) (c : Nat) (f : Core → Core) : (s.onCore c f).ctxs = s.ctxs := rfl
@[simp] theorem State.onCore_queues (s : State) (c : Nat) (f : Core → Core) : (s.onCore c f).queues = s.queues := rfl
@[simp] theorem State.onCore_clx (s : State) (c : Nat) (f : Core → Core) : (s.onCore c f).clx = s.clx := rfl
@[simp] theorem State.onCore_launches (s : State) (c : Nat) (f : Core → Core) : (s.onCore c f).launches = s.launches := rfl
@[simp] theorem State.onCore_heldRecs (s : State) (c : Nat) (f : Core → Core) : (s.onCore c f).heldRecs = s.heldRecs := rfl
@[simp] theorem State.onCore_mem (s : State) (c : Nat) (f : Core → Core) : (s.onCore c f).mem = s.mem := rfl
@[simp] theorem State.onCore_mpois (s : State) (c : Nat) (f : Core → Core) : (s.onCore c f).mpois = s.mpois := rfl
@[simp] theorem State.onCore_relTags (s : State) (c : Nat) (f : Core → Core) : (s.onCore c f).relTags = s.relTags := rfl
@[simp] theorem State.onCore_openers (s : State) (c : Nat) (f : Core → Core) : (s.onCore c f).openers = s.openers := rfl
@[simp] theorem State.onCore_waits (s : State) (c : Nat) (f : Core → Core) : (s.onCore c f).waits = s.waits := rfl
@[simp] theorem State.onCore_hbars (s : State) (c : Nat) (f : Core → Core) : (s.onCore c f).hbars = s.hbars := rfl
@[simp] theorem State.onCore_criers (s : State) (c : Nat) (f : Core → Core) : (s.onCore c f).criers = s.criers := rfl
@[simp] theorem State.onCore_pools (s : State) (c : Nat) (f : Core → Core) : (s.onCore c f).pools = s.pools := rfl
@[simp] theorem State.onCore_smap (s : State) (c : Nat) (f : Core → Core) : (s.onCore c f).smap = s.smap := rfl
@[simp] theorem State.onCore_pkg (s : State) (c : Nat) (f : Core → Core) : (s.onCore c f).pkg = s.pkg := rfl
@[simp] theorem State.onCore_tlbi (s : State) (c : Nat) (f : Core → Core) : (s.onCore c f).tlbi = s.tlbi := rfl
@[simp] theorem State.onCore_tlbDrop (s : State) (c : Nat) (f : Core → Core) : (s.onCore c f).tlbDrop = s.tlbDrop := rfl
@[simp] theorem State.onCore_rbsStatus (s : State) (c : Nat) (f : Core → Core) : (s.onCore c f).rbsStatus = s.rbsStatus := rfl
@[simp] theorem State.onCore_rbsLines (s : State) (c : Nat) (f : Core → Core) : (s.onCore c f).rbsLines = s.rbsLines := rfl
@[simp] theorem State.onCore_rollback (s : State) (c : Nat) (f : Core → Core) : (s.onCore c f).rollback = s.rollback := rfl
@[simp] theorem State.onCore_chanHeld (s : State) (c : Nat) (f : Core → Core) : (s.onCore c f).chanHeld = s.chanHeld := rfl
@[simp] theorem State.onCore_ports (s : State) (c : Nat) (f : Core → Core) : (s.onCore c f).ports = s.ports := rfl
@[simp] theorem State.onCore_syc (s : State) (c : Nat) (f : Core → Core) : (s.onCore c f).syc = s.syc := rfl
@[simp] theorem State.onCore_agenda (s : State) (c : Nat) (f : Core → Core) : (s.onCore c f).agenda = s.agenda := rfl
@[simp] theorem State.onCore_turn (s : State) (c : Nat) (f : Core → Core) : (s.onCore c f).turn = s.turn := rfl
@[simp] theorem State.onCore_focus (s : State) (c : Nat) (f : Core → Core) : (s.onCore c f).focus = s.focus := rfl
@[simp] theorem State.onCore_free (s : State) (c : Nat) (f : Core → Core) : (s.onCore c f).free = s.free := rfl
@[simp] theorem State.onCore_nextInst (s : State) (c : Nat) (f : Core → Core) : (s.onCore c f).nextInst = s.nextInst := rfl
@[simp] theorem State.onCore_outbox (s : State) (c : Nat) (f : Core → Core) : (s.onCore c f).outbox = s.outbox := rfl
@[simp] theorem State.onCore_lateRecs (s : State) (c : Nat) (f : Core → Core) : (s.onCore c f).lateRecs = s.lateRecs := rfl
@[simp] theorem State.onCore_fqHeld (s : State) (c : Nat) (f : Core → Core) : (s.onCore c f).fqHeld = s.fqHeld := rfl
@[simp] theorem State.onCore_late (s : State) (c : Nat) (f : Core → Core) : (s.onCore c f).late = s.late := rfl
@[simp] theorem State.onCore_regWrites (s : State) (c : Nat) (f : Core → Core) : (s.onCore c f).regWrites = s.regWrites := rfl

@[simp] theorem State.onSeqr_clock (s : State) (q : SeqId) (f : Seqr → Seqr) : (s.onSeqr q f).clock = s.clock := rfl
@[simp] theorem State.onSeqr_quads (s : State) (q : SeqId) (f : Seqr → Seqr) : (s.onSeqr q f).quads = s.quads := rfl
@[simp] theorem State.onSeqr_dies (s : State) (q : SeqId) (f : Seqr → Seqr) : (s.onSeqr q f).dies = s.dies := rfl
@[simp] theorem State.onSeqr_ctxs (s : State) (q : SeqId) (f : Seqr → Seqr) : (s.onSeqr q f).ctxs = s.ctxs := rfl
@[simp] theorem State.onSeqr_queues (s : State) (q : SeqId) (f : Seqr → Seqr) : (s.onSeqr q f).queues = s.queues := rfl
@[simp] theorem State.onSeqr_clx (s : State) (q : SeqId) (f : Seqr → Seqr) : (s.onSeqr q f).clx = s.clx := rfl
@[simp] theorem State.onSeqr_launches (s : State) (q : SeqId) (f : Seqr → Seqr) : (s.onSeqr q f).launches = s.launches := rfl
@[simp] theorem State.onSeqr_heldRecs (s : State) (q : SeqId) (f : Seqr → Seqr) : (s.onSeqr q f).heldRecs = s.heldRecs := rfl
@[simp] theorem State.onSeqr_mem (s : State) (q : SeqId) (f : Seqr → Seqr) : (s.onSeqr q f).mem = s.mem := rfl
@[simp] theorem State.onSeqr_mpois (s : State) (q : SeqId) (f : Seqr → Seqr) : (s.onSeqr q f).mpois = s.mpois := rfl
@[simp] theorem State.onSeqr_relTags (s : State) (q : SeqId) (f : Seqr → Seqr) : (s.onSeqr q f).relTags = s.relTags := rfl
@[simp] theorem State.onSeqr_openers (s : State) (q : SeqId) (f : Seqr → Seqr) : (s.onSeqr q f).openers = s.openers := rfl
@[simp] theorem State.onSeqr_waits (s : State) (q : SeqId) (f : Seqr → Seqr) : (s.onSeqr q f).waits = s.waits := rfl
@[simp] theorem State.onSeqr_hbars (s : State) (q : SeqId) (f : Seqr → Seqr) : (s.onSeqr q f).hbars = s.hbars := rfl
@[simp] theorem State.onSeqr_criers (s : State) (q : SeqId) (f : Seqr → Seqr) : (s.onSeqr q f).criers = s.criers := rfl
@[simp] theorem State.onSeqr_pools (s : State) (q : SeqId) (f : Seqr → Seqr) : (s.onSeqr q f).pools = s.pools := rfl
@[simp] theorem State.onSeqr_smap (s : State) (q : SeqId) (f : Seqr → Seqr) : (s.onSeqr q f).smap = s.smap := rfl
@[simp] theorem State.onSeqr_pkg (s : State) (q : SeqId) (f : Seqr → Seqr) : (s.onSeqr q f).pkg = s.pkg := rfl
@[simp] theorem State.onSeqr_tlbi (s : State) (q : SeqId) (f : Seqr → Seqr) : (s.onSeqr q f).tlbi = s.tlbi := rfl
@[simp] theorem State.onSeqr_tlbDrop (s : State) (q : SeqId) (f : Seqr → Seqr) : (s.onSeqr q f).tlbDrop = s.tlbDrop := rfl
@[simp] theorem State.onSeqr_rbsStatus (s : State) (q : SeqId) (f : Seqr → Seqr) : (s.onSeqr q f).rbsStatus = s.rbsStatus := rfl
@[simp] theorem State.onSeqr_rbsLines (s : State) (q : SeqId) (f : Seqr → Seqr) : (s.onSeqr q f).rbsLines = s.rbsLines := rfl
@[simp] theorem State.onSeqr_rollback (s : State) (q : SeqId) (f : Seqr → Seqr) : (s.onSeqr q f).rollback = s.rollback := rfl
@[simp] theorem State.onSeqr_chanHeld (s : State) (q : SeqId) (f : Seqr → Seqr) : (s.onSeqr q f).chanHeld = s.chanHeld := rfl
@[simp] theorem State.onSeqr_ports (s : State) (q : SeqId) (f : Seqr → Seqr) : (s.onSeqr q f).ports = s.ports := rfl
@[simp] theorem State.onSeqr_syc (s : State) (q : SeqId) (f : Seqr → Seqr) : (s.onSeqr q f).syc = s.syc := rfl
@[simp] theorem State.onSeqr_agenda (s : State) (q : SeqId) (f : Seqr → Seqr) : (s.onSeqr q f).agenda = s.agenda := rfl
@[simp] theorem State.onSeqr_turn (s : State) (q : SeqId) (f : Seqr → Seqr) : (s.onSeqr q f).turn = s.turn := rfl
@[simp] theorem State.onSeqr_focus (s : State) (q : SeqId) (f : Seqr → Seqr) : (s.onSeqr q f).focus = s.focus := rfl
@[simp] theorem State.onSeqr_free (s : State) (q : SeqId) (f : Seqr → Seqr) : (s.onSeqr q f).free = s.free := rfl
@[simp] theorem State.onSeqr_nextInst (s : State) (q : SeqId) (f : Seqr → Seqr) : (s.onSeqr q f).nextInst = s.nextInst := rfl
@[simp] theorem State.onSeqr_outbox (s : State) (q : SeqId) (f : Seqr → Seqr) : (s.onSeqr q f).outbox = s.outbox := rfl
@[simp] theorem State.onSeqr_lateRecs (s : State) (q : SeqId) (f : Seqr → Seqr) : (s.onSeqr q f).lateRecs = s.lateRecs := rfl
@[simp] theorem State.onSeqr_fqHeld (s : State) (q : SeqId) (f : Seqr → Seqr) : (s.onSeqr q f).fqHeld = s.fqHeld := rfl
@[simp] theorem State.onSeqr_late (s : State) (q : SeqId) (f : Seqr → Seqr) : (s.onSeqr q f).late = s.late := rfl
@[simp] theorem State.onSeqr_regWrites (s : State) (q : SeqId) (f : Seqr → Seqr) : (s.onSeqr q f).regWrites = s.regWrites := rfl

@[simp] theorem State.onQuad_clock (s : State) (q : Nat) (f : Quad → Quad) : (s.onQuad q f).clock = s.clock := rfl
@[simp] theorem State.onQuad_cores (s : State) (q : Nat) (f : Quad → Quad) : (s.onQuad q f).cores = s.cores := rfl
@[simp] theorem State.onQuad_dies (s : State) (q : Nat) (f : Quad → Quad) : (s.onQuad q f).dies = s.dies := rfl
@[simp] theorem State.onQuad_ctxs (s : State) (q : Nat) (f : Quad → Quad) : (s.onQuad q f).ctxs = s.ctxs := rfl
@[simp] theorem State.onQuad_queues (s : State) (q : Nat) (f : Quad → Quad) : (s.onQuad q f).queues = s.queues := rfl
@[simp] theorem State.onQuad_clx (s : State) (q : Nat) (f : Quad → Quad) : (s.onQuad q f).clx = s.clx := rfl
@[simp] theorem State.onQuad_launches (s : State) (q : Nat) (f : Quad → Quad) : (s.onQuad q f).launches = s.launches := rfl
@[simp] theorem State.onQuad_heldRecs (s : State) (q : Nat) (f : Quad → Quad) : (s.onQuad q f).heldRecs = s.heldRecs := rfl
@[simp] theorem State.onQuad_mem (s : State) (q : Nat) (f : Quad → Quad) : (s.onQuad q f).mem = s.mem := rfl
@[simp] theorem State.onQuad_mpois (s : State) (q : Nat) (f : Quad → Quad) : (s.onQuad q f).mpois = s.mpois := rfl
@[simp] theorem State.onQuad_relTags (s : State) (q : Nat) (f : Quad → Quad) : (s.onQuad q f).relTags = s.relTags := rfl
@[simp] theorem State.onQuad_openers (s : State) (q : Nat) (f : Quad → Quad) : (s.onQuad q f).openers = s.openers := rfl
@[simp] theorem State.onQuad_waits (s : State) (q : Nat) (f : Quad → Quad) : (s.onQuad q f).waits = s.waits := rfl
@[simp] theorem State.onQuad_hbars (s : State) (q : Nat) (f : Quad → Quad) : (s.onQuad q f).hbars = s.hbars := rfl
@[simp] theorem State.onQuad_criers (s : State) (q : Nat) (f : Quad → Quad) : (s.onQuad q f).criers = s.criers := rfl
@[simp] theorem State.onQuad_pools (s : State) (q : Nat) (f : Quad → Quad) : (s.onQuad q f).pools = s.pools := rfl
@[simp] theorem State.onQuad_smap (s : State) (q : Nat) (f : Quad → Quad) : (s.onQuad q f).smap = s.smap := rfl
@[simp] theorem State.onQuad_pkg (s : State) (q : Nat) (f : Quad → Quad) : (s.onQuad q f).pkg = s.pkg := rfl
@[simp] theorem State.onQuad_tlbi (s : State) (q : Nat) (f : Quad → Quad) : (s.onQuad q f).tlbi = s.tlbi := rfl
@[simp] theorem State.onQuad_tlbDrop (s : State) (q : Nat) (f : Quad → Quad) : (s.onQuad q f).tlbDrop = s.tlbDrop := rfl
@[simp] theorem State.onQuad_rbsStatus (s : State) (q : Nat) (f : Quad → Quad) : (s.onQuad q f).rbsStatus = s.rbsStatus := rfl
@[simp] theorem State.onQuad_rbsLines (s : State) (q : Nat) (f : Quad → Quad) : (s.onQuad q f).rbsLines = s.rbsLines := rfl
@[simp] theorem State.onQuad_rollback (s : State) (q : Nat) (f : Quad → Quad) : (s.onQuad q f).rollback = s.rollback := rfl
@[simp] theorem State.onQuad_chanHeld (s : State) (q : Nat) (f : Quad → Quad) : (s.onQuad q f).chanHeld = s.chanHeld := rfl
@[simp] theorem State.onQuad_ports (s : State) (q : Nat) (f : Quad → Quad) : (s.onQuad q f).ports = s.ports := rfl
@[simp] theorem State.onQuad_syc (s : State) (q : Nat) (f : Quad → Quad) : (s.onQuad q f).syc = s.syc := rfl
@[simp] theorem State.onQuad_agenda (s : State) (q : Nat) (f : Quad → Quad) : (s.onQuad q f).agenda = s.agenda := rfl
@[simp] theorem State.onQuad_turn (s : State) (q : Nat) (f : Quad → Quad) : (s.onQuad q f).turn = s.turn := rfl
@[simp] theorem State.onQuad_focus (s : State) (q : Nat) (f : Quad → Quad) : (s.onQuad q f).focus = s.focus := rfl
@[simp] theorem State.onQuad_free (s : State) (q : Nat) (f : Quad → Quad) : (s.onQuad q f).free = s.free := rfl
@[simp] theorem State.onQuad_nextInst (s : State) (q : Nat) (f : Quad → Quad) : (s.onQuad q f).nextInst = s.nextInst := rfl
@[simp] theorem State.onQuad_outbox (s : State) (q : Nat) (f : Quad → Quad) : (s.onQuad q f).outbox = s.outbox := rfl
@[simp] theorem State.onQuad_lateRecs (s : State) (q : Nat) (f : Quad → Quad) : (s.onQuad q f).lateRecs = s.lateRecs := rfl
@[simp] theorem State.onQuad_fqHeld (s : State) (q : Nat) (f : Quad → Quad) : (s.onQuad q f).fqHeld = s.fqHeld := rfl
@[simp] theorem State.onQuad_late (s : State) (q : Nat) (f : Quad → Quad) : (s.onQuad q f).late = s.late := rfl
@[simp] theorem State.onQuad_regWrites (s : State) (q : Nat) (f : Quad → Quad) : (s.onQuad q f).regWrites = s.regWrites := rfl

@[simp] theorem State.onDie_clock (s : State) (d : Nat) (f : Die → Die) : (s.onDie d f).clock = s.clock := rfl
@[simp] theorem State.onDie_cores (s : State) (d : Nat) (f : Die → Die) : (s.onDie d f).cores = s.cores := rfl
@[simp] theorem State.onDie_quads (s : State) (d : Nat) (f : Die → Die) : (s.onDie d f).quads = s.quads := rfl
@[simp] theorem State.onDie_ctxs (s : State) (d : Nat) (f : Die → Die) : (s.onDie d f).ctxs = s.ctxs := rfl
@[simp] theorem State.onDie_queues (s : State) (d : Nat) (f : Die → Die) : (s.onDie d f).queues = s.queues := rfl
@[simp] theorem State.onDie_clx (s : State) (d : Nat) (f : Die → Die) : (s.onDie d f).clx = s.clx := rfl
@[simp] theorem State.onDie_launches (s : State) (d : Nat) (f : Die → Die) : (s.onDie d f).launches = s.launches := rfl
@[simp] theorem State.onDie_heldRecs (s : State) (d : Nat) (f : Die → Die) : (s.onDie d f).heldRecs = s.heldRecs := rfl
@[simp] theorem State.onDie_mem (s : State) (d : Nat) (f : Die → Die) : (s.onDie d f).mem = s.mem := rfl
@[simp] theorem State.onDie_mpois (s : State) (d : Nat) (f : Die → Die) : (s.onDie d f).mpois = s.mpois := rfl
@[simp] theorem State.onDie_relTags (s : State) (d : Nat) (f : Die → Die) : (s.onDie d f).relTags = s.relTags := rfl
@[simp] theorem State.onDie_openers (s : State) (d : Nat) (f : Die → Die) : (s.onDie d f).openers = s.openers := rfl
@[simp] theorem State.onDie_waits (s : State) (d : Nat) (f : Die → Die) : (s.onDie d f).waits = s.waits := rfl
@[simp] theorem State.onDie_hbars (s : State) (d : Nat) (f : Die → Die) : (s.onDie d f).hbars = s.hbars := rfl
@[simp] theorem State.onDie_criers (s : State) (d : Nat) (f : Die → Die) : (s.onDie d f).criers = s.criers := rfl
@[simp] theorem State.onDie_pools (s : State) (d : Nat) (f : Die → Die) : (s.onDie d f).pools = s.pools := rfl
@[simp] theorem State.onDie_smap (s : State) (d : Nat) (f : Die → Die) : (s.onDie d f).smap = s.smap := rfl
@[simp] theorem State.onDie_pkg (s : State) (d : Nat) (f : Die → Die) : (s.onDie d f).pkg = s.pkg := rfl
@[simp] theorem State.onDie_tlbi (s : State) (d : Nat) (f : Die → Die) : (s.onDie d f).tlbi = s.tlbi := rfl
@[simp] theorem State.onDie_tlbDrop (s : State) (d : Nat) (f : Die → Die) : (s.onDie d f).tlbDrop = s.tlbDrop := rfl
@[simp] theorem State.onDie_rbsStatus (s : State) (d : Nat) (f : Die → Die) : (s.onDie d f).rbsStatus = s.rbsStatus := rfl
@[simp] theorem State.onDie_rbsLines (s : State) (d : Nat) (f : Die → Die) : (s.onDie d f).rbsLines = s.rbsLines := rfl
@[simp] theorem State.onDie_rollback (s : State) (d : Nat) (f : Die → Die) : (s.onDie d f).rollback = s.rollback := rfl
@[simp] theorem State.onDie_chanHeld (s : State) (d : Nat) (f : Die → Die) : (s.onDie d f).chanHeld = s.chanHeld := rfl
@[simp] theorem State.onDie_ports (s : State) (d : Nat) (f : Die → Die) : (s.onDie d f).ports = s.ports := rfl
@[simp] theorem State.onDie_syc (s : State) (d : Nat) (f : Die → Die) : (s.onDie d f).syc = s.syc := rfl
@[simp] theorem State.onDie_agenda (s : State) (d : Nat) (f : Die → Die) : (s.onDie d f).agenda = s.agenda := rfl
@[simp] theorem State.onDie_turn (s : State) (d : Nat) (f : Die → Die) : (s.onDie d f).turn = s.turn := rfl
@[simp] theorem State.onDie_focus (s : State) (d : Nat) (f : Die → Die) : (s.onDie d f).focus = s.focus := rfl
@[simp] theorem State.onDie_free (s : State) (d : Nat) (f : Die → Die) : (s.onDie d f).free = s.free := rfl
@[simp] theorem State.onDie_nextInst (s : State) (d : Nat) (f : Die → Die) : (s.onDie d f).nextInst = s.nextInst := rfl
@[simp] theorem State.onDie_outbox (s : State) (d : Nat) (f : Die → Die) : (s.onDie d f).outbox = s.outbox := rfl
@[simp] theorem State.onDie_lateRecs (s : State) (d : Nat) (f : Die → Die) : (s.onDie d f).lateRecs = s.lateRecs := rfl
@[simp] theorem State.onDie_fqHeld (s : State) (d : Nat) (f : Die → Die) : (s.onDie d f).fqHeld = s.fqHeld := rfl
@[simp] theorem State.onDie_late (s : State) (d : Nat) (f : Die → Die) : (s.onDie d f).late = s.late := rfl
@[simp] theorem State.onDie_regWrites (s : State) (d : Nat) (f : Die → Die) : (s.onDie d f).regWrites = s.regWrites := rfl

@[simp] theorem State.onCtx_clock (s : State) (c : Nat) (f : Ctx → Ctx) : (s.onCtx c f).clock = s.clock := rfl
@[simp] theorem State.onCtx_cores (s : State) (c : Nat) (f : Ctx → Ctx) : (s.onCtx c f).cores = s.cores := rfl
@[simp] theorem State.onCtx_quads (s : State) (c : Nat) (f : Ctx → Ctx) : (s.onCtx c f).quads = s.quads := rfl
@[simp] theorem State.onCtx_dies (s : State) (c : Nat) (f : Ctx → Ctx) : (s.onCtx c f).dies = s.dies := rfl
@[simp] theorem State.onCtx_queues (s : State) (c : Nat) (f : Ctx → Ctx) : (s.onCtx c f).queues = s.queues := rfl
@[simp] theorem State.onCtx_clx (s : State) (c : Nat) (f : Ctx → Ctx) : (s.onCtx c f).clx = s.clx := rfl
@[simp] theorem State.onCtx_launches (s : State) (c : Nat) (f : Ctx → Ctx) : (s.onCtx c f).launches = s.launches := rfl
@[simp] theorem State.onCtx_heldRecs (s : State) (c : Nat) (f : Ctx → Ctx) : (s.onCtx c f).heldRecs = s.heldRecs := rfl
@[simp] theorem State.onCtx_mem (s : State) (c : Nat) (f : Ctx → Ctx) : (s.onCtx c f).mem = s.mem := rfl
@[simp] theorem State.onCtx_mpois (s : State) (c : Nat) (f : Ctx → Ctx) : (s.onCtx c f).mpois = s.mpois := rfl
@[simp] theorem State.onCtx_relTags (s : State) (c : Nat) (f : Ctx → Ctx) : (s.onCtx c f).relTags = s.relTags := rfl
@[simp] theorem State.onCtx_openers (s : State) (c : Nat) (f : Ctx → Ctx) : (s.onCtx c f).openers = s.openers := rfl
@[simp] theorem State.onCtx_waits (s : State) (c : Nat) (f : Ctx → Ctx) : (s.onCtx c f).waits = s.waits := rfl
@[simp] theorem State.onCtx_hbars (s : State) (c : Nat) (f : Ctx → Ctx) : (s.onCtx c f).hbars = s.hbars := rfl
@[simp] theorem State.onCtx_criers (s : State) (c : Nat) (f : Ctx → Ctx) : (s.onCtx c f).criers = s.criers := rfl
@[simp] theorem State.onCtx_pools (s : State) (c : Nat) (f : Ctx → Ctx) : (s.onCtx c f).pools = s.pools := rfl
@[simp] theorem State.onCtx_smap (s : State) (c : Nat) (f : Ctx → Ctx) : (s.onCtx c f).smap = s.smap := rfl
@[simp] theorem State.onCtx_pkg (s : State) (c : Nat) (f : Ctx → Ctx) : (s.onCtx c f).pkg = s.pkg := rfl
@[simp] theorem State.onCtx_tlbi (s : State) (c : Nat) (f : Ctx → Ctx) : (s.onCtx c f).tlbi = s.tlbi := rfl
@[simp] theorem State.onCtx_tlbDrop (s : State) (c : Nat) (f : Ctx → Ctx) : (s.onCtx c f).tlbDrop = s.tlbDrop := rfl
@[simp] theorem State.onCtx_rbsStatus (s : State) (c : Nat) (f : Ctx → Ctx) : (s.onCtx c f).rbsStatus = s.rbsStatus := rfl
@[simp] theorem State.onCtx_rbsLines (s : State) (c : Nat) (f : Ctx → Ctx) : (s.onCtx c f).rbsLines = s.rbsLines := rfl
@[simp] theorem State.onCtx_rollback (s : State) (c : Nat) (f : Ctx → Ctx) : (s.onCtx c f).rollback = s.rollback := rfl
@[simp] theorem State.onCtx_chanHeld (s : State) (c : Nat) (f : Ctx → Ctx) : (s.onCtx c f).chanHeld = s.chanHeld := rfl
@[simp] theorem State.onCtx_ports (s : State) (c : Nat) (f : Ctx → Ctx) : (s.onCtx c f).ports = s.ports := rfl
@[simp] theorem State.onCtx_syc (s : State) (c : Nat) (f : Ctx → Ctx) : (s.onCtx c f).syc = s.syc := rfl
@[simp] theorem State.onCtx_agenda (s : State) (c : Nat) (f : Ctx → Ctx) : (s.onCtx c f).agenda = s.agenda := rfl
@[simp] theorem State.onCtx_turn (s : State) (c : Nat) (f : Ctx → Ctx) : (s.onCtx c f).turn = s.turn := rfl
@[simp] theorem State.onCtx_focus (s : State) (c : Nat) (f : Ctx → Ctx) : (s.onCtx c f).focus = s.focus := rfl
@[simp] theorem State.onCtx_free (s : State) (c : Nat) (f : Ctx → Ctx) : (s.onCtx c f).free = s.free := rfl
@[simp] theorem State.onCtx_nextInst (s : State) (c : Nat) (f : Ctx → Ctx) : (s.onCtx c f).nextInst = s.nextInst := rfl
@[simp] theorem State.onCtx_outbox (s : State) (c : Nat) (f : Ctx → Ctx) : (s.onCtx c f).outbox = s.outbox := rfl
@[simp] theorem State.onCtx_lateRecs (s : State) (c : Nat) (f : Ctx → Ctx) : (s.onCtx c f).lateRecs = s.lateRecs := rfl
@[simp] theorem State.onCtx_fqHeld (s : State) (c : Nat) (f : Ctx → Ctx) : (s.onCtx c f).fqHeld = s.fqHeld := rfl
@[simp] theorem State.onCtx_late (s : State) (c : Nat) (f : Ctx → Ctx) : (s.onCtx c f).late = s.late := rfl
@[simp] theorem State.onCtx_regWrites (s : State) (c : Nat) (f : Ctx → Ctx) : (s.onCtx c f).regWrites = s.regWrites := rfl

@[simp] theorem State.onQueue_clock (s : State) (q : Nat) (f : Queue → Queue) : (s.onQueue q f).clock = s.clock := rfl
@[simp] theorem State.onQueue_cores (s : State) (q : Nat) (f : Queue → Queue) : (s.onQueue q f).cores = s.cores := rfl
@[simp] theorem State.onQueue_quads (s : State) (q : Nat) (f : Queue → Queue) : (s.onQueue q f).quads = s.quads := rfl
@[simp] theorem State.onQueue_dies (s : State) (q : Nat) (f : Queue → Queue) : (s.onQueue q f).dies = s.dies := rfl
@[simp] theorem State.onQueue_ctxs (s : State) (q : Nat) (f : Queue → Queue) : (s.onQueue q f).ctxs = s.ctxs := rfl
@[simp] theorem State.onQueue_clx (s : State) (q : Nat) (f : Queue → Queue) : (s.onQueue q f).clx = s.clx := rfl
@[simp] theorem State.onQueue_launches (s : State) (q : Nat) (f : Queue → Queue) : (s.onQueue q f).launches = s.launches := rfl
@[simp] theorem State.onQueue_heldRecs (s : State) (q : Nat) (f : Queue → Queue) : (s.onQueue q f).heldRecs = s.heldRecs := rfl
@[simp] theorem State.onQueue_mem (s : State) (q : Nat) (f : Queue → Queue) : (s.onQueue q f).mem = s.mem := rfl
@[simp] theorem State.onQueue_mpois (s : State) (q : Nat) (f : Queue → Queue) : (s.onQueue q f).mpois = s.mpois := rfl
@[simp] theorem State.onQueue_relTags (s : State) (q : Nat) (f : Queue → Queue) : (s.onQueue q f).relTags = s.relTags := rfl
@[simp] theorem State.onQueue_openers (s : State) (q : Nat) (f : Queue → Queue) : (s.onQueue q f).openers = s.openers := rfl
@[simp] theorem State.onQueue_waits (s : State) (q : Nat) (f : Queue → Queue) : (s.onQueue q f).waits = s.waits := rfl
@[simp] theorem State.onQueue_hbars (s : State) (q : Nat) (f : Queue → Queue) : (s.onQueue q f).hbars = s.hbars := rfl
@[simp] theorem State.onQueue_criers (s : State) (q : Nat) (f : Queue → Queue) : (s.onQueue q f).criers = s.criers := rfl
@[simp] theorem State.onQueue_pools (s : State) (q : Nat) (f : Queue → Queue) : (s.onQueue q f).pools = s.pools := rfl
@[simp] theorem State.onQueue_smap (s : State) (q : Nat) (f : Queue → Queue) : (s.onQueue q f).smap = s.smap := rfl
@[simp] theorem State.onQueue_pkg (s : State) (q : Nat) (f : Queue → Queue) : (s.onQueue q f).pkg = s.pkg := rfl
@[simp] theorem State.onQueue_tlbi (s : State) (q : Nat) (f : Queue → Queue) : (s.onQueue q f).tlbi = s.tlbi := rfl
@[simp] theorem State.onQueue_tlbDrop (s : State) (q : Nat) (f : Queue → Queue) : (s.onQueue q f).tlbDrop = s.tlbDrop := rfl
@[simp] theorem State.onQueue_rbsStatus (s : State) (q : Nat) (f : Queue → Queue) : (s.onQueue q f).rbsStatus = s.rbsStatus := rfl
@[simp] theorem State.onQueue_rbsLines (s : State) (q : Nat) (f : Queue → Queue) : (s.onQueue q f).rbsLines = s.rbsLines := rfl
@[simp] theorem State.onQueue_rollback (s : State) (q : Nat) (f : Queue → Queue) : (s.onQueue q f).rollback = s.rollback := rfl
@[simp] theorem State.onQueue_chanHeld (s : State) (q : Nat) (f : Queue → Queue) : (s.onQueue q f).chanHeld = s.chanHeld := rfl
@[simp] theorem State.onQueue_ports (s : State) (q : Nat) (f : Queue → Queue) : (s.onQueue q f).ports = s.ports := rfl
@[simp] theorem State.onQueue_syc (s : State) (q : Nat) (f : Queue → Queue) : (s.onQueue q f).syc = s.syc := rfl
@[simp] theorem State.onQueue_agenda (s : State) (q : Nat) (f : Queue → Queue) : (s.onQueue q f).agenda = s.agenda := rfl
@[simp] theorem State.onQueue_turn (s : State) (q : Nat) (f : Queue → Queue) : (s.onQueue q f).turn = s.turn := rfl
@[simp] theorem State.onQueue_focus (s : State) (q : Nat) (f : Queue → Queue) : (s.onQueue q f).focus = s.focus := rfl
@[simp] theorem State.onQueue_free (s : State) (q : Nat) (f : Queue → Queue) : (s.onQueue q f).free = s.free := rfl
@[simp] theorem State.onQueue_nextInst (s : State) (q : Nat) (f : Queue → Queue) : (s.onQueue q f).nextInst = s.nextInst := rfl
@[simp] theorem State.onQueue_outbox (s : State) (q : Nat) (f : Queue → Queue) : (s.onQueue q f).outbox = s.outbox := rfl
@[simp] theorem State.onQueue_lateRecs (s : State) (q : Nat) (f : Queue → Queue) : (s.onQueue q f).lateRecs = s.lateRecs := rfl
@[simp] theorem State.onQueue_fqHeld (s : State) (q : Nat) (f : Queue → Queue) : (s.onQueue q f).fqHeld = s.fqHeld := rfl
@[simp] theorem State.onQueue_late (s : State) (q : Nat) (f : Queue → Queue) : (s.onQueue q f).late = s.late := rfl
@[simp] theorem State.onQueue_regWrites (s : State) (q : Nat) (f : Queue → Queue) : (s.onQueue q f).regWrites = s.regWrites := rfl

@[simp] theorem State.bump_clock (s : State) : (s.bump).clock = s.clock := rfl
@[simp] theorem State.bump_cores (s : State) : (s.bump).cores = s.cores := rfl
@[simp] theorem State.bump_quads (s : State) : (s.bump).quads = s.quads := rfl
@[simp] theorem State.bump_dies (s : State) : (s.bump).dies = s.dies := rfl
@[simp] theorem State.bump_ctxs (s : State) : (s.bump).ctxs = s.ctxs := rfl
@[simp] theorem State.bump_queues (s : State) : (s.bump).queues = s.queues := rfl
@[simp] theorem State.bump_clx (s : State) : (s.bump).clx = s.clx := rfl
@[simp] theorem State.bump_launches (s : State) : (s.bump).launches = s.launches := rfl
@[simp] theorem State.bump_heldRecs (s : State) : (s.bump).heldRecs = s.heldRecs := rfl
@[simp] theorem State.bump_mem (s : State) : (s.bump).mem = s.mem := rfl
@[simp] theorem State.bump_mpois (s : State) : (s.bump).mpois = s.mpois := rfl
@[simp] theorem State.bump_relTags (s : State) : (s.bump).relTags = s.relTags := rfl
@[simp] theorem State.bump_openers (s : State) : (s.bump).openers = s.openers := rfl
@[simp] theorem State.bump_waits (s : State) : (s.bump).waits = s.waits := rfl
@[simp] theorem State.bump_hbars (s : State) : (s.bump).hbars = s.hbars := rfl
@[simp] theorem State.bump_criers (s : State) : (s.bump).criers = s.criers := rfl
@[simp] theorem State.bump_pools (s : State) : (s.bump).pools = s.pools := rfl
@[simp] theorem State.bump_smap (s : State) : (s.bump).smap = s.smap := rfl
@[simp] theorem State.bump_pkg (s : State) : (s.bump).pkg = s.pkg := rfl
@[simp] theorem State.bump_tlbi (s : State) : (s.bump).tlbi = s.tlbi := rfl
@[simp] theorem State.bump_tlbDrop (s : State) : (s.bump).tlbDrop = s.tlbDrop := rfl
@[simp] theorem State.bump_rbsStatus (s : State) : (s.bump).rbsStatus = s.rbsStatus := rfl
@[simp] theorem State.bump_rbsLines (s : State) : (s.bump).rbsLines = s.rbsLines := rfl
@[simp] theorem State.bump_rollback (s : State) : (s.bump).rollback = s.rollback := rfl
@[simp] theorem State.bump_chanHeld (s : State) : (s.bump).chanHeld = s.chanHeld := rfl
@[simp] theorem State.bump_ports (s : State) : (s.bump).ports = s.ports := rfl
@[simp] theorem State.bump_syc (s : State) : (s.bump).syc = s.syc := rfl
@[simp] theorem State.bump_agenda (s : State) : (s.bump).agenda = s.agenda := rfl
@[simp] theorem State.bump_turn (s : State) : (s.bump).turn = s.turn := rfl
@[simp] theorem State.bump_focus (s : State) : (s.bump).focus = s.focus := rfl
@[simp] theorem State.bump_nextInst (s : State) : (s.bump).nextInst = s.nextInst := rfl
@[simp] theorem State.bump_outbox (s : State) : (s.bump).outbox = s.outbox := rfl
@[simp] theorem State.bump_lateRecs (s : State) : (s.bump).lateRecs = s.lateRecs := rfl
@[simp] theorem State.bump_fqHeld (s : State) : (s.bump).fqHeld = s.fqHeld := rfl
@[simp] theorem State.bump_late (s : State) : (s.bump).late = s.late := rfl
@[simp] theorem State.bump_regWrites (s : State) : (s.bump).regWrites = s.regWrites := rfl

@[simp] theorem State.send_clock (s : State) (m : OutMsg) : (s.send m).clock = s.clock := rfl
@[simp] theorem State.send_cores (s : State) (m : OutMsg) : (s.send m).cores = s.cores := rfl
@[simp] theorem State.send_quads (s : State) (m : OutMsg) : (s.send m).quads = s.quads := rfl
@[simp] theorem State.send_dies (s : State) (m : OutMsg) : (s.send m).dies = s.dies := rfl
@[simp] theorem State.send_ctxs (s : State) (m : OutMsg) : (s.send m).ctxs = s.ctxs := rfl
@[simp] theorem State.send_queues (s : State) (m : OutMsg) : (s.send m).queues = s.queues := rfl
@[simp] theorem State.send_clx (s : State) (m : OutMsg) : (s.send m).clx = s.clx := rfl
@[simp] theorem State.send_launches (s : State) (m : OutMsg) : (s.send m).launches = s.launches := rfl
@[simp] theorem State.send_heldRecs (s : State) (m : OutMsg) : (s.send m).heldRecs = s.heldRecs := rfl
@[simp] theorem State.send_mem (s : State) (m : OutMsg) : (s.send m).mem = s.mem := rfl
@[simp] theorem State.send_mpois (s : State) (m : OutMsg) : (s.send m).mpois = s.mpois := rfl
@[simp] theorem State.send_relTags (s : State) (m : OutMsg) : (s.send m).relTags = s.relTags := rfl
@[simp] theorem State.send_openers (s : State) (m : OutMsg) : (s.send m).openers = s.openers := rfl
@[simp] theorem State.send_waits (s : State) (m : OutMsg) : (s.send m).waits = s.waits := rfl
@[simp] theorem State.send_hbars (s : State) (m : OutMsg) : (s.send m).hbars = s.hbars := rfl
@[simp] theorem State.send_criers (s : State) (m : OutMsg) : (s.send m).criers = s.criers := rfl
@[simp] theorem State.send_pools (s : State) (m : OutMsg) : (s.send m).pools = s.pools := rfl
@[simp] theorem State.send_smap (s : State) (m : OutMsg) : (s.send m).smap = s.smap := rfl
@[simp] theorem State.send_pkg (s : State) (m : OutMsg) : (s.send m).pkg = s.pkg := rfl
@[simp] theorem State.send_tlbi (s : State) (m : OutMsg) : (s.send m).tlbi = s.tlbi := rfl
@[simp] theorem State.send_tlbDrop (s : State) (m : OutMsg) : (s.send m).tlbDrop = s.tlbDrop := rfl
@[simp] theorem State.send_rbsStatus (s : State) (m : OutMsg) : (s.send m).rbsStatus = s.rbsStatus := rfl
@[simp] theorem State.send_rbsLines (s : State) (m : OutMsg) : (s.send m).rbsLines = s.rbsLines := rfl
@[simp] theorem State.send_rollback (s : State) (m : OutMsg) : (s.send m).rollback = s.rollback := rfl
@[simp] theorem State.send_chanHeld (s : State) (m : OutMsg) : (s.send m).chanHeld = s.chanHeld := rfl
@[simp] theorem State.send_ports (s : State) (m : OutMsg) : (s.send m).ports = s.ports := rfl
@[simp] theorem State.send_syc (s : State) (m : OutMsg) : (s.send m).syc = s.syc := rfl
@[simp] theorem State.send_agenda (s : State) (m : OutMsg) : (s.send m).agenda = s.agenda := rfl
@[simp] theorem State.send_turn (s : State) (m : OutMsg) : (s.send m).turn = s.turn := rfl
@[simp] theorem State.send_focus (s : State) (m : OutMsg) : (s.send m).focus = s.focus := rfl
@[simp] theorem State.send_free (s : State) (m : OutMsg) : (s.send m).free = s.free := rfl
@[simp] theorem State.send_nextInst (s : State) (m : OutMsg) : (s.send m).nextInst = s.nextInst := rfl
@[simp] theorem State.send_lateRecs (s : State) (m : OutMsg) : (s.send m).lateRecs = s.lateRecs := rfl
@[simp] theorem State.send_fqHeld (s : State) (m : OutMsg) : (s.send m).fqHeld = s.fqHeld := rfl
@[simp] theorem State.send_late (s : State) (m : OutMsg) : (s.send m).late = s.late := rfl
@[simp] theorem State.send_regWrites (s : State) (m : OutMsg) : (s.send m).regWrites = s.regWrites := rfl

@[simp] theorem State.setReg_clock (s : State) (q : SeqId) (r : Reg) (v : SVal) : (s.setReg q r v).clock = s.clock := rfl
@[simp] theorem State.setReg_quads (s : State) (q : SeqId) (r : Reg) (v : SVal) : (s.setReg q r v).quads = s.quads := rfl
@[simp] theorem State.setReg_dies (s : State) (q : SeqId) (r : Reg) (v : SVal) : (s.setReg q r v).dies = s.dies := rfl
@[simp] theorem State.setReg_ctxs (s : State) (q : SeqId) (r : Reg) (v : SVal) : (s.setReg q r v).ctxs = s.ctxs := rfl
@[simp] theorem State.setReg_queues (s : State) (q : SeqId) (r : Reg) (v : SVal) : (s.setReg q r v).queues = s.queues := rfl
@[simp] theorem State.setReg_clx (s : State) (q : SeqId) (r : Reg) (v : SVal) : (s.setReg q r v).clx = s.clx := rfl
@[simp] theorem State.setReg_launches (s : State) (q : SeqId) (r : Reg) (v : SVal) : (s.setReg q r v).launches = s.launches := rfl
@[simp] theorem State.setReg_heldRecs (s : State) (q : SeqId) (r : Reg) (v : SVal) : (s.setReg q r v).heldRecs = s.heldRecs := rfl
@[simp] theorem State.setReg_mem (s : State) (q : SeqId) (r : Reg) (v : SVal) : (s.setReg q r v).mem = s.mem := rfl
@[simp] theorem State.setReg_mpois (s : State) (q : SeqId) (r : Reg) (v : SVal) : (s.setReg q r v).mpois = s.mpois := rfl
@[simp] theorem State.setReg_relTags (s : State) (q : SeqId) (r : Reg) (v : SVal) : (s.setReg q r v).relTags = s.relTags := rfl
@[simp] theorem State.setReg_openers (s : State) (q : SeqId) (r : Reg) (v : SVal) : (s.setReg q r v).openers = s.openers := rfl
@[simp] theorem State.setReg_waits (s : State) (q : SeqId) (r : Reg) (v : SVal) : (s.setReg q r v).waits = s.waits := rfl
@[simp] theorem State.setReg_hbars (s : State) (q : SeqId) (r : Reg) (v : SVal) : (s.setReg q r v).hbars = s.hbars := rfl
@[simp] theorem State.setReg_criers (s : State) (q : SeqId) (r : Reg) (v : SVal) : (s.setReg q r v).criers = s.criers := rfl
@[simp] theorem State.setReg_pools (s : State) (q : SeqId) (r : Reg) (v : SVal) : (s.setReg q r v).pools = s.pools := rfl
@[simp] theorem State.setReg_smap (s : State) (q : SeqId) (r : Reg) (v : SVal) : (s.setReg q r v).smap = s.smap := rfl
@[simp] theorem State.setReg_pkg (s : State) (q : SeqId) (r : Reg) (v : SVal) : (s.setReg q r v).pkg = s.pkg := rfl
@[simp] theorem State.setReg_tlbi (s : State) (q : SeqId) (r : Reg) (v : SVal) : (s.setReg q r v).tlbi = s.tlbi := rfl
@[simp] theorem State.setReg_tlbDrop (s : State) (q : SeqId) (r : Reg) (v : SVal) : (s.setReg q r v).tlbDrop = s.tlbDrop := rfl
@[simp] theorem State.setReg_rbsStatus (s : State) (q : SeqId) (r : Reg) (v : SVal) : (s.setReg q r v).rbsStatus = s.rbsStatus := rfl
@[simp] theorem State.setReg_rbsLines (s : State) (q : SeqId) (r : Reg) (v : SVal) : (s.setReg q r v).rbsLines = s.rbsLines := rfl
@[simp] theorem State.setReg_rollback (s : State) (q : SeqId) (r : Reg) (v : SVal) : (s.setReg q r v).rollback = s.rollback := rfl
@[simp] theorem State.setReg_chanHeld (s : State) (q : SeqId) (r : Reg) (v : SVal) : (s.setReg q r v).chanHeld = s.chanHeld := rfl
@[simp] theorem State.setReg_ports (s : State) (q : SeqId) (r : Reg) (v : SVal) : (s.setReg q r v).ports = s.ports := rfl
@[simp] theorem State.setReg_syc (s : State) (q : SeqId) (r : Reg) (v : SVal) : (s.setReg q r v).syc = s.syc := rfl
@[simp] theorem State.setReg_agenda (s : State) (q : SeqId) (r : Reg) (v : SVal) : (s.setReg q r v).agenda = s.agenda := rfl
@[simp] theorem State.setReg_turn (s : State) (q : SeqId) (r : Reg) (v : SVal) : (s.setReg q r v).turn = s.turn := rfl
@[simp] theorem State.setReg_focus (s : State) (q : SeqId) (r : Reg) (v : SVal) : (s.setReg q r v).focus = s.focus := rfl
@[simp] theorem State.setReg_free (s : State) (q : SeqId) (r : Reg) (v : SVal) : (s.setReg q r v).free = s.free := rfl
@[simp] theorem State.setReg_nextInst (s : State) (q : SeqId) (r : Reg) (v : SVal) : (s.setReg q r v).nextInst = s.nextInst := rfl
@[simp] theorem State.setReg_outbox (s : State) (q : SeqId) (r : Reg) (v : SVal) : (s.setReg q r v).outbox = s.outbox := rfl
@[simp] theorem State.setReg_lateRecs (s : State) (q : SeqId) (r : Reg) (v : SVal) : (s.setReg q r v).lateRecs = s.lateRecs := rfl
@[simp] theorem State.setReg_fqHeld (s : State) (q : SeqId) (r : Reg) (v : SVal) : (s.setReg q r v).fqHeld = s.fqHeld := rfl
@[simp] theorem State.setReg_late (s : State) (q : SeqId) (r : Reg) (v : SVal) : (s.setReg q r v).late = s.late := rfl
@[simp] theorem State.setReg_regWrites (s : State) (q : SeqId) (r : Reg) (v : SVal) : (s.setReg q r v).regWrites = s.regWrites := rfl

@[simp] theorem State.advance_clock (s : State) (q : SeqId) : (s.advance q).clock = s.clock := rfl
@[simp] theorem State.advance_quads (s : State) (q : SeqId) : (s.advance q).quads = s.quads := rfl
@[simp] theorem State.advance_dies (s : State) (q : SeqId) : (s.advance q).dies = s.dies := rfl
@[simp] theorem State.advance_ctxs (s : State) (q : SeqId) : (s.advance q).ctxs = s.ctxs := rfl
@[simp] theorem State.advance_queues (s : State) (q : SeqId) : (s.advance q).queues = s.queues := rfl
@[simp] theorem State.advance_clx (s : State) (q : SeqId) : (s.advance q).clx = s.clx := rfl
@[simp] theorem State.advance_launches (s : State) (q : SeqId) : (s.advance q).launches = s.launches := rfl
@[simp] theorem State.advance_heldRecs (s : State) (q : SeqId) : (s.advance q).heldRecs = s.heldRecs := rfl
@[simp] theorem State.advance_mem (s : State) (q : SeqId) : (s.advance q).mem = s.mem := rfl
@[simp] theorem State.advance_mpois (s : State) (q : SeqId) : (s.advance q).mpois = s.mpois := rfl
@[simp] theorem State.advance_relTags (s : State) (q : SeqId) : (s.advance q).relTags = s.relTags := rfl
@[simp] theorem State.advance_openers (s : State) (q : SeqId) : (s.advance q).openers = s.openers := rfl
@[simp] theorem State.advance_waits (s : State) (q : SeqId) : (s.advance q).waits = s.waits := rfl
@[simp] theorem State.advance_hbars (s : State) (q : SeqId) : (s.advance q).hbars = s.hbars := rfl
@[simp] theorem State.advance_criers (s : State) (q : SeqId) : (s.advance q).criers = s.criers := rfl
@[simp] theorem State.advance_pools (s : State) (q : SeqId) : (s.advance q).pools = s.pools := rfl
@[simp] theorem State.advance_smap (s : State) (q : SeqId) : (s.advance q).smap = s.smap := rfl
@[simp] theorem State.advance_pkg (s : State) (q : SeqId) : (s.advance q).pkg = s.pkg := rfl
@[simp] theorem State.advance_tlbi (s : State) (q : SeqId) : (s.advance q).tlbi = s.tlbi := rfl
@[simp] theorem State.advance_tlbDrop (s : State) (q : SeqId) : (s.advance q).tlbDrop = s.tlbDrop := rfl
@[simp] theorem State.advance_rbsStatus (s : State) (q : SeqId) : (s.advance q).rbsStatus = s.rbsStatus := rfl
@[simp] theorem State.advance_rbsLines (s : State) (q : SeqId) : (s.advance q).rbsLines = s.rbsLines := rfl
@[simp] theorem State.advance_rollback (s : State) (q : SeqId) : (s.advance q).rollback = s.rollback := rfl
@[simp] theorem State.advance_chanHeld (s : State) (q : SeqId) : (s.advance q).chanHeld = s.chanHeld := rfl
@[simp] theorem State.advance_ports (s : State) (q : SeqId) : (s.advance q).ports = s.ports := rfl
@[simp] theorem State.advance_syc (s : State) (q : SeqId) : (s.advance q).syc = s.syc := rfl
@[simp] theorem State.advance_agenda (s : State) (q : SeqId) : (s.advance q).agenda = s.agenda := rfl
@[simp] theorem State.advance_turn (s : State) (q : SeqId) : (s.advance q).turn = s.turn := rfl
@[simp] theorem State.advance_focus (s : State) (q : SeqId) : (s.advance q).focus = s.focus := rfl
@[simp] theorem State.advance_free (s : State) (q : SeqId) : (s.advance q).free = s.free := rfl
@[simp] theorem State.advance_nextInst (s : State) (q : SeqId) : (s.advance q).nextInst = s.nextInst := rfl
@[simp] theorem State.advance_outbox (s : State) (q : SeqId) : (s.advance q).outbox = s.outbox := rfl
@[simp] theorem State.advance_lateRecs (s : State) (q : SeqId) : (s.advance q).lateRecs = s.lateRecs := rfl
@[simp] theorem State.advance_fqHeld (s : State) (q : SeqId) : (s.advance q).fqHeld = s.fqHeld := rfl
@[simp] theorem State.advance_late (s : State) (q : SeqId) : (s.advance q).late = s.late := rfl
@[simp] theorem State.advance_regWrites (s : State) (q : SeqId) : (s.advance q).regWrites = s.regWrites := rfl

@[simp] theorem State.jump_clock (s : State) (q : SeqId) (p : Word) : (s.jump q p).clock = s.clock := rfl
@[simp] theorem State.jump_quads (s : State) (q : SeqId) (p : Word) : (s.jump q p).quads = s.quads := rfl
@[simp] theorem State.jump_dies (s : State) (q : SeqId) (p : Word) : (s.jump q p).dies = s.dies := rfl
@[simp] theorem State.jump_ctxs (s : State) (q : SeqId) (p : Word) : (s.jump q p).ctxs = s.ctxs := rfl
@[simp] theorem State.jump_queues (s : State) (q : SeqId) (p : Word) : (s.jump q p).queues = s.queues := rfl
@[simp] theorem State.jump_clx (s : State) (q : SeqId) (p : Word) : (s.jump q p).clx = s.clx := rfl
@[simp] theorem State.jump_launches (s : State) (q : SeqId) (p : Word) : (s.jump q p).launches = s.launches := rfl
@[simp] theorem State.jump_heldRecs (s : State) (q : SeqId) (p : Word) : (s.jump q p).heldRecs = s.heldRecs := rfl
@[simp] theorem State.jump_mem (s : State) (q : SeqId) (p : Word) : (s.jump q p).mem = s.mem := rfl
@[simp] theorem State.jump_mpois (s : State) (q : SeqId) (p : Word) : (s.jump q p).mpois = s.mpois := rfl
@[simp] theorem State.jump_relTags (s : State) (q : SeqId) (p : Word) : (s.jump q p).relTags = s.relTags := rfl
@[simp] theorem State.jump_openers (s : State) (q : SeqId) (p : Word) : (s.jump q p).openers = s.openers := rfl
@[simp] theorem State.jump_waits (s : State) (q : SeqId) (p : Word) : (s.jump q p).waits = s.waits := rfl
@[simp] theorem State.jump_hbars (s : State) (q : SeqId) (p : Word) : (s.jump q p).hbars = s.hbars := rfl
@[simp] theorem State.jump_criers (s : State) (q : SeqId) (p : Word) : (s.jump q p).criers = s.criers := rfl
@[simp] theorem State.jump_pools (s : State) (q : SeqId) (p : Word) : (s.jump q p).pools = s.pools := rfl
@[simp] theorem State.jump_smap (s : State) (q : SeqId) (p : Word) : (s.jump q p).smap = s.smap := rfl
@[simp] theorem State.jump_pkg (s : State) (q : SeqId) (p : Word) : (s.jump q p).pkg = s.pkg := rfl
@[simp] theorem State.jump_tlbi (s : State) (q : SeqId) (p : Word) : (s.jump q p).tlbi = s.tlbi := rfl
@[simp] theorem State.jump_tlbDrop (s : State) (q : SeqId) (p : Word) : (s.jump q p).tlbDrop = s.tlbDrop := rfl
@[simp] theorem State.jump_rbsStatus (s : State) (q : SeqId) (p : Word) : (s.jump q p).rbsStatus = s.rbsStatus := rfl
@[simp] theorem State.jump_rbsLines (s : State) (q : SeqId) (p : Word) : (s.jump q p).rbsLines = s.rbsLines := rfl
@[simp] theorem State.jump_rollback (s : State) (q : SeqId) (p : Word) : (s.jump q p).rollback = s.rollback := rfl
@[simp] theorem State.jump_chanHeld (s : State) (q : SeqId) (p : Word) : (s.jump q p).chanHeld = s.chanHeld := rfl
@[simp] theorem State.jump_ports (s : State) (q : SeqId) (p : Word) : (s.jump q p).ports = s.ports := rfl
@[simp] theorem State.jump_syc (s : State) (q : SeqId) (p : Word) : (s.jump q p).syc = s.syc := rfl
@[simp] theorem State.jump_agenda (s : State) (q : SeqId) (p : Word) : (s.jump q p).agenda = s.agenda := rfl
@[simp] theorem State.jump_turn (s : State) (q : SeqId) (p : Word) : (s.jump q p).turn = s.turn := rfl
@[simp] theorem State.jump_focus (s : State) (q : SeqId) (p : Word) : (s.jump q p).focus = s.focus := rfl
@[simp] theorem State.jump_free (s : State) (q : SeqId) (p : Word) : (s.jump q p).free = s.free := rfl
@[simp] theorem State.jump_nextInst (s : State) (q : SeqId) (p : Word) : (s.jump q p).nextInst = s.nextInst := rfl
@[simp] theorem State.jump_outbox (s : State) (q : SeqId) (p : Word) : (s.jump q p).outbox = s.outbox := rfl
@[simp] theorem State.jump_lateRecs (s : State) (q : SeqId) (p : Word) : (s.jump q p).lateRecs = s.lateRecs := rfl
@[simp] theorem State.jump_fqHeld (s : State) (q : SeqId) (p : Word) : (s.jump q p).fqHeld = s.fqHeld := rfl
@[simp] theorem State.jump_late (s : State) (q : SeqId) (p : Word) : (s.jump q p).late = s.late := rfl
@[simp] theorem State.jump_regWrites (s : State) (q : SeqId) (p : Word) : (s.jump q p).regWrites = s.regWrites := rfl

@[simp] theorem State.stalled_clock (s : State) (q : SeqId) (k : WaitKind) : (s.stalled q k).clock = s.clock := rfl
@[simp] theorem State.stalled_quads (s : State) (q : SeqId) (k : WaitKind) : (s.stalled q k).quads = s.quads := rfl
@[simp] theorem State.stalled_dies (s : State) (q : SeqId) (k : WaitKind) : (s.stalled q k).dies = s.dies := rfl
@[simp] theorem State.stalled_ctxs (s : State) (q : SeqId) (k : WaitKind) : (s.stalled q k).ctxs = s.ctxs := rfl
@[simp] theorem State.stalled_queues (s : State) (q : SeqId) (k : WaitKind) : (s.stalled q k).queues = s.queues := rfl
@[simp] theorem State.stalled_clx (s : State) (q : SeqId) (k : WaitKind) : (s.stalled q k).clx = s.clx := rfl
@[simp] theorem State.stalled_launches (s : State) (q : SeqId) (k : WaitKind) : (s.stalled q k).launches = s.launches := rfl
@[simp] theorem State.stalled_heldRecs (s : State) (q : SeqId) (k : WaitKind) : (s.stalled q k).heldRecs = s.heldRecs := rfl
@[simp] theorem State.stalled_mem (s : State) (q : SeqId) (k : WaitKind) : (s.stalled q k).mem = s.mem := rfl
@[simp] theorem State.stalled_mpois (s : State) (q : SeqId) (k : WaitKind) : (s.stalled q k).mpois = s.mpois := rfl
@[simp] theorem State.stalled_relTags (s : State) (q : SeqId) (k : WaitKind) : (s.stalled q k).relTags = s.relTags := rfl
@[simp] theorem State.stalled_openers (s : State) (q : SeqId) (k : WaitKind) : (s.stalled q k).openers = s.openers := rfl
@[simp] theorem State.stalled_waits (s : State) (q : SeqId) (k : WaitKind) : (s.stalled q k).waits = s.waits := rfl
@[simp] theorem State.stalled_hbars (s : State) (q : SeqId) (k : WaitKind) : (s.stalled q k).hbars = s.hbars := rfl
@[simp] theorem State.stalled_criers (s : State) (q : SeqId) (k : WaitKind) : (s.stalled q k).criers = s.criers := rfl
@[simp] theorem State.stalled_pools (s : State) (q : SeqId) (k : WaitKind) : (s.stalled q k).pools = s.pools := rfl
@[simp] theorem State.stalled_smap (s : State) (q : SeqId) (k : WaitKind) : (s.stalled q k).smap = s.smap := rfl
@[simp] theorem State.stalled_pkg (s : State) (q : SeqId) (k : WaitKind) : (s.stalled q k).pkg = s.pkg := rfl
@[simp] theorem State.stalled_tlbi (s : State) (q : SeqId) (k : WaitKind) : (s.stalled q k).tlbi = s.tlbi := rfl
@[simp] theorem State.stalled_tlbDrop (s : State) (q : SeqId) (k : WaitKind) : (s.stalled q k).tlbDrop = s.tlbDrop := rfl
@[simp] theorem State.stalled_rbsStatus (s : State) (q : SeqId) (k : WaitKind) : (s.stalled q k).rbsStatus = s.rbsStatus := rfl
@[simp] theorem State.stalled_rbsLines (s : State) (q : SeqId) (k : WaitKind) : (s.stalled q k).rbsLines = s.rbsLines := rfl
@[simp] theorem State.stalled_rollback (s : State) (q : SeqId) (k : WaitKind) : (s.stalled q k).rollback = s.rollback := rfl
@[simp] theorem State.stalled_chanHeld (s : State) (q : SeqId) (k : WaitKind) : (s.stalled q k).chanHeld = s.chanHeld := rfl
@[simp] theorem State.stalled_ports (s : State) (q : SeqId) (k : WaitKind) : (s.stalled q k).ports = s.ports := rfl
@[simp] theorem State.stalled_syc (s : State) (q : SeqId) (k : WaitKind) : (s.stalled q k).syc = s.syc := rfl
@[simp] theorem State.stalled_agenda (s : State) (q : SeqId) (k : WaitKind) : (s.stalled q k).agenda = s.agenda := rfl
@[simp] theorem State.stalled_turn (s : State) (q : SeqId) (k : WaitKind) : (s.stalled q k).turn = s.turn := rfl
@[simp] theorem State.stalled_focus (s : State) (q : SeqId) (k : WaitKind) : (s.stalled q k).focus = s.focus := rfl
@[simp] theorem State.stalled_free (s : State) (q : SeqId) (k : WaitKind) : (s.stalled q k).free = s.free := rfl
@[simp] theorem State.stalled_nextInst (s : State) (q : SeqId) (k : WaitKind) : (s.stalled q k).nextInst = s.nextInst := rfl
@[simp] theorem State.stalled_outbox (s : State) (q : SeqId) (k : WaitKind) : (s.stalled q k).outbox = s.outbox := rfl
@[simp] theorem State.stalled_lateRecs (s : State) (q : SeqId) (k : WaitKind) : (s.stalled q k).lateRecs = s.lateRecs := rfl
@[simp] theorem State.stalled_fqHeld (s : State) (q : SeqId) (k : WaitKind) : (s.stalled q k).fqHeld = s.fqHeld := rfl
@[simp] theorem State.stalled_late (s : State) (q : SeqId) (k : WaitKind) : (s.stalled q k).late = s.late := rfl
@[simp] theorem State.stalled_regWrites (s : State) (q : SeqId) (k : WaitKind) : (s.stalled q k).regWrites = s.regWrites := rfl

@[simp] theorem State.hitScratch_clock (s : State) (c o : Nat) : (s.hitScratch c o).clock = s.clock := rfl
@[simp] theorem State.hitScratch_cores (s : State) (c o : Nat) : (s.hitScratch c o).cores = s.cores := rfl
@[simp] theorem State.hitScratch_quads (s : State) (c o : Nat) : (s.hitScratch c o).quads = s.quads := rfl
@[simp] theorem State.hitScratch_dies (s : State) (c o : Nat) : (s.hitScratch c o).dies = s.dies := rfl
@[simp] theorem State.hitScratch_ctxs (s : State) (c o : Nat) : (s.hitScratch c o).ctxs = s.ctxs := rfl
@[simp] theorem State.hitScratch_queues (s : State) (c o : Nat) : (s.hitScratch c o).queues = s.queues := rfl
@[simp] theorem State.hitScratch_clx (s : State) (c o : Nat) : (s.hitScratch c o).clx = s.clx := rfl
@[simp] theorem State.hitScratch_launches (s : State) (c o : Nat) : (s.hitScratch c o).launches = s.launches := rfl
@[simp] theorem State.hitScratch_heldRecs (s : State) (c o : Nat) : (s.hitScratch c o).heldRecs = s.heldRecs := rfl
@[simp] theorem State.hitScratch_mem (s : State) (c o : Nat) : (s.hitScratch c o).mem = s.mem := rfl
@[simp] theorem State.hitScratch_mpois (s : State) (c o : Nat) : (s.hitScratch c o).mpois = s.mpois := rfl
@[simp] theorem State.hitScratch_relTags (s : State) (c o : Nat) : (s.hitScratch c o).relTags = s.relTags := rfl
@[simp] theorem State.hitScratch_openers (s : State) (c o : Nat) : (s.hitScratch c o).openers = s.openers := rfl
@[simp] theorem State.hitScratch_hbars (s : State) (c o : Nat) : (s.hitScratch c o).hbars = s.hbars := rfl
@[simp] theorem State.hitScratch_criers (s : State) (c o : Nat) : (s.hitScratch c o).criers = s.criers := rfl
@[simp] theorem State.hitScratch_pools (s : State) (c o : Nat) : (s.hitScratch c o).pools = s.pools := rfl
@[simp] theorem State.hitScratch_smap (s : State) (c o : Nat) : (s.hitScratch c o).smap = s.smap := rfl
@[simp] theorem State.hitScratch_pkg (s : State) (c o : Nat) : (s.hitScratch c o).pkg = s.pkg := rfl
@[simp] theorem State.hitScratch_tlbi (s : State) (c o : Nat) : (s.hitScratch c o).tlbi = s.tlbi := rfl
@[simp] theorem State.hitScratch_tlbDrop (s : State) (c o : Nat) : (s.hitScratch c o).tlbDrop = s.tlbDrop := rfl
@[simp] theorem State.hitScratch_rbsStatus (s : State) (c o : Nat) : (s.hitScratch c o).rbsStatus = s.rbsStatus := rfl
@[simp] theorem State.hitScratch_rbsLines (s : State) (c o : Nat) : (s.hitScratch c o).rbsLines = s.rbsLines := rfl
@[simp] theorem State.hitScratch_rollback (s : State) (c o : Nat) : (s.hitScratch c o).rollback = s.rollback := rfl
@[simp] theorem State.hitScratch_chanHeld (s : State) (c o : Nat) : (s.hitScratch c o).chanHeld = s.chanHeld := rfl
@[simp] theorem State.hitScratch_ports (s : State) (c o : Nat) : (s.hitScratch c o).ports = s.ports := rfl
@[simp] theorem State.hitScratch_syc (s : State) (c o : Nat) : (s.hitScratch c o).syc = s.syc := rfl
@[simp] theorem State.hitScratch_agenda (s : State) (c o : Nat) : (s.hitScratch c o).agenda = s.agenda := rfl
@[simp] theorem State.hitScratch_turn (s : State) (c o : Nat) : (s.hitScratch c o).turn = s.turn := rfl
@[simp] theorem State.hitScratch_focus (s : State) (c o : Nat) : (s.hitScratch c o).focus = s.focus := rfl
@[simp] theorem State.hitScratch_free (s : State) (c o : Nat) : (s.hitScratch c o).free = s.free := rfl
@[simp] theorem State.hitScratch_nextInst (s : State) (c o : Nat) : (s.hitScratch c o).nextInst = s.nextInst := rfl
@[simp] theorem State.hitScratch_outbox (s : State) (c o : Nat) : (s.hitScratch c o).outbox = s.outbox := rfl
@[simp] theorem State.hitScratch_lateRecs (s : State) (c o : Nat) : (s.hitScratch c o).lateRecs = s.lateRecs := rfl
@[simp] theorem State.hitScratch_fqHeld (s : State) (c o : Nat) : (s.hitScratch c o).fqHeld = s.fqHeld := rfl
@[simp] theorem State.hitScratch_late (s : State) (c o : Nat) : (s.hitScratch c o).late = s.late := rfl
@[simp] theorem State.hitScratch_regWrites (s : State) (c o : Nat) : (s.hitScratch c o).regWrites = s.regWrites := rfl

/-! ## Reading a part after writing it -/

@[simp] theorem State.core_setCore_same (s : State) (c : Nat) (v : Core) : (s.setCore c v).core c = v := sget_sset_same _ _ _ _
theorem State.core_setCore_other (s : State) (c j : Nat) (v : Core) (h : j ≠ c) : (s.setCore c v).core j = s.core j :=
  sget_sset_other _ _ _ _ _ _ h
@[simp] theorem State.quad_setQuad_same (s : State) (q : Nat) (v : Quad) : (s.setQuad q v).quad q = v := sget_sset_same _ _ _ _
theorem State.quad_setQuad_other (s : State) (q j : Nat) (v : Quad) (h : j ≠ q) : (s.setQuad q v).quad j = s.quad j :=
  sget_sset_other _ _ _ _ _ _ h
@[simp] theorem State.die_setDie_same (s : State) (d : Nat) (v : Die) : (s.setDie d v).die d = v := sget_sset_same _ _ _ _
theorem State.die_setDie_other (s : State) (d j : Nat) (v : Die) (h : j ≠ d) : (s.setDie d v).die j = s.die j :=
  sget_sset_other _ _ _ _ _ _ h
@[simp] theorem State.ctx_setCtx_same (s : State) (c : Nat) (v : Ctx) : (s.setCtx c v).ctx c = v := sget_sset_same _ _ _ _
theorem State.ctx_setCtx_other (s : State) (c j : Nat) (v : Ctx) (h : j ≠ c) : (s.setCtx c v).ctx j = s.ctx j :=
  sget_sset_other _ _ _ _ _ _ h
@[simp] theorem State.queue_setQueue_same (s : State) (q : Nat) (v : Queue) : (s.setQueue q v).queue q = v := sget_sset_same _ _ _ _
theorem State.queue_setQueue_other (s : State) (q j : Nat) (v : Queue) (h : j ≠ q) : (s.setQueue q v).queue j = s.queue j :=
  sget_sset_other _ _ _ _ _ _ h
@[simp] theorem State.clxOf_setClx_same (s : State) (c : Nat) (v : BitVec 32) : (s.setClx c v).clxOf c = v := sget_sset_same _ _ _ _
theorem State.clxOf_setClx_other (s : State) (c j : Nat) (v : BitVec 32) (h : j ≠ c) : (s.setClx c v).clxOf j = s.clxOf j :=
  sget_sset_other _ _ _ _ _ _ h
@[simp] theorem State.pool_setPool_same (s : State) (p : Nat) (v : Pool) : (s.setPool p v).pool p = v := sget_sset_same _ _ _ _
theorem State.pool_setPool_other (s : State) (p j : Nat) (v : Pool) (h : j ≠ p) : (s.setPool p v).pool j = s.pool j :=
  sget_sset_other _ _ _ _ _ _ h
@[simp] theorem State.crier_setCrier_same (s : State) (k : Nat) (v : Crier) : (s.setCrier k v).crier k = v := sget_sset_same _ _ _ _
theorem State.crier_setCrier_other (s : State) (k j : Nat) (v : Crier) (h : j ≠ k) : (s.setCrier k v).crier j = s.crier j :=
  sget_sset_other _ _ _ _ _ _ h
@[simp] theorem State.smapOf_setSmap_same (s : State) (i : Nat) (v : SMapEnt) : (s.setSmap i v).smapOf i = v := sget_sset_same _ _ _ _
theorem State.smapOf_setSmap_other (s : State) (i j : Nat) (v : SMapEnt) (h : j ≠ i) : (s.setSmap i v).smapOf j = s.smapOf j :=
  sget_sset_other _ _ _ _ _ _ h

@[simp] theorem State.core_onCore_same (s : State) (c : Nat) (f : Core → Core) : (s.onCore c f).core c = f (s.core c) :=
  State.core_setCore_same s c _
theorem State.core_onCore_other (s : State) (c j : Nat) (f : Core → Core) (h : j ≠ c) : (s.onCore c f).core j = s.core j :=
  State.core_setCore_other s c j _ h
@[simp] theorem State.ctx_onCtx_same (s : State) (c : Nat) (f : Ctx → Ctx) : (s.onCtx c f).ctx c = f (s.ctx c) :=
  State.ctx_setCtx_same s c _
theorem State.ctx_onCtx_other (s : State) (c j : Nat) (f : Ctx → Ctx) (h : j ≠ c) : (s.onCtx c f).ctx j = s.ctx j :=
  State.ctx_setCtx_other s c j _ h
@[simp] theorem State.die_onDie_same (s : State) (d : Nat) (f : Die → Die) : (s.onDie d f).die d = f (s.die d) :=
  State.die_setDie_same s d _
@[simp] theorem State.quad_onQuad_same (s : State) (q : Nat) (f : Quad → Quad) : (s.onQuad q f).quad q = f (s.quad q) :=
  State.quad_setQuad_same s q _
@[simp] theorem State.queue_onQueue_same (s : State) (q : Nat) (f : Queue → Queue) : (s.onQueue q f).queue q = f (s.queue q) :=
  State.queue_setQueue_same s q _

/-! ## Updates of a core -/

@[simp] theorem Core.setVreg_task (x : Core) (r : Nat) (v : VRegVal) : (x.setVreg r v).task = x.task := rfl
@[simp] theorem Core.setVreg_as (x : Core) (r : Nat) (v : VRegVal) : (x.setVreg r v).as = x.as := rfl
@[simp] theorem Core.setVreg_xs (x : Core) (r : Nat) (v : VRegVal) : (x.setVreg r v).xs = x.xs := rfl
@[simp] theorem Core.setVreg_carvew (x : Core) (r : Nat) (v : VRegVal) : (x.setVreg r v).carvew = x.carvew := rfl
@[simp] theorem Core.setVreg_cflags (x : Core) (r : Nat) (v : VRegVal) : (x.setVreg r v).cflags = x.cflags := rfl
@[simp] theorem Core.setVreg_tmq (x : Core) (r : Nat) (v : VRegVal) : (x.setVreg r v).tmq = x.tmq := rfl
@[simp] theorem Core.setVreg_mregs (x : Core) (r : Nat) (v : VRegVal) : (x.setVreg r v).mregs = x.mregs := rfl
@[simp] theorem Core.setVreg_sregs (x : Core) (r : Nat) (v : VRegVal) : (x.setVreg r v).sregs = x.sregs := rfl
@[simp] theorem Core.setVreg_ttab (x : Core) (r : Nat) (v : VRegVal) : (x.setVreg r v).ttab = x.ttab := rfl
@[simp] theorem Core.setVreg_tms (x : Core) (r : Nat) (v : VRegVal) : (x.setVreg r v).tms = x.tms := rfl
@[simp] theorem Core.setVreg_tmTabs (x : Core) (r : Nat) (v : VRegVal) : (x.setVreg r v).tmTabs = x.tmTabs := rfl
@[simp] theorem Core.setVreg_stream (x : Core) (r : Nat) (v : VRegVal) : (x.setVreg r v).stream = x.stream := rfl
@[simp] theorem Core.setVreg_scratch (x : Core) (r : Nat) (v : VRegVal) : (x.setVreg r v).scratch = x.scratch := rfl
@[simp] theorem Core.setVreg_scFull (x : Core) (r : Nat) (v : VRegVal) : (x.setVreg r v).scFull = x.scFull := rfl
@[simp] theorem Core.setVreg_scPois (x : Core) (r : Nat) (v : VRegVal) : (x.setVreg r v).scPois = x.scPois := rfl
@[simp] theorem Core.setVreg_l1 (x : Core) (r : Nat) (v : VRegVal) : (x.setVreg r v).l1 = x.l1 := rfl
@[simp] theorem Core.setVreg_notices (x : Core) (r : Nat) (v : VRegVal) : (x.setVreg r v).notices = x.notices := rfl
@[simp] theorem Core.setVreg_noticeOver (x : Core) (r : Nat) (v : VRegVal) : (x.setVreg r v).noticeOver = x.noticeOver := rfl
@[simp] theorem Core.setVreg_wide (x : Core) (r : Nat) (v : VRegVal) : (x.setVreg r v).wide = x.wide := rfl
@[simp] theorem Core.setVreg_lq (x : Core) (r : Nat) (v : VRegVal) : (x.setVreg r v).lq = x.lq := rfl
@[simp] theorem Core.setVreg_ve (x : Core) (r : Nat) (v : VRegVal) : (x.setVreg r v).ve = x.ve := rfl
@[simp] theorem Core.setVreg_sq (x : Core) (r : Nat) (v : VRegVal) : (x.setVreg r v).sq = x.sq := rfl
@[simp] theorem Core.setVreg_lp (x : Core) (r : Nat) (v : VRegVal) : (x.setVreg r v).lp = x.lp := rfl
@[simp] theorem Core.setVreg_wq (x : Core) (r : Nat) (v : VRegVal) : (x.setVreg r v).wq = x.wq := rfl
@[simp] theorem Core.setVreg_cq (x : Core) (r : Nat) (v : VRegVal) : (x.setVreg r v).cq = x.cq := rfl
@[simp] theorem Core.setVreg_fifos (x : Core) (r : Nat) (v : VRegVal) : (x.setVreg r v).fifos = x.fifos := rfl
@[simp] theorem Core.setVreg_bars (x : Core) (r : Nat) (v : VRegVal) : (x.setVreg r v).bars = x.bars := rfl
@[simp] theorem Core.setVreg_bundles (x : Core) (r : Nat) (v : VRegVal) : (x.setVreg r v).bundles = x.bundles := rfl
@[simp] theorem Core.setVreg_nextBundle (x : Core) (r : Nat) (v : VRegVal) : (x.setVreg r v).nextBundle = x.nextBundle := rfl
@[simp] theorem Core.setVreg_tickets (x : Core) (r : Nat) (v : VRegVal) : (x.setVreg r v).tickets = x.tickets := rfl
@[simp] theorem Core.setVreg_nrOut (x : Core) (r : Nat) (v : VRegVal) : (x.setVreg r v).nrOut = x.nrOut := rfl
@[simp] theorem Core.setVreg_nrFail (x : Core) (r : Nat) (v : VRegVal) : (x.setVreg r v).nrFail = x.nrFail := rfl
@[simp] theorem Core.setVreg_remoteOut (x : Core) (r : Nat) (v : VRegVal) : (x.setVreg r v).remoteOut = x.remoteOut := rfl
@[simp] theorem Core.setVreg_lastCtx (x : Core) (r : Nat) (v : VRegVal) : (x.setVreg r v).lastCtx = x.lastCtx := rfl
@[simp] theorem Core.setVreg_coreTlb (x : Core) (r : Nat) (v : VRegVal) : (x.setVreg r v).coreTlb = x.coreTlb := rfl
@[simp] theorem Core.setVreg_race (x : Core) (r : Nat) (v : VRegVal) : (x.setVreg r v).race = x.race := rfl

@[simp] theorem Core.setMreg_task (x : Core) (r : Nat) (v : BitVec 1024) : (x.setMreg r v).task = x.task := rfl
@[simp] theorem Core.setMreg_as (x : Core) (r : Nat) (v : BitVec 1024) : (x.setMreg r v).as = x.as := rfl
@[simp] theorem Core.setMreg_xs (x : Core) (r : Nat) (v : BitVec 1024) : (x.setMreg r v).xs = x.xs := rfl
@[simp] theorem Core.setMreg_carvew (x : Core) (r : Nat) (v : BitVec 1024) : (x.setMreg r v).carvew = x.carvew := rfl
@[simp] theorem Core.setMreg_cflags (x : Core) (r : Nat) (v : BitVec 1024) : (x.setMreg r v).cflags = x.cflags := rfl
@[simp] theorem Core.setMreg_tmq (x : Core) (r : Nat) (v : BitVec 1024) : (x.setMreg r v).tmq = x.tmq := rfl
@[simp] theorem Core.setMreg_vregs (x : Core) (r : Nat) (v : BitVec 1024) : (x.setMreg r v).vregs = x.vregs := rfl
@[simp] theorem Core.setMreg_sregs (x : Core) (r : Nat) (v : BitVec 1024) : (x.setMreg r v).sregs = x.sregs := rfl
@[simp] theorem Core.setMreg_ttab (x : Core) (r : Nat) (v : BitVec 1024) : (x.setMreg r v).ttab = x.ttab := rfl
@[simp] theorem Core.setMreg_tms (x : Core) (r : Nat) (v : BitVec 1024) : (x.setMreg r v).tms = x.tms := rfl
@[simp] theorem Core.setMreg_tmTabs (x : Core) (r : Nat) (v : BitVec 1024) : (x.setMreg r v).tmTabs = x.tmTabs := rfl
@[simp] theorem Core.setMreg_stream (x : Core) (r : Nat) (v : BitVec 1024) : (x.setMreg r v).stream = x.stream := rfl
@[simp] theorem Core.setMreg_scratch (x : Core) (r : Nat) (v : BitVec 1024) : (x.setMreg r v).scratch = x.scratch := rfl
@[simp] theorem Core.setMreg_scFull (x : Core) (r : Nat) (v : BitVec 1024) : (x.setMreg r v).scFull = x.scFull := rfl
@[simp] theorem Core.setMreg_scPois (x : Core) (r : Nat) (v : BitVec 1024) : (x.setMreg r v).scPois = x.scPois := rfl
@[simp] theorem Core.setMreg_l1 (x : Core) (r : Nat) (v : BitVec 1024) : (x.setMreg r v).l1 = x.l1 := rfl
@[simp] theorem Core.setMreg_notices (x : Core) (r : Nat) (v : BitVec 1024) : (x.setMreg r v).notices = x.notices := rfl
@[simp] theorem Core.setMreg_noticeOver (x : Core) (r : Nat) (v : BitVec 1024) : (x.setMreg r v).noticeOver = x.noticeOver := rfl
@[simp] theorem Core.setMreg_wide (x : Core) (r : Nat) (v : BitVec 1024) : (x.setMreg r v).wide = x.wide := rfl
@[simp] theorem Core.setMreg_lq (x : Core) (r : Nat) (v : BitVec 1024) : (x.setMreg r v).lq = x.lq := rfl
@[simp] theorem Core.setMreg_ve (x : Core) (r : Nat) (v : BitVec 1024) : (x.setMreg r v).ve = x.ve := rfl
@[simp] theorem Core.setMreg_sq (x : Core) (r : Nat) (v : BitVec 1024) : (x.setMreg r v).sq = x.sq := rfl
@[simp] theorem Core.setMreg_lp (x : Core) (r : Nat) (v : BitVec 1024) : (x.setMreg r v).lp = x.lp := rfl
@[simp] theorem Core.setMreg_wq (x : Core) (r : Nat) (v : BitVec 1024) : (x.setMreg r v).wq = x.wq := rfl
@[simp] theorem Core.setMreg_cq (x : Core) (r : Nat) (v : BitVec 1024) : (x.setMreg r v).cq = x.cq := rfl
@[simp] theorem Core.setMreg_fifos (x : Core) (r : Nat) (v : BitVec 1024) : (x.setMreg r v).fifos = x.fifos := rfl
@[simp] theorem Core.setMreg_bars (x : Core) (r : Nat) (v : BitVec 1024) : (x.setMreg r v).bars = x.bars := rfl
@[simp] theorem Core.setMreg_bundles (x : Core) (r : Nat) (v : BitVec 1024) : (x.setMreg r v).bundles = x.bundles := rfl
@[simp] theorem Core.setMreg_nextBundle (x : Core) (r : Nat) (v : BitVec 1024) : (x.setMreg r v).nextBundle = x.nextBundle := rfl
@[simp] theorem Core.setMreg_tickets (x : Core) (r : Nat) (v : BitVec 1024) : (x.setMreg r v).tickets = x.tickets := rfl
@[simp] theorem Core.setMreg_nrOut (x : Core) (r : Nat) (v : BitVec 1024) : (x.setMreg r v).nrOut = x.nrOut := rfl
@[simp] theorem Core.setMreg_nrFail (x : Core) (r : Nat) (v : BitVec 1024) : (x.setMreg r v).nrFail = x.nrFail := rfl
@[simp] theorem Core.setMreg_remoteOut (x : Core) (r : Nat) (v : BitVec 1024) : (x.setMreg r v).remoteOut = x.remoteOut := rfl
@[simp] theorem Core.setMreg_lastCtx (x : Core) (r : Nat) (v : BitVec 1024) : (x.setMreg r v).lastCtx = x.lastCtx := rfl
@[simp] theorem Core.setMreg_coreTlb (x : Core) (r : Nat) (v : BitVec 1024) : (x.setMreg r v).coreTlb = x.coreTlb := rfl
@[simp] theorem Core.setMreg_race (x : Core) (r : Nat) (v : BitVec 1024) : (x.setMreg r v).race = x.race := rfl

@[simp] theorem Core.setSreg_task (x : Core) (r : Nat) (v : BitVec 512) : (x.setSreg r v).task = x.task := rfl
@[simp] theorem Core.setSreg_as (x : Core) (r : Nat) (v : BitVec 512) : (x.setSreg r v).as = x.as := rfl
@[simp] theorem Core.setSreg_xs (x : Core) (r : Nat) (v : BitVec 512) : (x.setSreg r v).xs = x.xs := rfl
@[simp] theorem Core.setSreg_carvew (x : Core) (r : Nat) (v : BitVec 512) : (x.setSreg r v).carvew = x.carvew := rfl
@[simp] theorem Core.setSreg_cflags (x : Core) (r : Nat) (v : BitVec 512) : (x.setSreg r v).cflags = x.cflags := rfl
@[simp] theorem Core.setSreg_tmq (x : Core) (r : Nat) (v : BitVec 512) : (x.setSreg r v).tmq = x.tmq := rfl
@[simp] theorem Core.setSreg_vregs (x : Core) (r : Nat) (v : BitVec 512) : (x.setSreg r v).vregs = x.vregs := rfl
@[simp] theorem Core.setSreg_mregs (x : Core) (r : Nat) (v : BitVec 512) : (x.setSreg r v).mregs = x.mregs := rfl
@[simp] theorem Core.setSreg_ttab (x : Core) (r : Nat) (v : BitVec 512) : (x.setSreg r v).ttab = x.ttab := rfl
@[simp] theorem Core.setSreg_tms (x : Core) (r : Nat) (v : BitVec 512) : (x.setSreg r v).tms = x.tms := rfl
@[simp] theorem Core.setSreg_tmTabs (x : Core) (r : Nat) (v : BitVec 512) : (x.setSreg r v).tmTabs = x.tmTabs := rfl
@[simp] theorem Core.setSreg_stream (x : Core) (r : Nat) (v : BitVec 512) : (x.setSreg r v).stream = x.stream := rfl
@[simp] theorem Core.setSreg_scratch (x : Core) (r : Nat) (v : BitVec 512) : (x.setSreg r v).scratch = x.scratch := rfl
@[simp] theorem Core.setSreg_scFull (x : Core) (r : Nat) (v : BitVec 512) : (x.setSreg r v).scFull = x.scFull := rfl
@[simp] theorem Core.setSreg_scPois (x : Core) (r : Nat) (v : BitVec 512) : (x.setSreg r v).scPois = x.scPois := rfl
@[simp] theorem Core.setSreg_l1 (x : Core) (r : Nat) (v : BitVec 512) : (x.setSreg r v).l1 = x.l1 := rfl
@[simp] theorem Core.setSreg_notices (x : Core) (r : Nat) (v : BitVec 512) : (x.setSreg r v).notices = x.notices := rfl
@[simp] theorem Core.setSreg_noticeOver (x : Core) (r : Nat) (v : BitVec 512) : (x.setSreg r v).noticeOver = x.noticeOver := rfl
@[simp] theorem Core.setSreg_wide (x : Core) (r : Nat) (v : BitVec 512) : (x.setSreg r v).wide = x.wide := rfl
@[simp] theorem Core.setSreg_lq (x : Core) (r : Nat) (v : BitVec 512) : (x.setSreg r v).lq = x.lq := rfl
@[simp] theorem Core.setSreg_ve (x : Core) (r : Nat) (v : BitVec 512) : (x.setSreg r v).ve = x.ve := rfl
@[simp] theorem Core.setSreg_sq (x : Core) (r : Nat) (v : BitVec 512) : (x.setSreg r v).sq = x.sq := rfl
@[simp] theorem Core.setSreg_lp (x : Core) (r : Nat) (v : BitVec 512) : (x.setSreg r v).lp = x.lp := rfl
@[simp] theorem Core.setSreg_wq (x : Core) (r : Nat) (v : BitVec 512) : (x.setSreg r v).wq = x.wq := rfl
@[simp] theorem Core.setSreg_cq (x : Core) (r : Nat) (v : BitVec 512) : (x.setSreg r v).cq = x.cq := rfl
@[simp] theorem Core.setSreg_fifos (x : Core) (r : Nat) (v : BitVec 512) : (x.setSreg r v).fifos = x.fifos := rfl
@[simp] theorem Core.setSreg_bars (x : Core) (r : Nat) (v : BitVec 512) : (x.setSreg r v).bars = x.bars := rfl
@[simp] theorem Core.setSreg_bundles (x : Core) (r : Nat) (v : BitVec 512) : (x.setSreg r v).bundles = x.bundles := rfl
@[simp] theorem Core.setSreg_nextBundle (x : Core) (r : Nat) (v : BitVec 512) : (x.setSreg r v).nextBundle = x.nextBundle := rfl
@[simp] theorem Core.setSreg_tickets (x : Core) (r : Nat) (v : BitVec 512) : (x.setSreg r v).tickets = x.tickets := rfl
@[simp] theorem Core.setSreg_nrOut (x : Core) (r : Nat) (v : BitVec 512) : (x.setSreg r v).nrOut = x.nrOut := rfl
@[simp] theorem Core.setSreg_nrFail (x : Core) (r : Nat) (v : BitVec 512) : (x.setSreg r v).nrFail = x.nrFail := rfl
@[simp] theorem Core.setSreg_remoteOut (x : Core) (r : Nat) (v : BitVec 512) : (x.setSreg r v).remoteOut = x.remoteOut := rfl
@[simp] theorem Core.setSreg_lastCtx (x : Core) (r : Nat) (v : BitVec 512) : (x.setSreg r v).lastCtx = x.lastCtx := rfl
@[simp] theorem Core.setSreg_coreTlb (x : Core) (r : Nat) (v : BitVec 512) : (x.setSreg r v).coreTlb = x.coreTlb := rfl
@[simp] theorem Core.setSreg_race (x : Core) (r : Nat) (v : BitVec 512) : (x.setSreg r v).race = x.race := rfl

@[simp] theorem Core.setBar_task (x : Core) (b : Nat) (v : Bar) : (x.setBar b v).task = x.task := rfl
@[simp] theorem Core.setBar_as (x : Core) (b : Nat) (v : Bar) : (x.setBar b v).as = x.as := rfl
@[simp] theorem Core.setBar_xs (x : Core) (b : Nat) (v : Bar) : (x.setBar b v).xs = x.xs := rfl
@[simp] theorem Core.setBar_carvew (x : Core) (b : Nat) (v : Bar) : (x.setBar b v).carvew = x.carvew := rfl
@[simp] theorem Core.setBar_cflags (x : Core) (b : Nat) (v : Bar) : (x.setBar b v).cflags = x.cflags := rfl
@[simp] theorem Core.setBar_tmq (x : Core) (b : Nat) (v : Bar) : (x.setBar b v).tmq = x.tmq := rfl
@[simp] theorem Core.setBar_vregs (x : Core) (b : Nat) (v : Bar) : (x.setBar b v).vregs = x.vregs := rfl
@[simp] theorem Core.setBar_mregs (x : Core) (b : Nat) (v : Bar) : (x.setBar b v).mregs = x.mregs := rfl
@[simp] theorem Core.setBar_sregs (x : Core) (b : Nat) (v : Bar) : (x.setBar b v).sregs = x.sregs := rfl
@[simp] theorem Core.setBar_ttab (x : Core) (b : Nat) (v : Bar) : (x.setBar b v).ttab = x.ttab := rfl
@[simp] theorem Core.setBar_tms (x : Core) (b : Nat) (v : Bar) : (x.setBar b v).tms = x.tms := rfl
@[simp] theorem Core.setBar_tmTabs (x : Core) (b : Nat) (v : Bar) : (x.setBar b v).tmTabs = x.tmTabs := rfl
@[simp] theorem Core.setBar_stream (x : Core) (b : Nat) (v : Bar) : (x.setBar b v).stream = x.stream := rfl
@[simp] theorem Core.setBar_scratch (x : Core) (b : Nat) (v : Bar) : (x.setBar b v).scratch = x.scratch := rfl
@[simp] theorem Core.setBar_scFull (x : Core) (b : Nat) (v : Bar) : (x.setBar b v).scFull = x.scFull := rfl
@[simp] theorem Core.setBar_scPois (x : Core) (b : Nat) (v : Bar) : (x.setBar b v).scPois = x.scPois := rfl
@[simp] theorem Core.setBar_l1 (x : Core) (b : Nat) (v : Bar) : (x.setBar b v).l1 = x.l1 := rfl
@[simp] theorem Core.setBar_notices (x : Core) (b : Nat) (v : Bar) : (x.setBar b v).notices = x.notices := rfl
@[simp] theorem Core.setBar_noticeOver (x : Core) (b : Nat) (v : Bar) : (x.setBar b v).noticeOver = x.noticeOver := rfl
@[simp] theorem Core.setBar_wide (x : Core) (b : Nat) (v : Bar) : (x.setBar b v).wide = x.wide := rfl
@[simp] theorem Core.setBar_lq (x : Core) (b : Nat) (v : Bar) : (x.setBar b v).lq = x.lq := rfl
@[simp] theorem Core.setBar_ve (x : Core) (b : Nat) (v : Bar) : (x.setBar b v).ve = x.ve := rfl
@[simp] theorem Core.setBar_sq (x : Core) (b : Nat) (v : Bar) : (x.setBar b v).sq = x.sq := rfl
@[simp] theorem Core.setBar_lp (x : Core) (b : Nat) (v : Bar) : (x.setBar b v).lp = x.lp := rfl
@[simp] theorem Core.setBar_wq (x : Core) (b : Nat) (v : Bar) : (x.setBar b v).wq = x.wq := rfl
@[simp] theorem Core.setBar_cq (x : Core) (b : Nat) (v : Bar) : (x.setBar b v).cq = x.cq := rfl
@[simp] theorem Core.setBar_fifos (x : Core) (b : Nat) (v : Bar) : (x.setBar b v).fifos = x.fifos := rfl
@[simp] theorem Core.setBar_bundles (x : Core) (b : Nat) (v : Bar) : (x.setBar b v).bundles = x.bundles := rfl
@[simp] theorem Core.setBar_nextBundle (x : Core) (b : Nat) (v : Bar) : (x.setBar b v).nextBundle = x.nextBundle := rfl
@[simp] theorem Core.setBar_tickets (x : Core) (b : Nat) (v : Bar) : (x.setBar b v).tickets = x.tickets := rfl
@[simp] theorem Core.setBar_nrOut (x : Core) (b : Nat) (v : Bar) : (x.setBar b v).nrOut = x.nrOut := rfl
@[simp] theorem Core.setBar_nrFail (x : Core) (b : Nat) (v : Bar) : (x.setBar b v).nrFail = x.nrFail := rfl
@[simp] theorem Core.setBar_remoteOut (x : Core) (b : Nat) (v : Bar) : (x.setBar b v).remoteOut = x.remoteOut := rfl
@[simp] theorem Core.setBar_lastCtx (x : Core) (b : Nat) (v : Bar) : (x.setBar b v).lastCtx = x.lastCtx := rfl
@[simp] theorem Core.setBar_coreTlb (x : Core) (b : Nat) (v : Bar) : (x.setBar b v).coreTlb = x.coreTlb := rfl
@[simp] theorem Core.setBar_race (x : Core) (b : Nat) (v : Bar) : (x.setBar b v).race = x.race := rfl

@[simp] theorem Core.vreg_setVreg_same (x : Core) (r : Nat) (v : VRegVal) : (x.setVreg r v).vreg r = v := sget_sset_same _ _ _ _
theorem Core.vreg_setVreg_other (x : Core) (r j : Nat) (v : VRegVal) (h : j ≠ r) : (x.setVreg r v).vreg j = x.vreg j :=
  sget_sset_other _ _ _ _ _ _ h
@[simp] theorem Core.mreg_setMreg_same (x : Core) (r : Nat) (v : BitVec 1024) : (x.setMreg r v).mreg r = v := sget_sset_same _ _ _ _
@[simp] theorem Core.sreg_setSreg_same (x : Core) (r : Nat) (v : BitVec 512) : (x.setSreg r v).sreg r = v := sget_sset_same _ _ _ _
@[simp] theorem Core.bar_setBar_same (x : Core) (b : Nat) (v : Bar) : (x.setBar b v).bar b = v := sget_sset_same _ _ _ _

@[simp] theorem Core.seqr_setSeqr_same (x : Core) (k : Bool) (q : Seqr) : (x.setSeqr k q).seqr k = q := by cases k <;> rfl
@[simp] theorem Core.seqr_setSeqr_other (x : Core) (k : Bool) (q : Seqr) : (x.setSeqr k q).seqr (!k) = x.seqr (!k) := by cases k <;> rfl
@[simp] theorem Core.setSeqr_task (x : Core) (k : Bool) (q : Seqr) : (x.setSeqr k q).task = x.task := by cases k <;> rfl
@[simp] theorem Core.setSeqr_carvew (x : Core) (k : Bool) (q : Seqr) : (x.setSeqr k q).carvew = x.carvew := by cases k <;> rfl
@[simp] theorem Core.setSeqr_cflags (x : Core) (k : Bool) (q : Seqr) : (x.setSeqr k q).cflags = x.cflags := by cases k <;> rfl
@[simp] theorem Core.setSeqr_tmq (x : Core) (k : Bool) (q : Seqr) : (x.setSeqr k q).tmq = x.tmq := by cases k <;> rfl
@[simp] theorem Core.setSeqr_vregs (x : Core) (k : Bool) (q : Seqr) : (x.setSeqr k q).vregs = x.vregs := by cases k <;> rfl
@[simp] theorem Core.setSeqr_mregs (x : Core) (k : Bool) (q : Seqr) : (x.setSeqr k q).mregs = x.mregs := by cases k <;> rfl
@[simp] theorem Core.setSeqr_sregs (x : Core) (k : Bool) (q : Seqr) : (x.setSeqr k q).sregs = x.sregs := by cases k <;> rfl
@[simp] theorem Core.setSeqr_ttab (x : Core) (k : Bool) (q : Seqr) : (x.setSeqr k q).ttab = x.ttab := by cases k <;> rfl
@[simp] theorem Core.setSeqr_tms (x : Core) (k : Bool) (q : Seqr) : (x.setSeqr k q).tms = x.tms := by cases k <;> rfl
@[simp] theorem Core.setSeqr_tmTabs (x : Core) (k : Bool) (q : Seqr) : (x.setSeqr k q).tmTabs = x.tmTabs := by cases k <;> rfl
@[simp] theorem Core.setSeqr_stream (x : Core) (k : Bool) (q : Seqr) : (x.setSeqr k q).stream = x.stream := by cases k <;> rfl
@[simp] theorem Core.setSeqr_scratch (x : Core) (k : Bool) (q : Seqr) : (x.setSeqr k q).scratch = x.scratch := by cases k <;> rfl
@[simp] theorem Core.setSeqr_scFull (x : Core) (k : Bool) (q : Seqr) : (x.setSeqr k q).scFull = x.scFull := by cases k <;> rfl
@[simp] theorem Core.setSeqr_scPois (x : Core) (k : Bool) (q : Seqr) : (x.setSeqr k q).scPois = x.scPois := by cases k <;> rfl
@[simp] theorem Core.setSeqr_l1 (x : Core) (k : Bool) (q : Seqr) : (x.setSeqr k q).l1 = x.l1 := by cases k <;> rfl
@[simp] theorem Core.setSeqr_notices (x : Core) (k : Bool) (q : Seqr) : (x.setSeqr k q).notices = x.notices := by cases k <;> rfl
@[simp] theorem Core.setSeqr_noticeOver (x : Core) (k : Bool) (q : Seqr) : (x.setSeqr k q).noticeOver = x.noticeOver := by cases k <;> rfl
@[simp] theorem Core.setSeqr_wide (x : Core) (k : Bool) (q : Seqr) : (x.setSeqr k q).wide = x.wide := by cases k <;> rfl
@[simp] theorem Core.setSeqr_lq (x : Core) (k : Bool) (q : Seqr) : (x.setSeqr k q).lq = x.lq := by cases k <;> rfl
@[simp] theorem Core.setSeqr_ve (x : Core) (k : Bool) (q : Seqr) : (x.setSeqr k q).ve = x.ve := by cases k <;> rfl
@[simp] theorem Core.setSeqr_sq (x : Core) (k : Bool) (q : Seqr) : (x.setSeqr k q).sq = x.sq := by cases k <;> rfl
@[simp] theorem Core.setSeqr_lp (x : Core) (k : Bool) (q : Seqr) : (x.setSeqr k q).lp = x.lp := by cases k <;> rfl
@[simp] theorem Core.setSeqr_wq (x : Core) (k : Bool) (q : Seqr) : (x.setSeqr k q).wq = x.wq := by cases k <;> rfl
@[simp] theorem Core.setSeqr_cq (x : Core) (k : Bool) (q : Seqr) : (x.setSeqr k q).cq = x.cq := by cases k <;> rfl
@[simp] theorem Core.setSeqr_fifos (x : Core) (k : Bool) (q : Seqr) : (x.setSeqr k q).fifos = x.fifos := by cases k <;> rfl
@[simp] theorem Core.setSeqr_bars (x : Core) (k : Bool) (q : Seqr) : (x.setSeqr k q).bars = x.bars := by cases k <;> rfl
@[simp] theorem Core.setSeqr_bundles (x : Core) (k : Bool) (q : Seqr) : (x.setSeqr k q).bundles = x.bundles := by cases k <;> rfl
@[simp] theorem Core.setSeqr_nextBundle (x : Core) (k : Bool) (q : Seqr) : (x.setSeqr k q).nextBundle = x.nextBundle := by cases k <;> rfl
@[simp] theorem Core.setSeqr_tickets (x : Core) (k : Bool) (q : Seqr) : (x.setSeqr k q).tickets = x.tickets := by cases k <;> rfl
@[simp] theorem Core.setSeqr_nrOut (x : Core) (k : Bool) (q : Seqr) : (x.setSeqr k q).nrOut = x.nrOut := by cases k <;> rfl
@[simp] theorem Core.setSeqr_nrFail (x : Core) (k : Bool) (q : Seqr) : (x.setSeqr k q).nrFail = x.nrFail := by cases k <;> rfl
@[simp] theorem Core.setSeqr_remoteOut (x : Core) (k : Bool) (q : Seqr) : (x.setSeqr k q).remoteOut = x.remoteOut := by cases k <;> rfl
@[simp] theorem Core.setSeqr_lastCtx (x : Core) (k : Bool) (q : Seqr) : (x.setSeqr k q).lastCtx = x.lastCtx := by cases k <;> rfl
@[simp] theorem Core.setSeqr_coreTlb (x : Core) (k : Bool) (q : Seqr) : (x.setSeqr k q).coreTlb = x.coreTlb := by cases k <;> rfl
@[simp] theorem Core.setSeqr_race (x : Core) (k : Bool) (q : Seqr) : (x.setSeqr k q).race = x.race := by cases k <;> rfl

@[simp] theorem Core.eq_setEq_same (x : Core) (e : Eng) (q : EQueue) : (x.setEq e q).eq e = q := by cases e <;> rfl
theorem Core.eq_setEq_other (x : Core) (e d : Eng) (q : EQueue) (h : d ≠ e) : (x.setEq e q).eq d = x.eq d := by
  cases e <;> cases d <;> first | rfl | exact absurd rfl h
@[simp] theorem Core.setEq_task (x : Core) (e : Eng) (q : EQueue) : (x.setEq e q).task = x.task := by cases e <;> rfl
@[simp] theorem Core.setEq_as (x : Core) (e : Eng) (q : EQueue) : (x.setEq e q).as = x.as := by cases e <;> rfl
@[simp] theorem Core.setEq_xs (x : Core) (e : Eng) (q : EQueue) : (x.setEq e q).xs = x.xs := by cases e <;> rfl
@[simp] theorem Core.setEq_carvew (x : Core) (e : Eng) (q : EQueue) : (x.setEq e q).carvew = x.carvew := by cases e <;> rfl
@[simp] theorem Core.setEq_cflags (x : Core) (e : Eng) (q : EQueue) : (x.setEq e q).cflags = x.cflags := by cases e <;> rfl
@[simp] theorem Core.setEq_tmq (x : Core) (e : Eng) (q : EQueue) : (x.setEq e q).tmq = x.tmq := by cases e <;> rfl
@[simp] theorem Core.setEq_vregs (x : Core) (e : Eng) (q : EQueue) : (x.setEq e q).vregs = x.vregs := by cases e <;> rfl
@[simp] theorem Core.setEq_mregs (x : Core) (e : Eng) (q : EQueue) : (x.setEq e q).mregs = x.mregs := by cases e <;> rfl
@[simp] theorem Core.setEq_sregs (x : Core) (e : Eng) (q : EQueue) : (x.setEq e q).sregs = x.sregs := by cases e <;> rfl
@[simp] theorem Core.setEq_ttab (x : Core) (e : Eng) (q : EQueue) : (x.setEq e q).ttab = x.ttab := by cases e <;> rfl
@[simp] theorem Core.setEq_tms (x : Core) (e : Eng) (q : EQueue) : (x.setEq e q).tms = x.tms := by cases e <;> rfl
@[simp] theorem Core.setEq_tmTabs (x : Core) (e : Eng) (q : EQueue) : (x.setEq e q).tmTabs = x.tmTabs := by cases e <;> rfl
@[simp] theorem Core.setEq_stream (x : Core) (e : Eng) (q : EQueue) : (x.setEq e q).stream = x.stream := by cases e <;> rfl
@[simp] theorem Core.setEq_scratch (x : Core) (e : Eng) (q : EQueue) : (x.setEq e q).scratch = x.scratch := by cases e <;> rfl
@[simp] theorem Core.setEq_scFull (x : Core) (e : Eng) (q : EQueue) : (x.setEq e q).scFull = x.scFull := by cases e <;> rfl
@[simp] theorem Core.setEq_scPois (x : Core) (e : Eng) (q : EQueue) : (x.setEq e q).scPois = x.scPois := by cases e <;> rfl
@[simp] theorem Core.setEq_l1 (x : Core) (e : Eng) (q : EQueue) : (x.setEq e q).l1 = x.l1 := by cases e <;> rfl
@[simp] theorem Core.setEq_notices (x : Core) (e : Eng) (q : EQueue) : (x.setEq e q).notices = x.notices := by cases e <;> rfl
@[simp] theorem Core.setEq_noticeOver (x : Core) (e : Eng) (q : EQueue) : (x.setEq e q).noticeOver = x.noticeOver := by cases e <;> rfl
@[simp] theorem Core.setEq_wide (x : Core) (e : Eng) (q : EQueue) : (x.setEq e q).wide = x.wide := by cases e <;> rfl
@[simp] theorem Core.setEq_fifos (x : Core) (e : Eng) (q : EQueue) : (x.setEq e q).fifos = x.fifos := by cases e <;> rfl
@[simp] theorem Core.setEq_bars (x : Core) (e : Eng) (q : EQueue) : (x.setEq e q).bars = x.bars := by cases e <;> rfl
@[simp] theorem Core.setEq_bundles (x : Core) (e : Eng) (q : EQueue) : (x.setEq e q).bundles = x.bundles := by cases e <;> rfl
@[simp] theorem Core.setEq_nextBundle (x : Core) (e : Eng) (q : EQueue) : (x.setEq e q).nextBundle = x.nextBundle := by cases e <;> rfl
@[simp] theorem Core.setEq_tickets (x : Core) (e : Eng) (q : EQueue) : (x.setEq e q).tickets = x.tickets := by cases e <;> rfl
@[simp] theorem Core.setEq_nrOut (x : Core) (e : Eng) (q : EQueue) : (x.setEq e q).nrOut = x.nrOut := by cases e <;> rfl
@[simp] theorem Core.setEq_nrFail (x : Core) (e : Eng) (q : EQueue) : (x.setEq e q).nrFail = x.nrFail := by cases e <;> rfl
@[simp] theorem Core.setEq_remoteOut (x : Core) (e : Eng) (q : EQueue) : (x.setEq e q).remoteOut = x.remoteOut := by cases e <;> rfl
@[simp] theorem Core.setEq_lastCtx (x : Core) (e : Eng) (q : EQueue) : (x.setEq e q).lastCtx = x.lastCtx := by cases e <;> rfl
@[simp] theorem Core.setEq_coreTlb (x : Core) (e : Eng) (q : EQueue) : (x.setEq e q).coreTlb = x.coreTlb := by cases e <;> rfl
@[simp] theorem Core.setEq_race (x : Core) (e : Eng) (q : EQueue) : (x.setEq e q).race = x.race := by cases e <;> rfl

/-! ## Updates of a sequencer -/

@[simp] theorem State.seqr_setSeqr_same (s : State) (q : SeqId) (v : Seqr) : (s.setSeqr q v).seqr q = v := by
  simp [State.seqr, State.setSeqr]
@[simp] theorem State.seqr_onSeqr_same (s : State) (q : SeqId) (f : Seqr → Seqr) : (s.onSeqr q f).seqr q = f (s.seqr q) :=
  State.seqr_setSeqr_same s q _

@[simp] theorem Seqr.advance_regs (x : Seqr) : (x.advance).regs = x.regs := rfl
@[simp] theorem Seqr.advance_pcLine (x : Seqr) : (x.advance).pcLine = x.pcLine := rfl
@[simp] theorem Seqr.advance_entry (x : Seqr) : (x.advance).entry = x.entry := rfl
@[simp] theorem Seqr.advance_line (x : Seqr) : (x.advance).line = x.line := rfl
@[simp] theorem Seqr.advance_ibuf (x : Seqr) : (x.advance).ibuf = x.ibuf := rfl
@[simp] theorem Seqr.advance_fetchTlb (x : Seqr) : (x.advance).fetchTlb = x.fetchTlb := rfl
@[simp] theorem Seqr.advance_status (x : Seqr) : (x.advance).status = x.status := rfl
@[simp] theorem Seqr.advance_handler (x : Seqr) : (x.advance).handler = x.handler := rfl
@[simp] theorem Seqr.advance_tvec (x : Seqr) : (x.advance).tvec = x.tvec := rfl
@[simp] theorem Seqr.advance_tepc (x : Seqr) : (x.advance).tepc = x.tepc := rfl
@[simp] theorem Seqr.advance_frec (x : Seqr) : (x.advance).frec = x.frec := rfl
@[simp] theorem Seqr.advance_outq (x : Seqr) : (x.advance).outq = x.outq := rfl
@[simp] theorem Seqr.advance_pend (x : Seqr) : (x.advance).pend = x.pend := rfl
@[simp] theorem Seqr.advance_waitSince (x : Seqr) : (x.advance).waitSince = x.waitSince := rfl
@[simp] theorem Seqr.advance_waitArg (x : Seqr) : (x.advance).waitArg = x.waitArg := rfl
@[simp] theorem Seqr.advance_asyncRecs (x : Seqr) : (x.advance).asyncRecs = x.asyncRecs := rfl
@[simp] theorem Seqr.advance_lastBundle (x : Seqr) : (x.advance).lastBundle = x.lastBundle := rfl
@[simp] theorem Seqr.advance_openBundle (x : Seqr) : (x.advance).openBundle = x.openBundle := rfl
@[simp] theorem Seqr.advance_slotPois (x : Seqr) : (x.advance).slotPois = x.slotPois := rfl
@[simp] theorem Seqr.advance_irLane (x : Seqr) : (x.advance).irLane = x.irLane := rfl
@[simp] theorem Seqr.advance_next (x : Seqr) : (x.advance).next = x.next := rfl
@[simp] theorem Seqr.advance_handlerAt (x : Seqr) : (x.advance).handlerAt = x.handlerAt := rfl
@[simp] theorem Seqr.advance_entering (x : Seqr) : (x.advance).entering = x.entering := rfl

@[simp] theorem Seqr.jump_regs (x : Seqr) (p : Word) : (x.jump p).regs = x.regs := rfl
@[simp] theorem Seqr.jump_ibuf (x : Seqr) (p : Word) : (x.jump p).ibuf = x.ibuf := rfl
@[simp] theorem Seqr.jump_fetchTlb (x : Seqr) (p : Word) : (x.jump p).fetchTlb = x.fetchTlb := rfl
@[simp] theorem Seqr.jump_status (x : Seqr) (p : Word) : (x.jump p).status = x.status := rfl
@[simp] theorem Seqr.jump_handler (x : Seqr) (p : Word) : (x.jump p).handler = x.handler := rfl
@[simp] theorem Seqr.jump_tvec (x : Seqr) (p : Word) : (x.jump p).tvec = x.tvec := rfl
@[simp] theorem Seqr.jump_tepc (x : Seqr) (p : Word) : (x.jump p).tepc = x.tepc := rfl
@[simp] theorem Seqr.jump_frec (x : Seqr) (p : Word) : (x.jump p).frec = x.frec := rfl
@[simp] theorem Seqr.jump_outq (x : Seqr) (p : Word) : (x.jump p).outq = x.outq := rfl
@[simp] theorem Seqr.jump_pend (x : Seqr) (p : Word) : (x.jump p).pend = x.pend := rfl
@[simp] theorem Seqr.jump_waitSince (x : Seqr) (p : Word) : (x.jump p).waitSince = x.waitSince := rfl
@[simp] theorem Seqr.jump_waitArg (x : Seqr) (p : Word) : (x.jump p).waitArg = x.waitArg := rfl
@[simp] theorem Seqr.jump_asyncRecs (x : Seqr) (p : Word) : (x.jump p).asyncRecs = x.asyncRecs := rfl
@[simp] theorem Seqr.jump_lastBundle (x : Seqr) (p : Word) : (x.jump p).lastBundle = x.lastBundle := rfl
@[simp] theorem Seqr.jump_openBundle (x : Seqr) (p : Word) : (x.jump p).openBundle = x.openBundle := rfl
@[simp] theorem Seqr.jump_slotPois (x : Seqr) (p : Word) : (x.jump p).slotPois = x.slotPois := rfl
@[simp] theorem Seqr.jump_irLane (x : Seqr) (p : Word) : (x.jump p).irLane = x.irLane := rfl
@[simp] theorem Seqr.jump_next (x : Seqr) (p : Word) : (x.jump p).next = x.next := rfl
@[simp] theorem Seqr.jump_handlerAt (x : Seqr) (p : Word) : (x.jump p).handlerAt = x.handlerAt := rfl
@[simp] theorem Seqr.jump_entering (x : Seqr) (p : Word) : (x.jump p).entering = x.entering := rfl

@[simp] theorem Seqr.setReg_pcLine (x : Seqr) (r : Reg) (v : SVal) : (x.setReg r v).pcLine = x.pcLine := by unfold Seqr.setReg; split <;> rfl
@[simp] theorem Seqr.setReg_pcLane (x : Seqr) (r : Reg) (v : SVal) : (x.setReg r v).pcLane = x.pcLane := by unfold Seqr.setReg; split <;> rfl
@[simp] theorem Seqr.setReg_entry (x : Seqr) (r : Reg) (v : SVal) : (x.setReg r v).entry = x.entry := by unfold Seqr.setReg; split <;> rfl
@[simp] theorem Seqr.setReg_line (x : Seqr) (r : Reg) (v : SVal) : (x.setReg r v).line = x.line := by unfold Seqr.setReg; split <;> rfl
@[simp] theorem Seqr.setReg_ibuf (x : Seqr) (r : Reg) (v : SVal) : (x.setReg r v).ibuf = x.ibuf := by unfold Seqr.setReg; split <;> rfl
@[simp] theorem Seqr.setReg_fetchTlb (x : Seqr) (r : Reg) (v : SVal) : (x.setReg r v).fetchTlb = x.fetchTlb := by unfold Seqr.setReg; split <;> rfl
@[simp] theorem Seqr.setReg_status (x : Seqr) (r : Reg) (v : SVal) : (x.setReg r v).status = x.status := by unfold Seqr.setReg; split <;> rfl
@[simp] theorem Seqr.setReg_handler (x : Seqr) (r : Reg) (v : SVal) : (x.setReg r v).handler = x.handler := by unfold Seqr.setReg; split <;> rfl
@[simp] theorem Seqr.setReg_tvec (x : Seqr) (r : Reg) (v : SVal) : (x.setReg r v).tvec = x.tvec := by unfold Seqr.setReg; split <;> rfl
@[simp] theorem Seqr.setReg_tepc (x : Seqr) (r : Reg) (v : SVal) : (x.setReg r v).tepc = x.tepc := by unfold Seqr.setReg; split <;> rfl
@[simp] theorem Seqr.setReg_frec (x : Seqr) (r : Reg) (v : SVal) : (x.setReg r v).frec = x.frec := by unfold Seqr.setReg; split <;> rfl
@[simp] theorem Seqr.setReg_outq (x : Seqr) (r : Reg) (v : SVal) : (x.setReg r v).outq = x.outq := by unfold Seqr.setReg; split <;> rfl
@[simp] theorem Seqr.setReg_pend (x : Seqr) (r : Reg) (v : SVal) : (x.setReg r v).pend = x.pend := by unfold Seqr.setReg; split <;> rfl
@[simp] theorem Seqr.setReg_wait (x : Seqr) (r : Reg) (v : SVal) : (x.setReg r v).wait = x.wait := by unfold Seqr.setReg; split <;> rfl
@[simp] theorem Seqr.setReg_waitSince (x : Seqr) (r : Reg) (v : SVal) : (x.setReg r v).waitSince = x.waitSince := by unfold Seqr.setReg; split <;> rfl
@[simp] theorem Seqr.setReg_waitArg (x : Seqr) (r : Reg) (v : SVal) : (x.setReg r v).waitArg = x.waitArg := by unfold Seqr.setReg; split <;> rfl
@[simp] theorem Seqr.setReg_asyncRecs (x : Seqr) (r : Reg) (v : SVal) : (x.setReg r v).asyncRecs = x.asyncRecs := by unfold Seqr.setReg; split <;> rfl
@[simp] theorem Seqr.setReg_lastBundle (x : Seqr) (r : Reg) (v : SVal) : (x.setReg r v).lastBundle = x.lastBundle := by unfold Seqr.setReg; split <;> rfl
@[simp] theorem Seqr.setReg_openBundle (x : Seqr) (r : Reg) (v : SVal) : (x.setReg r v).openBundle = x.openBundle := by unfold Seqr.setReg; split <;> rfl
@[simp] theorem Seqr.setReg_slotPois (x : Seqr) (r : Reg) (v : SVal) : (x.setReg r v).slotPois = x.slotPois := by unfold Seqr.setReg; split <;> rfl
@[simp] theorem Seqr.setReg_cur (x : Seqr) (r : Reg) (v : SVal) : (x.setReg r v).cur = x.cur := by unfold Seqr.setReg; split <;> rfl
@[simp] theorem Seqr.setReg_ir (x : Seqr) (r : Reg) (v : SVal) : (x.setReg r v).ir = x.ir := by unfold Seqr.setReg; split <;> rfl
@[simp] theorem Seqr.setReg_irLane (x : Seqr) (r : Reg) (v : SVal) : (x.setReg r v).irLane = x.irLane := by unfold Seqr.setReg; split <;> rfl
@[simp] theorem Seqr.setReg_next (x : Seqr) (r : Reg) (v : SVal) : (x.setReg r v).next = x.next := by unfold Seqr.setReg; split <;> rfl
@[simp] theorem Seqr.setReg_kvals (x : Seqr) (r : Reg) (v : SVal) : (x.setReg r v).kvals = x.kvals := by unfold Seqr.setReg; split <;> rfl
@[simp] theorem Seqr.setReg_handlerAt (x : Seqr) (r : Reg) (v : SVal) : (x.setReg r v).handlerAt = x.handlerAt := by unfold Seqr.setReg; split <;> rfl
@[simp] theorem Seqr.setReg_entering (x : Seqr) (r : Reg) (v : SVal) : (x.setReg r v).entering = x.entering := by unfold Seqr.setReg; split <;> rfl

/-- x0 reads as the clear zero, whatever has been written (R19). -/
@[simp] theorem Seqr.reg_zero (x : Seqr) : x.reg 0 = SVal.zero := rfl

/-- A register other than x0 reads as what was written (R19). -/
theorem Seqr.reg_setReg_same (x : Seqr) (r : Reg) (v : SVal) (h : r ≠ 0) : (x.setReg r v).reg r = v := by
  have h' : r.val ≠ 0 := fun e => h (Fin.ext e)
  simp [Seqr.reg, Seqr.setReg, h']

/-- Writing a register leaves every other register alone. -/
theorem Seqr.reg_setReg_other (x : Seqr) (r j : Reg) (v : SVal) (h : j ≠ r) : (x.setReg r v).reg j = x.reg j := by
  have h' : j.val ≠ r.val := fun e => h (Fin.ext e)
  unfold Seqr.setReg
  split
  · rfl
  · show (if j.val = 0 then SVal.zero else sget (sset x.regs r.val v SVal.zero) j.val SVal.zero) = x.reg j
    rw [sget_sset_other _ _ _ _ _ _ h']
    rfl

end Sys2Proof.Machine
end

