-- ==== Sys2Proof/Laws/Ops.lean ====
section
/-! SUPPORT. The shared operations: what each can do, said once. -/

namespace Sys2Proof.Machine

open Sys2Proof

/-! ## Operations that may stop -/

@[simp] theorem mx_pure {α : Type} (a : α) (s : State) : (pure a : Mx α) s = .ok a s := rfl
@[simp] theorem mx_getS (s : State) : getS s = .ok s s := rfl
@[simp] theorem mx_modS (f : State → State) (s : State) : modS f s = .ok () (f s) := rfl
@[simp] theorem mx_set (t s : State) : (set t : Mx Unit) s = .ok () t := rfl
@[simp] theorem mx_failF {α : Type} (f : FaultInfo) (s : State) : (failF f : Mx α) s = .error (.fault f) s := rfl
@[simp] theorem mx_stallOn {α : Type} (k : WaitKind) (s : State) : (stallOn k : Mx α) s = .error (.stall k) s := rfl
@[simp] theorem mx_raise {α : Type} (cls cause index aux : Nat) (s : State) :
    (raise cls cause index aux : Mx α) s = .error (.fault (mkFault cls (detailOf aux index cause))) s := rfl

/-- The first operation completes: the second runs in the state it leaves. -/
theorem mx_bind_ok {α β : Type} (x : Mx α) (f : α → Mx β) (s t : State) (a : α) (h : x s = .ok a t) :
    (x >>= f) s = f a t := by
  show EStateM.bind x f s = f a t
  simp [EStateM.bind, h]

/-- The first operation stops: the whole stops. -/
theorem mx_bind_error {α β : Type} (x : Mx α) (f : α → Mx β) (s t : State) (e : Stop) (h : x s = .error e t) :
    (x >>= f) s = .error e t := by
  show EStateM.bind x f s = .error e t
  simp [EStateM.bind, h]

/-- Two operations in a row complete exactly where both do. -/
theorem mx_bind_eq_ok {α β : Type} (x : Mx α) (f : α → Mx β) (s u : State) (b : β) :
    (x >>= f) s = .ok b u ↔ ∃ a t, x s = .ok a t ∧ f a t = .ok b u := by
  cases h : x s with
  | ok a t =>
    rw [mx_bind_ok x f s t a h]
    constructor
    · intro h1; exact ⟨a, t, rfl, h1⟩
    · intro ⟨a', t', h1, h2⟩; cases h1; exact h2
  | error e t => simp [mx_bind_error x f s t e h]

@[simp] theorem mx_check_true (cls cause index aux : Nat) (s : State) : check true cls cause index aux s = .ok () s := rfl
@[simp] theorem mx_check_false (cls cause index aux : Nat) (s : State) :
    check false cls cause index aux s = .error (.fault (mkFault cls (detailOf aux index cause))) s := rfl

/-! ## The outcome of a sequencer instruction -/

/-- An effect that completes is the next state. -/
theorem runSeq_ok {q : SeqId} {m : Mx Unit} {s t : State} (h : m s = .ok () t) : runSeq q m s = .next t := by
  simp [runSeq, h]

/-- An effect that completes, and the next lane. -/
theorem runNext_ok {q : SeqId} {m : Mx Unit} {s t : State} (h : m s = .ok () t) : runNext q m s = .next (t.advance q) := by
  apply runSeq_ok
  rw [mx_bind_ok m _ s t () h]
  rfl

/-- A stall leaves everything but the stall itself as it was (R245). -/
theorem runSeq_stall {q : SeqId} {m : Mx Unit} {s t : State} {k : WaitKind} (h : m s = .error (.stall k) t) :
    runSeq q m s = .next (s.stalled q k) := by
  simp [runSeq, h]

/-- A fault is taken at the instruction in hand (R272). -/
theorem runSeq_fault {q : SeqId} {m : Mx Unit} {s t : State} {f : FaultInfo} (h : m s = .error (.fault f) t) :
    runSeq q m s = .next (t.precise q f) := by
  simp [runSeq, h]

/-- A sequencer instruction never stops the machine. -/
theorem runSeq_next (q : SeqId) (m : Mx Unit) (s : State) : ∃ t, runSeq q m s = .next t := by
  unfold runSeq
  split <;> exact ⟨_, rfl⟩

theorem runNext_next (q : SeqId) (m : Mx Unit) (s : State) : ∃ t, runNext q m s = .next t := runSeq_next q _ s

/-! ## Operands -/

@[simp] theorem opd_reg (q : SeqId) (r : Reg) (s : State) : opd q (.reg r) s = .ok (s.reg q r) s := rfl
@[simp] theorem opd_lit (q : SeqId) (v : Word32) (s : State) :
    opd q (.lit v) s = .ok { v := v.signExtend 64, p := false } s := rfl

/-- A checked operand that is not poisoned is its value (R247). -/
theorem chk_clear {q : SeqId} {o : SOpd} {index : Nat} {s t : State} {v : SVal} (h : opd q o s = .ok v t) (hp : v.p = false) :
    chk q o index s = .ok v.v t := by
  unfold chk
  rw [mx_bind_ok _ _ _ _ _ h]
  simp only [hp]
  rfl

/-- A checked operand that is poisoned is poison-sync with the operand's index (R247). -/
theorem chk_poisoned {q : SeqId} {o : SOpd} {index : Nat} {s t : State} {v : SVal} (h : opd q o s = .ok v t) (hp : v.p = true) :
    chk q o index s = .error (.fault (mkFault 0x0A (detailOf 0 index 0x77))) t := by
  unfold chk
  rw [mx_bind_ok _ _ _ _ _ h]
  simp only [hp]
  rfl

/-- A checked operand of chapter 13 that is not poisoned is its value (R337). -/
theorem chk13_clear {q : SeqId} {o : SOpd} {s t : State} {v : SVal} (h : opd q o s = .ok v t) (hp : v.p = false) :
    chk13 q o s = .ok v.v t := by
  unfold chk13
  rw [mx_bind_ok _ _ _ _ _ h]
  simp only [hp]
  rfl

@[simp] theorem wr_eq (q : SeqId) (d : Reg) (v : Word) (p : Bool) (s : State) :
    wr q d v p s = .ok () (s.setReg q d { v := v, p := p }) := rfl

/-- The address of chapter 13 from a register that is not poisoned (R335). -/
theorem addr13_clear {q : SeqId} {a : Reg} {disp : BitVec 32} {s : State} (hp : (s.reg q a).p = false) :
    addr13 q a disp s = .ok ((s.reg q a).v + disp.signExtend 64).toNat s := by
  unfold addr13
  rw [mx_bind_ok _ _ _ _ _ (chk13_clear (opd_reg q a s) hp)]
  rfl

/-! ## Registers of a sequencer within the package -/

/-- A register other than x0 reads as what was written to it (R19). -/
theorem State.reg_setReg_same (s : State) (q : SeqId) (r : Reg) (v : SVal) (h : r ≠ 0) : (s.setReg q r v).reg q r = v := by
  simp [State.reg, State.setReg, Seqr.reg_setReg_same _ _ _ h]

/-- Writing a register leaves every other register of its sequencer alone. -/
theorem State.reg_setReg_other (s : State) (q : SeqId) (r j : Reg) (v : SVal) (h : j ≠ r) :
    (s.setReg q r v).reg q j = s.reg q j := by
  simp [State.reg, State.setReg, Seqr.reg_setReg_other _ _ _ _ h]

/-- A write to x0 is discarded (R19). -/
theorem Seqr.setReg_zero (x : Seqr) (v : SVal) : x.setReg 0 v = x := rfl

/-! ## Folds -/

/-- What every step of a fold keeps, the fold keeps. -/
theorem foldl_keeps {α β : Type} (P : α → Prop) (f : α → β → α) (h : ∀ a b, P a → P (f a b)) (l : List β) :
    ∀ a, P a → P (l.foldl f a) := by
  induction l with
  | nil => intro a ha; exact ha
  | cons b l ih => intro a ha; exact ih _ (h a b ha)

/-- What no step of a fold changes, the fold does not change. -/
theorem foldl_same {α β γ : Type} (g : α → γ) (f : α → β → α) (h : ∀ a b, g (f a b) = g a) (l : List β) (a : α) :
    g (l.foldl f a) = g a := by
  induction l generalizing a with
  | nil => rfl
  | cons b l ih => rw [List.foldl_cons, ih, h]

/-! ## Memory -/

/-- Back-invalidation changes what the hosts hold, and nothing here. -/
@[simp] theorem State.backInv_mem (s : State) (lo hi : Nat) : (s.backInv lo hi).mem = s.mem := by
  unfold State.backInv
  split
  · apply foldl_same (fun s : State => s.mem); intros; rfl
  · rfl

theorem State.backInv_smap (s : State) (lo hi : Nat) : (s.backInv lo hi).smap = s.smap := by
  unfold State.backInv
  split
  · apply foldl_same (fun s : State => s.smap); intros; rfl
  · rfl

theorem State.backInv_syc (s : State) (lo hi : Nat) : (s.backInv lo hi).syc = s.syc := by
  unfold State.backInv
  split
  · apply foldl_same (fun s : State => s.syc); intros; rfl
  · rfl

/-- It moves no byte. -/
@[simp] theorem State.backInv_place (s : State) (lo hi pa : Nat) : (s.backInv lo hi).place pa = s.place pa := by
  simp only [State.place, State.smapOf, State.backInv_smap, State.backInv_syc]

/-- A write of physical memory keeps its canonical form. -/
theorem wf_physWrite (s : State) (pa : Nat) (bs : List Byte) (h : Memory.wf s.mem = true) :
    Memory.wf (s.physWrite pa bs).mem = true := by
  unfold State.physWrite
  split
  · exact wf_memSetAll bs _ _ (by rw [State.backInv_mem]; exact h)
  · exact h

/-- A write of physical memory leaves the places outside it alone. -/
theorem physWrite_other (s : State) (pa : Nat) (bs : List Byte) (j : Nat) (h : j < s.place pa ∨ s.place pa + bs.length ≤ j) :
    sget (s.physWrite pa bs).mem j memInit = sget s.mem j memInit := by
  unfold State.physWrite
  split
  · rw [← State.backInv_mem s (lineOf pa) (lineOf (pa + bs.length - 1))]
    exact sget_memSetAll_other bs _ _ _ (by rw [State.backInv_place]; exact h)
  · rfl

/-! ## Vector registers that an entry reads (R125) -/

/-- With no writer in flight an entry reads what the register holds. -/
theorem Core.vsrc_quiet {c : Core} (h : c.race = none) (r : Nat) : c.vsrc r = c.vreg r := by
  simp [Core.vsrc, h]

/-- With nothing changed in flight an entry needs no free number. -/
theorem State.racing_quiet {s : State} {c : Nat} (h : (s.core c).entries.all (·.olds.isEmpty) = true) : s.racing c = s := by
  simp only [State.racing, h, if_true]

/-! ## Writes of masters (R375-R377) -/

/-- Where no election has ended, nothing is settled. -/
theorem State.settled_idle {s : State} (h : s.syc.electionAt = none) : s.settled = s := by
  simp only [State.settled, h]

/-- A writer with the owner's right has its effect. -/
theorem ownerWrite_allowed {w : Writer} {s : State} {f : State → State} (h : s.settled.mayWrite w = true) :
    ownerWrite w s f = .next (f s.settled) := by
  simp only [ownerWrite, h, if_true]

/-- A writer without it is refused. -/
theorem ownerWrite_refused {w : Writer} {s : State} {f : State → State} (h : s.settled.mayWrite w = false) :
    ownerWrite w s f = .next (s.settled.refuse w) := by
  simp [ownerWrite, h]

/-- A write that every master may make has its effect, but for the owner while its handover is checked. -/
theorem openWrite_allowed {p : Fin 4} {how : Travel} {s : State} {f : State → State} (h : s.settled.syc.barred p.val = false) :
    openWrite (.master p how) s f = .next (f s.settled) := by
  simp [openWrite, h]

end Sys2Proof.Machine
end

