-- ==== Sys2Proof/Laws/Memory.lean ====
section
/-! SUPPORT. Every operation that writes memory keeps its canonical form; what an operation that may stop keeps. -/

namespace Sys2Proof.Machine

open Sys2Proof

/-! ## Operations that leave memory alone -/

@[simp] theorem State.closeInterval_mem (s : State) (ctx : Nat) : (s.closeInterval ctx).mem = s.mem := rfl

@[simp] theorem State.signalOwner_mem (s : State) (ctx : Nat) : (s.signalOwner ctx).mem = s.mem := by
  unfold State.signalOwner; dsimp only; split
  · split <;> rfl
  · rfl

@[simp] theorem noteWrite_mem (b : WBy) (pa : Nat) (s : State) : (noteWrite b pa s).mem = s.mem := by
  unfold noteWrite
  split
  · rfl
  · split
    · rfl
    · refine foldl_same (fun s : State => s.mem) _ ?_ _ s
      intro s k
      dsimp only
      split <;> rfl

/-! ## Operations that write memory -/

theorem wf_fqPut (s : State) (r : FRec) (h : Memory.wf s.mem = true) : Memory.wf (s.fqPut r).mem = true := by
  unfold State.fqPut
  dsimp only
  split
  · exact h
  · simp only [State.signalOwner_mem]
    exact wf_physWrite _ _ _ h

theorem wf_fqWrite (s : State) (r : FRec) (h : Memory.wf s.mem = true) : Memory.wf (s.fqWrite r).mem = true := by
  unfold State.fqWrite
  split
  · exact h
  · exact wf_fqPut _ _ h

theorem wf_fqResume (s : State) (h : Memory.wf s.mem = true) : Memory.wf s.fqResume.mem = true :=
  foldl_keeps (fun s : State => Memory.wf s.mem = true) _ (fun s r hs => wf_fqWrite s r hs) _ _ h

theorem wf_notice (s : State) (ctx cause detail : Nat) (h : Memory.wf s.mem = true) : Memory.wf (s.notice ctx cause detail).mem = true :=
  wf_fqWrite _ _ h

theorem wf_mgmtNotice (s : State) (cause detail : Nat) (h : Memory.wf s.mem = true) : Memory.wf (s.mgmtNotice cause detail).mem = true := by
  unfold State.mgmtNotice
  split
  · exact h
  · exact wf_notice _ _ _ _ h

theorem wf_forceClose (s : State) (ctx : Nat) (h : Memory.wf s.mem = true) : Memory.wf (s.forceClose ctx).mem = true :=
  wf_notice _ _ _ _ h

theorem wf_logLine (s : State) (ctx : Nat) (ckp : Bool) (pa : Nat) (h : Memory.wf s.mem = true) :
    Memory.wf (s.logLine ctx ckp pa).mem = true := by
  unfold State.logLine
  dsimp only
  split
  · exact h
  · have h1 : Memory.wf (if (s.ctx ctx).logCap ≤ (s.ctx ctx).ckUsed then s.forceClose ctx else s).mem = true := by
      split
      · exact wf_forceClose _ _ h
      · exact h
    revert h1
    generalize (if (s.ctx ctx).logCap ≤ (s.ctx ctx).ckUsed then s.forceClose ctx else s) = u
    intro h1
    split
    · exact h1
    · exact wf_physWrite _ _ _ h1

theorem wf_homeWrite (s : State) (b : WBy) (pa : Nat) (bs : List Byte) (p : Bool) (h : Memory.wf s.mem = true) :
    Memory.wf (s.homeWrite b pa bs p).mem = true := by
  unfold State.homeWrite
  simp only [noteWrite_mem]
  exact wf_physWrite _ _ _ (wf_logLine _ _ _ _ h)

theorem wf_wbSector (s : State) (c line sec : Nat) (h : Memory.wf s.mem = true) : Memory.wf (s.wbSector c line sec).mem = true := by
  unfold State.wbSector
  dsimp only
  split
  · exact h
  · simp only [noteWrite_mem]
    exact foldl_keeps (fun m => Memory.wf m = true) _ (fun m k hm => wf_memSet m _ _ hm) _ _
      (by rw [State.backInv_mem]; exact wf_logLine _ _ _ _ h)

theorem wf_wbLine (s : State) (c line : Nat) (h : Memory.wf s.mem = true) : Memory.wf (s.wbLine c line).mem = true := by
  unfold State.wbLine
  dsimp only
  split
  · exact h
  · exact wf_wbSector _ _ _ _ (wf_wbSector _ _ _ _ h)

theorem wf_wbAll (s : State) (c : Nat) (h : Memory.wf s.mem = true) : Memory.wf (s.wbAll c).mem = true :=
  foldl_keeps (fun s : State => Memory.wf s.mem = true) _ (fun s line hs => wf_wbLine s c line hs) _ _ h

theorem wf_evict (s : State) (c line : Nat) (h : Memory.wf s.mem = true) : Memory.wf (s.evict c line).mem = true := wf_wbLine _ _ _ h

theorem wf_homeSync (s : State) (c : Option Nat) (pa : Nat) (h : Memory.wf s.mem = true) : Memory.wf (s.homeSync c pa).mem = true := by
  unfold State.homeSync
  split
  · exact h
  · exact wf_wbLine _ _ _ h

theorem wf_l1Room (s : State) (c line : Nat) (h : Memory.wf s.mem = true) : Memory.wf (s.l1Room c line).mem = true := by
  unfold State.l1Room
  split
  · exact h
  · exact wf_evict _ _ _ h

theorem wf_l1Fill (s : State) (c line sec : Nat) (h : Memory.wf s.mem = true) : Memory.wf (s.l1Fill c line sec).mem = true := wf_l1Room _ _ _ h

theorem wf_l1Write (s : State) (c ctx : Nat) (ckp : Bool) (pa : Nat) (bs : List Byte) (p : Bool) (h : Memory.wf s.mem = true) :
    Memory.wf (s.l1Write c ctx ckp pa bs p).mem = true := wf_l1Room _ _ _ h

theorem wf_l1Read (s : State) (c pa n : Nat) (h : Memory.wf s.mem = true) : Memory.wf (s.l1Read c pa n).2.mem = true := by
  unfold State.l1Read
  dsimp only
  split
  · exact h
  · exact wf_l1Fill _ _ _ _ h

theorem wf_publishTag (s : State) (line : Nat) (h : Memory.wf s.mem = true) : Memory.wf (s.publishTag line).mem = true := by
  unfold State.publishTag
  split
  · exact h
  · exact wf_wbAll _ _ h

theorem wf_carveTo (s : State) (c cc : Nat) (h : Memory.wf s.mem = true) : Memory.wf (s.carveTo c cc).mem = true := by
  unfold State.carveTo
  dsimp only
  exact foldl_keeps (fun s : State => Memory.wf s.mem = true) _ (fun s line hs => wf_evict s c line hs) _ _ h

/-- Taking entries out of memory keeps the form. -/
theorem swfFrom_filter {α : Type} [DecidableEq α] {d : Nat → α} (p : Nat × α → Bool) :
    ∀ (m : SMap α) (lo : Nat), swfFrom d lo m = true → swfFrom d lo (m.filter p) = true := by
  intro m
  induction m with
  | nil => intro lo h; exact h
  | cons a m ih =>
    intro lo h
    obtain ⟨k, v⟩ := a
    simp only [swfFrom, Bool.and_eq_true, decide_eq_true_eq] at h
    rw [List.filter_cons]
    split
    · simp only [swfFrom, Bool.and_eq_true, decide_eq_true_eq]
      exact ⟨h.1, ih _ h.2⟩
    · exact ih _ (swfFrom_mono (Nat.le_trans h.1.1 (Nat.le_succ k)) h.2)

theorem wf_packageTrip (s : State) (h : Memory.wf s.mem = true) :
    ∃ t, execPackageTrip s = .next t ∧ Memory.wf t.mem = true := ⟨_, rfl, swfFrom_filter _ _ _ h⟩

theorem wf_keepPinned (s t : State) (h : Memory.wf s.mem = true) : Memory.wf (s.keepPinned t).mem = true :=
  foldl_keeps (fun m : List Host.Cell => Memory.wf m = true) _ (fun m c hm => wf_memSet m c.1 c.2 hm) _ _ (swfFrom_filter _ _ _ h)

@[simp] theorem State.keepPinned_smap (s t : State) : (s.keepPinned t).smap = t.smap := rfl

/-! ## What an operation that may stop keeps -/

/-- `P` holds after the operation from `s`, whether it completes or stops. -/
def KeepsAt {α : Type} (P : State → Prop) (m : Mx α) (s : State) : Prop := match m s with | .ok _ t => P t | .error _ t => P t

/-- `P` holds after the operation where it held before. -/
abbrev Keeps {α : Type} (P : State → Prop) (m : Mx α) : Prop := ∀ s, P s → KeepsAt P m s

theorem keeps_pure {α : Type} (P : State → Prop) (a : α) : Keeps P (pure a : Mx α) := fun _ h => h
theorem keeps_getS (P : State → Prop) : Keeps P getS := fun _ h => h
theorem keeps_modS (P : State → Prop) (f : State → State) (h : ∀ s, P s → P (f s)) : Keeps P (modS f) := fun s hs => h s hs
theorem keeps_failF {α : Type} (P : State → Prop) (f : FaultInfo) : Keeps P (failF f : Mx α) := fun _ h => h
theorem keeps_stallOn {α : Type} (P : State → Prop) (k : WaitKind) : Keeps P (stallOn k : Mx α) := fun _ h => h
theorem keeps_raise {α : Type} (P : State → Prop) (a b c d : Nat) : Keeps P (raise a b c d : Mx α) := fun _ h => h
theorem keepsAt_set (P : State → Prop) (t s : State) (h : P t) : KeepsAt P (set t : Mx Unit) s := h

theorem keeps_check (P : State → Prop) (b : Bool) (x y z w : Nat) : Keeps P (check b x y z w) := by
  unfold check; split
  · exact keeps_pure P _
  · exact keeps_raise P _ _ _ _

/-- A sequence keeps what its first part keeps and its rest keeps from there. -/
theorem keepsAt_bind {α β : Type} (P : State → Prop) (m : Mx α) (f : α → Mx β) (s : State) (hm : KeepsAt P m s)
    (hf : ∀ a, Keeps P (f a)) : KeepsAt P (m >>= f) s := by
  unfold KeepsAt at *
  cases h : m s with
  | ok a t => rw [h] at hm; rw [mx_bind_ok m f s t a h]; exact hf a t hm
  | error e t => rw [h] at hm; rw [mx_bind_error m f s t e h]; exact hm

/-- A sequence keeps what both parts keep. -/
theorem keeps_bind {α β : Type} (P : State → Prop) (m : Mx α) (f : α → Mx β) (hm : Keeps P m) (hf : ∀ a, Keeps P (f a)) :
    Keeps P (m >>= f) := fun s hs => keepsAt_bind P m f s (hm s hs) hf

/-- What follows a look at the state knows that state. -/
theorem keeps_getS_bind {β : Type} (P : State → Prop) (f : State → Mx β) (hf : ∀ s, P s → KeepsAt P (f s) s) :
    Keeps P (getS >>= f) := by
  intro s hs
  unfold KeepsAt
  rw [mx_bind_ok getS f s s s rfl]
  exact hf s hs

/-- The next state of an instruction keeps what its effect and the taking of its fault keep. -/
theorem runSeq_keeps (P : State → Prop) (q : SeqId) (m : Mx Unit) (s t : State) (hm : Keeps P m) (hs : P s)
    (hstall : ∀ k, P (s.stalled q k)) (hfault : ∀ f u, P u → P (u.precise q f)) (hat : ∀ p f u, P u → P (u.takeFault q (u.seqRec q p f) p))
    (h : runSeq q m s = .next t) : P t := by
  have h1 := hm s hs
  unfold KeepsAt at h1
  unfold runSeq at h
  cases hr : m s with
  | ok a u => rw [hr] at h h1; simp only [Host.Outcome.next.injEq] at h; subst h; exact h1
  | error e u =>
    rw [hr] at h h1
    cases e with
    | fault f => simp only [Host.Outcome.next.injEq] at h; subst h; exact hfault f u h1
    | stall k => simp only [Host.Outcome.next.injEq] at h; subst h; exact hstall k
    | faultAt p f => simp only [Host.Outcome.next.injEq] at h; subst h; exact hat p f u h1

/-! ## Whole accesses keep the form -/

@[simp] theorem State.tlbFill_mem (s : State) (a : Agent) (ctx va : Nat) (l : Leaf) (seen : List WalkEntry) :
    (s.tlbFill a ctx va l seen).mem = s.mem := by cases a <;> rfl

theorem keeps_resolve (ch : Chap) (a : Agent) (ctx : Nat) (p : Perm) (va : Nat) (loom : Bool) :
    Keeps MemOk (resolve ch a ctx p va loom) := by
  unfold resolve
  refine keeps_bind _ _ _ (keeps_getS _) fun s => ?_
  have jp : ∀ l : Leaf, Keeps MemOk (if s.pinCheck a loom (targetOf l va) then pure (targetOf l va)
      else failF (ch { cls := 7, reason := 0, level := 0, addr := va, map := 0x8B, aux := 0 }) : Mx Target) := by
    intro l; split
    · exact keeps_pure _ _
    · exact keeps_failF _ _
  dsimp only
  split
  · exact jp _
  · exact keeps_bind _ _ _ (keeps_modS _ _ fun s h => by unfold MemOk; rw [State.tlbFill_mem]; exact h) fun _ => jp _
  · exact keeps_bind _ _ _ (keeps_stallOn _ _) fun _ => jp _
  · exact keeps_bind _ _ _ (keeps_failF _ _) fun _ => jp _

theorem keeps_homeCheck (ch : Chap) (va : Nat) (t : Target) : Keeps MemOk (homeCheck ch va t) := by
  unfold homeCheck
  split
  · exact keeps_pure _ _
  · refine keeps_bind _ _ _ (keeps_getS _) fun s => ?_
    split
    · exact keeps_stallOn _ _
    · split
      · exact keeps_failF _ _
      · exact keeps_pure _ _

theorem wbCheck_keeps (P : State → Prop) (c : Nat) (lines : List Nat) : Keeps P (wbCheck c lines) := by
  unfold wbCheck
  refine keeps_bind _ _ _ (keeps_getS _) fun s => ?_
  split
  · exact keeps_pure _ _
  · exact keeps_stallOn _ _
  · exact keeps_raise _ _ _ _ _

theorem keeps_homeReach (ch : Chap) (a : Agent) (va : Nat) (t : Target) : Keeps MemOk (homeReach ch a va t) := by
  unfold homeReach
  refine keeps_bind _ _ _ (keeps_homeCheck _ _ _) fun _ => ?_
  split
  · split
    · exact wbCheck_keeps _ _ _
    · exact keeps_pure _ _
  · exact keeps_pure _ _

theorem keeps_accessN (ch : Chap) (a : Agent) (ctx : Nat) (p : Perm) (va al n : Nat) (loom home : Bool) :
    Keeps MemOk (accessN ch a ctx p va al n loom home) := by
  unfold accessN
  refine keeps_bind _ _ _ (keeps_resolve _ _ _ _ _ _) fun t => keeps_bind _ _ _ ?_ fun _ => keeps_bind _ _ _ ?_ fun _ =>
    keeps_bind _ _ _ ?_ fun _ => keeps_bind _ _ _ (keeps_getS _) fun s => ?_
  · unfold poolCheck
    split
    · exact keeps_pure _ _
    · refine keeps_bind _ _ _ (keeps_getS _) fun s => ?_
      dsimp only
      split
      · exact keeps_stallOn _ _
      · split
        · exact keeps_pure _ _
        · exact keeps_failF _ _
  · unfold alignCheck
    split
    · exact keeps_pure _ _
    · exact keeps_failF _ _
  · unfold nrCheck
    refine keeps_bind _ _ _ (keeps_getS _) fun s => ?_
    split
    · exact keeps_stallOn _ _
    · exact keeps_pure _ _
  · dsimp only
    split
    · exact keeps_pure _ _
    · exact keeps_bind _ _ _ (keeps_homeReach _ _ _ _) fun _ => keeps_pure _ _

theorem keeps_access (ch : Chap) (a : Agent) (ctx : Nat) (p : Perm) (va al : Nat) (loom : Bool) :
    Keeps MemOk (access ch a ctx p va al loom) := keeps_accessN _ _ _ _ _ _ _ _ _

@[simp] theorem State.readEffect_mem (s : State) (syc : Bool) (off : Nat) : (s.readEffect syc off).mem = s.mem := by
  unfold State.readEffect; split <;> split <;> rfl

@[simp] theorem State.ioRead_mem (s : State) (pa n : Nat) : (s.ioRead pa n).2.mem = s.mem := by
  unfold State.ioRead
  dsimp only
  split
  · rfl
  · exact foldl_same (fun s : State => s.mem) _ (fun s o => State.readEffect_mem s _ _) _ s

@[simp] theorem State.ioWrite_mem (s : State) (pa : Nat) (bs : List Byte) : (s.ioWrite pa bs).mem = s.mem := by
  unfold State.ioWrite
  dsimp only
  split <;> rfl

@[simp] theorem State.remoteSend_mem (s : State) (a : Agent) (m : OutMsg) : (s.remoteSend a m).mem = s.mem := by
  cases a <;> rfl

@[simp] theorem State.l1Update_mem (s : State) (c : Option Nat) (pa : Nat) (bs : List Byte) (p : Bool) :
    (s.l1Update c pa bs p).mem = s.mem := by
  unfold State.l1Update
  split
  · rfl
  · split <;> rfl

theorem roomCheck_keeps (P : State → Prop) (c line : Nat) : Keeps P (roomCheck c line) :=
  keeps_bind _ _ _ (keeps_getS _) fun _ => wbCheck_keeps _ _ _

theorem readAt_keeps (a : Agent) (t : Target) (n il : Nat) : Keeps MemOk (readAt a t n il) := by
  unfold readAt
  refine keeps_getS_bind _ _ fun s hs => ?_
  cases t with
  | scratch o => cases h : a.core? <;> exact hs
  | phys pa l =>
    dsimp only
    split
    · exact keepsAt_bind _ _ _ _ (keepsAt_set _ _ _ (by unfold MemOk; rw [State.ioRead_mem]; exact hs)) fun _ => keeps_pure _ _
    · split
      · exact keepsAt_bind _ _ _ _ (keepsAt_set _ _ _ hs) fun _ => keeps_pure _ _
      · split
        · cases h : a.core? with
          | none => exact hs
          | some c =>
            refine keepsAt_bind _ _ _ _ (roomCheck_keeps _ _ _ s hs) fun _ => keeps_getS_bind _ _ fun s hs => ?_
            exact keepsAt_bind _ _ _ _ (keepsAt_set _ _ _ (wf_l1Read _ _ _ _ hs)) fun _ => keeps_pure _ _
        · split
          · exact keepsAt_bind _ _ _ _ (keepsAt_set _ _ _ (wf_homeSync _ _ _ hs)) fun _ => keeps_pure _ _
          · exact keepsAt_bind _ _ _ _ (keepsAt_set _ _ _ hs) fun _ => keeps_pure _ _

theorem writeAt_keeps (a : Agent) (ctx : Nat) (t : Target) (bs : List Byte) (p : Bool) (il : Nat) (thru : Bool) :
    Keeps MemOk (writeAt a ctx t bs p il thru) := by
  unfold writeAt
  refine keeps_getS_bind _ _ fun s hs => ?_
  cases t with
  | scratch o =>
    cases h : a.core? with
    | none => exact hs
    | some c =>
      dsimp only
      split
      · exact keeps_stallOn _ _ s hs
      · exact hs
  | phys pa l =>
    dsimp only
    split
    · exact keepsAt_set _ _ _ (by unfold MemOk; rw [State.ioWrite_mem]; exact hs)
    · split
      · exact keepsAt_set _ _ _ (by unfold MemOk; rw [State.remoteSend_mem]; exact hs)
      · split
        · cases h : a.core? with
          | none => exact hs
          | some c =>
            refine keepsAt_bind _ _ _ _ (roomCheck_keeps _ _ _ s hs) fun _ => keeps_getS_bind _ _ fun s hs => ?_
            exact keepsAt_set _ _ _ (wf_l1Write s c ctx l.ckp pa bs p hs)
        · split
          · exact keeps_stallOn _ _ s hs
          · split
            · exact keepsAt_set _ _ _ (by
                unfold MemOk; rw [State.l1Update_mem]; exact wf_homeWrite _ _ _ _ _ (wf_homeSync _ _ _ hs))
            · exact keepsAt_set _ _ _ (wf_homeWrite _ _ _ _ _ hs)

theorem vread_keeps (ch : Chap) (a : Agent) (ctx va n al il : Nat) (loom : Bool) : Keeps MemOk (vread ch a ctx va n al il loom) :=
  keeps_bind _ _ _ (keeps_access _ _ _ _ _ _ _) fun _ => readAt_keeps _ _ _ _

theorem vwrite_keeps (ch : Chap) (a : Agent) (ctx va al : Nat) (bs : List Byte) (p : Bool) (il : Nat) (thru loom : Bool) :
    Keeps MemOk (vwrite ch a ctx va al bs p il thru loom) :=
  keeps_bind _ _ _ (keeps_access _ _ _ _ _ _ _) fun _ => writeAt_keeps _ _ _ _ _ _ _

theorem writeMasked_keeps (a : Agent) (ctx : Nat) (t : Target) (b mask : Byte) (p : Bool) (il : Nat) :
    Keeps MemOk (writeMasked a ctx t b mask p il) := by
  unfold writeMasked
  refine keeps_getS_bind _ _ fun s hs => ?_
  dsimp only
  split
  · exact keepsAt_set _ _ _ (by unfold MemOk; rw [State.remoteSend_mem]; exact hs)
  · exact keepsAt_bind _ _ _ _ (readAt_keeps _ _ _ _ s hs) fun _ => writeAt_keeps _ _ _ _ _ _ _

theorem readHome_keeps (a : Agent) (t : Target) (n : Nat) : Keeps MemOk (readHome a t n) := by
  unfold readHome
  split
  · refine keeps_bind _ _ _ (readAt_keeps _ _ _ _) fun r => keeps_bind _ _ _ (keeps_getS _) fun s => ?_
    dsimp only
    split
    · exact keeps_bind _ _ _ (keeps_modS _ _ fun s h => by unfold MemOk; rw [State.l1Update_mem]; exact h) fun _ => keeps_pure _ _
    · exact keeps_pure _ _
  · exact readAt_keeps _ _ _ _
  · exact readAt_keeps _ _ _ _

theorem rmwAt_keeps (a : Agent) (ctx : Nat) (t : Target) (n : Nat) (f : Nat → Option Nat) (msg : Option OutMsg) :
    Keeps MemOk (rmwAt a ctx t n f msg) := by
  unfold rmwAt
  refine keeps_bind _ _ _ (readHome_keeps _ _ _) fun r => ?_
  dsimp only
  split
  · exact keeps_pure _ _
  · split
    · exact keeps_pure _ _
    · split
      · refine keeps_bind _ _ _ (keeps_getS _) fun s => ?_
        split
        · exact keeps_bind _ _ _ (keeps_modS _ _ fun s h => by unfold MemOk; rw [State.remoteSend_mem]; exact h) fun _ => keeps_pure _ _
        · exact keeps_bind _ _ _ (writeAt_keeps _ _ _ _ _ _ _) fun _ => keeps_pure _ _
      · exact keeps_bind _ _ _ (writeAt_keeps _ _ _ _ _ _ _) fun _ => keeps_pure _ _

end Sys2Proof.Machine
end

