-- ==== Sys2Proof/Laws/PerInstr.lean ====
section
/-! SUPPORT. One fact about every constructor of `Instr`, one lemma each: it has words exactly where it is an encoded instruction. -/

namespace Sys2Proof

/-- The encoder gives words to the encoded instructions, and none to an event. -/
def Laws.Encoded.Statement (i : Instr) : Prop := (encode i).isEmpty = !i.encoded

theorem Laws.Encoded.nop : Laws.Encoded.Statement (.nop) := rfl
theorem Laws.Encoded.add (d : Reg) (a b : SOpd) : Laws.Encoded.Statement (.add d a b) := rfl
theorem Laws.Encoded.sub (d : Reg) (a b : SOpd) : Laws.Encoded.Statement (.sub d a b) := rfl
theorem Laws.Encoded.mul (d : Reg) (a b : SOpd) : Laws.Encoded.Statement (.mul d a b) := rfl
theorem Laws.Encoded.mulh (d : Reg) (a b : SOpd) : Laws.Encoded.Statement (.mulh d a b) := rfl
theorem Laws.Encoded.mulhn (d : Reg) (a b : SOpd) : Laws.Encoded.Statement (.mulhn d a b) := rfl
theorem Laws.Encoded.div (d : Reg) (a b : SOpd) : Laws.Encoded.Statement (.div d a b) := rfl
theorem Laws.Encoded.divn (d : Reg) (a b : SOpd) : Laws.Encoded.Statement (.divn d a b) := rfl
theorem Laws.Encoded.rem (d : Reg) (a b : SOpd) : Laws.Encoded.Statement (.rem d a b) := rfl
theorem Laws.Encoded.remn (d : Reg) (a b : SOpd) : Laws.Encoded.Statement (.remn d a b) := rfl
theorem Laws.Encoded.and (d : Reg) (a b : SOpd) : Laws.Encoded.Statement (.and d a b) := rfl
theorem Laws.Encoded.or (d : Reg) (a b : SOpd) : Laws.Encoded.Statement (.or d a b) := rfl
theorem Laws.Encoded.xor (d : Reg) (a b : SOpd) : Laws.Encoded.Statement (.xor d a b) := rfl
theorem Laws.Encoded.andn (d : Reg) (a b : SOpd) : Laws.Encoded.Statement (.andn d a b) := rfl
theorem Laws.Encoded.orn (d : Reg) (a b : SOpd) : Laws.Encoded.Statement (.orn d a b) := rfl
theorem Laws.Encoded.shl (d : Reg) (a b : SOpd) : Laws.Encoded.Statement (.shl d a b) := rfl
theorem Laws.Encoded.shr (d : Reg) (a b : SOpd) : Laws.Encoded.Statement (.shr d a b) := rfl
theorem Laws.Encoded.sra (d : Reg) (a b : SOpd) : Laws.Encoded.Statement (.sra d a b) := rfl
theorem Laws.Encoded.rol (d : Reg) (a b : SOpd) : Laws.Encoded.Statement (.rol d a b) := rfl
theorem Laws.Encoded.ror (d : Reg) (a b : SOpd) : Laws.Encoded.Statement (.ror d a b) := rfl
theorem Laws.Encoded.min (d : Reg) (a b : SOpd) : Laws.Encoded.Statement (.min d a b) := rfl
theorem Laws.Encoded.max (d : Reg) (a b : SOpd) : Laws.Encoded.Statement (.max d a b) := rfl
theorem Laws.Encoded.minn (d : Reg) (a b : SOpd) : Laws.Encoded.Statement (.minn d a b) := rfl
theorem Laws.Encoded.maxn (d : Reg) (a b : SOpd) : Laws.Encoded.Statement (.maxn d a b) := rfl
theorem Laws.Encoded.clz (d : Reg) (a : SOpd) : Laws.Encoded.Statement (.clz d a) := rfl
theorem Laws.Encoded.ctz (d : Reg) (a : SOpd) : Laws.Encoded.Statement (.ctz d a) := rfl
theorem Laws.Encoded.popc (d : Reg) (a : SOpd) : Laws.Encoded.Statement (.popc d a) := rfl
theorem Laws.Encoded.bfx (d : Reg) (a b : SOpd) (wid : Fin 64) : Laws.Encoded.Statement (.bfx d a b wid) := rfl
theorem Laws.Encoded.bfi (d : Reg) (a b : SOpd) (wid : Fin 64) : Laws.Encoded.Statement (.bfi d a b wid) := rfl
theorem Laws.Encoded.sel (d : Reg) (a b : SOpd) (c : Reg) : Laws.Encoded.Statement (.sel d a b c) := rfl
theorem Laws.Encoded.cmp (cc : Cond) (d : Reg) (a b : SOpd) : Laws.Encoded.Statement (.cmp cc d a b) := rfl
theorem Laws.Encoded.lea (d : Reg) (a b : SOpd) (sh : Fin 8) : Laws.Encoded.Statement (.lea d a b sh) := rfl
theorem Laws.Encoded.lit (d : Reg) (a : SOpd) : Laws.Encoded.Statement (.lit d a) := rfl
theorem Laws.Encoded.litWide (d : Reg) (lo hi : Word32) : Laws.Encoded.Statement (.litWide d lo hi) := rfl
theorem Laws.Encoded.br (off : BitVec 25) : Laws.Encoded.Statement (.br off) := rfl
theorem Laws.Encoded.bcZ (a : Reg) (off : BitVec 20) : Laws.Encoded.Statement (.bcZ a off) := rfl
theorem Laws.Encoded.bcNz (a : Reg) (off : BitVec 20) : Laws.Encoded.Statement (.bcNz a off) := rfl
theorem Laws.Encoded.call (off : BitVec 25) : Laws.Encoded.Statement (.call off) := rfl
theorem Laws.Encoded.ret (a : Reg) : Laws.Encoded.Statement (.ret a) := rfl
theorem Laws.Encoded.jr (a : Reg) : Laws.Encoded.Statement (.jr a) := rfl
theorem Laws.Encoded.loopb (a : Reg) (off : BitVec 20) (arm : Arming) : Laws.Encoded.Statement (.loopb a off arm) := rfl
theorem Laws.Encoded.loopIteration (c : CoreId) (e : Eng) : Laws.Encoded.Statement (.loopIteration c e) := rfl
theorem Laws.Encoded.loopx (d : Reg) (a : SOpd) : Laws.Encoded.Statement (.loopx d a) := rfl
theorem Laws.Encoded.bopush (a : SOpd) : Laws.Encoded.Statement (.bopush a) := rfl
theorem Laws.Encoded.bobc (a : Reg) (off : BitVec 20) : Laws.Encoded.Statement (.bobc a off) := rfl
theorem Laws.Encoded.launch (d a : Reg) (b : SOpd) : Laws.Encoded.Statement (.launch d a b) := rfl
theorem Laws.Encoded.spawn (d a : Reg) (b : SOpd) : Laws.Encoded.Statement (.spawn d a b) := rfl
theorem Laws.Encoded.join (d a : Reg) : Laws.Encoded.Statement (.join d a) := rfl
theorem Laws.Encoded.suspendAs (a b : Reg) (an : Fin 17) : Laws.Encoded.Statement (.suspendAs a b an) := rfl
theorem Laws.Encoded.suspendXs : Laws.Encoded.Statement (.suspendXs) := rfl
theorem Laws.Encoded.suspendComplete (c : CoreId) : Laws.Encoded.Statement (.suspendComplete c) := rfl
theorem Laws.Encoded.commit (d : Reg) : Laws.Encoded.Statement (.commit d) := rfl
theorem Laws.Encoded.retire : Laws.Encoded.Statement (.retire) := rfl
theorem Laws.Encoded.streamEnd (q : SeqId) : Laws.Encoded.Statement (.streamEnd q) := rfl
theorem Laws.Encoded.cancel (d : Reg) (a : SOpd) : Laws.Encoded.Statement (.cancel d a) := rfl
theorem Laws.Encoded.yield : Laws.Encoded.Statement (.yield) := rfl
theorem Laws.Encoded.trap (code : Fin 64) : Laws.Encoded.Statement (.trap code) := rfl
theorem Laws.Encoded.eret : Laws.Encoded.Statement (.eret) := rfl
theorem Laws.Encoded.csrr (d : Reg) (c : Csr) : Laws.Encoded.Statement (.csrr d c) := rfl
theorem Laws.Encoded.csrw (c : Csr) (a : SOpd) : Laws.Encoded.Statement (.csrw c a) := rfl
theorem Laws.Encoded.carve (a : SOpd) : Laws.Encoded.Statement (.carve a) := rfl
theorem Laws.Encoded.fencei : Laws.Encoded.Statement (.fencei) := rfl
theorem Laws.Encoded.wait (d a : Reg) (b : SOpd) : Laws.Encoded.Statement (.wait d a b) := rfl
theorem Laws.Encoded.waitEnd (q : SeqId) (written : Bool) : Laws.Encoded.Statement (.waitEnd q written) := rfl
theorem Laws.Encoded.ld (d a : Reg) (disp : BitVec 32) (sz : Size) (acq : Option Scope) : Laws.Encoded.Statement (.ld d a disp sz acq) := rfl
theorem Laws.Encoded.st (d a : Reg) (disp : BitVec 32) (sz : Size) (rel : Option Scope) (asy : Bool) : Laws.Encoded.Statement (.st d a disp sz rel asy) := rfl
theorem Laws.Encoded.ldfe (d a : Reg) (disp : BitVec 32) (sz : Size) (clear : Bool) : Laws.Encoded.Statement (.ldfe d a disp sz clear) := rfl
theorem Laws.Encoded.stfe (d a : Reg) (disp : BitVec 32) (sz : Size) : Laws.Encoded.Statement (.stfe d a disp sz) := rfl
theorem Laws.Encoded.fullEmptyWaitEnd (w : Waiter) : Laws.Encoded.Statement (.fullEmptyWaitEnd w) := rfl
theorem Laws.Encoded.fence (o : Ordr) : Laws.Encoded.Statement (.fence o) := rfl
theorem Laws.Encoded.promote (d a : Reg) (disp : BitVec 32) (s : Scope) : Laws.Encoded.Statement (.promote d a disp s) := rfl
theorem Laws.Encoded.taggedLineEviction (pa : BitVec 48) : Laws.Encoded.Statement (.taggedLineEviction pa) := rfl
theorem Laws.Encoded.amo (op : AtomOp) (d a : Reg) (b : SOpd) (sz : Size) (o : Ordr) (nr : Bool) : Laws.Encoded.Statement (.amo op d a b sz o nr) := rfl
theorem Laws.Encoded.cas (d a : Reg) (b : SOpd) (sz : Size) (o : Ordr) : Laws.Encoded.Statement (.cas d a b sz o) := rfl
theorem Laws.Encoded.famo (op : AtomOp) (d a : Reg) (b : SOpd) (o : Ordr) (nr : Bool) : Laws.Encoded.Statement (.famo op d a b o nr) := rfl
theorem Laws.Encoded.amofence (s : Scope) : Laws.Encoded.Statement (.amofence s) := rfl
theorem Laws.Encoded.nrAtomicHomeFault (c : CoreId) : Laws.Encoded.Statement (.nrAtomicHomeFault c) := rfl
theorem Laws.Encoded.tlwait (t : Eng) (a : SOpd) (s : Scope) : Laws.Encoded.Statement (.tlwait t a s) := rfl
theorem Laws.Encoded.tlwaitReturn (q : SeqId) : Laws.Encoded.Statement (.tlwaitReturn q) := rfl
theorem Laws.Encoded.tlread (d : Reg) (t : Eng) : Laws.Encoded.Statement (.tlread d t) := rfl
theorem Laws.Encoded.fopen (a : Reg) : Laws.Encoded.Statement (.fopen a) := rfl
theorem Laws.Encoded.fpub (a : Reg) (b : SOpd) (s : Scope) : Laws.Encoded.Statement (.fpub a b s) := rfl
theorem Laws.Encoded.fchase (d a : Reg) (b : SOpd) (s : Scope) : Laws.Encoded.Statement (.fchase d a b s) := rfl
theorem Laws.Encoded.chaseSatisfied (w : Waiter) : Laws.Encoded.Statement (.chaseSatisfied w) := rfl
theorem Laws.Encoded.fclose (a : Reg) (s : Scope) : Laws.Encoded.Statement (.fclose a s) := rfl
theorem Laws.Encoded.fhalt (a : Reg) : Laws.Encoded.Statement (.fhalt a) := rfl
theorem Laws.Encoded.fread (d a : Reg) : Laws.Encoded.Statement (.fread d a) := rfl
theorem Laws.Encoded.bar (b : Fin 32) (a : SOpd) : Laws.Encoded.Statement (.bar b a) := rfl
theorem Laws.Encoded.barw (b : Fin 32) : Laws.Encoded.Statement (.barw b) := rfl
theorem Laws.Encoded.barwWake (q : SeqId) : Laws.Encoded.Statement (.barwWake q) := rfl
theorem Laws.Encoded.bars (b : Fin 32) (a : SOpd) : Laws.Encoded.Statement (.bars b a) := rfl
theorem Laws.Encoded.hbar (s : Scope) (a : SOpd) : Laws.Encoded.Statement (.hbar s a) := rfl
theorem Laws.Encoded.hbarPhaseEnd (q : SeqId) (outside : Nat) : Laws.Encoded.Statement (.hbarPhaseEnd q outside) := rfl
theorem Laws.Encoded.hoff (d c a : Reg) (b : SOpd) : Laws.Encoded.Statement (.hoff d c a b) := rfl
theorem Laws.Encoded.take (d a : Reg) (b : SOpd) : Laws.Encoded.Statement (.take d a b) := rfl
theorem Laws.Encoded.takeReturn (q : SeqId) : Laws.Encoded.Statement (.takeReturn q) := rfl
theorem Laws.Encoded.ckpt (d : Reg) : Laws.Encoded.Statement (.ckpt d) := rfl
theorem Laws.Encoded.fereset (a : Reg) (b : SOpd) : Laws.Encoded.Statement (.fereset a b) := rfl
theorem Laws.Encoded.pref (a : Reg) (disp : BitVec 32) (home : Bool) : Laws.Encoded.Statement (.pref a disp home) := rfl
theorem Laws.Encoded.cwb (a : Reg) (b : SOpd) : Laws.Encoded.Statement (.cwb a b) := rfl
theorem Laws.Encoded.cinv (a : Reg) (b : SOpd) : Laws.Encoded.Statement (.cinv a b) := rfl
theorem Laws.Encoded.permit (a : Reg) (b : SOpd) (s : Scope) : Laws.Encoded.Statement (.permit a b s) := rfl
theorem Laws.Encoded.shld (sh : Fin 16) (a : Reg) (disp : BitVec 32) : Laws.Encoded.Statement (.shld sh a disp) := rfl
theorem Laws.Encoded.shst (sh : Fin 16) (a : Reg) (disp : BitVec 32) : Laws.Encoded.Statement (.shst sh a disp) := rfl
theorem Laws.Encoded.shset (sh : Fin 16) (a : SOpd) (f : Fin 22) : Laws.Encoded.Statement (.shset sh a f) := rfl
theorem Laws.Encoded.shget (d : Reg) (sh : Fin 16) (f : Fin 22) : Laws.Encoded.Statement (.shget d sh f) := rfl
theorem Laws.Encoded.tdef (t : TEnt) (sh : Fin 16) : Laws.Encoded.Statement (.tdef t sh) := rfl
theorem Laws.Encoded.tdrop (t : TEnt) : Laws.Encoded.Statement (.tdrop t) := rfl
theorem Laws.Encoded.tget (sh : Fin 16) (t : TEnt) : Laws.Encoded.Statement (.tget sh t) := rfl
theorem Laws.Encoded.lease (a : SOpd) : Laws.Encoded.Statement (.lease a) := rfl
theorem Laws.Encoded.unlease : Laws.Encoded.Statement (.unlease) := rfl
theorem Laws.Encoded.loomLeaseDraw (q : QuadId) : Laws.Encoded.Statement (.loomLeaseDraw q) := rfl
theorem Laws.Encoded.cgrp (d a : Reg) (g : Fin 64) : Laws.Encoded.Statement (.cgrp d a g) := rfl
theorem Laws.Encoded.asyreg (a : Reg) (b : SOpd) (g : Fin 64) : Laws.Encoded.Statement (.asyreg a b g) := rfl
theorem Laws.Encoded.asyfence (d : Reg) (g : Fin 64) : Laws.Encoded.Statement (.asyfence d g) := rfl
theorem Laws.Encoded.assayPointEnd (ctx g : Fin 64) (others : List AssayMsg) : Laws.Encoded.Statement (.assayPointEnd ctx g others) := rfl
theorem Laws.Encoded.asyget (d : Reg) (a : SOpd) (g : Fin 64) : Laws.Encoded.Statement (.asyget d a g) := rfl
theorem Laws.Encoded.crload (d a : Reg) (b : SOpd) : Laws.Encoded.Statement (.crload d a b) := rfl
theorem Laws.Encoded.crierResume (k : Fin 48) : Laws.Encoded.Statement (.crierResume k) := rfl
theorem Laws.Encoded.vadd (t : Tok) (d : VReg) (a b : EOpd) (m : Mods) : Laws.Encoded.Statement (.vadd t d a b m) := rfl
theorem Laws.Encoded.vsub (t : Tok) (d : VReg) (a b : EOpd) (m : Mods) : Laws.Encoded.Statement (.vsub t d a b m) := rfl
theorem Laws.Encoded.vmul (t : Tok) (d : VReg) (a b : EOpd) (m : Mods) : Laws.Encoded.Statement (.vmul t d a b m) := rfl
theorem Laws.Encoded.vfma (t : Tok) (d : VReg) (a b c : EOpd) (m : Mods) : Laws.Encoded.Statement (.vfma t d a b c m) := rfl
theorem Laws.Encoded.vdiv (t : Tok) (d : VReg) (a b : EOpd) (m : Mods) : Laws.Encoded.Statement (.vdiv t d a b m) := rfl
theorem Laws.Encoded.vsqrt (t : Tok) (d : VReg) (a : EOpd) (m : Mods) : Laws.Encoded.Statement (.vsqrt t d a m) := rfl
theorem Laws.Encoded.vabs (t : Tok) (d : VReg) (a : EOpd) (m : Mods) : Laws.Encoded.Statement (.vabs t d a m) := rfl
theorem Laws.Encoded.vneg (t : Tok) (d : VReg) (a : EOpd) (m : Mods) : Laws.Encoded.Statement (.vneg t d a m) := rfl
theorem Laws.Encoded.vmin (t : Tok) (d : VReg) (a b : EOpd) (m : Mods) : Laws.Encoded.Statement (.vmin t d a b m) := rfl
theorem Laws.Encoded.vmax (t : Tok) (d : VReg) (a b : EOpd) (m : Mods) : Laws.Encoded.Statement (.vmax t d a b m) := rfl
theorem Laws.Encoded.vand (t : Tok) (d : VReg) (a b : EOpd) (m : Mods) : Laws.Encoded.Statement (.vand t d a b m) := rfl
theorem Laws.Encoded.vor (t : Tok) (d : VReg) (a b : EOpd) (m : Mods) : Laws.Encoded.Statement (.vor t d a b m) := rfl
theorem Laws.Encoded.vxor (t : Tok) (d : VReg) (a b : EOpd) (m : Mods) : Laws.Encoded.Statement (.vxor t d a b m) := rfl
theorem Laws.Encoded.vshl (t : Tok) (d : VReg) (a b : EOpd) (m : Mods) : Laws.Encoded.Statement (.vshl t d a b m) := rfl
theorem Laws.Encoded.vshr (t : Tok) (d : VReg) (a b : EOpd) (m : Mods) : Laws.Encoded.Statement (.vshr t d a b m) := rfl
theorem Laws.Encoded.vsra (t : Tok) (d : VReg) (a b : EOpd) (m : Mods) : Laws.Encoded.Statement (.vsra t d a b m) := rfl
theorem Laws.Encoded.vcmp (t : Tok) (cc : Cond) (d : MReg) (a b : EOpd) (m : Mods) : Laws.Encoded.Statement (.vcmp t cc d a b m) := rfl
theorem Laws.Encoded.vsel (t : Tok) (d : VReg) (a b : EOpd) (c : MReg) (ty : ElemTy) : Laws.Encoded.Statement (.vsel t d a b c ty) := rfl
theorem Laws.Encoded.vmov (t : Tok) (d : VReg) (a : EOpd) (m : Mods) : Laws.Encoded.Statement (.vmov t d a m) := rfl
theorem Laws.Encoded.vbcast (t : Tok) (d : VReg) (a : VReg) (b : EOpd) (m : Mods) : Laws.Encoded.Statement (.vbcast t d a b m) := rfl
theorem Laws.Encoded.vperm (t : Tok) (d a b : VReg) (m : Mods) : Laws.Encoded.Statement (.vperm t d a b m) := rfl
theorem Laws.Encoded.vslide (t : Tok) (d a : VReg) (b : EOpd) (c : Option VReg) (m : Mods) : Laws.Encoded.Statement (.vslide t d a b c m) := by cases c <;> rfl
theorem Laws.Encoded.vredsum (t : Tok) (d a : VReg) (m : Mods) : Laws.Encoded.Statement (.vredsum t d a m) := rfl
theorem Laws.Encoded.vredmax (t : Tok) (d a : VReg) (m : Mods) : Laws.Encoded.Statement (.vredmax t d a m) := rfl
theorem Laws.Encoded.vredmin (t : Tok) (d a : VReg) (m : Mods) : Laws.Encoded.Statement (.vredmin t d a m) := rfl
theorem Laws.Encoded.vscan (t : Tok) (d a : VReg) (m : Mods) : Laws.Encoded.Statement (.vscan t d a m) := rfl
theorem Laws.Encoded.vdot (t : Tok) (d a b : VReg) (g : Fin 6) (m : Mods) : Laws.Encoded.Statement (.vdot t d a b g m) := rfl
theorem Laws.Encoded.vwmul (t : Tok) (d a b : VReg) (m : Mods) : Laws.Encoded.Statement (.vwmul t d a b m) := rfl
theorem Laws.Encoded.vcvt (t : Tok) (d a : VReg) (st : ElemTy) (h : Bool) (m : Mods) : Laws.Encoded.Statement (.vcvt t d a st h m) := rfl
theorem Laws.Encoded.vcvtef (t : Tok) (d a c : VReg) (st : ElemTy) (h : Bool) (m : Mods) : Laws.Encoded.Statement (.vcvtef t d a c st h m) := rfl
theorem Laws.Encoded.vexp2 (t : Tok) (d : VReg) (a : EOpd) (m : Mods) : Laws.Encoded.Statement (.vexp2 t d a m) := rfl
theorem Laws.Encoded.vlog2 (t : Tok) (d : VReg) (a : EOpd) (m : Mods) : Laws.Encoded.Statement (.vlog2 t d a m) := rfl
theorem Laws.Encoded.vrcp (t : Tok) (d : VReg) (a : EOpd) (m : Mods) : Laws.Encoded.Statement (.vrcp t d a m) := rfl
theorem Laws.Encoded.vrsqrt (t : Tok) (d : VReg) (a : EOpd) (m : Mods) : Laws.Encoded.Statement (.vrsqrt t d a m) := rfl
theorem Laws.Encoded.vtmin (t : Tok) (d : VReg) (a : EOpd) (mask : MReg) : Laws.Encoded.Statement (.vtmin t d a mask) := rfl
theorem Laws.Encoded.vtmex (t : Tok) (d a : VReg) (m : Mods) : Laws.Encoded.Statement (.vtmex t d a m) := rfl
theorem Laws.Encoded.vtmerge (t : Tok) (d a b : VReg) (mask : MReg) : Laws.Encoded.Statement (.vtmerge t d a b mask) := rfl
theorem Laws.Encoded.tmtab (t : Tok) (a : Reg) (pair : Fin 8) : Laws.Encoded.Statement (.tmtab t a pair) := rfl
theorem Laws.Encoded.tmshape (t : Tok) (a : EOpd) : Laws.Encoded.Statement (.tmshape t a) := rfl
theorem Laws.Encoded.vsortk (t : Tok) (d a b : VReg) (m : Mods) : Laws.Encoded.Statement (.vsortk t d a b m) := rfl
theorem Laws.Encoded.vsegsum (t : Tok) (d a b : VReg) (c : MReg) (m : Mods) : Laws.Encoded.Statement (.vsegsum t d a b c m) := rfl
theorem Laws.Encoded.vpushc (t : Tok) (d : MReg) (a : VReg) (w : Fin 3) (ty : ElemTy) (mask : MReg) : Laws.Encoded.Statement (.vpushc t d a w ty mask) := rfl
theorem Laws.Encoded.vpopc (t : Tok) (d : VReg) (c : MReg) (w : Fin 3) (ty : ElemTy) : Laws.Encoded.Statement (.vpopc t d c w ty) := rfl
theorem Laws.Encoded.vchain (t : Tok) (d a : TEnt) (b : EOpd) (c : Option TEnt) (sat : Bool) (rnd : Rnd) : Laws.Encoded.Statement (.vchain t d a b c sat rnd) := by cases c <;> rfl
theorem Laws.Encoded.mlog (t : Tok) (d a b : MReg) (tt : Fin 16) : Laws.Encoded.Statement (.mlog t d a b tt) := rfl
theorem Laws.Encoded.mpopc (t : Tok) (d : VReg) (a : MReg) (ty : ElemTy) : Laws.Encoded.Statement (.mpopc t d a ty) := rfl
theorem Laws.Encoded.mfirst (t : Tok) (d : VReg) (a : MReg) (ty : ElemTy) : Laws.Encoded.Statement (.mfirst t d a ty) := rfl
theorem Laws.Encoded.vld (t : Tok1) (d : VReg) (a : Reg) (disp : BitVec 32) (ty : ElemTy) (mask : MReg) (plane : Option Reg) : Laws.Encoded.Statement (.vld t d a disp ty mask plane) := rfl
theorem Laws.Encoded.vldg (t : Tok1) (d : VReg) (a : Reg) (b : VReg) (ty : ElemTy) (mask : MReg) : Laws.Encoded.Statement (.vldg t d a b ty mask) := rfl
theorem Laws.Encoded.vldt (t : Tok1) (d : VReg) (a : TEnt) (b : EOpd) (lw : Fin 3) (ty : ElemTy) : Laws.Encoded.Statement (.vldt t d a b lw ty) := rfl
theorem Laws.Encoded.vldfe (t : Tok1) (d : VReg) (a : Reg) (disp : BitVec 32) (clear : Bool) (ty : ElemTy) : Laws.Encoded.Statement (.vldfe t d a disp clear ty) := rfl
theorem Laws.Encoded.vst (t : Tok1) (d : VReg) (a : Reg) (disp : BitVec 32) (ty : ElemTy) (mask : MReg) (plane : Option Reg) (asy : Bool) : Laws.Encoded.Statement (.vst t d a disp ty mask plane asy) := rfl
theorem Laws.Encoded.vsts (t : Tok1) (d : VReg) (a : Reg) (b : VReg) (ty : ElemTy) (mask : MReg) (asy : Bool) : Laws.Encoded.Statement (.vsts t d a b ty mask asy) := rfl
theorem Laws.Encoded.vstt (t : Tok1) (d : VReg) (a : TEnt) (b : EOpd) (lw : Fin 3) (asy close : Bool) (ty : ElemTy) : Laws.Encoded.Statement (.vstt t d a b lw asy close ty) := rfl
theorem Laws.Encoded.vstfe (t : Tok1) (d : VReg) (a : Reg) (disp : BitVec 32) (ty : ElemTy) : Laws.Encoded.Statement (.vstfe t d a disp ty) := rfl
theorem Laws.Encoded.vamo (t : Tok1) (op : AtomOp) (d : VReg) (a : Reg) (b : VReg) (c : EOpd) (ty : ElemTy) (mask : MReg) (nr : Bool) : Laws.Encoded.Statement (.vamo t op d a b c ty mask nr) := rfl
theorem Laws.Encoded.chainb (t : Tok) : Laws.Encoded.Statement (.chainb t) := rfl
theorem Laws.Encoded.chaine (t : Tok) (slots : Fin 512) (sig : Word32) : Laws.Encoded.Statement (.chaine t slots sig) := rfl
theorem Laws.Encoded.mma (t : Tok) (d : Fin 8) (a b : TEnt) (o : EOpd) (ty : ElemTy) : Laws.Encoded.Statement (.mma t d a b o ty) := rfl
theorem Laws.Encoded.mmaz (t : Tok) (d : Fin 8) (a b : TEnt) (o : EOpd) (ty : ElemTy) : Laws.Encoded.Statement (.mmaz t d a b o ty) := rfl
theorem Laws.Encoded.accz (t : Tok) (d : Fin 8) : Laws.Encoded.Statement (.accz t d) := rfl
theorem Laws.Encoded.accst (t : Tok) (d : Fin 8) (a : TEnt) (o : EOpd) (close : Bool) (ty : ElemTy) (sat : Bool) (rnd : Rnd) : Laws.Encoded.Statement (.accst t d a o close ty sat rnd) := rfl
theorem Laws.Encoded.accld (t : Tok) (d : Fin 8) (a : TEnt) (o : EOpd) (ty : ElemTy) : Laws.Encoded.Statement (.accld t d a o ty) := rfl
theorem Laws.Encoded.chainTooLong (c : CoreId) : Laws.Encoded.Statement (.chainTooLong c) := rfl
theorem Laws.Encoded.cpy (d a : TEnt) (b : EOpd) (bind : Option (Fin 32)) (close : Bool) : Laws.Encoded.Statement (.cpy d a b bind close) := rfl
theorem Laws.Encoded.cpym (a b : Reg) (c : EOpd) (bind : Option (Fin 32)) : Laws.Encoded.Statement (.cpym a b c bind) := rfl
theorem Laws.Encoded.cpyf (d : TEnt) (b c : EOpd) (bind : Option (Fin 32)) (close : Bool) : Laws.Encoded.Statement (.cpyf d b c bind close) := rfl
theorem Laws.Encoded.trig (a : Reg) (b : EOpd) (s : Scope) : Laws.Encoded.Statement (.trig a b s) := rfl
theorem Laws.Encoded.trigFire (c : CoreId) : Laws.Encoded.Statement (.trigFire c) := rfl
theorem Laws.Encoded.walkerFault (c : CoreId) : Laws.Encoded.Statement (.walkerFault c) := rfl
theorem Laws.Encoded.ttset (a : EOpd) (b : Reg) : Laws.Encoded.Statement (.ttset a b) := rfl
theorem Laws.Encoded.tready (a b : EOpd) : Laws.Encoded.Statement (.tready a b) := rfl
theorem Laws.Encoded.cred (a : EOpd) : Laws.Encoded.Statement (.cred a) := rfl
theorem Laws.Encoded.cqAck (c : CoreId) : Laws.Encoded.Statement (.cqAck c) := rfl
theorem Laws.Encoded.tileFire (ctx : Fin 64) (tile : Fin 4096) : Laws.Encoded.Statement (.tileFire ctx tile) := rfl
theorem Laws.Encoded.collectiveReduce (ctx : Fin 64) (tile : Fin 4096) (others : List Firing) : Laws.Encoded.Statement (.collectiveReduce ctx tile others) := rfl
theorem Laws.Encoded.engineEntryStart (c : CoreId) (e : Eng) : Laws.Encoded.Statement (.engineEntryStart c e) := rfl
theorem Laws.Encoded.engineEntryComplete (c : CoreId) (e : Eng) : Laws.Encoded.Statement (.engineEntryComplete c e) := rfl
theorem Laws.Encoded.tokenPushDeferred (c : CoreId) (e : Eng) : Laws.Encoded.Statement (.tokenPushDeferred c e) := rfl
theorem Laws.Encoded.lineFetch (q : SeqId) (stale : Bool) : Laws.Encoded.Statement (.lineFetch q stale) := rfl
theorem Laws.Encoded.faultDelivery (q : SeqId) (f : FaultInfo) : Laws.Encoded.Statement (.faultDelivery q f) := rfl
theorem Laws.Encoded.asyncFaultDelivery (q : SeqId) : Laws.Encoded.Statement (.asyncFaultDelivery q) := rfl
theorem Laws.Encoded.workRequest (q : QuadId) : Laws.Encoded.Statement (.workRequest q) := rfl
theorem Laws.Encoded.launchEnqueue (k : Nat) : Laws.Encoded.Statement (.launchEnqueue k) := rfl
theorem Laws.Encoded.triggeredLaunchFire (k : Nat) : Laws.Encoded.Statement (.triggeredLaunchFire k) := rfl
theorem Laws.Encoded.continuationResume (ctx : Fin 64) (k : Nat) : Laws.Encoded.Statement (.continuationResume ctx k) := rfl
theorem Laws.Encoded.taskRetire (c : CoreId) : Laws.Encoded.Statement (.taskRetire c) := rfl
theorem Laws.Encoded.taskPreempt (c : CoreId) : Laws.Encoded.Statement (.taskPreempt c) := rfl
theorem Laws.Encoded.progressWatchdogExpiry (c : CoreId) : Laws.Encoded.Statement (.progressWatchdogExpiry c) := rfl
theorem Laws.Encoded.chaseTimeout (w : Waiter) : Laws.Encoded.Statement (.chaseTimeout w) := rfl
theorem Laws.Encoded.hostWrite (via : FromPort 2) (pa : BitVec 48) (bytes : List (BitVec 8)) : Laws.Encoded.Statement (.hostWrite via pa bytes) := rfl
theorem Laws.Encoded.hostRead (via : FromPort 2) (pa : BitVec 48) (n : Nat) : Laws.Encoded.Statement (.hostRead via pa n) := rfl
theorem Laws.Encoded.hostSnoop (port : Fin 2) (pa : BitVec 48) : Laws.Encoded.Statement (.hostSnoop port pa) := rfl
theorem Laws.Encoded.remoteRequest (pkg : Fin 256) (r : RemoteReq) : Laws.Encoded.Statement (.remoteRequest pkg r) := rfl
theorem Laws.Encoded.remoteAck (a : AckFor) : Laws.Encoded.Statement (.remoteAck a) := rfl
theorem Laws.Encoded.linkReplay (port : Fin 48) : Laws.Encoded.Statement (.linkReplay port) := rfl
theorem Laws.Encoded.hostPortTraining (port : Fin 2) (mode : PortMode) : Laws.Encoded.Statement (.hostPortTraining port mode) := rfl
theorem Laws.Encoded.claimWrite (via : FromPort 4) (port : Fin 4) (v : Word) : Laws.Encoded.Statement (.claimWrite via port v) := rfl
theorem Laws.Encoded.ownerElectionEnd : Laws.Encoded.Statement (.ownerElectionEnd) := rfl
theorem Laws.Encoded.ownerLoss : Laws.Encoded.Statement (.ownerLoss) := rfl
theorem Laws.Encoded.hgoWrite (w : Writer) (v : Word) : Laws.Encoded.Statement (.hgoWrite w v) := rfl
theorem Laws.Encoded.attgoWrite (w : Writer) (v : Word) : Laws.Encoded.Statement (.attgoWrite w v) := rfl
theorem Laws.Encoded.smapWrite (w : Writer) (idx : Fin 12) (v : Word) : Laws.Encoded.Statement (.smapWrite w idx v) := rfl
theorem Laws.Encoded.segwWrite (w : Writer) (n : Fin 3) (v : Word) : Laws.Encoded.Statement (.segwWrite w n v) := rfl
theorem Laws.Encoded.queueDescriptorWrite (w : Writer) (q : Fin 256) (word : Fin 4) (v : Word) : Laws.Encoded.Statement (.queueDescriptorWrite w q word v) := rfl
theorem Laws.Encoded.contextDescriptorWrite (w : Writer) (c : Fin 64) (v : Word) : Laws.Encoded.Statement (.contextDescriptorWrite w c v) := rfl
theorem Laws.Encoded.poolDescriptorWrite (w : Writer) (p : Fin 16) (word : Fin 2) (v : Word) : Laws.Encoded.Statement (.poolDescriptorWrite w p word v) := rfl
theorem Laws.Encoded.pkgsetWrite (w : Writer) (v : Word) : Laws.Encoded.Statement (.pkgsetWrite w v) := rfl
theorem Laws.Encoded.tlbiWrite (w : Writer) (v : Word) : Laws.Encoded.Statement (.tlbiWrite w v) := rfl
theorem Laws.Encoded.tlbiComplete : Laws.Encoded.Statement (.tlbiComplete) := rfl
theorem Laws.Encoded.tlbsRead (w : Writer) : Laws.Encoded.Statement (.tlbsRead w) := rfl
theorem Laws.Encoded.pwrRead (w : Writer) : Laws.Encoded.Statement (.pwrRead w) := rfl
theorem Laws.Encoded.svnsetWrite (w : Writer) (v : Word) : Laws.Encoded.Statement (.svnsetWrite w v) := rfl
theorem Laws.Encoded.registerWrite (w : Writer) (syc : Bool) (off : BitVec 34) (v : Word) : Laws.Encoded.Statement (.registerWrite w syc off v) := rfl
theorem Laws.Encoded.dieQuiesce (w : Writer) (s : Fin 6) (v : Word) : Laws.Encoded.Statement (.dieQuiesce w s v) := rfl
theorem Laws.Encoded.dieFence (s : Fin 6) : Laws.Encoded.Statement (.dieFence s) := rfl
theorem Laws.Encoded.dieQuiesceDeadline (s : Fin 6) : Laws.Encoded.Statement (.dieQuiesceDeadline s) := rfl
theorem Laws.Encoded.dieTrainingComplete (s : Fin 6) (failed : Bool) : Laws.Encoded.Statement (.dieTrainingComplete s failed) := rfl
theorem Laws.Encoded.dieReadmit (w : Writer) (s : Fin 6) (v : Word) : Laws.Encoded.Statement (.dieReadmit w s v) := rfl
theorem Laws.Encoded.dieFailure (s : Fin 6) : Laws.Encoded.Statement (.dieFailure s) := rfl
theorem Laws.Encoded.rollback (w : Writer) (v : Word) : Laws.Encoded.Statement (.rollback w v) := rfl
theorem Laws.Encoded.logFullForcedClose (ctx : Fin 64) : Laws.Encoded.Statement (.logFullForcedClose ctx) := rfl
theorem Laws.Encoded.correctedError (e : CorrErr) : Laws.Encoded.Statement (.correctedError e) := rfl
theorem Laws.Encoded.classifierEntryExpiry (chan : Fin 384) (k : Fin 64) : Laws.Encoded.Statement (.classifierEntryExpiry chan k) := rfl
theorem Laws.Encoded.uncorrectableError (e : ErrPlace) : Laws.Encoded.Statement (.uncorrectableError e) := rfl
theorem Laws.Encoded.laneSpareSwitch (kind : Fin 2) (index : Fin 16777216) : Laws.Encoded.Statement (.laneSpareSwitch kind index) := rfl
theorem Laws.Encoded.packageTrip : Laws.Encoded.Statement (.packageTrip) := rfl
theorem Laws.Encoded.throttle (pin : BitVec 16) (tj : BitVec 8) : Laws.Encoded.Statement (.throttle pin tj) := rfl
theorem Laws.Encoded.packageReset : Laws.Encoded.Statement (.packageReset) := rfl
theorem Laws.Encoded.bringUpStep (r : BootResult) : Laws.Encoded.Statement (.bringUpStep r) := rfl
theorem Laws.Encoded.ready : Laws.Encoded.Statement (.ready) := rfl
theorem Laws.Encoded.hstatUpdate : Laws.Encoded.Statement (.hstatUpdate) := rfl
theorem Laws.Encoded.reportReady : Laws.Encoded.Statement (.reportReady) := rfl
theorem Laws.Encoded.rollbackDone : Laws.Encoded.Statement (.rollbackDone) := rfl
theorem Laws.Encoded.smapRewriteComplete : Laws.Encoded.Statement (.smapRewriteComplete) := rfl
theorem Laws.Encoded.hbmChannelRepairEnd (chan : Fin 384) : Laws.Encoded.Statement (.hbmChannelRepairEnd chan) := rfl
theorem Laws.Encoded.sliceRehomingComplete (s : Fin 6) : Laws.Encoded.Statement (.sliceRehomingComplete s) := rfl
theorem Laws.Encoded.throttleEnd (pin : BitVec 16) (tj : BitVec 8) : Laws.Encoded.Statement (.throttleEnd pin tj) := rfl
theorem Laws.Encoded.masterLinkChange (p : Fin 4) (up : Bool) : Laws.Encoded.Statement (.masterLinkChange p up) := rfl

end Sys2Proof
end

