-- ==== Sys2Proof/Tests/Slice0.lean ====
section
/-! SUPPORT. Our own tests: words decoded, ill-formed terms refused, single steps whose results the spec's examples or a hand
calculation give, and for each statement a state and operands that meet its hypotheses. -/

namespace Sys2Proof.Machine

open Sys2Proof

set_option Elab.async false

/-! ## Words written out from the spec's encodings -/

def tok0 : Tok := { wl := false, wr := false, sl := false, sr := false }

/-- The words decode to the instruction, a well-formed one. -/
abbrev D (k : Cls) (ws : List Nat) (i : Instr) : Prop := decode k (ws.headD 0) ws.tail = .ok i ∧ i.wf = true

/-- Words of arithmetic (R249), written out from the spec's layouts. -/
theorem test_decode_ar_0 :
    D (.seq false) [0x02342880] (.add 3 (.reg 1) (.reg 2)) ∧
    D (.seq false) [0x04a4dfc0] (.sub 10 (.reg 6) (.lit 0xffffffff#32)) ∧
    D (.seq false) [0x071577c0, 0x00001f50] (.mul 17 (.reg 11) (.const 1002)) ∧
    D (.seq false) [0x09860ac0] (.mulh 24 (.reg 16) (.reg 11)) ∧
    D (.seq false) [0x0bf6bf00] (.mulhn 31 (.reg 21) (.lit 0xfffffffc#32)) ∧
    D (.seq false) [0x0c6757c0, 0x00001f68] (.div 6 (.reg 26) (.const 1005)) ∧
    D (.seq false) [0x0ed7ed00] (.divn 13 (.reg 31) (.reg 20)) ∧
    D (.seq false) [0x11449e40] (.rem 20 (.reg 4) (.lit 0xfffffff9#32)) ∧
    D (.seq false) [0x13b537c0, 0x00001f80] (.remn 27 (.reg 9) (.const 1008)) := by decide +kernel

/-- Words of arithmetic (R249), written out from the spec's layouts. -/
theorem test_decode_ar_1 :
    D (.seq false) [0x1425cf40] (.and 2 (.reg 14) (.reg 29)) ∧
    D (.seq false) [0x16967d80] (.or 9 (.reg 19) (.lit 0xfffffff6#32)) ∧
    D (.seq false) [0x190717c0, 0x00001f98] (.xor 16 (.reg 24) (.const 1011)) ∧
    D (.seq false) [0x1b77a980] (.andn 23 (.reg 29) (.reg 6)) ∧
    D (.seq false) [0x1de45cc0] (.orn 30 (.reg 2) (.lit 0xfffffff3#32)) ∧
    D (.seq false) [0x1e54f7c0, 0x00001fb0] (.shl 5 (.reg 7) (.const 1014)) ∧
    D (.seq false) [0x20c58bc0] (.shr 12 (.reg 12) (.reg 15)) ∧
    D (.seq false) [0x23363bc0] (.sra 19 (.reg 17) (.lit 15)) ∧
    D (.seq false) [0x25a6d7c0, 0x00001fc8] (.rol 26 (.reg 22) (.const 1017)) := by decide +kernel

/-- Words of arithmetic (R249), written out from the spec's layouts. -/
theorem test_decode_ar_2 :
    D (.seq false) [0x26176e00] (.ror 1 (.reg 27) (.reg 24)) ∧
    D (.seq false) [0x28841bc0] (.min 8 (.reg 0) (.lit 15)) ∧
    D (.seq false) [0x2af4b7c0, 0x00001fe0] (.max 15 (.reg 5) (.const 1020)) ∧
    D (.seq false) [0x2d654840] (.minn 22 (.reg 10) (.reg 1)) ∧
    D (.seq false) [0x2fd5fbc0] (.maxn 29 (.reg 15) (.lit 15)) ∧
    D (.seq false) [0x30452000] (.clz 4 (.reg 9)) ∧
    D (.seq false) [0x32552000] (.ctz 5 (.reg 9)) ∧
    D (.seq false) [0x34652000] (.popc 6 (.reg 9)) := by decide +kernel

/-- Words of bit fields, comparisons, literals (R249), written out from the spec's layouts. -/
theorem test_decode_bits :
    D (.seq false) [0x3654db07] (.bfx 5 (.reg 6) (.lit 12) 7) ∧
    D (.seq false) [0x38586a3f] (.bfi 5 (.const 3) (.reg 8) 63) ∧
    D (.seq false) [0x3a1448d1] (.sel 1 (.reg 2) (.reg 3) 17) ∧
    D (.seq false) [0x3c145fc5] (.cmp .gen 1 (.reg 2) (.lit 0xffffffff#32)) ∧
    D (.seq false) [0x3e1448c6] (.lea 1 (.reg 2) (.reg 3) 6) ∧
    D (.seq false) [0x409e0000, 0xdeadbeef] (.lit 9 (.lit 0xdeadbeef#32)) ∧
    D (.seq false) [0x409e0001, 0xdeadbeef, 0x12345678] (.litWide 9 0xdeadbeef#32 0x12345678#32) := by decide +kernel

/-- Words of control (R249, R258), written out from the spec's layouts. -/
theorem test_decode_ctl_0 :
    D (.seq false) [0x43fffffd] (.br (BitVec.ofInt 25 (-3))) ∧
    D (.seq false) [0x447fffff] (.bcZ 7 (BitVec.ofInt 20 (-1))) ∧
    D (.seq false) [0x47f7ffff] (.bcNz 31 0x7ffff#20) ∧
    D (.seq false) [0x48123456] (.call 0x123456#25) ∧
    D (.seq false) [0x4a07c000] (.ret 30) ∧
    D (.seq false) [0x4c058000] (.jr 12) ∧
    D (.seq false) [0x4e300005, 0x000080a0] (.loopb 3 5 { lq := none, ve := some 2, sq := none, lp := some 0, wq := none, cq := none }) ∧
    D (.seq false) [0x50246000] (.loopx 2 (.reg 3)) ∧
    D (.seq false) [0x520c2000] (.bopush (.lit 1)) := by decide +kernel

/-- Words of control (R249, R258), written out from the spec's layouts. -/
theorem test_decode_ctl_1 :
    D (.seq false) [0x54600009] (.bobc 6 9) := by decide +kernel

/-- Words of tasks and control registers (R249), written out from the spec's layouts. -/
theorem test_decode_task_0 :
    D (.seq false) [0x56145800] (.launch 1 2 (.lit 0)) ∧
    D (.seq false) [0x581448c0] (.spawn 1 2 (.reg 3)) ∧
    D (.seq false) [0x5a144000] (.join 1 2) ∧
    D (.seq false) [0x5c048950] (.suspendAs 4 5 16) ∧
    D (.seq true) [0x5c000000] (.suspendXs) ∧
    D (.seq false) [0x5e800000] (.commit 8) ∧
    D (.seq false) [0x60000000] (.retire) ∧
    D (.seq false) [0x62144000] (.cancel 1 (.reg 2)) ∧
    D (.seq false) [0x64000000] (.yield) := by decide +kernel

/-- Words of tasks and control registers (R249), written out from the spec's layouts. -/
theorem test_decode_task_1 :
    D (.seq false) [0x6600003f] (.trap 63) ∧
    D (.seq false) [0x68000000] (.eret) ∧
    D (.seq false) [0x6a30000b] (.csrr 3 .chto) ∧
    D (.seq false) [0x6c048007] (.csrw .tvec (.reg 4)) ∧
    D (.seq false) [0x6e0c6000] (.carve (.lit 3)) ∧
    D (.seq false) [0x70000000] (.fencei) ∧
    D (.seq false) [0x721448c0] (.wait 1 2 (.reg 3)) ∧
    D (.seq false) [0x00000000] (.nop) := by decide +kernel

/-- Words of memory (R339, its worked encodings among them), written out from the spec's layouts. -/
theorem test_decode_mem_0 :
    D (.seq false) [0x80645803] (.ld 6 2 0 .d none) ∧
    D (.seq false) [0x80545813] (.ld 5 2 0 .d (some .pkg)) ∧
    D (.seq false) [0x82345823] (.st 3 2 0 .d none true) ∧
    D (.seq false) [0x8800003c] (.fence (.ar .pod)) ∧
    D (.seq false) [0x8a049803] (.promote 0 4 0 .pkg) ∧
    D (.seq false) [0x84145c06, 0xfffff000] (.ldfe 1 2 0xfffff000#32 .w true) ∧
    D (.seq false) [0x86145a01] (.stfe 1 2 8 .h) ∧
    D (.seq false) [0x8c7448fb, 0x00000000] (.amo .add 7 2 (.reg 3) .d (.ar .pkg) false) ∧
    D (.seq false) [0x8c0448c2, 0x00000018] (.amo .maxn 0 2 (.reg 3) .w .none true) := by decide +kernel

/-- Words of memory (R339, its worked encodings among them), written out from the spec's layouts. -/
theorem test_decode_mem_1 :
    D (.seq false) [0x8e1448eb] (.cas 1 2 (.reg 3) .d (.rel .pod)) ∧
    D (.seq false) [0x901448c2, 0x00000006] (.famo .max 1 2 (.reg 3) .none false) ∧
    D (.seq false) [0x92000002] (.amofence .die) := by decide +kernel

/-- Words of synchronisation (R339), written out from the spec's layouts. -/
theorem test_decode_sync_0 :
    D (.seq false) [0x940d201a] (.tlwait .sq (.lit 9) .pkg) ∧
    D (.seq false) [0x96400005] (.tlread 4 .cq) ∧
    D (.seq false) [0x9804a000] (.fopen 5) ∧
    D (.seq false) [0x9a04a983] (.fpub 5 (.reg 6) .pkg) ∧
    D (.seq false) [0x9c14a981] (.fchase 1 5 (.reg 6) .quad) ∧
    D (.seq false) [0x9e04a004] (.fclose 5 .pod) ∧
    D (.seq false) [0xa004a000] (.fhalt 5) ∧
    D (.seq false) [0xa214a000] (.fread 1 5) ∧
    D (.seq false) [0xa5fc8000] (.bar 31 (.lit 4)) := by decide +kernel

/-- Words of synchronisation (R339), written out from the spec's layouts. -/
theorem test_decode_sync_1 :
    D (.seq false) [0xa7e00000] (.barw 30) ∧
    D (.seq false) [0xa8246000] (.bars 2 (.reg 3)) ∧
    D (.seq false) [0xaa0d0002] (.hbar .die (.lit 8)) ∧
    D (.seq false) [0xac145909] (.hoff 1 9 2 (.lit 4)) ∧
    D (.seq false) [0xae1448c0] (.take 1 2 (.reg 3)) ∧
    D (.seq false) [0xb0100000] (.ckpt 1) ∧
    D (.seq false) [0xb20448c0] (.fereset 2 (.reg 3)) ∧
    D (.seq false) [0xb4045901] (.pref 2 4 true) ∧
    D (.seq false) [0xb60448c0] (.cwb 2 (.reg 3)) := by decide +kernel

/-- Words of synchronisation (R339), written out from the spec's layouts. -/
theorem test_decode_sync_2 :
    D (.seq false) [0xb80448c0] (.cinv 2 (.reg 3)) ∧
    D (.seq false) [0xd60448c1] (.permit 2 (.reg 3) .quad) := by decide +kernel

/-- Words of shapes, groups, criers (R165, R200 with its examples), written out from the spec's layouts. -/
theorem test_decode_shape_0 :
    D (.seq false) [0xbaf45840] (.shld 15 2 1) ∧
    D (.seq false) [0xbce45fc0] (.shst 14 2 0xffffffff#32) ∧
    D (.seq false) [0xbe344015] (.shset 3 (.reg 2) 21) ∧
    D (.seq false) [0xc011e004] (.shget 1 15 4) ∧
    D (.seq false) [0xc3f0e003] (.tdef 127 7) ∧
    D (.seq false) [0xc4100002] (.tdrop 65) ∧
    D (.seq false) [0xc6304001] (.tget 3 34) ∧
    D (.seq false) [0xc80ca000] (.lease (.lit 5)) ∧
    D (.seq false) [0xca000000] (.unlease) := by decide +kernel

/-- Words of shapes, groups, criers (R165, R200 with its examples), written out from the spec's layouts. -/
theorem test_decode_shape_1 :
    D (.seq false) [0xcc54c002] (.cgrp 5 6 2) ∧
    D (.seq false) [0xce0448ff] (.asyreg 2 (.reg 3) 63) ∧
    D (.seq false) [0xd0700000] (.asyfence 7 0) ∧
    D (.seq false) [0xd28c2000] (.asyget 8 (.lit 1) 0) ∧
    D (.seq false) [0xd4145bc0] (.crload 1 2 (.lit 15)) := by decide +kernel

/-- Words of element-wise VE words (R133), written out from the spec's layouts. -/
theorem test_decode_ve_0 :
    D .ve [0x80680045, 0x02c00000] (.vadd { wl := true, wr := false, sl := false, sr := false } 40 (.vec 0) (.reg 5) { ty := .f32, mask := 1, sat := false, rnd := .rdn }) ∧
    D .ve [0x80a90145, 0x02c00000] (.vsub { wl := true, wr := false, sl := false, sr := false } 41 (.vec 1) (.reg 5) { ty := .f32, mask := 1, sat := false, rnd := .rdn }) ∧
    D .ve [0x80ea0245, 0x02c00000] (.vmul { wl := true, wr := false, sl := false, sr := false } 42 (.vec 2) (.reg 5) { ty := .f32, mask := 1, sat := false, rnd := .rdn }) ∧
    D .ve [0x816c0445, 0x17800000] (.vdiv { wl := true, wr := false, sl := false, sr := false } 44 (.vec 4) (.reg 5) { ty := .bf16, mask := 3, sat := true, rnd := .rup }) ∧
    D .ve [0x82700845, 0x7e000000] (.vmin { wl := true, wr := false, sl := false, sr := false } 48 (.vec 8) (.reg 5) { ty := .n16, mask := 7, sat := false, rnd := .rne }) ∧
    D .ve [0x82b10945, 0x7e000000] (.vmax { wl := true, wr := false, sl := false, sr := false } 49 (.vec 9) (.reg 5) { ty := .n16, mask := 7, sat := false, rnd := .rne }) ∧
    D .ve [0x82f20a45, 0x7e000000] (.vand { wl := true, wr := false, sl := false, sr := false } 50 (.vec 10) (.reg 5) { ty := .n16, mask := 7, sat := false, rnd := .rne }) ∧
    D .ve [0x83330b45, 0x7e000000] (.vor { wl := true, wr := false, sl := false, sr := false } 51 (.vec 11) (.reg 5) { ty := .n16, mask := 7, sat := false, rnd := .rne }) ∧
    D .ve [0x83740c45, 0x7e000000] (.vxor { wl := true, wr := false, sl := false, sr := false } 52 (.vec 12) (.reg 5) { ty := .n16, mask := 7, sat := false, rnd := .rne }) := by decide +kernel

/-- Words of element-wise VE words (R133), written out from the spec's layouts. -/
theorem test_decode_ve_1 :
    D .ve [0x83b50d45, 0x85000000] (.vshl { wl := true, wr := false, sl := false, sr := false } 53 (.vec 13) (.reg 5) { ty := .i8, mask := 2, sat := true, rnd := .rne }) ∧
    D .ve [0x83f60e45, 0x7e000000] (.vshr { wl := true, wr := false, sl := false, sr := false } 54 (.vec 14) (.reg 5) { ty := .n16, mask := 7, sat := false, rnd := .rne }) ∧
    D .ve [0x84370f45, 0x7e000000] (.vsra { wl := true, wr := false, sl := false, sr := false } 55 (.vec 15) (.reg 5) { ty := .n16, mask := 7, sat := false, rnd := .rne }) ∧
    D .ve [0x5041023f] (.vadd { wl := false, wr := true, sl := false, sr := true } 1 (.vec 2) (.vec 63) { ty := .f32, mask := 0, sat := false, rnd := .rne }) ∧
    D .ve [0x010102be, 0x003f8000, 0x0000fff8] (.vfma tok0 1 (.vec 2) (.const 62) (.const 8191) { ty := .f32, mask := 0, sat := false, rnd := .rne }) ∧
    D .ve [0x01830400, 0x01400000] (.vsqrt tok0 3 (.vec 4) { ty := .f32, mask := 0, sat := true, rnd := .rz }) ∧
    D .ve [0x01c30400, 0x61000000] (.vabs tok0 3 (.vec 4) { ty := .i16, mask := 0, sat := true, rnd := .rne }) ∧
    D .ve [0x02030400, 0xa0000000] (.vneg tok0 3 (.vec 4) { ty := .i4, mask := 0, sat := false, rnd := .rne }) := by decide +kernel

/-- Words of VE words that move, reduce and convert (R133), written out from the spec's layouts. -/
theorem test_decode_ve2_0 :
    D .ve [0x044701e0, 0x00000003, 0x00010000] (.vcmp tok0 .ge 7 (.vec 1) (.lit 0x00010000#32) { ty := .f32, mask := 0, sat := false, rnd := .rne }) ∧
    D .ve [0x04870102, 0x80060000] (.vsel tok0 7 (.vec 1) (.vec 2) 6 .i8) ∧
    D .ve [0x04c74100, 0x42000000] (.vmov tok0 7 (.reg 1) { ty := .i32, mask := 1, sat := false, rnd := .rne }) ∧
    D .ve [0x050701c3] (.vbcast tok0 7 1 (.lit 3) { ty := .f32, mask := 0, sat := false, rnd := .rne }) ∧
    D .ve [0x05470103, 0x70000000] (.vperm tok0 7 1 3 { ty := .n16, mask := 0, sat := false, rnd := .rne }) ∧
    D .ve [0x05870143, 0x00090001] (.vslide tok0 7 1 (.reg 3) (some 9) { ty := .f32, mask := 0, sat := false, rnd := .rne }) ∧
    D .ve [0x058701ff] (.vslide tok0 7 1 (.lit 0xffffffff#32) none { ty := .f32, mask := 0, sat := false, rnd := .rne }) ∧
    D .ve [0x05c70100, 0x81000000] (.vredsum tok0 7 1 { ty := .i8, mask := 0, sat := true, rnd := .rne }) ∧
    D .ve [0x06070100] (.vredmax tok0 7 1 { ty := .f32, mask := 0, sat := false, rnd := .rne }) := by decide +kernel

/-- Words of VE words that move, reduce and convert (R133), written out from the spec's layouts. -/
theorem test_decode_ve2_1 :
    D .ve [0x06470100] (.vredmin tok0 7 1 { ty := .f32, mask := 0, sat := false, rnd := .rne }) ∧
    D .ve [0x06870100, 0x00400000] (.vscan tok0 7 1 { ty := .f32, mask := 0, sat := false, rnd := .rz }) ∧
    D .ve [0x06c80102, 0x80000005] (.vdot tok0 8 1 2 5 { ty := .i8, mask := 0, sat := false, rnd := .rne }) ∧
    D .ve [0x07080102, 0x10800000] (.vwmul tok0 8 1 2 { ty := .bf16, mask := 0, sat := false, rnd := .rup }) ∧
    D .ve [0x07480400, 0x00000008] (.vcvt tok0 8 4 .i8 false { ty := .f32, mask := 0, sat := false, rnd := .rne }) ∧
    D .ve [0x07880400, 0x20500000] (.vcvtef tok0 8 4 16 .f32 false { ty := .bx8, mask := 0, sat := false, rnd := .rz }) ∧
    D .ve [0x07c80400] (.vexp2 tok0 8 (.vec 4) { ty := .f32, mask := 0, sat := false, rnd := .rne }) ∧
    D .ve [0x08080400] (.vlog2 tok0 8 (.vec 4) { ty := .f32, mask := 0, sat := false, rnd := .rne }) ∧
    D .ve [0x08480400] (.vrcp tok0 8 (.vec 4) { ty := .f32, mask := 0, sat := false, rnd := .rne }) := by decide +kernel

/-- Words of VE words that move, reduce and convert (R133), written out from the spec's layouts. -/
theorem test_decode_ve2_2 :
    D .ve [0x08880400] (.vrsqrt tok0 8 (.vec 4) { ty := .f32, mask := 0, sat := false, rnd := .rne }) := by decide +kernel

/-- Words of the other VE words (R133), written out from the spec's layouts. -/
theorem test_decode_ve3_0 :
    D .ve [0x08c80400, 0x04000000] (.vtmin tok0 8 (.vec 4) 2) ∧
    D .ve [0x09090400, 0x11000000] (.vtmex tok0 9 4 { ty := .bf16, mask := 0, sat := true, rnd := .rne }) ∧
    D .ve [0x09480406] (.vtmerge tok0 8 4 6 0) ∧
    D .ve [0x098044c7] (.tmtab tok0 4 7) ∧
    D .ve [0x09c04400] (.tmshape tok0 (.reg 4)) ∧
    D .ve [0x0a080406] (.vsortk tok0 8 4 6 { ty := .f32, mask := 0, sat := false, rnd := .rne }) ∧
    D .ve [0x0a480406, 0x50050000] (.vsegsum tok0 8 4 6 5 { ty := .n32, mask := 0, sat := false, rnd := .rne }) ∧
    D .ve [0x0a830400, 0x42000002] (.vpushc tok0 3 4 2 .i32 1) ∧
    D .ve [0x0ac40000, 0x00050001] (.vpopc tok0 4 5 1 .f32) := by decide +kernel

/-- Words of the other VE words (R133), written out from the spec's layouts. -/
theorem test_decode_ve3_1 :
    D .ve [0x0b010246, 0x0003000b] (.vchain tok0 65 2 (.reg 6) (some 67) false .rne) ∧
    D .ve [0x0b410203, 0x00000009] (.mlog tok0 1 2 3 9) ∧
    D .ve [0x0ba10200, 0x80000000] (.mpopc tok0 33 2 .i8) ∧
    D .ve [0x0be10700] (.mfirst tok0 33 7 .f32) := by decide +kernel

/-- Words of LQ words (R347), written out from the spec's layouts. -/
theorem test_decode_lq :
    D .lq [0x004442c0] (.vld { w := false, s := false, lp := false } 4 2 0 .f32 0 none) ∧
    D .lq [0x584442c5, 0x20074000] (.vld { w := true, s := true, lp := true } 4 2 5 .bx8 0 (some 7)) ∧
    D .lq [0x00844206, 0x46000000] (.vldg { w := false, s := false, lp := false } 4 2 6 .i32 3) ∧
    D .lq [0x00c402c0, 0x10000005] (.vldt { w := false, s := false, lp := false } 4 66 (.lit 0) 2 .bf16) ∧
    D .lq [0x110442c0, 0x80000001] (.vldfe { w := false, s := true, lp := false } 4 2 0 true .i8) := by decide +kernel

/-- Words of SQ words (R347), written out from the spec's layouts. -/
theorem test_decode_sq :
    D .sq [0x804442ff, 0x02000001] (.vst { w := true, s := false, lp := false } 4 2 0xffffffff#32 .f32 1 none true) ∧
    D .sq [0x00844206, 0x50000001] (.vsts { w := false, s := false, lp := false } 4 2 6 .n32 0 true) ∧
    D .sq [0x00c40249, 0x0000001a] (.vstt { w := false, s := false, lp := false } 4 2 (.reg 9) 1 true true .f32) ∧
    D .sq [0x210442c0, 0x80000000] (.vstfe { w := false, s := true, lp := false } 4 2 0 .i8) ∧
    D .sq [0x01404205, 0x00060010] (.vamo { w := false, s := false, lp := false } .add 0 2 5 (.vec 6) .f32 0 true) := by decide +kernel

/-- Words of LP words (R177), written out from the spec's layouts. -/
theorem test_decode_lp :
    D .lp [0x80400000] (.chainb { wl := true, wr := false, sl := false, sr := false }) ∧
    D .lp [0x00800000, 0x0000012c, 0xcafef00d] (.chaine tok0 300 0xcafef00d#32) ∧
    D .lp [0x00c70102, 0x20054002] (.mma tok0 7 1 66 (.reg 5) .bx8) ∧
    D .lp [0x01030102, 0x1000c001] (.mmaz tok0 3 65 2 (.lit 0) .bf16) ∧
    D .lp [0x01460000] (.accz tok0 6) ∧
    D .lp [0x01860900, 0x81424004] (.accst tok0 6 9 (.reg 2) true .i8 true .rz) ∧
    D .lp [0x01c60900, 0x00024001] (.accld tok0 6 73 (.reg 2) .f32) := by decide +kernel

/-- Words of WQ words (R359), written out from the spec's layouts. -/
theorem test_decode_wq :
    D .wq [0x004504c0, 0x0000003c] (.cpy 5 4 (.lit 0) (some 3) true) ∧
    D .wq [0x00804142, 0x00034000] (.cpym 1 2 (.reg 3) none) ∧
    D .wq [0x00c10042, 0x0003c1f9] (.cpyf 65 (.reg 2) (.lit 3) (some 31) false) ∧
    D .wq [0x01004142, 0x00000003] (.trig 1 (.reg 2) .pkg) := by decide +kernel

/-- Words of CQ words (R200), written out from the spec's layouts. -/
theorem test_decode_cq :
    D .cq [0x00404344] (.ttset (.reg 3) 4) ∧
    D .cq [0x008043c0] (.tready (.reg 3) (.lit 0)) ∧
    D .cq [0x00c04300] (.cred (.reg 3)) := by decide +kernel

/-- Words that the decoder refuses, by class and CAUSE (R78, R82): a nonzero unused field, an opcode without a row, a condition of 6, a
kind that the form does not take, a scope of 5, a continuation too many, a token bit on a WQ word, a type code 12. -/
theorem test_decode_refuses :
    decode (.seq false) 1 [] = .bad 3 0x20 0 ∧ decode (.seq false) (0x3A * 2 ^ 25) [] = .bad 2 0x10 0 ∧
    decode (.seq false) 0x3C144846 [] = .bad 2 0x14 0 ∧ decode (.seq false) 0x4A0C1000 [] = .bad 2 0x12 0 ∧
    decode (.seq false) 0x92000005 [] = .bad 2 0x14 0 ∧ decode (.seq false) 0x02144080 [7] = .bad 2 0x11 0 ∧
    decode .wq 0x104504C0 [0x3C] = .bad 3 0x22 0 ∧ decode .ve 0x00410203 [0xC0000000] = .bad 3 0x21 1 := by decide +kernel

/-! ## Ill-formed terms, one for each check of `Instr.wf` -/

def mF32 : Mods := { ty := .f32, mask := 0, sat := false, rnd := .rne }
def tk0 : Tok1 := { w := false, s := false, lp := false }

theorem test_illformed_sequencer :
    (Instr.loopb 1 0 { lq := some 0, ve := none, sq := none, lp := none, wq := none, cq := none }).wf = false ∧
    (Instr.loopb 1 1 { lq := none, ve := none, sq := none, lp := none, wq := none, cq := none }).wf = false ∧
    (Instr.csrw .clock (.reg 1)).wf = false ∧ (Instr.fence .none).wf = false ∧ (Instr.promote 1 2 0 .quad).wf = false ∧
    (Instr.amo .add 1 2 (.reg 3) .b .none false).wf = false ∧ (Instr.amo .add 1 2 (.reg 3) .d .none true).wf = false ∧
    (Instr.amo .add 0 2 (.reg 3) .d (.acq .pod) true).wf = false ∧ (Instr.cas 1 2 (.reg 3) .h .none).wf = false ∧
    (Instr.famo .swap 1 2 (.reg 3) .none false).wf = false ∧ (Instr.famo .add 1 2 (.reg 3) .none true).wf = false ∧
    (Instr.hbar .core (.reg 1)).wf = false := by decide +kernel

theorem test_illformed_ve :
    (Instr.vadd tok0 1 (.vec 1) (.vec 2) { mF32 with ty := .bx8 }).wf = false ∧ (Instr.vsub tok0 1 (.vec 1) (.vec 2) { mF32 with ty := .i8, rnd := .rz }).wf = false ∧
    (Instr.vfma tok0 1 (.lit 100) (.lit 100) (.lit 100) mF32).wf = false ∧ (Instr.vdiv tok0 1 (.vec 1) (.vec 2) { mF32 with ty := .i32 }).wf = false ∧
    (Instr.vabs tok0 1 (.vec 1) { mF32 with ty := .n8 }).wf = false ∧ (Instr.vneg tok0 1 (.vec 1) { mF32 with sat := true }).wf = false ∧
    (Instr.vmin tok0 1 (.vec 1) (.vec 2) { mF32 with sat := true }).wf = false ∧ (Instr.vshl tok0 1 (.vec 1) (.vec 2) mF32).wf = false ∧
    (Instr.vshr tok0 1 (.vec 1) (.vec 2) { mF32 with ty := .i8, sat := true }).wf = false ∧ (Instr.vcmp tok0 .ltn 1 (.vec 1) (.vec 2) mF32).wf = false ∧
    (Instr.vsel tok0 1 (.vec 1) (.vec 2) 1 .bx4).wf = false ∧ (Instr.vmov tok0 1 (.reg 1) { mF32 with ty := .bx8 }).wf = false ∧
    (Instr.vmov tok0 1 (.vec 1) { mF32 with ty := .bx8, mask := 1 }).wf = false ∧ (Instr.vbcast tok0 1 2 (.const 1) mF32).wf = false ∧
    (Instr.vslide tok0 1 2 (.vec 1) none mF32).wf = false ∧ (Instr.vperm tok0 1 2 3 { mF32 with ty := .i8 }).wf = false ∧
    (Instr.vredsum tok0 1 2 { mF32 with sat := true }).wf = false ∧ (Instr.vredmax tok0 1 2 { mF32 with rnd := .rup }).wf = false ∧
    (Instr.vdot tok0 1 2 3 0 { mF32 with ty := .i4 }).wf = false ∧ (Instr.vdot tok0 1 2 3 0 { mF32 with ty := .i16 }).wf = false := by decide +kernel

theorem test_illformed_ve_groups :
    (Instr.vwmul tok0 1 2 3 { mF32 with ty := .bf16 }).wf = false ∧ (Instr.vwmul tok0 2 2 3 mF32).wf = false ∧
    (Instr.vcvt tok0 1 2 .f32 false mF32).wf = false ∧ (Instr.vcvt tok0 1 2 .bf16 true mF32).wf = false ∧ (Instr.vcvt tok0 1 4 .bf16 false mF32).wf = false ∧
    (Instr.vcvtef tok0 8 4 16 .f32 false { mF32 with ty := .bx8, rnd := .rup }).wf = false ∧
    (Instr.vcvtef tok0 16 4 16 .f32 false { mF32 with ty := .bx8 }).wf = false ∧
    (Instr.vtmin tok0 1 (.vec 2) 0).wf = false ∧ (Instr.vtmex tok0 1 3 mF32).wf = false ∧ (Instr.vtmerge tok0 2 4 5 0).wf = false ∧
    (Instr.tmtab tok0 1 0).wf = false ∧ (Instr.tmshape tok0 (.lit 1)).wf = false ∧ (Instr.vsortk tok0 3 1 2 mF32).wf = false ∧
    (Instr.vsegsum tok0 1 2 3 4 { mF32 with ty := .i8 }).wf = false ∧ (Instr.vpushc tok0 1 3 1 .f32 0).wf = false ∧
    (Instr.vpopc tok0 2 3 2 .f32).wf = false ∧ (Instr.vchain tok0 1 2 (.lit 1) none false .rne).wf = false := by decide +kernel

theorem test_illformed_queues :
    (Instr.vld tk0 1 2 0 .bx8 0 none).wf = false ∧ (Instr.vld tk0 1 2 0 .bx8 1 (some 3)).wf = false ∧ (Instr.vst tk0 1 2 0 .f32 0 (some 3) false).wf = false ∧
    (Instr.vldg tk0 1 2 3 .bf16 0).wf = false ∧ (Instr.vsts tk0 1 2 3 .i8 0 false).wf = false ∧ (Instr.vldt tk0 1 2 (.vec 1) 0 .f32).wf = false ∧
    (Instr.vldt tk0 1 2 (.reg 1) 1 .f32).wf = false ∧ (Instr.vstt tk0 2 2 (.reg 1) 2 false false .f32).wf = false ∧
    (Instr.vldfe tk0 1 2 0 false .bx4).wf = false ∧ (Instr.vstfe tk0 1 2 0 .bx4).wf = false ∧
    (Instr.vamo tk0 .minn 1 2 3 (.vec 4) .f32 0 false).wf = false ∧ (Instr.vamo tk0 .add 1 2 3 (.vec 4) .f32 0 true).wf = false ∧
    (Instr.mma tok0 1 2 3 (.reg 1) .f32).wf = false ∧ (Instr.mmaz tok0 1 2 3 (.vec 1) .bf16).wf = false ∧
    (Instr.accst tok0 1 2 (.vec 1) false .f32 false .rne).wf = false ∧ (Instr.accld tok0 1 2 (.vec 1) .f32).wf = false ∧
    (Instr.cpy 1 2 (.vec 1) none false).wf = false ∧ (Instr.cpym 1 2 (.vec 1) none).wf = false ∧ (Instr.cpyf 1 (.reg 1) (.vec 1) none false).wf = false ∧
    (Instr.trig 1 (.vec 1) .pod).wf = false ∧ (Instr.ttset (.vec 1) 1).wf = false ∧ (Instr.tready (.reg 1) (.vec 1)).wf = false ∧
    (Instr.cred (.vec 1)).wf = false := by decide +kernel

/-- The words of the worked lines of R84. -/
theorem test_decode_worked_line :
    D .ve [0x00C40506, 0x10000000] (.vmul tok0 4 (.vec 5) (.vec 6) { mF32 with ty := .bf16 }) ∧
    D .ve [0x01080405, 0x10060000] (.vfma tok0 8 (.vec 4) (.vec 5) (.vec 6) { mF32 with ty := .bf16 }) ∧
    D (.seq false) [0x43FFFFFE] (.br (BitVec.ofInt 25 (-2))) := by decide +kernel

/-! ## A small state: one core whose task runs, with six pages in its TLB -/

def q0 : SeqId := { core := 0, xs := false }
def q1 : SeqId := { core := 0, xs := true }

/-- A leaf of a 64 KiB page. -/
def leafAt (base home : Nat) (ms ex : Bool) : Leaf :=
  { base := base, sz := 0, home := home, ms := ms, cmp := false, hc := false, ckp := false, ex := ex, wr := true, rd := true, slice := 0 }

/-- Pages at 0x00000 (uncached, executable), 0x10000 (uncached), 0x20000 (cached), 0x30000 (core-pinned), 0x40000 (memory-side) and
0x50000 (SYC space). -/
def pages : List TlbEntry :=
  [⟨0, 0, leafAt 0x400000 3 false true⟩, ⟨0, 0x10000, leafAt 0x100000 3 false false⟩, ⟨0, 0x20000, leafAt 0x200000 0 false false⟩,
   ⟨0, 0x30000, leafAt 0 2 false false⟩, ⟨0, 0x40000, leafAt 0x300000 0 true false⟩, ⟨0, 0x50000, leafAt 0xF000000000 3 false false⟩]

/-- A line of `nop` words for the sequencer. -/
def nopLine : FLine := lineOfWords 0x1000 [0x11111110, 0, 0, 0, 0, 0, 0, 0]

def seqT : Seqr :=
  { Seqr.reset with
    regs := [(1, ⟨0x10000, false⟩), (2, ⟨0x20000, false⟩), (3, ⟨0x30000, false⟩), (4, ⟨0x40000, false⟩), (5, ⟨5, false⟩),
      (6, ⟨7, true⟩), (8, ⟨0x8000000000000000, false⟩), (9, ⟨0xFFFFFFFFFFFFFFFF, false⟩), (10, ⟨0x1004, false⟩), (11, ⟨0x1000, false⟩),
      (12, ⟨0x10000000000004, false⟩), (13, ⟨1, false⟩), (14, ⟨16, false⟩), (15, ⟨0x10040, false⟩), (16, ⟨64, false⟩)],
    pcLine := 0x1000, pcLane := 1, line := some nopLine, fetchTlb := pages, status := .live, ir := [0], next := 0x1008 }

def coreT : Core := { Core.reset with task := some plainTask, as := seqT, xs := seqT, coreTlb := pages }

/-- The state of the witnesses. -/
def sT : State := { State.reset with cores := [(0, coreT)], syc := { Syc.reset with state := 5 } }

/-- `sT` with its core, or its sequencers, changed. -/
def withCore (f : Core → Core) : State := { sT with cores := [(0, f coreT)] }
def withSeq (f : Seqr → Seqr) : State := withCore fun x => { x with as := f x.as }
def withTask (f : Task → Task) : State := withCore fun x => { x with task := some (f plainTask) }

/-- The operations run in order from `s`, and what they answer and leave meets `p`: hypotheses of the form `m s = .ok a t` are met
together by what the run gives. -/
def meets {α : Type} (m : Mx α) (s : State) (p : α → State → Bool := fun _ _ => true) : Bool :=
  match m s with
  | .ok a t => p a t
  | .error _ _ => false

/-- The same for an operation that ends in a fault or a stall. -/
def fails {α : Type} (m : Mx α) (s : State) (p : Stop → Bool := fun _ => true) : Bool :=
  match m s with
  | .ok _ _ => false
  | .error e _ => p e

/-- A target in memory of this package, of effective home `h`, that an access of core 0 takes or leaves to L1 as `l1` says. -/
def physOk (s : State) (l1 : Bool) (h : Nat → Bool) : Target → Bool
  | .phys pa l => s.isLocal pa && paIdx pa != 15 && s.usesL1 (.core 0) pa l == l1 && h l.effHome
  | .scratch _ => false
/-- The hypothesis `Direct` of a target. -/
def directOk (s : State) : Target → Bool
  | .phys pa l => s.isLocal pa && paIdx pa != 15 && l.ckp == false && ((s.core 0).l1Of (lineOf pa)).dirty == 0
  | .scratch _ => false

/-- The next state of an instruction meets `p`. -/
def nextMeets (o : Out) (p : State → Bool) : Bool :=
  match o with
  | .next t => p t
  | _ => false

/-- An entry of an engine queue, as routed. -/
def entryOf0 (i : Instr) (a : SVal := SVal.zero) (b : SVal := SVal.zero) (c : SVal := SVal.zero) : Entry :=
  { num := 1, instr := i, words := [], xs := false, a := a, b := b, c := c, ta := none, tb := none, tc := none, tms := 0, tmq := false, ks := 0, ksPois := 0,
    hasKs := false, phase := .waiting, iter := none, pos := 0, units := 0, bytes := 0, flags := 0, asy := [], since := none, olds := [], wrote := 0 }

/-- A core whose queue `e` holds one entry. -/
def withEntry (e : Eng) (n : Entry) (f : Core → Core := id) : State :=
  withCore fun x => f (x.setEq e { EQueue.reset with ents := [n], nextNum := 2 })

/-! ## Witnesses: scalar words -/

/-- A register, a literal and a constant-bank word are read; x0 is the clear zero (R19), and a poisoned register is read as such. -/
theorem wit_reads :
    Reads q0 (.reg 8) sT ⟨0x8000000000000000, false⟩ sT ∧ Reads q0 (.reg 0) sT ⟨0, false⟩ sT ∧ Reads q0 (.reg 6) sT ⟨7, true⟩ sT ∧
    Reads q0 (.lit 0xFFFFFFFF) sT ⟨0xFFFFFFFFFFFFFFFF, false⟩ sT ∧ meets (opd q0 (.const 8191)) sT (fun v _ => v.p = false) = true :=
  ⟨rfl, rfl, rfl, rfl, by decide +kernel⟩

/-- The clauses of a division: by zero, the signed overflow, and neither; and of `sel`: a nonzero and a zero condition. -/
theorem wit_division_select :
    (sT.reg q0 0).v = 0 ∧ ((sT.reg q0 8).v.toInt = -2 ^ 63 ∧ (sT.reg q0 9).v.toInt = -1) ∧ (sT.reg q0 5).v ≠ 0 ∧ (sT.reg q0 13).v ≠ 0 := by
  decide +kernel

/-- Branches: outside a body, a target at 0 and at the last line below 2^52, and one line beyond each; clear and poisoned conditions;
an outcome to take, none, room in the own queue, and none. -/
theorem wit_branches :
    (sT.seqr q0).inBody = none ∧ (0x1000 + 32 * (-128 : Int) = 0) ∧ ¬(0 ≤ 0x1000 + 32 * (-129 : Int)) ∧
    (let s := withSeq fun x => { x with pcLine := 0xFFFFFFFFFFFE0 }
     ((s.seqr q0).pcLine.toNat : Int) + 32 * 0 < 2 ^ 52 ∧ ¬(((s.seqr q0).pcLine.toNat : Int) + 32 * 1 < 2 ^ 52)) ∧
    (sT.reg q0 5).p = false ∧ (sT.reg q0 6).p = true ∧ (sT.seqr q1).outq = [] ∧ (sT.seqr q0).outq.length < 16 ∧
    ((withCore fun x => { x with xs := { x.xs with outq := [true, false] } }).seqr q1).outq = true :: [false] ∧
    16 ≤ ((withSeq fun x => { x with outq := List.replicate 16 true }).seqr q0).outq.length := by decide +kernel

/-- Points in a register: at lane 1, at lane 0, and at 2^52 (R62, R257). -/
theorem wit_transfers :
    (let v := (sT.reg q0 10).v.toNat; v / 4 % 8 ≠ 0 ∧ v % 4 = 0 ∧ v < 2 ^ 52) ∧ (sT.reg q0 11).v.toNat / 4 % 8 = 0 ∧
    (let v := (sT.reg q0 12).v.toNat; v / 4 % 8 ≠ 0 ∧ v % 4 = 0 ∧ 2 ^ 52 ≤ v) := by decide +kernel

/-- `loopb`: a count, a target, free and armed queues, a poisoned count and one of 2^63; `loopx`: no bundle, a bundle of the task, one that
has ended, one of no iterations, and one whose queue has produced its last iteration; an iteration that may be produced. -/
def armVe : Arming := { lq := none, ve := some 0, sq := none, lp := none, wq := none, cq := none }
def bundle1 : Bundle :=
  { id := 1, xs := false, count := 3, point := 0x1004, words := [], endLine := 0x1040, routing := false, last := 2, ended := false,
    arms := [(1, { skew := 0, template := [entryOf0 (.mpopc tok0 1 1 .f32)], produced := 0, pos := 0, completed := 0, byIter := [] })], toks := [], bodyPos := 1, bad := none }
def sBundle : State := withCore fun x =>
  { x with bundles := [bundle1], ve := { EQueue.reset with armed := some 1 }, as := { x.as with lastBundle := some 1 } }
def bundle2 : Bundle := { bundle1 with arms := bundle1.arms.map fun a => (a.1, { a.2 with produced := 3 }) }
def sCut : State := withCore fun x =>
  { x with bundles := [bundle2], ve := { EQueue.reset with armed := some 1 }, as := { x.as with lastBundle := some 1 } }
theorem wit_loops :
    ((sT.reg q0 6).p = true ∧ (sT.reg q0 8).p = false ∧ 2 ^ 32 ≤ (sT.reg q0 8).v.toNat) ∧ bundle1.ended = false ∧
    (({ bundle1 with ended := true } : Bundle).count ≠ 0 ∧ ({ bundle1 with count := 0 } : Bundle).count = 0) ∧
    (nextMeets (exec (.loopx 7 (.lit 1)) sCut) fun t => (t.core 0).ve.armed == some 1 && (t.reg q0 7).v == 2) = true ∧
    (min bundle2.last (max 1 (bundle2.started - 1)) < 3 ∧ bundle2.last < 3) ∧ bundle1.arms.map (fun a => decide (a.2.produced ≤ bundle1.last)) = [true] ∧
    ((sT.reg q0 5).p = false ∧ (sT.reg q0 5).v.toNat < 2 ^ 32) ∧ (∀ e ∈ armsOf armVe, ((sT.core 0).eq e.1).armed = none) ∧
    (∃ e ∈ armsOf armVe, ((sBundle.core 0).eq e.1).armed ≠ none) ∧ ((sT.core 0).seqr false).lastBundle = none ∧
    (((sBundle.core 0).seqr false).lastBundle.bind (sBundle.core 0).bundle = some bundle1 ∧ bundle1.count ≠ 0) ∧
    (((sBundle.core 0).eq .ve).armed.bind (sBundle.core 0).bundle = some bundle1 ∧
      (bundle1.arms.find? (·.1 == Eng.ve.code)).map (·.2.template[0]?.isSome) = some true ∧ bundle1.mayStart 0 0 = true ∧
      ((sBundle.core 0).eq .ve).full .ve = false) := by decide +kernel

/-- A state whose context has a record area at 0x10000, and whose AS has a handler. -/
def sHandler : State :=
  { (withSeq fun x => { x with tvec := 0x2000 }) with ctxs := [(0, { Ctx.reset with frb := 0x10000 })] }
/-- The same with the socket of its record area under rewrite. -/
def sHeld : State := { sHandler with smap := [(0, { socket := 6, rewrite := some 7 })] }
def trapRec (s : State) : FRec := s.seqRec q0 (s.seqr q0).point (mkFault 0 (detailOf 63 0 0x80))
/-- A fault taken by a handler, by none, where the record area is absent, and where a remapping holds it; a record area that the pages do
not map, and one on an uncached page. -/
theorem wit_fault_taking :
    meets (writeRecord q0 (trapRec sHandler)) sHandler = true ∧
    (let s := withSeq fun x => { x with tvec := 0x2000 }
     (s.ctx 0).frb = 0 ∧ fails (writeRecord q0 (trapRec s)) s (fun e => match e with | .fault _ => true | _ => false) = true) ∧
    ((sHeld.seqr q0).tvec ≠ 0 ∧ fails (writeRecord q0 (trapRec sHeld)) sHeld (fun e => match e with | .stall _ => true | _ => false) = true) ∧
    (let k := sHandler.ctx 0
     k.frb ≠ 0 ∧ meets (do
       vwrite (chap13 0) (.core 0) 0 0x10000 64 ((trapRec sHandler).toBytes64 k.fseq) false
       release 0 .core) sHandler = true ∧
     meets (access (chap13 0) (.core 0) 0 .w 0x10000 64 false) sHandler (fun t u => match t with
       | .phys pa l => !u.usesL1 (.core 0) pa l && directOk u t && (u.core 0).remoteOut == 0
       | _ => false) = true) ∧
    (let s := { sHandler with ctxs := [(0, { Ctx.reset with en := true, frb := 0x90000 })] }
     fails (access (chap13 0) (.core 0) 0 .w 0x90000 64 false) s (fun e => match e with | .fault _ => true | _ => false) = true) ∧
    (sT.core 0).task = some plainTask := by decide +kernel

/-- A trap with a handler, without one, and inside one; a return with its point at lane 1, at lane 0 and at 2^52; a pre-emption that waits
for it. -/
theorem wit_traps :
    (let s (p : Word) := withSeq fun x => { x with handler := true, tepc := p }
     ((s 0x1000).seqr q0).tepc.toNat / 4 % 8 = 0 ∧ 2 ^ 52 ≤ ((s 0x10000000000004).seqr q0).tepc.toNat) ∧
    (let s := withTask fun t => { t with preempt := true, committed := false }
     (s.core 0).task.map (fun u => (u.preempt, u.committed)) = some (true, false)) ∧ plainTask.preempt = false ∧
    (0 < ((withCore fun x => { x with remoteOut := 1 }).core 0).remoteOut ∧ (sHandler.core 0).remoteOut = 0 ∧
      (sHandler.seqr q0).tvec.toNat < 2 ^ 52 ∧ (sHandler.seqr q0).tvec.toNat % 32 = 0) ∧
    ((sHandler.seqr q0).handler = false ∧ (sHandler.seqr q0).tvec ≠ 0 ∧
      meets (writeRecord q0 (sHandler.seqRec q0 (sHandler.seqr q0).point (mkFault 0 (detailOf 63 0 0x80)))) sHandler = true) ∧
    ((sT.seqr q0).handler = false ∧ (sT.seqr q0).tvec = 0) ∧
    (let s := withSeq fun x => { x with handler := true, tepc := 0x1004 }
     (s.seqr q0).handler = true ∧ (s.seqr q0).inBody = none ∧ (s.seqr q0).tepc.toNat / 4 % 8 ≠ 0 ∧ (s.seqr q0).tepc.toNat % 4 = 0) := by
  decide +kernel

/-- Values for `csrw`: a line below 2^52 and at 2^52, a value off a line, `cctl` values with and without reserved bits. -/
theorem wit_control_registers :
    ((sT.reg q0 11).v.toNat % 32 = 0 ∧ (sT.reg q0 11).v.toNat < 2 ^ 52) ∧ (sT.reg q0 10).v.toNat % 32 ≠ 0 ∧ 2 ^ 52 ≤ (sT.reg q0 12).v.toNat ∧
    (sT.reg q0 13).v.toNat / 2 % 2 ^ 61 = 0 ∧ (sT.reg q0 5).v.toNat / 2 % 2 ^ 61 ≠ 0 ∧ (sT.core 0).task = some plainTask ∧
    (sT.reg q0 6).p = true ∧ encode (.csrw .clock (.reg 1)) ≠ [] := by decide +kernel

/-! ## Witnesses: tasks -/

/-- Two cores of one team. -/
def sTeam : State := { sT with cores := [(0, coreT), (1, coreT)] }
/-- Two members at the barrier, with equal and with differing codes. -/
def sMeet (j : Nat) : State := { sT with cores := [(0, { coreT with task := some { plainTask with carve := some (false, 3) } }),
  (1, { coreT with task := some { plainTask with carve := some (true, j) } })] }
theorem wit_carve_meets : (sMeet 3).carveArrivals 0 = [(0, false, 3), (1, true, 3)] ∧ (sMeet 2).carveArrivals 0 = [(0, false, 3), (1, true, 2)] ∧
    (∀ j ∈ [2, 3], (sMeet j).carveOf 0 = some (false, 3) ∧ ∀ a ∈ (sMeet j).carveArrivals 0, (sMeet j).carveLines a.1 a.2.2 = [] ∧
      (sMeet j).wbStops a.1 ((sMeet j).carveLines a.1 a.2.2) = none) := by decide +kernel

theorem wit_carve :
    (sT.reg q0 13).p = false ∧ carveCode (sT.reg q0 0).v.toNat ≠ none ∧ carveCode (sT.reg q0 5).v.toNat = none ∧ sT.teamCores 0 = [0] ∧
    plainTask.carve = none ∧ plainTask.gone = false ∧ (sT.reg q0 6).p = true ∧ (1 ∈ sTeam.teamCores 0 ∧ sTeam.carveOf 1 = none) ∧
    (let s := { sTeam with cores := [(0, coreT), (1, { coreT with task := some { plainTask with carve := some (false, 3) } })] }
     s.teamCores 0 = [0, 1] ∧ (s.carveOf 1).isSome = true) := by decide +kernel

/-- A wait that stands on the line of 0x10000, its end by a write, by its limit, and neither; a `wait` with b = 0 and with b = 5. -/
def sWaiting (hit : Bool) (since : Nat) : State :=
  { (withSeq fun x => { x with wait := .waitLine, waitSince := since, waitArg := 5, cur := some (.wait 7 1 (.reg 5)) }) with
    waits := [{ seq := q0, line := 0x100000 / 128, hit := hit }], clock := 10 }
theorem wit_wait :
    ((sT.reg q0 1).p = false ∧ (sT.reg q0 5).v.toNat < 2 ^ 24 ∧ meets (resolve (chap10 1) (.core 0) 0 .r 0x10000) sT = true ∧ (sT.reg q0 0).v = 0 ∧
      (sT.reg q0 5).v ≠ 0) ∧
    (let s := sWaiting true 5
     (s.seqr q0).wait = .waitLine ∧ (s.seqr q0).cur = some (.wait 7 1 (.reg 5)) ∧ (s.waits.find? (·.seq = q0)).map (·.hit) = some true) ∧
    (let s := sWaiting false 5
     (s.waits.find? (·.seq = q0)).map (·.hit) = some false ∧ (s.seqr q0).waitSince + (s.seqr q0).waitArg ≤ s.clock) ∧
    (let s := sWaiting false 6
     s.clock < (s.seqr q0).waitSince + (s.seqr q0).waitArg) ∧
    (sT.isLocal 0x10003F = true ∧ 0x10003F % 64 + 1 ≤ 64 ∧ { seq := q0, line := lineOf 0x10003F, hit := false } ∈ (sWaiting false 5).waits) := by decide +kernel

/-- A task that has not committed, with and without enqueues, whose generation is current (0 of an empty table) or stale. -/
def enq0 : Enq := { spawn := false, img := 0, pois := 0, queue := 0, ctx := 0, trig := none }
def sFresh (buf : List Enq) (gen : Word) : State :=
  withTask fun t => { t with committed := false, commitStale := none, buffered := buf, jobid := gen * 0x100000000 }
def genIs (s : State) (ctx job : Nat) (p : Nat → Bool) : Bool := meets (readGen ctx job) s fun g _ => p g
theorem wit_commit :
    plainTask.commitStale = some false ∧
    (let s := sFresh [enq0] 1
     (s.core 0).task.map (fun u => (u.commitStale, genIs s u.ctx (jobOf u.jobid) (· != genField u.jobid))) = some (none, true)) ∧
    (let s := sFresh [] 0
     (s.core 0).task.map (fun u => (u.buffered, genIs s u.ctx (jobOf u.jobid) (· == genField u.jobid))) = some ([], true)) ∧
    (let s := sFresh [enq0] 0
     (s.core 0).task.map (fun u => decide (u.buffered ≠ [])) = some true ∧ meets (release 0 .pkg) s (fun _ t => (t.core 0).task = (s.core 0).task) = true) ∧
    (let s := sFresh (List.replicate 15 enq0) 0
     (s.core 0).task.map (fun u => (u.committed, decide (u.buffered.length < 16))) = some (false, true)) ∧
    (plainTask.committed = true ∧ meets (release 0 .pkg) sT = true) := by decide +kernel

/-- A generation table whose place is free, and one that a rewrite holds. -/
theorem wit_generation : (sT.heldAt (sT.genAt 0 5) = false ∧ sT.frameHome (sT.genAt 0 5) ≠ 1) ∧
    ({ sT with smap := [(0, { socket := 6, rewrite := some 7 })] } : State).heldAt (sT.genAt 0 5) = true := by decide +kernel

/-- A record of zeros is a legal launch and a legal task record, of queue 0 and of job 0, whose generation is current in `sT`; `sStale` has
another generation in its record, and in its task. A trigger block of zeros but for its scope. -/
def sStale : State := { (withTask fun t => { t with jobid := 0x100000000 }) with mem := memSetAll [] (sT.place 0x100020) (toBytes 8 0x100000000) }
def noTrig (w : Nat) : Enq := { spawn := false, img := BitVec.ofNat 2048 w, pois := 0, queue := 0, ctx := 0, trig := none }
theorem wit_launch_spawn :
    ((sT.reg q0 1).p = false ∧ meets (readBlock q0 0x10000 64 64 1) sT (fun w t =>
      let img := BitVec.ofNat 2048 w
      imgWord img 24 % 16 == 0 && launchRecOk img && (t.queue (imgWord img 56 % 256)).ctx == t.ctxOf 0 &&
      meets (do joinCheck q0 (imgWord img 24); readTrigger q0 0) t (fun trg u => trg == none &&
        genIs u (t.ctxOf 0) (imgWord img 32 % 2 ^ 32) (· == imgWord img 32 / 2 ^ 32 % 2 ^ 16) && meets (enqueueTask 0 (noTrig w)) u)) = true) ∧
    meets (readBlock q0 0x10000 64 64 1) sStale (fun w t =>
      let img := BitVec.ofNat 2048 w
      imgWord img 24 % 16 == 0 && launchRecOk img && (t.queue 0).ctx == t.ctxOf 0 &&
      genIs t (t.ctxOf 0) (imgWord img 32 % 2 ^ 32) (· != imgWord img 32 / 2 ^ 32 % 2 ^ 16)) = true ∧
    meets (readBlock q0 0x10000 256 64 1) sT (fun w t =>
      let img := BitVec.ofNat 2048 w
      let j := t.jobidOf 0
      spawnRecOk img && (t.queue 0).ctx == t.ctxOf 0 && meets (joinCheck q0 (imgWord img 24)) t (fun _ u =>
        genIs u 0 (jobOf j) (· == genField j) &&
        meets (enqueueTask 0 { spawn := true, img := spawnCopy img j, pois := 0, queue := 0, ctx := 0, trig := none }) u)) = true ∧
    genIs sStale 0 (jobOf (sStale.jobidOf 0)) (· != genField (sStale.jobidOf 0)) = true ∧
    meets (readBlock q0 0x10100 256 64 1) sStale (fun w _ => spawnRecOk (BitVec.ofNat 2048 w)) = true := by decide +kernel

/-- The slot that is freed is the oldest held one, or a later one. -/
def heldQueue : Queue := { Queue.reset with head := 2, tail := 2, free := 0, slots := [(0, .held 0), (1, .held 0)] }
theorem wit_slot_freed : sT.heldRecs = [] ∧
    (heldQueue.free.toNat = 0 ∧ heldQueue.free ≠ heldQueue.head ∧ shas heldQueue.slots (heldQueue.free + 1).toNat = true) ∧
    (shas heldQueue.slots heldQueue.free.toNat = true ∧ heldQueue.free.toNat ≠ 1) ∧
    (CounterOk sT q0 0 sT ∧ meets (resolve (chap10 5) (.core 0) 0 .rw 0x40000 false) sT (fun t _ => t.effHome == 4) = true) :=
  ⟨rfl, by decide +kernel, by decide +kernel, .inl ⟨rfl, rfl⟩, by decide +kernel⟩

/-- `join` of a counter whose flag is 0 and is not, and of an address that is refused. -/
def sFlag (v : Nat) : State := { sT with mem := memSetAll [] (sT.place 0x300008) (toBytes 8 v) }
theorem wit_join : ((sT.reg q0 6).p = true ∧ (sT.reg q0 5).v.toNat % 16 ≠ 0) ∧ (sT.reg q0 4).p = false ∧ (sT.reg q0 4).v.toNat % 16 = 0 ∧
    meets (do let t ← accessHome (chap10 1) (.core 0) 0 .r 0x40008 8; readHome (.core 0) t 8) (sFlag 1) (fun r _ => r.2 == false && ofBytes r.1 == 1) = true ∧
    meets (do let t ← accessHome (chap10 1) (.core 0) 0 .r 0x40008 8; readHome (.core 0) t 8) sT (fun r _ => r.2 == false && ofBytes r.1 == 0) = true := by
  decide +kernel

/-- `suspend` of both sequencers; a watch that may be made, and a page that may not be watched; a suspension whose steps run, and one that
only its watch table holds; the record area on an uncached page. -/
def sSusp : State := withCore fun x => { x with
  as := { x.as with status := .suspended }, xs := { x.xs with status := .suspended },
  task := some { plainTask with suspA := some { area := 0x20000, word := 0x40000, an := 0, wrote := false, done := false } } }
/-- One whose record is written, and whose release is free, or waits. -/
def sWrote (out : Nat) : State := withCore fun x => { x with
  as := { x.as with status := .suspended }, xs := { x.xs with status := .suspended }, remoteOut := out,
  task := some { plainTask with suspA := some { area := 0x20000, word := 0x40000, an := 0, wrote := true, done := false } } }
theorem wit_suspend_wrote : ((sWrote 0).core 0).suspendReady = true ∧ (sWrote 0).releaseWaits 0 = false ∧ (sWrote 1).releaseWaits 0 = true ∧
    meets (release 0 .pkg) (sWrote 0) (fun _ t => (t.core 0).task == ((sWrote 0).core 0).task) = true ∧
    meets (do
      let stale ← commitTask 0
      let ws := contRecord coreT plainTask { area := 0x20000, word := 0x40000, an := 0, wrote := false, done := false }
      (List.range 4).forM fun k => writeArea 0 0 (0x20000 + 64 * k) ((ws.drop (8 * k)).take 8)
      pure stale) sSusp (fun stale t => !stale && !t.releaseWaits 0) = true := by decide +kernel
theorem wit_suspend :
    ((sT.seqr (otherSeq q0)).status ≠ .stopped ∧ (sT.core 0).task = some plainTask ∧ (sT.reg q0 2).v.toNat % 64 = 0 ∧
      (sT.reg q0 4).v.toNat % 8 = 0 ∧ meets (resolve (chap10 2) (.core 0) 0 .r 0x40000 false) sT (fun t u =>
        t.effHome != 0 && t.effHome != 3 && (u.core 0).task == some plainTask && (u.seqr q0).next == (sT.seqr q0).next) = true) ∧
    ((withCore fun x => { x with xs := { x.xs with status := .stopped } }).seqr (otherSeq q0)).status = .stopped ∧
    meets (resolve (chap10 2) (.core 0) 0 .r 0x10000 false) sT (fun t _ => t.effHome == 3) = true ∧
    (((sSusp.core 0).task.map fun u => (u.gone, u.suspA.isSome)) = some (false, true) ∧ (sSusp.core 0).suspendReady = true ∧
      (sSusp.ctx 0).watches.length < 4096 ∧ meets (do
        let stale ← commitTask 0
        let ws := contRecord coreT plainTask { area := 0x20000, word := 0x40000, an := 0, wrote := false, done := false }
        (List.range 4).forM fun k => writeArea 0 0 (0x20000 + 64 * k) ((ws.drop (8 * k)).take 8)
        release 0 .pkg
        pure stale) sSusp (fun stale _ => !stale) = true) ∧
    4096 ≤ ({ Ctx.reset with watches := List.replicate 4096 { area := 0, word := 0, queue := 0, jobid := 0, join := 0 } } : Ctx).watches.length ∧
    meets (access (chap10 1) (.core 0) 0 .w 0x10000 64 false) sT (fun t u => match t with
      | .phys pa l => !u.usesL1 (.core 0) pa l && directOk u t
      | _ => false) = true := by decide +kernel

/-- Sequencers that stop, of a task whose generation is current and of one that is stale, at `retire` and at the end of the stream; `cancel` and `yield`. -/
def eosLine : FLine := lineOfWords 0x1000 [0x0000000F, 0, 0, 0, 0, 0, 0, 0]
theorem wit_stop_cancel_yield :
    ((sT.seqr (otherSeq q0)).status ≠ .suspended ∧ meets (commitTask 0) sT (fun stale _ => stale == false) = true ∧ sT.focus = q0 ∧
      meets (commitTask 0) (sFresh [] 1) (fun stale _ => stale) = true) ∧
    (let s := withSeq fun x => { x with line := some eosLine, pcLane := 1 }
     (s.seqr q0).inBody = none ∧ (s.seqr q0).atStreamEnd false = true) ∧
    ((sT.seqr q0).handler = false ∧ plainTask.committed = true) ∧
    ((withSeq fun x => { x with handler := true }).seqr q0).handler = true ∧
    ((sFresh [] 0).core 0).task.map (·.committed) = some false := by decide +kernel

/-! ## Witnesses: memory -/

/-- `sT` with the sector of physical address `pa` poisoned. -/
def sPois (pa : Nat) : State := { sT with mpois := [sT.secPlace pa] }
/-- A core whose carve-out leaves L1 half of the array. -/
def sL1 : State := withCore fun x => { x with carvew := 1 }
def acc13 (p : Perm) (va al : Nat) : Mx Target := access (chap13 0) (.core 0) 0 p va al false

/-- A load of clear and of poisoned bytes, at its home and through L1. -/
theorem wit_load : (sT.reg q0 1).p = false ∧ dispAddr sT q0 1 0xFFFFFFF8 = 0xFFF8 ∧
    meets (acc13 .r 0x10000 8) sT (fun t u => physOk u false (· != 1) t && meets (readAt (.core 0) t 8 0) u (fun r _ => r.2 == false) &&
      match t with | .phys pa _ => pa % 64 + 8 ≤ 64 | _ => false) = true ∧
    meets (acc13 .r 0x10000 8) (sPois 0x100000) (fun t u => meets (readAt (.core 0) t 8 0) u (fun r _ => r.2 == true)) = true ∧
    meets (acc13 .r 0x20000 8) sL1 (fun t u => physOk u true (· == 1) t && meets (readAt (.core 0) t 8 0) u) = true := by decide +kernel

/-- A line with one dirty byte, into which a sector of 64 bytes is filled. -/
theorem wit_fill : (1 : Nat) < 2 ∧ (List.replicate 64 (0 : Byte)).length = 64 ∧
    ({ L1Line.none with dirty := 1 }.fillSector 0 (List.replicate 64 5) false).byte 1 = 5 := by decide +kernel

/-- A store with and without a release, to its home and into L1, and a release store of a poisoned register. -/
theorem wit_store : (sT.reg q0 1).p = false ∧ (sT.reg q0 6).p = true ∧ (sT.reg q0 5).p = false ∧
    meets (acc13 .w 0x10000 8) sT (fun t u => physOk u false (fun _ => true) t && directOk u t &&
      meets (writeAt (.core 0) 0 t (toBytes 8 5) false) u &&
      meets (do release 0 .pkg; writeAt (.core 0) 0 t (toBytes 8 5) false 0 true) u) = true ∧
    meets (do
      let t ← accessHome (chap13 0) (.core 0) 0 .w 0x10000 8
      releaseOpt 0 (some .die)
      pure t) sT (fun t u => directOk u t) = true ∧ Scope.wideQ .die = true ∧
    meets (acc13 .w 0x20000 8) sL1 (fun t u => physOk u true (· == 1) t && match t with
      | .phys pa _ => decide (pa % 128 + 8 ≤ 128) && (u.wbStops 0 ((u.core 0).victim (lineOf pa)).toList).isNone
      | _ => false) = true := by
  decide +kernel

/-- Cells of a core-pinned page: empty, full, and full and poisoned; each wait. -/
theorem wit_cells : (sT.reg q0 3).p = false ∧ (sT.reg q0 5).p = false ∧ (sT.core 0).remoteOut = 0 ∧
    meets (cellAt 0 0x30000 8 .r) sT (fun p u => (u.core 0).cellFull p == false) = true ∧
    meets (cellAt 0 0x30000 8 .w) sT (fun p u => (u.core 0).cellFull p == false && (u.core 0).cellPois p == false) = true ∧
    (let s := withCore fun x => { x with scFull := [8192] }
     meets (cellAt 0 0x30000 8 .r) s (fun p u => (u.core 0).cellFull p && (u.core 0).cellPois p == false) = true ∧
     meets (cellAt 0 0x30000 8 .w) s (fun p u => (u.core 0).cellFull p) = true) ∧
    (let s := withCore fun x => { x with scFull := [8192], scPois := [8192] }
     meets (cellAt 0 0x30000 8 .r) s (fun p u => (u.core 0).cellFull p && (u.core 0).cellPois p) = true) ∧
    (let s := withSeq fun x => { x with wait := .cell, cur := some (.ldfe 5 3 0 .d true) }
     (s.seqr q0).wait = .cell ∧ (s.seqr q0).cur = some (.ldfe 5 3 0 .d true)) ∧
    (let s := withSeq fun x => { x with wait := .cell, cur := some (.stfe 5 3 0 .d) }
     (s.seqr q0).wait = .cell ∧ (s.seqr q0).cur = some (.stfe 5 3 0 .d)) := by decide +kernel

/-- A core with a dirty line that a rewrite of its socket holds, and one whose home is absent: a fenced die's slice. -/
def sDirty (f : State → State) : State :=
  f (withCore fun x => { x with l1 := [(0x4000, { L1Line.none with valid := 1, dirty := 1 })] })
def sStuck : State := sDirty fun s => { s with relTags := [(0x4000, 0)], smap := [(0, { socket := 6, rewrite := some 7 })] }
def sGone : State := sDirty fun s => { s with dies := (List.range 6).map fun d => (d, { Die.reset with state := 2 }) }
/-- A fence that releases and acquires; `promote` of a core-pinned, an uncached, a memory-side and a cached location, the last with and
without its releaser's tag; a tagged line whose releaser's write-backs may go, and may not. -/
def sTagged : State := { sT with relTags := [(0x4000, 0)] }
theorem wit_fence_promote :
    meets (do releaseOpt 0 (Ordr.ar .pkg).relOf; acquireOpt 0 (Ordr.ar .pkg).acqOf) sT = true ∧
    meets (resolve (chap13 0) (.core 0) 0 .r 0x10000 false) sT (fun t _ => t.effHome == 3) = true ∧
    meets (resolve (chap13 0) (.core 0) 0 .r 0x30000 false) sT (fun t _ => t.effHome == 0) = true ∧
    meets (accessHome (chap13 0) (.core 0) 0 .r 0x40000 8) sT (fun t u => t.effHome == 4 && meets (readHome (.core 0) t 8) u (fun r _ => r.2 == false)) = true ∧
    meets (accessHome (chap13 0) (.core 0) 0 .r 0x20000 8) sTagged (fun t u => t.effHome == 1 &&
      meets (readHome (.core 0) t 8) (u.publishTag (lineOf 0x200000)) (fun r _ => r.2 == false)) = true ∧
    (sTagged.relTags.find? (·.1 == lineOf 0x200000) = some (0x4000, 0) ∧ (sTagged.core 0).remoteOut = 0 ∧ sTagged.wbFree 0 = true) ∧
    (sTagged.relTags.find? (·.1 == lineOf 0x300000) = none ∧ sStuck.wbFree 0 = false) ∧
    (sT.relTags.find? (·.1 == lineOf 0x200000)).isNone = true := by decide +kernel

/-- Releases with and without unacknowledged writes to other packages, with write-backs that may go, are held, and are refused; L1 in its
one form. -/
theorem wit_release : (sT.core 0).remoteOut = 0 ∧ 0 < ((withCore fun x => { x with remoteOut := 1 }).core 0).remoteOut ∧
    sTagged.wbFree 0 = true ∧ sStuck.wbStops 0 (sStuck.core 0).lines = some .held ∧ (sStuck.core 0).remoteOut = 0 ∧
    Scope.wideQ .quad = true ∧ Scope.wideD .die = true ∧ swf (fun _ => L1Line.none) (sT.core 0).l1 = true := by decide +kernel

/-- The home of the line is absent, whatever slice the hash names. -/
theorem wit_release_refused : sGone.wbStops 0 (sGone.core 0).lines = some .absent ∧ (sGone.core 0).remoteOut = 0 := by
  have h : ∀ k < 6, sGone.die k = { Die.reset with state := 2 } := by decide +kernel
  have hc : sGone.cachedAbsent 0x4000 = true := by
    have := h (Config.homeSlice 0x4000 sGone.hashMask % 192 / 32) (by omega)
    simp only [State.cachedAbsent, this]
    decide +kernel
  have hl : (sGone.core 0).lines = [0x4000] := by decide +kernel
  have h1 : ((sGone.core 0).l1Of 0x4000).dirty ≠ 0 := by decide +kernel
  have h2 : (sGone.heldAt (128 * 0x4000) || sGone.logHeld ((sGone.core 0).l1Of 0x4000).ctx ((sGone.core 0).l1Of 0x4000).ckp (128 * 0x4000)) = false := by
    decide +kernel
  have h3 : sGone.isLocal (128 * 0x4000) = true := by decide +kernel
  refine ⟨?_, by decide +kernel⟩
  simp only [State.wbStops, hl, List.findSome?_cons, State.wbStop, if_neg h1, h2, h3, hc, Bool.and_self, if_true, Bool.false_eq_true, if_false]

/-- A core whose L1 is to shrink below the lines it holds, while they are free to go, held, and without a home. -/
def sShrink (s : State) : State := s.onCore 0 fun x => { x with carvew := 1, task := x.task.map fun u => { u with carve := some (false, 0) } }
theorem wit_carve_lines : (sShrink sTagged).wbStops 0 ((sShrink sTagged).carveLines 0 0) = none ∧ (sShrink sStuck).carveLines 0 0 = [0x4000] ∧
    (sShrink sStuck).wbStops 0 ((sShrink sStuck).carveLines 0 0) = some .held ∧ (sShrink sGone).carveLines 0 0 = [0x4000] := by decide +kernel
theorem wit_carve_refused : (sShrink sGone).wbStops 0 ((sShrink sGone).carveLines 0 0) = some .absent := by
  have h : ∀ k < 6, (sShrink sGone).die k = { Die.reset with state := 2 } := by decide +kernel
  have hc : (sShrink sGone).cachedAbsent 0x4000 = true := by
    have := h (Config.homeSlice 0x4000 (sShrink sGone).hashMask % 192 / 32) (by omega)
    simp only [State.cachedAbsent, this]
    decide +kernel
  have h1 : (((sShrink sGone).core 0).l1Of 0x4000).dirty ≠ 0 := by decide +kernel
  have h2 : ((sShrink sGone).heldAt (128 * 0x4000) || (sShrink sGone).logHeld (((sShrink sGone).core 0).l1Of 0x4000).ctx
      (((sShrink sGone).core 0).l1Of 0x4000).ckp (128 * 0x4000)) = false := by decide +kernel
  have h3 : (sShrink sGone).isLocal (128 * 0x4000) = true := by decide +kernel
  simp only [State.wbStops, wit_carve_lines.2.2.2, List.findSome?_cons, State.wbStop, if_neg h1, h2, h3, hc, Bool.and_self, if_true,
    Bool.false_eq_true, if_false]

/-- A generation table in a frame whose home is a fenced die's slice. -/
def sTableGone : State := { sGone with ctxs := [(0, { Ctx.reset with jtb := 12 * 2 ^ 23 })], mem := memSetAll [] (sGone.place (sGone.fatAt (12 * 2 ^ 36))) [1] }
theorem wit_generation_refused : sTableGone.isLocal (sTableGone.genAt 0 5) = true ∧ sTableGone.frameHome (sTableGone.genAt 0 5) = 1 ∧
    sTableGone.heldAt (sTableGone.genAt 0 5) = false ∧ sTableGone.cachedAbsent (lineOf (sTableGone.genAt 0 5)) = true := by
  have h : ∀ k < 6, sTableGone.die k = { Die.reset with state := 2 } := by decide +kernel
  refine ⟨by decide +kernel, by decide +kernel, by decide +kernel, ?_⟩
  have := h (Config.homeSlice (lineOf (sTableGone.genAt 0 5)) sTableGone.hashMask % 192 / 32) (by omega)
  simp only [State.cachedAbsent, this]
  decide +kernel

/-- A place that an atomic may change, clear and poisoned. -/
theorem wit_atomic_at_home : Direct sT 0 0x300000 (leafAt 0x300000 0 true false) ∧ sT.poisAt 0x300000 8 = false ∧
    (sPois 0x300000).poisAt 0x300000 8 = true ∧ Direct (sPois 0x300000) 0 0x300000 (leafAt 0x300000 0 true false) := by
  unfold Direct; decide +kernel

/-- An atomic of each kind at a memory-side location, with a release and an acquire; at a poisoned one; one through an uncached page is
refused. -/
theorem wit_atomic : (sT.reg q0 4).p = false ∧ (sT.reg q0 5).p = false ∧
    (∀ m ∈ [4, 8], ∀ pz : Bool, meets (do
      let t ← atomTarget (chap13 0) 0 0 0x40000 m 0xA2
      implicitCommit 0
      poolCheck (chap13 0) (.core 0) 0 0x40000 t
      homeReach (chap13 0) (.core 0) 0x40000 t
      releaseOpt 0 (some .pkg)
      let old ← rmwAt (.core 0) 0 t m (fun w => some (newInt .add m w 5)) (atomMsg t .add false (m == 8) 5)
      acquireOpt 0 (some .pkg)
      pure (t, old)) (if pz then sPois 0x300000 else sT) (fun r u => r.2.2 == pz && !u.nrAhead (.core 0) r.1 8) = true) ∧ f32Opd (.lit 1) 1 = 0x3F800000 ∧
    (∀ v ∈ [0, 7], meets (do
      let t ← atomTarget (chap13 0) 0 0 0x40000 8 0xA2
      let old ← rmwAt (.core 0) 0 t 8 (fun w => if w = 7 then some 5 else none) none
      pure old) { sT with mem := memSetAll [] (sT.place 0x300000) [BitVec.ofNat 8 v] } (fun r _ => r == (v, false)) = true) ∧
    meets (resolve (chap13 0) (.core 0) 0 .rw 0x10000 false) sT (fun t _ => t.effHome == 3) = true := by decide +kernel

/-- A return-free atomic that leaves, one under way that its home performs, in memory and in the core's own array, one that finds poison, and
one that failed, its fault taken by a handler or held. -/
def nr0 : NrOp := { pa := 0x300000, ctx := 0, op := .add, f32 := false, wide := true, v := ⟨5, false⟩, ckp := false, va := 0x40000, scratch := false }
def nr1 : NrOp := { nr0 with pa := 0, va := 0x30000, scratch := true }
def sNr : State := withCore fun x => { x with nrOut := [nr0] }
theorem wit_return_free :
    meets (do let t ← atomTarget (chap13 0) 0 0 0x40000 8 0xA2; implicitCommit 0; pure t) sT (fun t _ => match t with | .phys _ _ => true | _ => false) = true ∧
    (sNr.core 0).nrOut = [nr0] ∧ (sT.core 0).nrOut = [] ∧ (sT.core 0).nrFail = none ∧ meets (release 0 .pkg) sT = true ∧
    ((withCore fun x => { x with nrFail := some (9, 0xA2) }).core 0).nrFail = some (9, 0xA2) ∧
    (let s := sNr.onCore 0 fun x => { x with nrOut := [] }
     let t : Target := .phys nr0.pa (s.homeLeaf nr0.pa nr0.ckp)
     meets (do poolCheck (chap13 0) (.core 0) 0 nr0.va t; alignCheck (chap13 0) nr0.va 8; homeReach (chap13 0) (.core 0) nr0.va t) s = true ∧
     fails (alignCheck (chap13 0) (nr0.va + 1) 8) s (fun | .fault f => f.cls == 4 | _ => false) = true ∧ s.pinCheck (.core 0) false t = true ∧
     (∀ pz : Bool, meets (rmwAt (.core 0) 0 t 8 (fun w => some (newAtom false .add 8 w 5)) (atomMsg t .add false true 5))
       (if pz then { s with mpois := [s.secPlace 0x300000] } else s) (fun r _ => r.2 == pz) = true)) ∧
    (let t : Target := .scratch nr1.pa
     meets (do
       let u ← atomTarget (chap13 0) 0 0 nr1.va 8 0xA2
       poolCheck (chap13 0) (.core 0) 0 nr1.va t
       alignCheck (chap13 0) nr1.va 8
       homeReach (chap13 0) (.core 0) nr1.va t
       let r ← rmwAt (.core 0) 0 t 8 (fun w => some (newAtom false .add 8 w 5)) (atomMsg t .add false true 5)
       pure (u, r)) sT (fun r _ => r.1 == t && r.2.2 == false) = true ∧ sT.pinCheck (.core 0) false t = true) ∧
    (((sHandler.precise q0 (mkFault 9 (detailOf 0 0 0xA2))).seqr q0).wait = .none ∧
      ((sHeld.precise q0 (mkFault 9 (detailOf 0 0 0xA2))).seqr q0).wait ≠ .none) := by decide +kernel

/-! ## Witnesses: timelines, frontiers, barriers, handover -/

/-- A queue whose counter stands at 3, halted or not; waits for 0, for 3 with write-backs that may go, for 5, and for a poisoned count. -/
def sTl (h : Bool) : State := withCore fun x => { x with ve := { EQueue.reset with tl := 3, halted := h } }
theorem wit_timeline :
    ((sT.reg q0 0).p = false ∧ (sT.reg q0 0).v.toNat % 2 ^ 63 = 0 ∧ (sT.reg q0 6).p = true) ∧
    (0 < 3 % 2 ^ 63 ∧ 3 % 2 ^ 63 ≤ ((sTl false).core 0).ve.tl ∧ (sTl false).wbFree 0 = true ∧ Scope.wideQ .pkg = true ∧ Scope.wideQ .core = false) ∧
    ((sT.reg q0 5).p = false ∧ ((sTl true).core 0).ve.tl < (sT.reg q0 5).v.toNat % 2 ^ 63 ∧ ((sTl true).core 0).ve.halted = true ∧
      ((sTl false).core 0).ve.halted = false) ∧
    (let s := withSeq fun x => { x with wait := .timeline, cur := some (.tlwait .ve (.lit 5) .pkg) }
     (s.seqr q0).wait = .timeline ∧ (s.seqr q0).cur = some (.tlwait .ve (.lit 5) .pkg)) := by decide +kernel

/-- Frontier words at 0x40000: open, closed, halted, and short of 5; each operation's access, and the waits. -/
def sFw (w : Nat) : State := { sT with mem := memSetAll [] (sT.place 0x300000) (toBytes 8 w) }
def fread0 (w : Nat) (p : Nat → Bool) : Bool := meets (frontRead front13 (.core 0) 0 0x40000) (sFw w) (fun v _ => v == w && p v)
theorem wit_frontier :
    ((sT.reg q0 4).p = false ∧ meets (frontRmw front13 (.core 0) 0 0x40000 [.fopen]) sT = true) ∧
    ((sT.reg q0 5).v.toNat < 2 ^ 48 ∧ meets (do
      let _ ← frontAccess front13 (.core 0) 0 .w 0x40000
      release 0 .pkg
      frontRmw front13 (.core 0) 0 0x40000 [.publish 5]) sT = true) ∧
    2 ^ 48 ≤ (sT.reg q0 8).v.toNat ∧
    (∀ f ∈ [FrontOp.close, FrontOp.halt], meets (do
      let _ ← frontAccess front13 (.core 0) 0 .w 0x40000
      release 0 .pkg
      frontRmw front13 (.core 0) 0 0x40000 [f]) sT = true) ∧
    meets (frontAccess front13 (.core 0) 0 .w 0x40000) sT (fun t u => match t with
      | .phys pa _ => directOk u t && !u.poisAt pa 8
      | _ => false) = true ∧
    meets (do let t ← frontAccess front13 (.core 0) 0 .r 0x40000; readAt (.core 0) t 8 0) sT (fun r _ => r.2 == false) = true ∧
    fread0 5 (fun w => decide (5 ≤ fwCount w)) = true ∧ fread0 (2 ^ 62) (fun w => fwClosed w) = true ∧
    fread0 4 (fun w => fwClosed w == false && fwHalted w == false && decide (fwCount w < 5)) = true ∧
    fread0 (2 ^ 63 + 4) (fun w => fwClosed w == false && fwHalted w && decide (fwCount w < 5)) = true ∧
    (let s := withSeq fun x => { x with wait := .chase, cur := some (.fchase 5 4 (.lit 5) .pkg) }
     (s.seqr q0).wait = .chase ∧ (s.seqr q0).cur = some (.fchase 5 4 (.lit 5) .pkg)) := by decide +kernel

/-- Named barriers: fresh, with another count, failed, a poisoned count; the phase passed and not; the arrival of `bars`; the wait. -/
def sBar (b : Bar) : State := withCore fun x => { x with bars := [(3, b)] }
def sPend : State := (sBar { Bar.reset with phase := 1 }).onSeqr q0 fun x => { x with pend := [(3, 0)] }
theorem wit_named_barrier :
    ((sT.reg q0 5).p = false ∧ 1 ≤ (sT.reg q0 5).v.toNat ∧ (sT.reg q0 5).v.toNat ≤ 255 ∧ ((sT.core 0).bar 3).failed = false ∧
      (sT.core 0).remoteOut = 0 ∧ ((sT.core 0).bar 3).arr < 255 ∧ ((sT.core 0).bar 3).need = 0) ∧
    (let k := ((sBar { Bar.reset with need := 4, arr := 1 }).core 0).bar 3
     k.need ≠ 0 ∧ k.need ≠ (sT.reg q0 5).v.toNat ∧ k.failed = false) ∧
    ¬(1 ≤ (sT.reg q0 0).v.toNat ∧ (sT.reg q0 0).v.toNat ≤ 255) ∧ (sT.reg q0 6).p = true ∧
    ((sBar { Bar.reset with failed := true }).core 0).bar 3 = { Bar.reset with failed := true } ∧
    phasePassed ((sPend.core 0).bar 3).phase ((sPend.core 0).pendOf false 3) = true ∧
    phasePassed ((sT.core 0).bar 3).phase ((sT.core 0).pendOf false 3) = false ∧
    meets (arrive q0 3 (.reg 13)) sT (fun _ t => phasePassed ((t.core 0).bar 3).phase ((t.core 0).pendOf false 3)) = true ∧
    meets (arrive q0 3 (.reg 5)) sT (fun _ t => !phasePassed ((t.core 0).bar 3).phase ((t.core 0).pendOf false 3)) = true ∧
    (let s := (sBar { Bar.reset with phase := 1 }).onSeqr q0 fun x => { x with wait := .barrier, cur := some (.barw 3) }
     (s.seqr q0).wait = .barrier ∧ (s.seqr q0).cur = some (.barw 3) ∧ ((s.core 0).bar 3).failed = false ∧
       phasePassed ((s.core 0).bar 3).phase (BitVec.ofNat 16 (s.seqr q0).waitArg) = true) := by decide +kernel

/-- Hierarchical barriers: a first arrival, another count, an uncommitted task; the last waiter, and one too few; no barrier, and one that
counts arrivals of other packages over a port that is up. -/
def hb0 (arr : Nat) : HBar := { level := .die, place := placeAt .die 0, ctx := 0, job := jobOf plainTask.jobid, need := 5, arr := arr, waiters := [q0] }
def sHb (arr : Nat) : State := { (withSeq fun x => { x with wait := .hbar }) with hbars := [hb0 arr] }
theorem wit_hierarchical_barrier :
    ((sT.reg q0 5).p = false ∧ (sT.core 0).task = some plainTask ∧ plainTask.committed = true ∧ 1 ≤ (sT.reg q0 5).v.toNat ∧
      (sT.reg q0 5).v.toNat ≤ 65535 ∧ sT.hbarAt .die 0 0 (jobOf (sT.jobidOf 0)) = none ∧ meets (release 0 .die) sT = true) ∧
    ((sHb 1).hbarAt .die 0 0 (jobOf ((sHb 1).jobidOf 0)) = some (hb0 1) ∧ (hb0 1).need ≠ (sT.reg q0 14).v.toNat) ∧
    ¬(1 ≤ (sT.reg q0 0).v.toNat) ∧ ((sFresh [] 0).core 0).task.map (·.committed) = some false ∧
    ((sHb 1).hbars.find? (fun x => x.waiters.contains q0) = some (hb0 1) ∧ (hb0 1).arr < (hb0 1).need) ∧
    ((sHb 5).hbars.find? (fun x => x.waiters.contains q0) = some (hb0 5) ∧ (hb0 5).need ≤ (hb0 5).arr ∧ (hb0 5).waiters = [q0] ∧
      ((sHb 5).seqr q0).wait = .hbar) ∧ sT.hbars.find? (fun x => x.waiters.contains q0) = none ∧
    (let s : State := { sT with hbars := [{ hb0 2 with level := .pod }], criers := [(0, { Crier.reset with verified := true })] }
     s.fabricUp = true ∧ sT.fabricUp = false ∧ (s.hbars.map fun h => decide (h.arr < h.need ∧ h.need ≤ h.arr + 3)) = [true]) := by decide +kernel

/-- `hoff` of one page of a pool that passes every check, each refusal, and `take` of a flag that is there, and is not yet. -/
def sPool : State := { sT with pools := [(0, { en := true, ctx := 0, pfb := 0x20, npg := 1, bmap := 0x100000 })] }
theorem wit_handover :
    ((sT.reg q0 1).p = false ∧ (sT.reg q0 4).p = false ∧ (sT.reg q0 13).p = false ∧ (sT.reg q0 1).v.toNat % 65536 = 0 ∧
      (sT.reg q0 4).v.toNat % 8 = 0 ∧ (sT.reg q0 10).v.toNat % 65536 ≠ 0 ∧ 1 ≤ (sT.reg q0 13).v.toNat ∧ (sT.reg q0 13).v.toNat ≤ 4096 ∧
      ¬(1 ≤ (sT.reg q0 0).v.toNat)) ∧
    meets (do
      implicitCommit 0
      let pas ← (List.range 1).mapM fun j => handPage 0 0 (0x20000 + 65536 * j) j
      let t ← resolve (chap13 0) (.core 0) 0 .rw 0x40000 false
      poolCheck (chap13 0) (.core 0) 0 0x40000 t
      homeReach (chap13 0) (.core 0) 0x40000 t
      release 0 .pkg
      modS fun s => (pas.map (· / 65536)).eraseDups.foldl (fun x f => x.flipOwner (65536 * f)) s
      writeAt (.core 0) 0 t (toBytes 8 1) false 0 true
      pure t) sPool (fun t u => (t.effHome == 1 || t.effHome == 4) && !u.nrAhead (.core 0) t 8) = true ∧
    (sPool.poolOf 0x200000 = some 0 ∧ sPool.isLocal ((sPool.pool 0).ownerAt 0x200000).1 = true) ∧
    meets (do let t ← accessHome (chap13 0) (.core 0) 0 .r 0x40000 8; readHome (.core 0) t 8) (sPois 0x300000) (fun r _ => r.2) = true ∧
    meets (do let t ← accessHome (chap13 0) (.core 0) 0 .r 0x40000 8; readHome (.core 0) t 8) (sFw 5) (fun r _ => r.2 == false && ofBytes r.1 == 5) = true ∧
    meets (do let t ← accessHome (chap13 0) (.core 0) 0 .r 0x40000 8; readHome (.core 0) t 8) (sFw 4) (fun r _ => r.2 == false && decide (ofBytes r.1 < 5)) = true ∧
    (let s := withSeq fun x => { x with wait := .take, cur := some (.take 5 4 (.lit 5)) }
     (s.seqr q0).wait = .take ∧ (s.seqr q0).cur = some (.take 5 4 (.lit 5))) := by decide +kernel

/-- A context whose log is full, with a dirty line that has to be logged. -/
def sFullLog : State := { (withCore fun x => { x with l1 := [(0x4000, { L1Line.none with valid := 1, dirty := 1, ckp := true })] }) with
  ctxs := [(0, { Ctx.reset with ckEn := true, ckLog2 := 16, ckUsed := 481 })] }
/-- `permit`, `fereset`, `cwb` and `cinv` with operands that they take, a poisoned counter, an address that is not cached, and a length beyond
2^32. -/
theorem wit_maintenance :
    (meets (do implicitCommit 0; ckpCheck 0) sT (fun _ t => ((t.wbCkp 0).ctx 0).ckIntv == (t.ctx 0).ckIntv) = true ∧
      meets (do implicitCommit 0; ckpCheck 0) sFullLog (fun _ t => ((t.wbCkp 0).ctx 0).ckIntv != (t.ctx 0).ckIntv) = true ∧ (sT.reg q0 4).p = false ∧ (sT.reg q0 5).p = false) ∧
    (∀ pz : Bool, meets (do
      let t ← resolve (chap13 0) (.core 0) 0 .w 0x40000 false
      poolCheck (chap13 0) (.core 0) 0 0x40000 t
      homeReach (chap13 0) (.core 0) 0x40000 t
      release 0 .pkg
      let old ← rmwAt (.core 0) 0 t 8 (fun w => some (max w 5)) (atomMsg t .maxn false true 5)
      pure (t, old)) (if pz then sPois 0x300000 else sT) (fun r u => r.1.effHome == 4 && r.2.2 == pz && !u.nrAhead (.core 0) r.1 8) = true) ∧
    ((sT.reg q0 3).v.toNat % 16 = 0 ∧ (sT.reg q0 14).v.toNat % 16 = 0 ∧ 0 < (sT.reg q0 14).v.toNat ∧ (sT.reg q0 14).v.toNat < 2 ^ 24 ∧
      (sT.reg q0 3).v.toNat % 65536 + (sT.reg q0 14).v.toNat ≤ 65536 ∧ meets (cellAt 0 0x30000 1 .w) sT = true) ∧
    (0 < (sT.reg q0 5).v.toNat ∧ (sT.reg q0 5).v.toNat < 2 ^ 32 ∧ (sT.reg q0 2).v.toNat % 65536 + (sT.reg q0 5).v.toNat ≤ 65536 ∧
      meets (softTarget 0 0x20000) sT (fun r u => (r.map (·.1)) == some 0x200000 && swf (fun _ => L1Line.none) (u.core 0).l1 &&
        (u.wbStops 0 ((u.core 0).linesIn 0x200000 5)).isNone) = true ∧
      meets (softTarget 0 0x10000) sT (fun r _ => r.isNone) = true) ∧
    2 ^ 32 ≤ (sT.reg q0 8).v.toNat := by decide +kernel

/-! ## Witnesses: shapes, leases, groups, the assay, criers -/

/-- A legal record: one element at address 0. -/
def rec0 : BitVec 512 := BitVec.ofNat 512 (2 ^ 128)
def accS (p : Perm) : Mx Target := access chapShape (.core 0) 0 p 0x10000 64 false
theorem wit_shapes :
    ((sT.reg q0 1).p = false ∧ ((sT.reg q0 1).v + (0 : BitVec 32).signExtend 64 * 64).toNat = 0x10000 ∧
      meets (do let t ← accS .r; readAt (.core 0) t 64 0) sT (fun r _ => r.2 == false) = true ∧
      meets (do let t ← accS .w; writeAt (.core 0) 0 t (toBytes 64 5) false) sT = true) ∧
    ((sT.reg q0 5).p = false ∧ (sT.reg q0 5).v.toNat < 2 ^ (shField 8).2 ∧ 2 ^ (shField 2).2 ≤ (sT.reg q0 5).v.toNat ∧
      1 ≤ (sT.reg q0 5).v.toNat ∧ (sT.reg q0 5).v.toNat ≤ 255 ∧ ¬(1 ≤ (sT.reg q0 0).v.toNat)) ∧
    tdefFail ((withCore fun x => { x with sregs := [(0, rec0)] }).core 0 |>.sreg 0) = none ∧
    ((tdefFail ((sT.core 0).sreg 0)).isSome = true) := by decide +kernel

/-- A quad whose core 0 contends, one with a holder, and one without a contender. -/
def sLease (h : Option Nat) (t : Nat) : State :=
  { (withCore fun x => { x with tickets := t, lp := { EQueue.reset with ents := [entryOf0 (.chainb tok0)] } }) with quads := [(0, { Quad.reset 0 with holder := h })] }
theorem wit_lease :
    ((sLease none 3).core 0).chainbAtHead = true ∧ ((sLease none 3).core 0).tickets = 3 ∧ ((sLease none 3).quad 0).holder = none ∧
    ((sLease (some 0) 3).quad 0).holder.isSome = true ∧ (sT.core 0).chainbAtHead = false := by decide +kernel

/-- A list of two packages at 0x10000; a group, a region, a length of 0 with and without its region. -/
def sList : State := { sT with mem := memSetAll [] (sT.place 0x100000) ([2, 0, 0, 0, 0, 0, 0, 0, 5, 0] : List Byte) }
def grp0 : Group := { State.reset.group 0 3 with members := [5, 0] }
def sGrp (g : Group) (rs : SMap Region) : State := { sT with ctxs := [(0, { Ctx.reset with groups := [(3, g)], regions := rs })] }
def reg0 : Region := { base := 0x10000, len := 64, group := 3 }
theorem wit_groups :
    meets (do
      let t ← access chap8 (.core 0) 0 .r 0x10000 8 false
      let h ← readAt (.core 0) t 8 0
      let l ← readRange chap8 (.core 0) 0 0x10008 2 1 0 false
      pure (h, l)) sList (fun r t =>
        let ps := r.2.map fun x => x.1.toNat
        r.1.2 == false && headerByte (ofBytes r.1.1) == none && ofBytes r.1.1 % 2 ^ 16 == 2 && !r.2.any (·.2) && dupAt ps == none &&
        ps.contains t.pkg.toNat && !(t.ctx 0).groupBusy 3) = true ∧
    ((sT.reg q0 1).v.toNat % 64 = 0 ∧ (sT.reg q0 16).p = false ∧ (sT.reg q0 16).v.toNat % 64 = 0 ∧ (sT.reg q0 16).v.toNat ≤ 2 ^ 40 ∧
      (sT.reg q0 16).v.toNat ≠ 0 ∧ ((sGrp grp0 []).group 0 3).defined = true ∧ ((sGrp grp0 [(0, reg0)]).group 0 3).defined = true ∧
      reg0.meets (sT.reg q0 2).v.toNat 64 = false ∧ shas [(0, reg0)] 1 = false ∧ shas [(0, reg0)] 0 = true) ∧
    (((sGrp grp0 [(0, reg0)]).ctx 0).regions.find? (fun x => x.2.base == (sT.reg q0 1).v.toNat) = some (0, reg0) ∧
      (sT.ctx 0).regions.find? (fun x => x.2.base == (sT.reg q0 1).v.toNat) = none) := by decide +kernel

/-- `asyfence` of a group with no point under way, behind another's, and of an undefined one, `asyget`; a point that ends clear, poisoned and
divergent, one with a digest missing, and one whose sequencer has gone on. -/
def sPoint (dg : BitVec 128) (pz : Bool) : State :=
  { (sGrp { grp0 with point := some (q0, sT.instOf 0, dg, pz) } []) with
    criers := [(0, { Crier.reset with verified := true })],
    cores := [(0, { coreT with as := { seqT with wait := .assay, cur := some (.asyfence 7 3) } })] }
def post5 (d : BitVec 128) : List AssayMsg := [{ pkg := 5, digest := d, poison := false }]
theorem wit_assay_sent : (sGrp grp0 []).fabricUp = false ∧ (sPoint 9 false).fabricUp = true ∧ 1 < grp0.members.length := by decide +kernel
theorem wit_assay :
    (((sGrp grp0 []).group 0 3).defined = true ∧ meets (implicitCommit 0) (sGrp grp0 []) (fun _ t => (t.group 0 3).point == none) = true ∧
      (sT.reg q0 5).p = false ∧ (sT.reg q0 5).v.toNat ≤ 6) ∧
    (∀ pz : Bool, let s := sPoint 9 pz
      let k := s.group 0 3
      k.point = some (q0, sT.instOf 0, 9, pz) ∧ s.assayDest 0 3 q0 (sT.instOf 0) = some 7 ∧ s.fabricUp = true ∧
      (k.members.map fun p => if p = s.pkg.toNat then some ((9 : BitVec 128), pz) else ((post5 9).find? (·.pkg.val == p)).map fun o => (o.digest, o.poison)) =
        [((9 : BitVec 128), false), (9, pz)].map some) ∧
    (sT.group 0 3).defined = false ∧ sT.fabricUp = false ∧ (sPoint 9 false).assayDest 0 3 q0 (sT.instOf 0 + 1) = none ∧
    (q1, sT.instOf 0) ≠ (q0, ((sGrp { grp0 with point := some (q1, sT.instOf 0, 9, false) } []).instOf 0)) ∧
    none ∈ (grp0.members.map fun p => if p = sT.pkg.toNat then some ((9 : BitVec 128), false) else none) ∧
    (verdictOf [((9 : BitVec 128), true), (9, true)]).contains 1 = true ∧ (verdictOf [((8 : BitVec 128), false), (9, false)]).contains 1 = true ∧
    verdictOf [((9 : BitVec 128), false), (9, false)] = [] ∧ verdictOf [((8 : BitVec 128), false), (9, false)] = [0, 1] ∧
    verdictOf [((9 : BitVec 128), false), (9, true)] = [0, 1] ∧ verdictOf [((9 : BitVec 128), false), (9, false), (9, true)] = [2] := by decide +kernel

/-- `crload` outside and inside the management context, on a free and a busy crier; the load that goes on, one that drains, and none. -/
def sMgmt (f : State → State) : State := f { sT with ctxs := [(0, { Ctx.reset with mgmt := true })] }
def sCrier (q : SeqId) : State := sMgmt fun s => { s with
  criers := [(5, { Crier.reset with load := some (q, 0, 0, 0x10000) })], cores := [(0, { coreT with as := { seqT with wait := .crier, waitArg := 5, cur := some (.crload 7 1 (.reg 5)) } })] }
def firing0 (p : Fin 256) (f : Option (BitVec 8)) : Firing :=
  { pkg := p, sig := 0, op := 0, nel := 1, cmp := false, pair := 0, shp := 0, fault := f, exitTab := 0, elems := [{ v := 1, p := false }] }
def fired0 : TileEnt := { img := 1, armed := none, fired := some (firing0 0 none), landed := false }
def drains : State := let s := sCrier q0; { s with ctxs := [(0, { s.ctx 0 with tiles := [(5, fired0)] })] }
theorem wit_crload :
    ((sT.reg q0 1).p = false ∧ (sT.reg q0 5).p = false ∧ (sT.reg q0 5).v.toNat ≤ 47 ∧ (sT.ctx 0).mgmt = false) ∧
    (((sMgmt id).ctx 0).mgmt = true ∧ meets (implicitCommit 0) (sMgmt id) (fun _ t => (t.crier 5).load == none) = true) ∧
    (((sCrier q1).ctx 0).mgmt = true ∧ meets (implicitCommit 0) (sCrier q1) (fun _ t => (t.crier 5).load == some (q1, 0, 0, 0x10000)) = true ∧ (q1, 0) ≠ (q0, (sCrier q1).instOf 0)) ∧
    (((sCrier q0).crier 5).load = some (q0, 0, 0, 0x10000) ∧
      (q0, 0) ≠ (q0, ((sCrier q0).onCore 0 fun x => { x with task := some { plainTask with inst := 1 } }).instOf 0)) ∧
    ((sT.crier 5).load = none ∧ (sT.crloadDest 5 q0 0).isNone = true ∧ drains.crierBusy 5 = true ∧ (drains.crier 5).load.isSome = true) ∧
    (((sCrier q0).crier 5).load = some (q0, 0, 0, 0x10000) ∧ (sCrier q0).crierBusy 5 = false ∧ (sCrier q0).crloadDest 5 q0 0 = some 7 ∧
      meets (verifyImage 0 0 0x10000) (sCrier q0) (fun r _ => r.1 == 3) = true) := by decide +kernel

/-! ## Witnesses: engine words -/

def mI32 : Mods := { mF32 with ty := .i32 }
def vaddF : Instr := .vadd tok0 1 (.vec 2) (.reg 5) mF32
/-- An engine word outside a body, into an empty, a full and a halted queue, and inside a body. -/
theorem wit_routing :
    (engineWord vaddF).map (·.1) = some Eng.ve ∧ meets (caps (.vec 2) (.reg 5) noE none none none q0) sT = true ∧
    ((sT.seqr q0).inBody.bind (sT.core 0).bundle = none ∧ (sT.core 0).ve.halted = false ∧ (sT.core 0).ve.ents.length < Eng.ve.depth) ∧
    (let x := (withCore fun x => { x with ve := { EQueue.reset with ents := List.replicate 64 (entryOf0 vaddF) } }).core 0
     x.ve.halted = false ∧ Eng.ve.depth ≤ x.ve.ents.length) ∧
    ((withCore fun x => { x with ve := { EQueue.reset with halted := true } }).core 0).ve.halted = true ∧
    (let s := withCore fun x => { x with bundles := [{ bundle1 with routing := true }], as := { x.as with openBundle := some 1, lastBundle := some 1 } }
     (s.seqr q0).inBody.bind (s.core 0).bundle = some { bundle1 with routing := true }) ∧
    (meets (capture q0 (.reg 0)) sT (fun v _ => v.p == false && tmsLegal v.v) = true ∧
      meets (capture q0 (.reg 9)) sT (fun v _ => v.p == false && !tmsLegal v.v) = true ∧ meets (capture q0 (.reg 6)) sT (fun v _ => v.p) = true) := by
  decide +kernel

/-- A core whose next entry is `n`, beside an entry of the LQ that has written register 2, whose granule 0 was 5 before. -/
def old2 : VRegVal := { VRegVal.zero with bits := 5 }
def sRace : State := withEntry .ve (entryOf0 vaddF) fun x => { x with vregs := [(2, { VRegVal.zero with bits := 7 })], lq := { EQueue.reset with
  ents := [{ entryOf0 (.vld tk0 2 1 0 .f32 0 none) with phase := .started, olds := [(2, old2)] }], nextNum := 2 } }
/-- Writers of a vector register in flight and none; an entry that has changed one. -/
theorem wit_vector_units :
    (∀ n ∈ (sT.core 0).entries, shas n.olds 2 = false) ∧ (∃ n ∈ (sRace.core 0).entries, shas n.olds 2 = true ∧ sget n.olds 2 VRegVal.zero = old2) ∧
    (let s := withEntry .ve (entryOf0 vaddF)
     let t := withEntry .ve (entryOf0 vaddF) fun x => { x with vregs := [(2, old2)] }
     (t.core 0).vreg 2 ≠ (s.core 0).vreg 2 ∧ (((t.core 0).eq .ve).ents.map fun n => (n.num, n.olds)) = [(1, [])]) := by decide +kernel

/-- The next entry is `i`, and it starts. -/
def starts (i : Instr) (e : Eng) (a : SVal := SVal.zero) : Bool :=
  let s := withEntry e (entryOf0 i a)
  (s.core 0).startable e == some (entryOf0 i a) && (s.core 0).missing e (entryOf0 i a) == []

/-- An empty queue; an entry without its token; entries of the VE, LQ, WQ and CQ that start, and how the effects of their instructions
end: with a result, with a fault. -/
theorem wit_start :
    (sT.core 0).startable .ve = none ∧
    (let n := entryOf0 (.vadd { tok0 with wl := true } 1 (.vec 2) (.reg 5) mF32)
     ((withEntry .ve n).core 0).startable .ve = some n ∧ ((withEntry .ve n).core 0).missing .ve n ≠ []) ∧
    (starts vaddF .ve = true ∧ ((runVe vaddF).map fun r => meets (r 0 (entryOf0 vaddF)) (withEntry .ve (entryOf0 vaddF))) = some true ∧
      (runUnits vaddF).isNone = true) ∧
    (let i : Instr := .vpopc tok0 1 0 1 .f32
     starts i .ve = true ∧ (runVe i).isSome = true) ∧
    (let i : Instr := .cpym 1 2 (.reg 16) none
     let n := entryOf0 i ⟨0x10000, false⟩ ⟨0x40000, false⟩ ⟨64, false⟩
     starts i .wq = true ∧ (runVe i).isNone = true ∧
       ((runUnits i).map fun r => (meets (r 0 n) (withEntry .wq n), fails (r 0 { n with a := ⟨0x10000, true⟩ }) (withEntry .wq n))) = some (true, true)) ∧
    (let i : Instr := .tready (.reg 5) (.reg 5)
     starts i .cq = true ∧ meets (startCq 0 (entryOf0 i)) (withEntry .cq (entryOf0 i)) = true ∧
       fails (startCq 0 (entryOf0 i ⟨4096, false⟩)) (withEntry .cq (entryOf0 i)) = true) := by decide +kernel

/-- Each VE instruction of the statements starts as the next entry. -/
theorem wit_ve : mI32.ty.isI = true ∧ mF32.ty.isF = true ∧
    (∀ i ∈ [Instr.vadd tok0 1 (.vec 2) (.vec 3) mI32, .vsub tok0 1 (.vec 2) (.vec 3) mI32, .vmul tok0 1 (.vec 2) (.vec 3) mI32,
      .vfma tok0 1 (.vec 2) (.vec 3) (.vec 4) mI32, .vabs tok0 1 (.vec 2) mI32, .vneg tok0 1 (.vec 2) mI32, .vmin tok0 1 (.vec 2) (.vec 3) mI32,
      .vmax tok0 1 (.vec 2) (.vec 3) mI32, .vshl tok0 1 (.vec 2) (.vec 3) mI32, .vand tok0 1 (.vec 2) (.vec 3) mI32, .vor tok0 1 (.vec 2) (.vec 3) mI32,
      .vxor tok0 1 (.vec 2) (.vec 3) mI32, .vshr tok0 1 (.vec 2) (.vec 3) mI32, .vsra tok0 1 (.vec 2) (.vec 3) mI32,
      .vdiv tok0 1 (.vec 2) (.vec 3) mF32, .vsqrt tok0 1 (.vec 2) mF32, .vexp2 tok0 1 (.vec 2) mF32, .vlog2 tok0 1 (.vec 2) mF32,
      .vrcp tok0 1 (.vec 2) mF32, .vrsqrt tok0 1 (.vec 2) mF32, .vsel tok0 1 (.vec 2) (.vec 3) 1 .f32, .vmov tok0 1 (.vec 2) mF32,
      .vperm tok0 1 2 3 mI32, .vbcast tok0 1 2 (.reg 5) mF32, .vslide tok0 1 2 (.reg 5) none mF32, .vcmp tok0 .lt 1 (.vec 2) (.vec 3) mF32,
      .mlog tok0 1 2 3 6, .mpopc tok0 1 2 .f32, .mfirst tok0 1 2 .f32, .vredsum tok0 1 2 mI32, .vredmax tok0 1 2 mI32, .vredmin tok0 1 2 mI32, .vscan tok0 1 2 mI32], starts i .ve ⟨5, false⟩ = true) ∧
    ((sT.core 0).src .f32 .rne (.vec 2) SVal.zero 0).2 = false ∧ (ElemTy.isB .f32 = false) := by decide +kernel

/-! ## Witnesses: queues, tiles, lines, delivery -/

/-- Entries done: the next by number and a later one; a token with and without room; a store before its writes are acknowledged, an entry of
a task that has left, and one of a bundle. -/
def done1 (num : Nat) (i : Instr) : Entry := { entryOf0 i with num := num, phase := .done }
def sDone (num : Nat) (f : Fifos) : State :=
  withEntry .ve (done1 num (.vadd { tok0 with sl := true } 1 (.vec 2) (.reg 5) mF32)) fun x => { x with fifos := f }
def heldVe (n : Nat) : Core := { coreT with ve := { EQueue.reset with held := [.veLq] }, fifos := { Fifos.reset with veLq := n } }
def going1 (i : Instr) : Entry := { entryOf0 i with phase := .started }
def doneOk (num : Nat) : Bool :=
  let x := (sDone num Fifos.reset).core 0
  ((x.ve.ents.find? (·.phase = .done)).map fun n => (n.num, n.iter, n.asy, (signalFifos .ve n.instr).length)) == some (num, none, [], 1) &&
    !x.task.any (·.gone) && x.ve.ahead == [] && x.ve.held == [] && x.ve.tl == 0
theorem wit_complete :
    doneOk 1 = true ∧ doneOk 2 = true ∧
    (let s := sDone 1 { Fifos.reset with veLq := 16 }
     16 ≤ (s.core 0).fifos.get .veLq ∧ signalFifos .ve (.vadd { tok0 with sl := true } 1 (.vec 2) (.reg 5) mF32) = [.veLq]) ∧
    (let s := withEntry .sq (done1 1 (.vst tk0 1 2 0 .f32 0 none false)) fun x => { x with remoteOut := 1 }
     (s.core 0).sq.ents.find? (·.phase = .done) = some (done1 1 (.vst tk0 1 2 0 .f32 0 none false)) ∧
       mayStore .sq (.vst tk0 1 2 0 .f32 0 none false) = true ∧ 0 < (s.core 0).remoteOut) ∧ mayStore .ve vaddF = false ∧
    (let s := withEntry .ve (done1 1 vaddF) fun x => { x with task := some { plainTask with gone := true } }
     (s.core 0).ve.ents.find? (·.phase = .done) = some (done1 1 vaddF) ∧ (s.core 0).task.any (·.gone) = true) ∧
    (let n := { done1 1 (.mpopc tok0 1 1 .f32) with iter := some (1, 0) }
     let s := withEntry .ve n fun x => { x with bundles := [bundle1] }
     (s.core 0).ve.ents.find? (·.phase = .done) = some n ∧ n.iter = some (1, 0) ∧ (s.core 0).bundles.map (·.id) = [1]) ∧
    ((heldVe 0).ve.held = [.veLq] ∧ (heldVe 0).fifos.get .veLq < 16 ∧ 16 ≤ (heldVe 16).fifos.get .veLq) := by decide +kernel

/-- Entries that stand: at a frontier, at cells, at a counter, and how they go on; a walker command that faults. -/
def sGoing (e : Eng) (n : Entry) : State := withEntry e n
theorem wit_waiting :
    (let n := going1 (.vld ⟨false, false, false⟩ 1 1 0 .f32 0 none)
     ((sGoing .lq n).core 0).lq.going = [n] ∧ isFe n.instr = false ∧ isTrig n.instr = false ∧
       meets (runEntry 0 { n with a := ⟨0x10000, false⟩ }) ((sGoing .lq n).racing 0) = true) ∧
    (let n := going1 (.vldfe ⟨false, false, false⟩ 1 3 0 false .f32)
     ((sGoing .lq n).core 0).lq.going = [n] ∧ isFe n.instr = true) ∧
    (let n := going1 (.trig 1 (.reg 5) .pkg)
     ((sGoing .wq n).core 0).wq.going = [n] ∧ isTrig n.instr = true) ∧
    (let n := { going1 (.cpym 1 2 (.reg 16) none) with a := ⟨0x10000, true⟩, b := ⟨0x40000, false⟩, c := ⟨64, false⟩ }
     ((sGoing .wq n).core 0).wq.going = [n] ∧ fails (runEntry 0 n) (sGoing .wq n) (fun | .fault _ => true | _ => false) = true) := by decide +kernel

/-! ## Witnesses: what engine entries do -/

/-- A core whose next entry of queue `e` is `n`, with element 0 in mask 1, full cells, and pages in its quad's TLB. -/
def sEff (e : Eng) (n : Entry) (full : List Nat := []) : State :=
  { (withEntry e n fun x => { x with mregs := [(1, 1)], scFull := full }) with quads := [(0, { Quad.reset 0 with quadTlb := pages })] }
/-- `n` starts there, and the operations of its effect run. -/
def effect {α : Type} (e : Eng) (n : Entry) (m : Mx α) (p : α → State → Bool := fun _ _ => true) (full : List Nat := []) : Bool :=
  let s := sEff e n full
  (s.core 0).startable e == some n && (s.core 0).missing e n == [] && meets m (atWork s 0 e n) p
def entAt (i : Instr) (a : Nat) (c : Nat := 0) : Entry := entryOf0 i ⟨BitVec.ofNat 64 a, false⟩ SVal.zero ⟨BitVec.ofNat 64 c, false⟩
def homeAt (s : State) (a : Agent) : Target → Bool
  | .scratch _ => true
  | .phys pa l => !s.usesL1 a pa l && directOk s (.phys pa l)
def granRead (va al : Nat) : Mx (List Byte × Bool) := do
  let t ← accessN (chapElem 0) (.core 0) 0 .r va al 16 false false
  readAt (.core 0) t 16 0

/-- Loads of one granule, of a block type with its exponents, and of one gathered element. -/
theorem wit_vector_loads :
    (let n := entAt (.vld tk0 1 1 0 .f32 1 none) 0x10000
     (readCore (sEff .lq n) 0 .lq n).granList .f32 1 = [(0, 0)] ∧ effect .lq n (granRead 0x10000 16) (fun r _ => r.2 == false) = true) ∧
    (let n := entAt (.vld tk0 1 1 0 .bx8 0 (some 2)) 0x10000 0x10200
     effect .lq n (do
       let rs ← ((readCore (sEff .lq n) 0 .lq n).granList .bx8 0).mapM fun g => granRead (0x10000 + 16 * g.1) (if g.1 = 0 then 32 else 16)
       let ps ← planePieces 0 0 0x10200 32 .r
       let pl ← readPieces (.core 0) ps 0
       pure (rs, pl)) (fun r _ => r.1.length == 32 && r.2.length == 32) = true) ∧
    (let n := entAt (.vldg tk0 1 1 2 .f32 1) 0x10000
     effect .lq n (do let t ← access (chapElem 0) (.core 0) 0 .r 0x10000 4 false; readAt (.core 0) t 4 0) = true ∧
       ((readCore (sEff .lq n) 0 .lq n).vsrc 2).el 32 0 = (0, false)) := by decide +kernel

/-- 32 cells, all full, and all empty, at a load and at a store. -/
theorem wit_vector_cells : ∀ full ∈ [[], (List.range 32).map (8192 + ·)],
    effect .lq (entAt (.vldfe tk0 1 3 0 true .f32) 0x30000) (cells32 0 0x30000 .f32 .r)
      (fun ps u => ps.all fun p => (u.core 0).cellFull p == (full != []) && !(u.core 0).cellPois p) full = true ∧
    effect .sq (entAt (.vstfe tk0 1 3 0 .f32) 0x30000) (cells32 0 0x30000 .f32 .w)
      (fun ps u => ps.all fun p => (u.core 0).cellFull p == (full != []) && !(u.core 0).cellPois p && (u.core 0).remoteOut == 0) full = true := by
  decide +kernel

/-- Stores of one granule, of a block type's exponents, and of one scattered element, at home. -/
theorem wit_vector_stores :
    (let n := entAt (.vst tk0 1 1 0 .f32 1 none false) 0x10000
     let X := readCore (sEff .sq n) 0 .sq n
     effect .sq n (accessN (chapElem 0) (.core 0) 0 .w 0x10000 16 16 false false) (fun t u => homeAt u (.core 0) t) = true ∧
       effect .sq n (storeGran 0 0 X 1 .f32 1 0x10000 (0, 0)) = true) ∧
    (let n := entAt (.vst tk0 1 1 0 .bx8 0 (some 2) false) 0x10000 0x10200
     effect .sq n (do
       let ps ← planePieces 0 0 0x10200 32 .w
       writePieces (.core 0) 0 ps (List.replicate 32 0) false
       pure ps) (fun ps u => ps.all fun p => homeAt u (.core 0) p.1) = true) ∧
    effect .sq (entAt (.vsts tk0 1 1 2 .f32 1 false) 0x10000) (access (chapElem 0) (.core 0) 0 .w 0x10000 4 false)
      (fun t u => homeAt u (.core 0) t) = true := by decide +kernel

/-- One element's atomic, with and without its old value. -/
theorem wit_vector_atomics : ∀ nr : Bool,
    effect .sq (entAt (.vamo tk0 .add 3 1 2 (.vec 4) .f32 1 nr) 0x40000) (do
      let t ← atomTarget (chapElem 0) 0 0 0x40000 4 (detailOf 0 0 0xA2)
      implicitCommit 0
      poolCheck (chapElem 0) (.core 0) 0 0x40000 t
      homeReach (chapElem 0) (.core 0) 0x40000 t
      if nr then pure (.ok 0) else amoElem 0 0 true .add 0 0x40000 t (0, false)) (fun r _ => match r with | .ok _ => true | _ => false) = true := by
  decide +kernel

/-- A record of two dimensions, with a frontier word. -/
def rec2 (base fmt e0 e1 fw : Nat) : BitVec 512 :=
  BitVec.ofNat 512 (base + fmt * 2 ^ 52 + 2 ^ 56 + e0 * 2 ^ 128 + e1 * 2 ^ 152 + e0 * 2 ^ 224 + fw * 2 ^ 432)
def entW (i : Instr) (ta tb : BitVec 512) (c : Nat := 0) : Entry :=
  { entryOf0 i SVal.zero SVal.zero ⟨BitVec.ofNat 64 c, false⟩ with ta := some ta, tb := some tb, words := [5] }
def viaC (loom : Bool := false) (a : Agent := .core 0) : Via := { a := a, ctx := 0, loom := loom }
def chW : Chap := fun f => mkFault f.cls 0
/-- A whole granule of the elements `xs` is written at home. -/
def granAt (v : Via) (t : Tens) (xs : List Ix) : Mx (Target × Bool) := do
  let s ← getS
  match viaAccess v chW .w (t.addr (xs.headD ⟨0, 0, 0, 0⟩)) (if xs.length = 1 then elemBytes t.fmt else 16) s with
  | .ok tg u =>
    let _ ← writeGran v chW t (xs.map fun x => { x := x, b := 5, p := false })
    pure (tg, homeAt u v.a tg)
  | .error e _ => throw e

/-- Windows of a tensor: chased and not, read, written and published. -/
theorem wit_windows :
    (let r := rec2 0x40000 0 2 2 0
     let t := tensOf r
     tdefFail r = none ∧ t.fmt = .f32 ∧ t.winCount = 4 ∧ t.repeats = false ∧
     effect .lq (entW (.vldt tk0 1 1 (.reg 0) 0 .f32) r r) (do
       let b ← chaseOnce (viaC) 0 front13 halted13 t (t.cover (⟨0, 0, 0, 0⟩, t.win))
       let es ← (t.winElems ⟨0, 0, 0, 0⟩).mapM (readElem (viaC) (chapElem 0) t)
       pure (b, es)) (fun r _ => r.1 && r.2.length == 4) = true ∧
     effect .sq (entW (.vstt tk0 1 1 (.reg 0) 0 false false .f32) r r) (do
       let it ← vsttUnit (readCore (sEff .sq (entW (.vstt tk0 1 1 (.reg 0) 0 false false .f32) r r)) 0 .sq
         (entW (.vstt tk0 1 1 (.reg 0) 0 false false .f32) r r)) 1 1 t [(⟨0, 0, 0, 0⟩, 0)]
       writeItems (viaC) (fun _ => chW) t it.1 it.2) = true ∧
     effect .sq (entW (.vstt tk0 1 1 (.reg 0) 0 false false .f32) r r) (granAt (viaC) t [⟨0, 0, 0, 0⟩]) (fun g _ => g.2) = true ∧
     t.inside ⟨2, 0, 0, 0⟩ = false) ∧
    (let r := rec2 0x40000 0 2 2 0x40800
     let t := tensOf r
     effect .lq (entW (.vldt tk0 1 1 (.reg 0) 0 .f32) r r) (chaseOnce (viaC) 0 front13 halted13 t (t.cover (⟨0, 0, 0, 0⟩, t.win)))
       (fun b _ => !b) = true ∧
     effect .sq (entW (.vstt tk0 1 1 (.reg 0) 0 false true .f32) r r) (publish (viaC) 0 front13 t 2 true) = true) := by decide +kernel

/-- The Loom's commands in a chain: a command received, boxes chased and read, a tile loaded, a row stored, the frontier published. -/
def inChain (s : State) (fs : List ChainFront := []) : State := { s with quads := [(0, { Quad.reset 0 with
  quadTlb := pages, holder := some 0, chain := some { core := 0, inst := 0, slots := 1, crc := 0, fronts := fs, tiles := [2] } })] }
def inLoom {α : Type} (n : Entry) (m : Mx α) (p : α → State → Bool := fun _ _ => true) : Bool :=
  let s := inChain (sEff .lp n)
  (s.core 0).startable .lp == some n && (s.core 0).missing .lp n == [] &&
    meets (do let pos ← received 0 { n with phase := .started, since := none }; let r ← m; pure (pos, r)) (atWork s 0 .lp n) fun r t => r.1 == 2 && p r.2 t
theorem wit_loom :
    (let r := rec2 0x20000 0 2 2 0x40800
     let t := tensOf r
     let b : Ix × Ix := (⟨0, 0, 0, 0⟩, ⟨2, 2, 1, 1⟩)
     let v := viaC true (.quadUnit 0)
     inLoom (entW (.accz tok0 2) r r) (pure ()) = true ∧
     inLoom (entW (.accld tok0 2 1 (.reg 0) .f32) r r) (loomChase 0 2 v t b) (fun c _ => !c) = true ∧
     inLoom (entW (.accst tok0 2 1 (.reg 0) true .f32 false .rne) r r) (do
       let f ← storeRow v q0 1 t .rne false Tile.reset 2 (boxElems b) b 0
       publish (viaC false (.quadUnit 0)) 0 (frontLoom 2 2) t 2 false
       pure f) = true ∧
     inLoom (entW (.accst tok0 2 1 (.reg 0) true .f32 false .rne) r r) (granAt v t [⟨0, 0, 0, 0⟩]) (fun g _ => g.2) = true) ∧
    (let r := rec2 0x20000 0 2 2 0
     let t := tensOf r
     let b : Ix × Ix := (⟨0, 0, 0, 0⟩, ⟨2, 2, 1, 1⟩)
     let v := viaC true (.quadUnit 0)
     t.win.i0 = t.win.i1 ∧ 2 ≤ t.rank ∧ unitsOf t (boxElems b) ≠ [] ∧
     (∀ z : Bool, inLoom (entW (if z then .mmaz tok0 2 1 2 (.reg 0) .f32 else .mma tok0 2 1 2 (.reg 0) .f32) r r) (do
       let c ← loomChase 0 2 v t b
       let as ← readBox v (chapOne 0x49 2 0) t b
       pure (c, as)) (fun x _ => x.1 && x.2.length == 2) = true) ∧
     inLoom (entW (.accld tok0 2 1 (.reg 0) .f32) r r) (do
       let c ← loomChase 0 2 v t b
       let l ← (boxElems b).mapM (readElem v (chapOne 0x49 2 0) t)
       pure (c, l)) (fun x _ => x.1 && x.2.length == 4) = true) := by decide +kernel

/-- A `chaine` that agrees with its chain of two commands, of which one frontier is to close, and one whose slots differ. -/
def chaine0 (k : Fin 512) : Entry := { entryOf0 (.chaine tok0 k (crcDone (crcWord 0 5))) with words := [5] }
theorem wit_hallmark : ∀ k : Fin 512, k = 2 ∨ k = 3 →
    let s := inChain (sEff .lp (chaine0 k)) [{ fw := 0x40800, fsc := 1, close := true }]
    (s.core 0).startable .lp = some (chaine0 k) ∧ meets (do
      let pos ← receive 0 { chaine0 k with phase := .started, since := none } []
      let u ← getS
      let _ ← frontRmw (frontLoom 2) (.quadUnit 0) 0 0x40800 [.closeLive]
      pure (pos, (u.chainOf 0).map (·.slots))) (atWork s 0 .lp (chaine0 k)) (fun r _ => r == (2, some 2)) = true := by
  rintro k (rfl | rfl) <;> decide +kernel

/-- The units of a window, rising, and the elements of one, by offset. -/
theorem wit_units :
    let t := tensOf (rec2 0x40000 0 4 2 0x40800)
    let xs := (t.winElems ⟨0, 0, 0, 0⟩).filter t.writable
    unitList t xs = [0, 1] ∧ byOff t (xs.filter fun i => t.unitW i = 0) = (List.range 4).map fun i => ⟨i, 0, 0, 0⟩ := by
  intro t xs
  have h : (xs.map t.unitW).eraseDups = [0, 1] := by decide +kernel
  have g : xs.filter (fun i => t.unitW i = 0) = (List.range 4).map fun i => ⟨i, 0, 0, 0⟩ := by decide +kernel
  have p : ((List.range 4).map fun i => (⟨i, 0, 0, 0⟩ : Ix)).Pairwise fun a b => decide (t.off a ≤ t.off b) = true := by decide +kernel
  constructor
  · rw [unitList, h]
    exact List.mergeSort_of_pairwise (by decide)
  · rw [byOff, g]
    exact List.mergeSort_of_pairwise p

/-- The walker's copies, unit by unit and byte by byte, a fill, and a counter that has and has not reached its threshold. -/
theorem wit_walker :
    (let r := rec2 0x40000 0 4 2 0x40800
     let r0 := rec2 0x10000 0 4 2 0
     let td := tensOf r
     let ts := tensOf r0
     let v := viaC false (.quadUnit 0)
     td.fmt = ts.fmt ∧ td.win = ts.win ∧ td.repeats = false ∧
     effect .wq (entW (.cpy 1 2 (.reg 0) none true) r r0) (do
       let here : List Ix := (List.range 4).map fun i => ⟨i, 0, 0, 0⟩
       let c ← chaseOnce v 0 (frontWalk 0) (walkFault 0x0C 0x92 0) ts (cpyCover ts here)
       let k ← cpyUnit v td ts 0 here
       publish v 0 (frontWalk 0) td 1 false
       publish v 0 (frontWalk 0) td 2 true
       pure (c, k)) (fun x _ => x.1 && x.2 == 16) = true) := by decide +kernel
theorem wit_walker_home :
    (let r := rec2 0x40000 0 4 2 0x40800
     let r0 := rec2 0x10000 0 4 2 0
     let td := tensOf r
     let v := viaC false (.quadUnit 0)
     effect .wq (entW (.cpy 1 2 (.reg 0) none true) r r0) (granAt v td ((List.range 4).map fun i => ⟨i, 0, 0, 0⟩)) (fun g _ => g.2) = true ∧
     effect .wq (entW (.cpyf 1 (.reg 0) (.reg 0) none true) r r0 7) (writeItems v (fun _ => chW) td [{ x := ⟨0, 0, 0, 0⟩, b := 7, p := false }] []) = true) := by decide +kernel
theorem wit_cpym :
    (let n := entryOf0 (.cpym 1 2 (.reg 16) none) ⟨0x40000, false⟩ ⟨0x10000, false⟩ ⟨16, false⟩
     effect .wq n (do
       let tr ← access (chapWalk 0) (.quadUnit 0) 0 .r 0x10000 1 false
       let tw ← access (chapWalk 0) (.quadUnit 0) 0 .w 0x40000 1 false
       let r ← readAt (.quadUnit 0) tr 16 0
       let u ← getS
       writeAt (.quadUnit 0) 0 tw r.1 r.2
       pure (min tr.poisonUnit tw.poisonUnit, homeAt u (.quadUnit 0) tw)) (fun x _ => decide (16 ≤ x.1) && x.2) = true) := by decide +kernel
def trigRead : Mx (Target × List Byte × Bool) := do
  let t ← resolve (chapWalk 0) (.quadUnit 0) 0 .r 0x40000 false
  poolCheck (chapWalk 0) (.quadUnit 0) 0 0x40000 t
  homeReach (chapWalk 0) (.quadUnit 0) 0x40000 t
  let r ← readHome (.quadUnit 0) t 8
  pure (t, r)
def trig0E (th : Word) : Entry := entryOf0 (.trig 1 (.reg 5) .pkg) ⟨0x40000, false⟩ ⟨th, false⟩
def trigOk (x : Target × List Byte × Bool) (u : State) : Bool :=
  x.1.effHome == 4 && !u.nrAhead (.quadUnit 0) x.1 8 && !x.2.2 && ofBytes x.2.1 == 0
theorem wit_trig : effect .wq (trig0E 0) trigRead trigOk = true ∧ effect .wq (trig0E 1) trigRead trigOk = true := by decide +kernel

/-- A chain word over a granule of four elements, its unit published and closed. -/
theorem wit_chain_word :
    (let r := rec2 0x40000 0 4 1 0x40800
     let n := { entW (.vchain tok0 1 2 (.reg 0) none false .rne) r (rec2 0x10000 0 4 1 0) with b := ⟨0x50, false⟩, hasKs := true }
     let td := tensOf r
     td.units = 1 ∧ td.grans (boxElems (td.unitBox 0)) = [(List.range 4).map fun i => ⟨i, 0, 0, 0⟩] ∧
     effect .ve n (do
       let a ← chainArgs false n
       let c ← chaseOnce (viaC) 0 (frontVchain 0) (mkFault 0x0C (chainDetail 0 0 0x92)) a.2.1 (a.2.1.cover (td.unitBox 0))
       let ys ← ((List.range 4).map fun i => (⟨i, 0, 0, 0⟩ : Ix)).mapM (readElem (viaC) (chapVchain 0) a.2.1)
       let g ← granAt (viaC) td ((List.range 4).map fun i => ⟨i, 0, 0, 0⟩)
       publish (viaC) 0 (frontVchain 0) td 1 false
       publish (viaC) 0 (frontVchain 0) td 1 true
       pure (c, ys, g.2)) (fun x _ => x.1 && x.2.1.length == 4 && x.2.2) = true) := by decide +kernel

/-- Each VE instruction of a group of registers, of a stream or of the transformed mean starts as the next entry. -/
theorem wit_ve_groups :
    let n8 : Mods := { mF32 with ty := .n8 }
    let b16 : Mods := { mF32 with ty := .bf16 }
    (∀ i ∈ [Instr.vdot tok0 1 2 3 2 n8, .vdot tok0 1 2 3 0 b16, .vwmul tok0 4 2 3 n8, .vwmul tok0 4 2 3 b16, .vcvt tok0 4 2 .bf16 false mF32,
      .vcvt tok0 4 2 .f32 false b16, .vcvt tok0 4 2 .f32 false { mF32 with ty := .bx8 }, .vcvtef tok0 4 2 6 .f32 false b16,
      .vtmin tok0 2 (.vec 4) 0, .vtmex tok0 1 2 mF32, .vtmerge tok0 2 4 6 0, .vsortk tok0 4 2 3 mI32, .vsegsum tok0 1 2 3 4 mI32,
      .vsegsum tok0 1 2 3 4 mF32, .vpushc tok0 1 2 1 .f32 0, .vpopc tok0 2 3 1 .f32, .vredsum tok0 1 2 mF32, .vredmax tok0 1 2 mF32,
      .vredmin tok0 1 2 mF32, .vscan tok0 1 2 mF32, .vmov tok0 1 (.vec 2) { mF32 with ty := .bx8 }], starts i .ve ⟨5, false⟩ = true) ∧
    efPair .f32 .bf16 = true ∧ { entryOf0 vaddF with tmq := true }.tmq = true ∧
    ((sT.core 0).vsrc 3).el 32 0 = (0, false) ∧ (tmUnpack 0x7FC00000 0).v = none := by decide +kernel

/-- A legal pair of tables at 0x10000: each from 0 to 1, with rising knots. -/
def knots0 : List Nat := 0 :: 0x3F800000 :: List.range 65
def tabBytes : List Byte := (knots0 ++ 0 :: knots0).flatMap (toBytes 4)
theorem wit_tmtab :
    let n := entryOf0 (.tmtab tok0 1 5) ⟨0x10000, false⟩
    let s := { sEff .ve n with mem := (tabBytes.zipIdx (sT.place 0x100000)).filterMap fun x => if x.1 = 0 then none else some (x.2, x.1) }
    (s.core 0).startable .ve = some n ∧ meets (readRange (chapOne 0x37 0 0) (.core 0) 0 0x10000 540 8 0 false) (atWork s 0 .ve n)
      (fun bs _ => bs.all (fun b => !b.2) && tabPairOk (BitVec.ofNat 4320 (ofBytes (bs.map (·.1))))) = true := by decide +kernel

/-- One product in a group; a magnitude that one more bit lies under, one that overflows, and one that is small. -/
theorem wit_group_sum : let ps : List (Bool × Nat × Int) := [(false, 1, 0)]
    ps ≠ [] ∧ (∀ p ∈ ps, p.2.1 ≠ 0) ∧ (∀ p ∈ ps, p.2.2 + Nat.log2 p.2.1 ≤ 0) ∧ (∃ p ∈ ps, p.2.2 + Nat.log2 p.2.1 = 0) := by decide +kernel
theorem wit_rounding : (2 ^ 24 ≠ 0 ∧ 2 ^ (23 + 1) ≤ 2 ^ 24) ∧
    (∃ n, RoundsTo .rne false (2 * 2 ^ 24 * 2 ^ 1) (2 * 2 ^ 0) n ∧ n < 2 ^ 200) ∧
    (∃ n, RoundsTo .rz false (2 ^ 105) 2 n ∧ 2 ^ 104 ≤ n) := ⟨by decide, ⟨2 ^ 25, by simp [RoundsTo]⟩, ⟨2 ^ 104, by simp [RoundsTo]⟩⟩

/-- Two loads that have written register 2 one after the other, the earlier one not completed. -/
def sTwo : State := withCore fun x => { x with vregs := [(2, { VRegVal.zero with bits := 9 })], lq := { EQueue.reset with nextNum := 3, ents :=
  [{ entryOf0 (.vld tk0 2 1 0 .f32 0 none) with phase := .started, olds := [(2, VRegVal.zero)], wrote := 1 },
   { entryOf0 (.vld tk0 2 1 0 .f32 0 none) with num := 2, phase := .done, olds := [(2, old2)], wrote := 2 }] } }
theorem wit_completed_write : ∃ o n, (sTwo.core 0).lq.ents = [o, n] ∧ o.wrote < n.wrote ∧ shas n.olds 2 = true ∧ shas o.olds 2 = true :=
  ⟨_, _, rfl, by decide +kernel⟩

def sTile (t : TileEnt) (w : Nat := 0) : State :=
  { (sFw w) with ctxs := [(0, { Ctx.reset with groups := [(3, grp0)], tiles := [(5, t)] })], criers := [(5, { Crier.reset with verified := true, tlb := pages })] }
/-- An image of group 3 with one element; the same with a trigger frontier at 0x40000. -/
def img0 : BitVec 512 := BitVec.ofNat 512 (3 * 2 ^ 116 + 2 ^ 128)
def imgF : BitVec 512 := BitVec.ofNat 512 (3 * 2 ^ 116 + 2 ^ 128 + 0x40000 * 2 ^ 176 + 2 * 2 ^ 228)
def tile0 : TileEnt := { img := 0, armed := none, fired := none, landed := false }
def cq5 (img : Option (BitVec 512)) : Entry := { going1 (.ttset (.reg 5) 4) with a := ⟨5, false⟩, b := ⟨0, false⟩, ta := img }
def sCq (img : Option (BitVec 512)) : State := { sTile tile0 with cores := [(0, coreT.setEq .cq { EQueue.reset with ents := [cq5 img] })] }

/-- A CQ entry in hand that its crier accepts, and one that it refuses; the 257th command of a chain. -/
def chain0 : Chain := { core := 0, inst := 1, slots := 256, crc := 0, fronts := [], tiles := [] }
def sLong : State := { (withEntry .lp (entryOf0 (.accz tok0 1))) with quads := [(0, { Quad.reset 0 with holder := some 0, chain := some chain0 })] }
theorem wit_cq_chain :
    (((sCq (some img0)).core 0).cq.going = [cq5 (some img0)] ∧ (sCq (some img0)).crierTakes (crierOf 0 5) = true ∧
      (ackCq 0 (cq5 (some img0)) (sCq (some img0))).toOption.isSome = true) ∧
    (((sCq none).core 0).cq.going = [cq5 none] ∧ (ackCq 0 (cq5 none) (sCq none)).toOption.isNone = true) ∧
    (sLong.chainOf 0 = some chain0 ∧ Starts sLong 0 .lp (entryOf0 (.accz tok0 1)) ∧ 256 ≤ chain0.slots) := by
  unfold Starts; decide +kernel

def sFired (l : Bool := false) : State := sTile { img := img0, armed := none, fired := some (firing0 0 none), landed := l }
/-- Tiles: fired and not, with a legal and an illegal image, with and without a trigger frontier; armed, with its trigger met, not met, and
halted; an image that `cred` refuses. -/
theorem wit_tiles :
    (((sFired).tile 0 5).pending = true ∧ ((sTile { tile0 with armed := some 0 }).tile 0 5).pending = false ∧ credOk imgF = false) ∧
    (imageFail ((sTile tile0).group 0 (tGrp img0)).defined img0 = none ∧ (imageFail ((sTile tile0).group 0 (tGrp 0)).defined 0).isSome = true) ∧
    (tFwa imgF ≠ 0 ∧ imgF ≠ 0 ∧ tFwa img0 = 0 ∧ credOk img0 = true ∧ ((sTile tile0).tile 0 5).img = 0) ∧
    (let t : TileEnt := { img := imgF, armed := some 0, fired := none, landed := false }
     ((sTile t).tile 0 5).armed = some 0 ∧ (sTile t).crierTakes (crierOf 0 5) = true ∧
     meets (tileTrigger 0 5 0 imgF) (sTile t 2) (fun b _ => b) = true ∧ meets (tileTrigger 0 5 0 imgF) (sTile t 1) (fun b _ => !b) = true ∧
     fails (tileTrigger 0 5 0 imgF) (sTile t (2 ^ 63)) (fun | .fault _ => true | _ => false) = true) := by decide +kernel

/-- A firing of each member: all there and agreeing, one missing, one that carries a fault; every port down. -/
theorem wit_collective :
    (sFired.tile 0 5).fired = some (firing0 0 none) ∧ (sFired.tile 0 5).landed = false ∧ (sFired.group 0 (tGrp img0)).members = [5, 0] ∧
    sFired.fabricUp = true ∧ ({ sFired with criers := [] } : State).fabricUp = false ∧
    firingRefuses [5, 0] (firing0 0 none) (firing0 5 none) = none ∧ (5 : Nat) ≠ sFired.pkg.toNat ∧
    firingRefuses [5, 0] (firing0 0 none) (firing0 5 (some 9)) = some 9 := by decide +kernel

/-- A result that lands at 0x40000, and instances whose result has landed: without CFW, with a CFW that takes the count, with one that
faults, and with a write of the crier unacknowledged. -/
def imgC (cfw : Nat) : BitVec 512 := BitVec.ofNat 512 (0x40000 * 2 ^ 64 + 3 * 2 ^ 116 + 2 ^ 128 + cfw * 2 ^ 276)
def sLanded (cfw : Nat) : State := sTile { img := imgC cfw, armed := none, fired := some (firing0 0 none), landed := true }
theorem wit_collective_end :
    meets (landResult 5 0 5 (imgC 0) [(1, false)]) (sLanded 0) = true ∧
    (crierOf 0 5 = 5 ∧ ((sLanded 0).tile 0 5).fired = some (firing0 0 none) ∧ ((sLanded 0).tile 0 5).landed = true) ∧
    (tCfw (imgC 0) = 0 ∧ tCfw (imgC 0x40000) ≠ 0 ∧ ((sLanded 0x40000).crier 5).remoteOut = 0 ∧
      meets (frontRmw (frontCrier 5) (.crier 5) 0 0x40000 [.bump]) (sLanded 0x40000) = true ∧
      fails (frontRmw (frontCrier 5) (.crier 5) 0 0x10000 [.bump]) (sLanded 0x10000) (fun | .fault _ => true | _ => false) = true) ∧
    0 < (({ sLanded 0x40000 with criers := [(5, { Crier.reset with verified := true, remoteOut := 1 })] } : State).crier 5).remoteOut := by decide +kernel

/-- A sequencer at the end of its line: the next line fetched earlier, read now, refused, and held. -/
def sEnd (f : Seqr → Seqr := id) : State := withSeq fun x => f { x with pcLane := 8 }
def sAt (a : BitVec 52) : State := withSeq fun x => { x with pcLine := a, line := none }
def fetchAt (a : Nat) : Mx (List Byte × Bool) := do
  let t ← access chapFetch (.fetch q0) 0 .x a 32 false
  readAt (.fetch q0) t 32 0
theorem wit_lines :
    (((sEnd).seqr q0).status = .live ∧ ((sEnd).seqr q0).line = some nopLine ∧ nopLine.eos = false ∧ walkLine false nopLine 8 8 = .gone ∧
      ((sEnd).seqr q0).wait = .none ∧ ((sEnd).seqr q0).inBody = none) ∧
    shas ((sEnd fun x => { x with ibuf := [(0x1020, nopLine)] }).seqr q0).ibuf 0x1020 = true ∧
    meets (fetchAt 0x1020) sEnd (fun r _ => r.2 == false) = true ∧
    ((sAt 0x10000).seqr q0).line = none ∧ fails (fetchAt 0x10000) (sAt 0x10000) (fun | .fault _ => true | _ => false) = true ∧
    fails (fetchAt 0x90000) (sAt 0x90000) (fun | .stall _ => true | _ => false) = true := by decide +kernel

/-- The last line of an open body, which breaks no rule, and which breaks one. -/
def sBody (b : Bundle) : State := withCore fun x => { x with bundles := [b], as := { x.as with
  pcLane := 8, openBundle := some 1, lastBundle := some 1, pcLine := 0x1020, ibuf := [(0x1040, nopLine)] } }
def badB : Bundle := { bundle1 with routing := true, bad := some (0x71, 0, 0) }
theorem wit_body_close : (∀ b ∈ [{ bundle1 with routing := true }, badB],
      let x := (sBody b).seqr q0
      x.status = .live ∧ x.wait = .none ∧ x.nextLine = (b.endLine, 1) ∧ x.inBody.bind ((sBody b).core 0).bundle = some b ∧
        (x.line.map fun m => (m.eos, walkLine false m 8 x.pcLane == .gone)) = some (false, true) ∧ shas x.ibuf b.endLine = true) ∧
    ({ bundle1 with routing := true } : Bundle).refusal = none ∧ badB.refusal = some (0x71, 0, 0) := by decide +kernel

/-- Records that wait: for a sequencer past its stream's end, at a boundary without and with a handler, one whose area is absent, one whose area
is held; behind a record of its context that waits for the fault queue. -/
def rec1 : FRec := sT.mkRec 0 0 0x1004 true (mkFault 0x15 0)
def sAsync (f : Seqr → Seqr) : State :=
  { (withSeq fun x => f { x with asyncRecs := [rec1] }) with ctxs := [(0, { Ctx.reset with frb := 0x10000 })] }
theorem wit_delivery :
    ((sT.seqr q0).status = .live) ∧
    (let x := (sAsync fun x => { x with line := some eosLine, pcLane := 8 }).seqr q0
     x.asyncRecs = [rec1] ∧ (sAsync id).mustFollow rec1 = false ∧ x.boundary = none) ∧
    (let x := (sAsync id).seqr q0
     x.boundary = some 0x1004 ∧ x.deaf = true) ∧
    (sT.seqr q0).asyncRecs = [] ∧ ({ sAsync id with fqHeld := [rec1], clock := 5 } : State).mustFollow { rec1 with clock := 5 } = true ∧
    (let s := sAsync fun x => { x with tvec := 0x2000 }
     let none_ (x : State) : State := x.onSeqr q0 fun y => { y with asyncRecs := [] }
     (s.seqr q0).boundary = some 0x1004 ∧ (s.seqr q0).deaf = false ∧ meets (writeRecord q0 rec1) (none_ s) = true ∧
     fails (writeRecord q0 rec1) (none_ { s with ctxs := [] }) (fun | .fault _ => true | _ => false) = true ∧
     fails (writeRecord q0 rec1) (none_ { s with smap := [(0, { socket := 6, rewrite := some 7 })] }) (fun | .stall _ => true | _ => false) = true) := by decide +kernel

/-! ## Witnesses: scheduling -/

/-- Physical memory of a package with tables at 0x600000, memory-side pages 0x10000, 0x40000 at frames 0x10, 0x30, a cached one 0x20000 at
frame 0x20, and frame attributes for them. -/
def putNats (base : Nat) (l : List (Nat × Nat × Nat)) : List Host.Cell := l.foldl (fun m e => memSetAll m (base + e.1) (toBytes e.2.1 e.2.2)) []
def leafE (frame : Nat) (ms : Bool) : Nat := 15 + frame * 65536 + (if ms then 2 ^ 56 else 0)
def memV (more : List (Nat × Nat × Nat)) : List Host.Cell := putNats (6 * 2 ^ 36)
  ([(0x600000, 8, 0x601001), (0x601000, 8, 0x602001), (0x602000, 8, 0x603001),
    (0x603008, 8, leafE 0x10 true), (0x603010, 8, leafE 0x20 false), (0x603020, 8, leafE 0x30 true),
    (2 ^ 32 + 4 * 0x60, 4, 4), (2 ^ 32 + 4 * 0x10, 4, 4), (2 ^ 32 + 4 * 0x20, 4, 1), (2 ^ 32 + 4 * 0x30, 4, 4)] ++ more)
/-- Slot 0 of queue 0 at 0x10000: a task at line 0x20000. -/
def recOf (gen : Nat) : List (Nat × Nat × Nat) := [(0x100000, 8, 0x20000), (0x100008, 8, 0x20000), (0x100020, 8, gen * 2 ^ 32)]
def queue0 : Queue := { Queue.reset with base := 0x10000, tail := 1, en := true, log2n := 4, cls := 3, tickets := 7 }
def sV (more : List (Nat × Nat × Nat)) : State :=
  { State.reset with
    syc := { Syc.reset with state := 5, trained := 64, fatb := 0x40, cmdb := 0x1000, crmb := 0x1800 },
    ctxs := [(0, { Ctx.reset with en := true, root := 0x60, frb := 0x10000 })], queues := [(0, queue0)], dies := [(0, { Die.reset with cbind := 8, passed := true })],
    mem := memV more }
/-- A draw of a class with a ready queue and of one without. -/
theorem wit_draw :
    swf (fun _ => Queue.reset) (sV []).queues = true ∧ (∀ e ∈ (sV []).queues, e.1 < 256) ∧ (sV []).queueReady 0 = true ∧ ((sV []).queue 0).tickets = 7 ∧
    ((sV []).draw 3).1 = some 0 ∧ ((sV []).draw 2).1 = none := by decide +kernel

/-- What a draw of class 3 pops, and of what state. -/
def pops (s : State) (p : List Popped → State → Bool) : Bool := meets (nextSlots 0) (s.draw 3).2 p
def okPop (r : Popped) : Bool := match r.rec_ with | .ok _ => true | .error _ => false
/-- A queue with a returned record, one whose page is absent, and one of no class that is drawn. -/
def sReturned : State := { sV (recOf 0) with queues := [(0, { queue0 with head := 1, slots := [(0, .returned 7)] })] }
def sUnread : State := { sV [] with queues := [(0, { queue0 with base := 0x90000 })] }
/-- A request with an idle core that starts a task, one with no idle core, a die that pops nothing, a die without a class, one whose read is held;
a current, a stale, a returned and an unreadable record. -/
def startsClass (s : State) : Bool := match s.tryClass 0 3 with | .started _ => true | _ => false
def nextClass (s : State) (k : Nat) : Bool := match s.tryClass 0 k with | .next _ => true | _ => false
theorem wit_work_request :
    ((sV (recOf 0)).idleCores 0 ≠ [] ∧ (sV (recOf 0)).diePops 0 = true ∧ ((sV (recOf 0)).die 0).classOrder = [3] ∧
      startsClass (sV (recOf 0)) = true) ∧
    ({ sV (recOf 0) with syc := Syc.reset }).diePops 0 = false ∧ ({ sV [] with dies := [(0, Die.reset)] }.die 0).classOrder = [] ∧
    nextClass (sV (recOf 0)) 2 = true ∧ (let s : State := { sV [] with dies := [(0, { Die.reset with cbind := 12, passed := true })] }
      (s.die 0).classOrder = [2, 3]) ∧
    (match ({ sV (recOf 0) with smap := [(0, { socket := 6, rewrite := some 7 })] } : State).tryClass 0 3 with | .held => true | _ => false) = true := by
  decide +kernel

theorem wit_drawn_records :
    ((sV []).draw 2).1 = none ∧ (sReturned.queue 0).returned = [(0, 7)] ∧
    pops sReturned (fun ps _ => ps.map (fun p => (p.idx, p.crew)) == [(0, 7)] && ps.all okPop) = true ∧
    pops (sV (recOf 0)) (fun ps u => ps.length == 1 && ps.all okPop && !ps.any (·.stale) && decide (ps.length ≤ (u.idleCores 0).length) &&
      ((u.idleCores 0).zip ps).all fun x => !u.startHeld x.1 (u.queue 0).ctx x.2) = true ∧
    pops (sV (recOf 1)) (fun ps _ => ps.all okPop && ps.any (·.stale)) = true ∧
    pops sUnread (fun ps _ => ps.all (fun p => !okPop p) && ps.any (·.stale)) = true ∧
    pops { sV (recOf 0) with cores := (List.range 4).map fun k => (k, coreT) } (fun ps u => decide ((u.idleCores 0).length < ps.length)) = true ∧
    pops (sV (recOf 0)) (fun ps _ => ps.all fun p => !p.stale && ({ p with idx := 1, rec_ := .error (mkFault 0 0) } : Popped).stale) = true := by
  decide +kernel

/-- A record that starts a task (R219). -/
def imgT : BitVec 2048 := BitVec.ofNat 2048 (0x20000 + 0x20000 * 2 ^ 64)
theorem wit_task_start : kindOf (flagsOf (imgWord imgT 32)) ≠ 2 ∧ imgWord imgT 0 ≠ 0 ∧ imgWord imgT 8 ≠ 0 ∧ imgWord imgT 0 < 2 ^ 52 ∧
    imgWord imgT 8 < 2 ^ 52 ∧ imgWord imgT 0 % 32 = 0 ∧ imgWord imgT 8 % 32 = 0 := by decide +kernel
/-- A continuation whose AS resumes at lane 1 of 0x20000 with five slots, and whose XS is at its stream's end. -/
def imgK : BitVec 2048 := BitVec.ofNat 2048 (0x20004 + (2 ^ 63 + 5 * 2 ^ 48) * 2 ^ 256)
theorem wit_continuation_start : kindOf (flagsOf (imgWord imgK 32)) = 2 ∧ anOf (flagsOf (imgWord imgK 32)) = 5 ∧ imgWord imgK 0 ≠ 0 ∧
    imgWord imgK 0 < 2 ^ 52 ∧ imgWord imgK 8 = 0 := by decide +kernel

/-- Launches: held by a trigger, a gate, one before it and a held record, a spawned record, a team that has room, the last of a launch, a team
without room, an empty launch; a counter that cannot be read; a watched word of 0 and of 1, and a poisoned one; a held record. -/
def img2 : BitVec 2048 := BitVec.ofNat 2048 (0x20000 + 0x20000 * 2 ^ 64 + 0x100010002 * 2 ^ 320)
def pend0 (spawn : Bool) (img : BitVec 2048) (trig : Option Trigger) : Pending :=
  { enq := { spawn := spawn, img := img, pois := 0, queue := 0, ctx := 0, trig := trig }, next := 0, trig := trig, gate := none, counted := false }
def trig0 : Trigger := { cnt := 0x40000, thr := 5, sc := .pkg }
def sLaunch (p : Pending) (more : List (Nat × Nat × Nat)) : State := { sV more with launches := [p] }
def trigReads (w : Nat) (p : Nat → Bool) : Bool :=
  meets (do let t ← access (chap10 0) .qengine 0 .r 0x40000 8 false; readHome .qengine t 8) (sLaunch (pend0 false imgT (some trig0)) [(0x300000, 8, w)])
    (fun r _ => r.2 == false && p (ofBytes r.1))
def watch0 : Watch := { area := 0x40100, word := 0x40000, queue := 0, jobid := 0, join := 0 }
def sWatch (w : Nat) : State := { sV [(0x300000, 8, w)] with ctxs := [(0, { (sV []).ctx 0 with watches := [watch0] })] }
/-- The record of launch `p` and its counter can be written. -/
def puts (p : Pending) (put : Mx Unit) : Bool := ((sLaunch p []).countLaunch p |>.qeRun 0 p.enq.job () put).1 == some ()
def hr0 : HeldRec := { cont := true, img := imgK, pois := 0, queue := 0 }
theorem wit_held_records :
    (let s : State := { sV [] with heldRecs := [hr0] }
     s.nextHeld 0 = some hr0 ∧ (s.queue 0).full = false ∧
       (s.qeRun 0 ((hr0.img.extractLsb' 256 48).setWidth 64) () (pushSlot 0 hr0.img hr0.pois)).1 = some ()) ∧ (sV []).nextHeld 0 = none ∧
    (let s : State := { sV [] with heldRecs := [hr0], smap := [(0, { socket := 6, rewrite := some 7 })] }
     (s.qeRun 0 ((hr0.img.extractLsb' 256 48).setWidth 64) () (pushSlot 0 hr0.img hr0.pois)).1 = none) ∧
    { queue0 with tail := 16 }.full = true := by decide +kernel
theorem wit_queue_engine :
    (puts (pend0 true imgT none) (pushSlot 0 imgT 0) = true ∧ puts (pend0 false img2 none) (pushAll 0 [taskRecord img2 0]) = true ∧
      launchTotal imgT = 0 ∧ (sLaunch { pend0 false imgT none with gate := some 3 } []).launchBehind 0 0 = false ∧
      ({ sV [] with launches := [pend0 false imgT none, pend0 false imgT none] } : State).launchBehind 1 0 = true ∧
      ({ sLaunch (pend0 false imgT none) [] with heldRecs := [hr0] } : State).heldRecs.any (fun h => h.queue == 0) = true) ∧
    ((sLaunch (pend0 false imgT (some trig0)) []).launches[0]? = some (pend0 false imgT (some trig0))) ∧
    (let p := pend0 true imgT none
     let d := ((sLaunch p []).countLaunch p).queue 0
     (sLaunch p []).heldRecs = [] ∧ 0 < 2 ^ d.log2n - (d.tail - d.free).toNat) ∧
    (0 < launchTotal img2 ∧ teamSize img2 0 ≤ 2 ^ queue0.log2n - (queue0.tail - queue0.free).toNat ∧ 0 + teamSize img2 0 < launchTotal img2 ∧
      launchTotal img2 ≤ 1 + teamSize img2 1 ∧ 2 ^ queue0.log2n - ((16 : BitVec 32) - queue0.free).toNat < teamSize img2 0) ∧
    trigReads 5 (fun v => decide (5 ≤ v)) = true ∧ trigReads 4 (fun v => decide (v < 5)) = true ∧
    fails (access (chap10 0) .qengine 0 .r 0x90000 8 false) (sV []) (fun | .fault _ => true | _ => false) = true ∧
    ((sWatch 1).ctx 0).watches[0]? = some watch0 ∧
    (∀ w ∈ [0, 1], meets (do
      let t ← access (chap10 0) .qengine 0 .r 0x40000 8 false
      let b ← readHome .qengine t 8
      let rs ← (List.range 4).mapM fun i => vread (chap10 0) .qengine 0 (watch0.area + 64 * i) 64 64
      pure (b, rs)) (sWatch w) (fun r _ => r.1.2 == false && ofBytes r.1.1 == w && r.2.all (fun x => x.2 == false)) = true) ∧
    (((sWatch 1).queue 0).full = false ∧ { queue0 with tail := 16 }.full = true) ∧
    meets (do let t ← access (chap10 0) .qengine 0 .r 0x40000 8 false; readHome .qengine t 8)
      { sWatch 1 with mpois := [(sWatch 1).secPlace 0x300000] } (fun r _ => r.2) = true := by decide +kernel

/-- Tasks: done, with an entry outstanding, with a faulted queue; committed or not; within its limit and past it. -/
def sStopped (faulted : Bool) : State := withCore fun x => { x with
  as := { x.as with status := .stopped }, xs := { x.xs with status := .stopped }, ve := { EQueue.reset with faulted := faulted } }
def sLimit (tv : Word) : State := { (sHandler.onSeqr q0 fun x => { x with tvec := tv }) with clock := 2 ^ 20 }
def progRec (s : State) : FRec :=
  s.mkRec 0 0 (s.seqr q0).point true (mkFault 0x15 (detailOf (min (s.clock - plainTask.commitAt) (2 ^ 32 - 1)) 0 0x70))
theorem wit_task_ends :
    ((sStopped false).core 0).task = some plainTask ∧ plainTask.gone = false ∧ ((sStopped false).core 0).retireReady = true ∧ (sT.core 0).retireReady = false ∧
    (allEngs.any fun e => (((sStopped false).core 0).eq e).faulted) = false ∧ (allEngs.any fun e => (((sStopped true).core 0).eq e).faulted) = true ∧
    meets (release 0 (lscopeOf plainTask.jobid)) (sStopped false) = true ∧
    ((sFresh [] 0).core 0).task.map (·.committed) = some false ∧ plainTask.committed = true ∧ sT.clock - plainTask.watchAt < 2 ^ (sT.die 0).pwd.toNat ∧
    (let s := sLimit 0
     2 ^ (s.die 0).pwd.toNat ≤ s.clock - plainTask.watchAt ∧ (s.seqr q0).tvec = 0 ∧ s.mustFollow (progRec s) = false) ∧
    (let s : State := { sLimit 0 with fqHeld := [rec1] }
     s.mustFollow (progRec s) = true) ∧
    (let s := sLimit 0x2000
     let y := s.seqr q0
     y.tvec ≠ 0 ∧ y.handler = false ∧ y.status ≠ .stopped ∧
     meets (writeRecord q0 (progRec s)) s = true ∧
     fails (writeRecord q0 (progRec s)) { s with ctxs := [] } (fun | .fault _ => true | _ => false) = true ∧
     fails (writeRecord q0 (progRec s)) { s with smap := [(0, { socket := 6, rewrite := some 7 })] } (fun | .stall _ => true | _ => false) = true) ∧
    (let s := withCore fun x => { x with as := { x.as with handler := true, handlerAt := 0 }, task := some { plainTask with committed := false } }
     (s.seqr q0).handler = true ∧ (s.seqr q0).handlerAt = s.clock ∧ (s.core 0).task = some { plainTask with committed := false }) ∧
    ((withTask fun t => { t with gone := true }).core 0).task.map (·.gone) = some true ∧ ((sStopped true).core 0).as.status = .stopped := by
  decide +kernel

/-- A wait that is not monitored, one within CHTO, one past it, and one that waits for itself. -/
def sChase (clk : Nat) : State :=
  { (withSeq fun x => { x with wait := .chase, cur := some (.fchase 5 4 (.lit 5) .pkg) }) with clock := clk }
def sSelf : State :=
  { (sChase 200000) with openers := [(0x300000, (0, q0))] }
theorem wit_chase_timeout :
    sT.blockedSince (.seq q0) = none ∧ (sChase 5).blockedSince (.seq q0) = some 0 ∧ (sChase 5).clock < 0 + ((sChase 5).die 0).chto.toNat ∧
    0 + ((sChase 200000).die 0).chto.toNat ≤ (sChase 200000).clock ∧ (sChase 200000).blockedSince (.seq q0) = some 0 ∧
    (sChase 200000).cycleOf (.seq q0) = [] ∧ sSelf.blockedSince (.seq q0) = some 0 ∧ sSelf.cycleOf (.seq q0) = [.seq q0] ∧ (sT.seqr q0).status ≠ .stopped := by decide +kernel
/-- Engines that wait: for a token, for the lease, on a chase, and to push a token. -/
theorem wit_engine_waits :
    (let n := { entryOf0 (.vadd { tok0 with wl := true } 1 (.vec 2) (.reg 5) mF32) with since := some 0 }
     (withEntry .ve n).engBlock 0 .ve = some (.token n [.lqVe], 0)) ∧
    (let n := { entryOf0 (.chainb tok0) with since := some 0 }
     (withEntry .lp n).engBlock 0 .lp = some (.lease n, 0)) ∧
    ((withCore fun x => { x with ve := { EQueue.reset with held := [.veLq] }, fifos := { Fifos.reset with veLq := 16 } }).engBlock 0 .ve =
      some (.push [.veLq], 0)) ∧
    (let n := { going1 (.vldfe tk0 1 3 0 false .f32) with since := some 0 }
     (sGoing .lq n).engBlock 0 .lq = none) := by decide +kernel

/-! ## Witnesses: hosts, owners, registers, dies, errors, power -/

def claim0 (p : BitVec 8) (c : Bool) : Claim := { prio := p, claim := c, link := true }
def sPort : State :=
  let s := sV [(2 ^ 32 + 4 * 0x10, 4, 20), (0x100040, 8, 5), (2 ^ 32 + 4 * 0xF40000, 4, 3)]
  { s with
    ports := [(0, .pcie), (1, .cxl)], criers := [(0, { Crier.reset with verified := true })],
    syc := { s.syc with ownerValid := true, ownerPort := 1, claims := [claim0 9 true, claim0 7 true, claim0 9 true, claim0 0 false] } }
/-- A host that is the owner and one that is not; sectors that a host and another package may see, and sectors that they may not; an atomic of
clear and of poisoned bytes, and of a frame that takes none; a port that is down, and a range that a remapping holds. -/
theorem wit_outside : shas sPort.ports 0 = true ∧ (sectorsOf 0x100000 8).any sPort.heldAt = false ∧
    (sectorsOf 0x100000 8).all sPort.hostSees = true ∧ (sectorsOf 0x800000 8).all sPort.hostSees = false ∧
    sget sPort.ports 0 .pcie = .pcie ∧ sget sPort.ports 1 .pcie = .cxl ∧ 0x100000 % 64 + 8 ≤ 64 ∧
    (1 : Nat) ≠ sPort.pkg.toNat ∧ (sectorsOf 0x100000 8).all sPort.remoteSees = true ∧ (sectorsOf 0x800000 8).all sPort.remoteSees = false ∧
    paIdx 0x100000 ≠ 15 ∧ sPort.frameHome 0x100000 ≠ 3 ∧ sPort.poisAt 0x100000 8 = false ∧ sPort.settled.mayWrite (hostMaster 1 .nonPosted) = true ∧
    sPort.settled.mayWrite (hostMaster 0 .cxlMem) = false ∧ sPort.fabricUp = true ∧ sPort.portUp 0 = true ∧ sPort.portUp 1 = false ∧
    ({ sPort with criers := [] } : State).fabricUp = false ∧ shas (sV []).ports 0 = false ∧
    (sectorsOf 0x100000 8).any ({ sPort with smap := [(0, { socket := 6, rewrite := some 7 })] } : State).heldAt = true ∧
    ({ sPort with mpois := [sPort.secPlace 0x100000] } : State).poisAt 0x100000 8 = true ∧ 0x100001 % 8 ≠ 0 ∧
    sPort.physNat 0x100040 8 = 5 ∧ paIdx 0xF400000000 = 15 ∧ (sectorsOf 0xF400000000 8).all sPort.remoteSees = true := by decide +kernel

/-- Masters: the owner and another; an election under way and past its time, with a claim of greater priority; a handover. -/
def sOwned (f : Syc → Syc := id) : State :=
  { sT with syc := f { Syc.reset with state := 5, ownerValid := true, ownerPort := 1, claims := [claim0 9 true, claim0 7 true, claim0 9 true, claim0 0 false] } }
theorem wit_owner : (0 : Fin 4) ≠ 1 ∧ (sOwned).mayWrite (.master 0 .posted) = false ∧ (sOwned).mayWrite (.master 1 .nonPosted) = true ∧ sT.mayWrite .mgmt = true ∧
    (sOwned).syc.claims.length = 4 ∧ (sOwned).syc.state ≠ 0 ∧ (sOwned).syc.owns 1 = true ∧ sT.syc.ownerValid = false ∧
    (let s := sOwned fun y => { y with electionAt := some 0 }
     s.syc.electionAt = some 0 ∧ s.clock < 0 + 1250000 ∧ 0 + 1250000 ≤ ({ s with clock := 1250000 }).clock ∧
     ({ s with clock := 1250001 } : State).settled.syc.ownerValid = true ∧ (s.syc.claimOf 1).live = true ∧ (s.syc.claimOf 0).live = true ∧ (s.syc.claimOf 3).live = false ∧
     (s.syc.claimOf 1).prio < (s.syc.claimOf 0).prio ∧ (s.syc.claimOf 0).prio = (s.syc.claimOf 2).prio) ∧
    (sOwned fun y => { y with svnRun := [3, 4] }).syc.svnMin.getD 1 0 < (sOwned fun y => { y with svnRun := [3, 4] }).runningSvn 1 ∧
    (sOwned fun y => { y with hgoBusy := true }).syc.hgoBusy = true ∧ (sOwned fun y => { y with hgoBusy := true }).syc.owns 1 = true ∧
    (sOwned).syc.owns 0 = false ∧ (sOwned fun y => { y with opFused := false }).syc.opFused = false ∧ (let y := (sOwned fun y => { y with electionAt := some 0, claims := [] }).syc
      y.livePorts = []) ∧ (sOwned fun y => { y with attgo := true }).syc.attgo = true ∧
    sT.syc.attgo = false := by decide +kernel

/-- Registers: a queue at rest and one with live slots, contexts and pools enabled or not, cores off, a rewrite and an invalidation under way. -/
theorem wit_registers : (sT.queue 0).free = (sT.queue 0).tail ∧ ((sV []).queue 0).free ≠ ((sV []).queue 0).tail ∧
    (((sV []).ctx 0).en = true ∧ (0x8000000000000000 : Word).extractLsb' 16 32 ≠ ((sV []).ctx 0).root) ∧
    ((sT.ctx 0).jtb = 0 ∧ (0x8000000000000000 : Word).getLsbD 63 = true ∧ (0x8000000000000000 : Word).getLsbD 62 = false) ∧
    (sPool.pool 0).en = true ∧ (sT.pool 0).en = false ∧ sT.allOff = true ∧ (sV []).allOff = false ∧
    (∀ j < 12, j ≠ 0 → (sT.smapOf j).goal ≠ 6) ∧ sT.windowInUse 0 = false ∧ sT.tlbi = none ∧ ({ sT with tlbi := some 0 } : State).tlbi.isSome = true ∧
    ((({ sT with tlbi := some 0 } : State).cores.any fun c => c.2.unperformed 0) = false) := by decide +kernel

/-- A window in use: a frame of the first second-tier window is present. -/
theorem wit_window : (sV [(2 ^ 32 + 4 * 0xC00000, 4, 1)]).windowInUse 0 = true := by decide +kernel

/-- Dies in each of their states, busy and not, with a write outstanding, before and past the deadline; a package that has tripped. -/
def sBoot (st : Nat) : State := { State.reset with syc := { Syc.reset with state := st } }
def sDie (st : Nat) (clk : Nat) : State := { sV [] with dies := [(0, { Die.reset with state := st, quiesceAt := 0 })], clock := clk }
theorem wit_die : (∀ st ∈ [0, 1, 2, 3, 4, 5], ((sDie st 0).die 0).state = st) ∧ (sDie 1 0).dieBusy 0 = false ∧
    (sDie 1 0).dieOutstanding 0 = false ∧ (sDie 1 0).tripped = false ∧ (sBoot 7).tripped = true ∧ (sDie 1 0).settled.mayWrite .mgmt = true ∧
    (let s : State := { sDie 1 0 with cores := [(0, { coreT with remoteOut := 1 })] }
     s.dieBusy 0 = true ∧ s.dieOutstanding 0 = true) ∧
    (sDie 1 0).clock < ((sDie 1 0).die 0).quiesceAt + 1250 * ((sDie 1 0).die 0).dl.toNat ∧
    ((sDie 1 2500000).die 0).quiesceAt + 1250 * ((sDie 1 2500000).die 0).dl.toNat ≤ (sDie 1 2500000).clock := by decide +kernel

/-- Checkpoints: a full log and none, a task that FORCE discards and one that it faults, a context not checkpointed, in use, and free; a line of the log; a rollback under way. -/
def sCkp (en : Bool) (f : Ctx → Ctx := id) : State :=
  { sV [] with cores := [], queues := [], ctxs := [(0, f { Ctx.reset with en := en, ckEn := true, ckLogb := 0x20 })] }
theorem wit_checkpoint :
    ((let x := (sCkp true fun c => { c with ckUsed := 2 ^ 30 }).ctx 0
      x.ckEn = true ∧ x.logCap ≤ x.ckUsed) ∧ (sT.ctx 0).ckEn = false) ∧
    ((2 : Word).getLsbD 0 = false ∧ (1 : Word).getLsbD 0 = true ∧ (1 : Word).toNat / 2 ^ 58 = 0 ∧ (sCkp true).rollback = none ∧
      ((sCkp true).ctx 0).en = true ∧ ((sCkp false).ctx 0).en = false ∧ ((sCkp false).ctx 0).pendingWork = false ∧ (sCkp false).ctxCores 0 = [] ∧
      (sT.ctxCores 0 ≠ [])) ∧
    (((sFresh [] 0).core 0).task.map (fun u => (u.gone, u.committed)) = some (false, false) ∧ plainTask.committed = true) ∧
    (sCkp false).settled.mayWrite .mgmt = true ∧ (sCkp false).ctxBusy 0 = false ∧ (sCkp false).rollbackHeld 0 = false ∧ sT.ctxBusy 0 = true ∧
    ((sCkp false).queue 0).ctx = 0 ∧
    (sCkp false).isLocal ((sCkp false).physNat (0x20 * 65536) 8 % 2 ^ 48 / 128 * 128) = true ∧
    ({ sCkp false with rollback := some 0 } : State).rollback = some 0 := by decide +kernel

/-- Errors: places that exist and do not; units that exist and do not, at their thresholds, with and without a spare; entries old and new; each
class of a channel's errors; a channel held, a spare in use. -/
def errCell : List (Nat × Nat × Nat) := [(1, 2, 3), (1, 2, 3)]
def errRow : List (Nat × Nat × Nat) := (List.range 16).map fun k => (1, 2, k)
def errCol : List (Nat × Nat × Nat) := (List.range 16).map fun k => (1, k, 3)
def errBank : List (Nat × Nat × Nat) := (List.range 64).map fun k => (1, k, k)
def ent0 : ClassEnt := { bank := 1, row := 2, col := 3, count := 1, at_ := 0 }
def sErr (clk : Nat) : State :=
  { sT with clock := clk, chanHeld := [7], syc := { sT.syc with classif := [(7, [ent0])], hist := [(histKey 1 4, { Hist.reset with state := 1 })] } }
theorem wit_errors : sT.isLocal 0x100000 = true ∧ paIdx 0x100000 ≠ 15 ∧ unitOk 1 4 = true ∧ unitOk 4 16777215 = false ∧
    fld ((sV [(2 ^ 32 + 4 * 0x20, 4, 9)]).fatEntry 0x200000) 3 1 = 1 ∧ (sV []).isLocal 0x200000 = true ∧ sPort.portUp 0 = true ∧
    (withCore fun x => { x with l1 := [(0x4000, { L1Line.none with valid := 1 })] }).errAt (.l1 0 0x200000) = true ∧ sT.errAt (.l1 0 0x200000) = false ∧
    ((sT.histOf 1 4).mismatch 1 0).weak 1 = false ∧ (∀ k ∈ [2, 3, 4], (({ Hist.reset with count := 31 } : Hist).mismatch k 0).weak k = true) ∧
    (({ Hist.reset with recent := List.replicate 63 0 } : Hist).mismatch 1 0).weak 1 = true ∧
    (sT.sparesUsed 1 (spareGroup 1 4) < spareCount 1 (spareGroup 1 4) ∧ ¬((sErr 0).sparesUsed 1 (spareGroup 1 4) < spareCount 1 (spareGroup 1 4)) ∧
      sT.sparesUsed 3 (spareGroup 3 4) < spareCount 3 (spareGroup 3 4)) ∧
    (let cl (l : List (Nat × Nat × Nat)) : ErrClass :=
       let t := l.foldl (fun t e => noteError t e.1 e.2.1 e.2.2 0) []
       match l.getLast? with | some e => classify t e.1 e.2.1 e.2.2 | none => .none
     cl errCell = .cell ∧ cl errRow = .row ∧ cl errCol = .column ∧ cl errBank = .bank ∧ cl [(1, 2, 3)] = .none) ∧ sT.classifOf 7 = [] ∧ ((sErr 0).classifOf 7)[0]? = some ent0 ∧
    2 ^ 40 ≤ (sErr (2 ^ 40)).clock - ent0.at_ ∧ (sErr 0).clock - ent0.at_ < 2 ^ 40 ∧ 7 ∈ (sErr 0).chanHeld ∧
    ((sErr 0).histOf 1 4).state = 1 ∧ (sT.histOf 1 4).state ≠ 1 := by decide +kernel

/-- Power: over and under its cap, one that a write has just changed, and its temperatures; each state of the bring-up, with its training over
or not, and an image that is refused. -/
theorem wit_power :
    (let y := (sOwned fun y => { y with pcapEn := true, pcap := 100 }).syc
     y.pcapEn = true ∧ y.pcap.toNat < (101 : BitVec 16).toNat ∧ ¬(y.pcap.toNat < (100 : BitVec 16).toNat)) ∧ 100 ≤ (100 : BitVec 8).toNat ∧
    ¬(100 ≤ (99 : BitVec 8).toNat) ∧ 110 ≤ (110 : BitVec 8).toNat ∧ Syc.reset.capOld = none ∧ (Syc.reset.full = false ∧ ({ Syc.reset with full := true } : Syc).full = true) ∧
    (Syc.reset.accepts 0 []).isNone = true ∧ (Syc.reset.accepts 1 []).isNone = true ∧ (Syc.reset.accepts 2 []).isNone = true ∧
    (({ Syc.reset with capOld := some (0, true, 100) } : Syc).capNow 5 = (true, 100) ∧ 5 / 1250000 = 0) ∧ (∀ st ∈ [0, 1, 2, 3, 4], (sBoot st).syc.state = st) ∧ Syc.reset.svnMin.getD 0 0 ≤ (0 : BitVec 16) ∧
    Syc.reset.svnMin.getD 1 0 ≤ (0 : BitVec 16) ∧ (63 : BitVec 6) ≠ 0 ∧ (3 : BitVec 12).getLsbD 0 = true ∧ (3 : BitVec 12).getLsbD 1 = true := by
  decide +kernel

/-! ## Witnesses: the whole machine -/

/-- A sequencer's turn, at a lane that decodes and at one that does not, without a line, past the last word of a line and of a stream, with a
bad header, with a poisoned slot, in bring-up service, and with a constant read or refused; an event, and one of a unit that is not there. -/
def sTurn (w : Nat) : State :=
  { (withSeq fun x => { x with line := some (lineOfWords 0x1000 [0x11111100, 0, w, 0, 0, 0, 0, 0]) }) with agenda := [{ dt := 1, act := .seq q0 }] }
def routesAt (w : Nat) : Bool :=
  let x := (sTurn w).seqr q0
  x.status == .live && !asyncDue 1 x && (wakeOf q0 x.wait).isNone && !waitsOutside x.wait && !x.slotPois && x.pcLane == 1
def lineReads (w : Nat) (p : Dec → Bool) : Bool :=
  match ((sTurn w).seqr q0).line with
  | some l => decide (l.code 0 < 2) && l.code 1 == 0 && (clsOf false (l.code 2)).isSome && contCount l 7 3 == 0 && p (decode (.seq false) (l.lane 2) [])
  | none => false
def headLine : FLine := lineOfWords 0x1000 [0x11111102, 0, 0, 0, 0, 0, 0, 0]
theorem wit_turns :
    (sAt 0x10000).regWrites = [] ∧ ((sAt 0x10000).seqr q0).line = none ∧ 2 ≤ headLine.code 0 ∧
    (((List.range 8).map fun j => eosLine.code j) = [15, 0, 0, 0, 0, 0, 0, 0] ∨ eosLine.eos = true) ∧
    (∀ l ∈ [lineOfWords 0x1000 [0, 0, 0, 0, 0, 0, 0, 0], lineOfWords 0x1000 [1, 0, 0, 0, 0, 0, 0, 0]],
      l.code 0 < 2 ∧ (∀ j < 8, 1 ≤ j → l.code j = 0)) ∧
    (lineOfWords 0x1000 [0, 0, 0, 0, 0, 0, 0, 0]).eos = false ∧ (lineOfWords 0x1000 [1, 0, 0, 0, 0, 0, 0, 0]).eos = true ∧
    ((withSeq fun x => { x with slotPois := true }).seqr q0).slotPois = true ∧
    (bringUpRefuses (sBoot 3) .lp = true ∧ bringUpRefuses (sBoot 3) .ve = false) ∧
    (seqConsts .nop = [] ∧ seqConsts (.take 5 4 (.const 9)) = [9] ∧ seqConsts (.add 7 (.const 9) (.reg 1)) = [9]) ∧
    (let i : Instr := .take 5 4 (.const 9)
     meets (captureConsts q0 i) sT (fun _ t => (t.seqr q0).kvals.length == 1) = true ∧
     fails (captureConsts q0 i) (withCore fun x => { x with coreTlb := [] }) = true ∧
     meets (constWord q0 9) sT = true) := by decide +kernel

/-- Acts of one clock: the sequencers, a claim at the end of an election, and a later clock. -/
def sClock : State := { sT with agenda := [{ dt := 3, act := .seq q1 }, { dt := 0, act := .seq q0 }, { dt := 1, act := .event .ready }] }
theorem wit_clock : sClock.regWrites = [] ∧ (sClock.choose.1.map fun a => (a.dt, a.act)) = some (3, .seq q0) ∧
    sClock.choose.2.agenda = [{ dt := 0, act := .seq q1 }, { dt := 1, act := .event .ready }] ∧ sClock.popsFull q1 = false ∧
    ({ sT with regWrites := [.registerWrite .mgmt false 0 0] } : State).regWrites = [.registerWrite .mgmt false 0 0] ∧
    unitExists sT (.registerWrite .mgmt false 0 0) = true ∧ (Instr.registerWrite .mgmt false 0 0).encoded = false := by decide +kernel

theorem wit_step : routesAt 0 = true ∧ (sTurn 0).agenda = [{ dt := 1, act := .seq q0 }] ∧
    lineReads 0 (fun d => d == .ok .nop) = true ∧ lineReads 1 (fun d => d == .bad 3 0x20 0) = true ∧
    unitExists sT (.workRequest 0) = true ∧ unitExists sT (.launchEnqueue 7) = false ∧ (Instr.workRequest 0).encoded = false ∧
    Instr.nop.encoded = true ∧ bringUpRefuses sT (.seq false) = false := by decide +kernel

/-- Well-formed instructions of a sequencer and of an engine, for the round trips; a state whose memory is in its form. -/
theorem wit_round_trip : (Instr.ld 6 2 0 .d none).wf = true ∧ (Instr.ld 6 2 0 .d none).cls = some (.seq false) ∧ vaddF.wf = true ∧ vaddF.cls = some .ve ∧
    MemOk sT ∧ MemOk (sV []) := by unfold MemOk; decide +kernel

/-! ## Witnesses: more of the boundary cases -/

/-- One whole entry and two whole loads; entries ahead of the timeline, tokens held before, and two signals. -/
theorem wit_completion_order :
    (((sDone 1 Fifos.reset).core 0).ve.ents.filter (·.phase = .done)).length = 1 ∧
    ((sTwo.onEq 0 .lq fun k => { k with ents := k.ents.map fun n => { n with phase := .done } }).core 0).lq.ents.length = 2 ∧
    (let x := ((sDone 2 Fifos.reset).onEq 0 .ve fun k => { k with ahead := [3, 5], held := [.veLq] }).core 0
     x.ve.ahead = [3, 5] ∧ x.ve.held.contains .veLq = true ∧ x.fifos.get .veSq < 16) ∧
    signalFifos .ve (.vadd { tok0 with sl := true, sr := true } 1 (.vec 2) (.reg 5) mF32) ≠ [] ∧
    ((heldVe 15).ve.held.count .veLq = 1 ∧ 16 - (heldVe 15).fifos.get .veLq = 1) := by decide +kernel

/-- A result of one sector that lands at home, one whose destination faults, and aborts whose CFW takes HALTED and refuses it. -/
def sHalt (cfw : Nat) : State := ((sLanded cfw).onTile 0 5 fun x => { x with armed := none, fired := none }).sendFiring 0 5 (tGrp (imgC cfw))
  ((sLanded cfw).firingOf 0 (imgC cfw) 0 [] (some 9))
def imgBad : BitVec 512 := BitVec.ofNat 512 (0x30000 * 2 ^ 64 + 3 * 2 ^ 116 + 2 ^ 128)
def sBadDst : State := sTile { img := imgBad, armed := none, fired := none, landed := false }
theorem wit_landing :
    meets (do
      let t ← access (chapCrier 5) (.crier 5) 0 .w (tDst (imgC 0) + 64 * 0) 64 false
      let u ← getS
      writeAt (.crier 5) 0 t (toBytes 4 1) false 0 false
      pure (match t with | .phys pa l => u.isLocal pa && paIdx pa != 15 && l.ckp == false | .scratch _ => false))
      (sLanded 0) (fun b _ => b) = true ∧ (4 * tNel (imgC 0) + 63) / 64 = 1 ∧
    fails (landResult 5 0 5 imgBad [(1, false)]) sBadDst (fun | .fault _ => true | _ => false) = true ∧
    meets (frontRmw frontSecond (.crier 5) 0 0x40000 [.halt]) (sHalt 0x40000) = true ∧
    fails (frontRmw frontSecond (.crier 5) 0 0x10000 [.halt]) (sHalt 0x10000) (fun | .fault _ => true | _ => false) = true := by decide +kernel

/-- A sequencer on its way into its handler, with the writes of its core acknowledged and not. -/
def sEnter (out : Nat) : State := withCore fun x => { x with remoteOut := out, as := { x.as with entering := some 0x1004 } }
theorem wit_entering : ((sEnter 0).seqr q0).entering = some 0x1004 ∧ ((sEnter 0).core 0).remoteOut = 0 ∧ 0 < ((sEnter 1).core 0).remoteOut ∧
    ((sEnter 0).seqr q0).deaf = true := by decide +kernel

/-- A slot and its generation that are read; two records that start; other entry lines of 0, with reserved bits set. -/
def img31 : BitVec 2048 := BitVec.ofNat 2048 (31 + 2 ^ 52 + (31 + 2 ^ 63) * 2 ^ 64)
theorem wit_popped :
    (meets (readSlot 0 0) (sV (recOf 0)) (fun r _ => !badRecord r.1) = true ∧
      meets (do let r ← readSlot 0 0; let u ← getS; readGen (u.queue 0).ctx (imgWord r.1 32 % 2 ^ 32)) (sV (recOf 0)) (fun g _ => g == 0) = true) ∧
    meets (nextSlots 0) sReturned (fun ps _ => ps.map (fun p => (p.idx, p.crew)) == [(0, 7)]) = true ∧
    ((sV (recOf 0)).queue 0).returned = [] ∧
    (kindOf (flagsOf (imgWord img31 32)) ≠ 2 ∧ imgWord img31 0 ≠ 0 ∧ imgWord img31 0 / 32 % 2 ^ 47 = 0 ∧ imgWord img31 8 ≠ 0 ∧
      imgWord img31 8 / 32 % 2 ^ 47 = 0) := by decide +kernel

/-- A launch of no tasks behind another; a task whose bundle is still to produce; tasks whose fault comes in the clock of their pre-emption, and
that are busy with a handler no more. -/
def sBusy (f : Seqr → Seqr) : State := withCore fun x => { x with as := f x.as, task := some { plainTask with committed := false, preempt := true } }
theorem wit_task_more :
    (let p := pend0 false imgT none
     let s : State := { sV [] with launches := [pend0 false img2 none, p] }
     s.launches[1]? = some p ∧ launchTotal p.enq.img = 0 ∧ s.launchBehind 1 0 = true) ∧
    (let s := (sStopped false).onCore 0 fun x => { x with bundles := [bundle1] }
     (∃ b ∈ (s.core 0).bundles, b.producing = true) ∧ (s.core 0).as.status = .stopped ∧ (s.core 0).anyEntry = false) ∧
    (((sBusy fun y => { y with entering := some 0x1004 }).seqr q0).entering.isSome = true) ∧
    (let s := sBusy fun y => { y with asyncRecs := [rec1] }
     (s.seqr q0).asyncRecs = [rec1] ∧ rec1.clock = s.clock) ∧
    (((sBusy id).core 0).task.map (fun u => (u.preempt, u.committed)) = some (true, false) ∧ ((sBusy id).seqr q0).handler = false ∧
      ((sBusy id).seqr q0).entering = none ∧ ((sBusy id).seqr q0).asyncRecs = []) := by decide +kernel

/-- An election at its very end: what comes now finds it decided, but that a claim still counts; and one clock later. -/
theorem wit_election_end :
    let s (clk : Nat) : State := { (sOwned fun y => { y with ownerValid := false, electionAt := some 0 }) with clock := clk }
    (s 1250000).settled.syc.ownerValid = true ∧ (s 1250000).settledBefore.syc.ownerValid = false ∧ (s 1250001).settledBefore.syc.ownerValid = true ∧
    (s 1249999).settled.syc.ownerValid = false ∧ ((s 0).syc.owns 1 && (s 0).syc.hgoBusy) = false := by decide +kernel

/-- An invalidation that waits, for a core's and for a crier's write, and one that does not; a running task and one that is gone, at a rollback;
a launch that a rollback takes, and one with a trigger, which it leaves. -/
theorem wit_remapping :
    (let s : State := { sT with tlbi := some 0 }
     s.tlbiWaits 0 = false ∧ (s.onCore 0 fun x => { x with remoteOut := 1 }).tlbiWaits 0 = true ∧
       ({ s with criers := [(5, { Crier.reset with remoteOut := 1 })] } : State).tlbiWaits 0 = true) ∧
    ((∃ x ∈ sT.cores, (x.2.task.map fun t => (t.ctx, t.gone)) = some (0, false)) ∧
      ∀ x ∈ (withTask fun t => { t with gone := true }).cores, (x.2.task.map (·.gone)) ≠ some false) ∧
    (pend0 true imgT none).enq.spawn = true ∧ (pend0 true imgT (some trig0)).trig.isSome = true := by decide +kernel

/-- A rewrite of index 0 to socket 7 and of index 1 to socket 6, under which frame 0x30 is slice-pinned and frame 0x10 is not: the byte of the
one stays, and the other reads as its new socket does. -/
def sSwap : State := { sV [(0x300000, 1, 0x5A), (0x100000, 1, 0x5B), (2 ^ 32 + 4 * 0x30, 4, 2)] with
  smap := [(0, { socket := 6, rewrite := some 7 }), (1, { socket := 7, rewrite := some 6 })] }
theorem test_smap_rewrite : Memory.wf sSwap.mem = true ∧ (∀ i < 12, ∀ j < 12, (sSwap.smapOf i).socket = (sSwap.smapOf j).socket → i = j) ∧ sSwap.frameHome 0x300000 = 2 ∧ sSwap.frameHome 0x100000 = 4 ∧
    nextMeets (exec .smapRewriteComplete sSwap) (fun t => t.place 0x300000 == 7 * 2 ^ 36 + 0x300000 &&
      sget t.mem (t.place 0x300000) memInit == 0x5A && sget t.mem (t.place 0x100000) memInit == 0) = true := by decide +kernel

/-- A turn of a sequencer whose constant read a remapping holds, and one on its way into its handler; turns of one clock in their places, and a
write that pre-empts beside one that does not. -/
theorem wit_turn_more :
    fails (captureConsts q0 (.take 5 4 (.const 9))) (withCore fun x => { x with coreTlb := [] }) (fun | .stall _ => true | _ => false) = true ∧
    (sT.seqr q0).entering = none ∧ (sT.seqNext q0).isSome = true ∧ sT.popsFull q1 = false ∧
    sT.actKey (.seq q0) < sT.actKey (.seq q1) ∧ sT.actKey (.event (.registerWrite .mgmt false 0 0)) < 900 := by decide +kernel

/-! ## Steps whose results the spec states -/

/-- Register `r` of AS after an instruction. -/
def regAfter (i : Instr) (r : Reg) (s : State := sT) : Option SVal := match exec i s with | .next t => some (t.reg q0 r) | _ => none
def val (v : Word) : Option SVal := some ⟨v, false⟩

/-- R250, by hand: sums wrap, products keep their halves, shifts take their count modulo 64. -/
theorem test_arithmetic :
    regAfter (.add 7 (.reg 9) (.reg 13)) 7 = val 0 ∧ regAfter (.sub 7 (.reg 0) (.reg 13)) 7 = val 0xFFFFFFFFFFFFFFFF ∧
    regAfter (.mul 7 (.reg 9) (.reg 9)) 7 = val 1 ∧ regAfter (.mulh 7 (.reg 9) (.reg 5)) 7 = val 0xFFFFFFFFFFFFFFFF ∧
    regAfter (.mulhn 7 (.reg 9) (.reg 9)) 7 = val 0xFFFFFFFFFFFFFFFE ∧ regAfter (.sra 7 (.reg 8) (.lit 65)) 7 = val 0xC000000000000000 ∧
    regAfter (.ror 7 (.reg 13) (.lit 1)) 7 = val 0x8000000000000000 ∧ regAfter (.min 7 (.reg 8) (.reg 13)) 7 = val 0x8000000000000000 ∧
    regAfter (.maxn 7 (.reg 8) (.reg 13)) 7 = val 0x8000000000000000 ∧ regAfter (.add 0 (.reg 5) (.reg 5)) 0 = val 0 ∧
    regAfter (.add 7 (.reg 6) (.reg 5)) 7 = some ⟨12, true⟩ := by decide +kernel

/-- R251: its table of corners. -/
theorem test_division :
    regAfter (.div 7 (.reg 5) (.reg 0)) 7 = val 0xFFFFFFFFFFFFFFFF ∧ regAfter (.rem 7 (.reg 5) (.reg 0)) 7 = val 5 ∧
    regAfter (.div 7 (.reg 8) (.reg 9)) 7 = val 0x8000000000000000 ∧ regAfter (.rem 7 (.reg 8) (.reg 9)) 7 = val 0 ∧
    regAfter (.div 7 (.lit (BitVec.ofNat 32 (2 ^ 32 - 7))) (.lit 2)) 7 = val 0xFFFFFFFFFFFFFFFD ∧
    regAfter (.rem 7 (.lit (BitVec.ofNat 32 (2 ^ 32 - 7))) (.lit 2)) 7 = val 0xFFFFFFFFFFFFFFFF := by decide +kernel

/-- R252, R253: fields, and conditions of both signs. -/
theorem test_fields_conditions :
    regAfter (.bfx 7 (.lit 0x1234) (.lit 4) 7) 7 = val 0x23 ∧ regAfter (.bfi 5 (.lit 3) (.lit 1) 1) 5 = val 7 ∧
    regAfter (.cmp .lt 7 (.reg 9) (.reg 5)) 7 = val 1 ∧ regAfter (.cmp .ltn 7 (.reg 9) (.reg 5)) 7 = val 0 ∧
    regAfter (.clz 7 (.reg 13)) 7 = val 63 ∧ regAfter (.ctz 7 (.reg 0)) 7 = val 64 ∧ regAfter (.popc 7 (.reg 9)) 7 = val 64 ∧
    regAfter (.lea 7 (.reg 1) (.reg 5) 3) 7 = val 0x10028 := by decide +kernel

/-- R62, R256: a call to a line three ahead keeps the point after itself and goes to lane 1. -/
theorem test_call : nextMeets (exec (.call 3) sT) (fun t =>
    t.reg q0 30 == ⟨0x1008, false⟩ && (t.seqr q0).pcLine == 0x1060 && (t.seqr q0).pcLane == 1) = true := by decide +kernel

/-- R272: a trap enters the handler at its first lane, with the next point to return to. -/
theorem test_trap : nextMeets (exec (.trap 9) sHandler) (fun t =>
    let x := t.seqr q0
    x.handler && x.pcLine == 0x2000 && x.pcLane == 1 && x.tepc == 0x1008 && x.frec == 0x10000) = true := by decide +kernel

/-- R5, R340: a store writes the low bytes, lowest first; a load zero-extends. -/
theorem test_store_load :
    nextMeets (exec (.st 8 1 4 .w none false) sT) (fun t => t.mem == []) = true ∧
    nextMeets (exec (.st 15 1 4 .w none false) sT) (fun t => t.bytes 0x100004 4 == [0x40, 0, 1, 0] && t.mem.length == 2) = true ∧
    regAfter (.ld 7 1 8 .h none) 7 { sT with mem := memSetAll [] (sT.place 0x100008) [0xFE, 0xFF, 0x55] } = val 0xFFFE := by decide +kernel

/-- R344, R345: an atomic answers the old value, zero-extended, and leaves the new one. -/
theorem test_atomic : nextMeets (exec (.amo .add 7 4 (.reg 9) .w (.ar .pkg) false) (sFw 0xFFFFFFFF00000005)) (fun t =>
    t.reg q0 7 == ⟨5, false⟩ && t.physNat 0x300000 8 == 0xFFFFFFFF00000004) = true ∧
    nextMeets (exec (.cas 5 4 (.reg 9) .d (.ar .pkg)) (sFw 5)) (fun t => t.reg q0 5 == ⟨5, false⟩ && t.physNat 0x300000 8 == 2 ^ 64 - 1) = true := by decide +kernel

/-- R224: the worked draws of class 3. -/
theorem test_draw :
    let q (n : Nat) (tail : BitVec 32) : Queue := { Queue.reset with en := true, cls := 3, tickets := n, tail := tail }
    let s : State := { State.reset with ctxs := [(0, { Ctx.reset with en := true })], clx := [(3, 2)], queues := [(5, q 10 1), (9, q 0 1), (12, q 30 0), (40, q 20 1)] }
    (s.draw 3).1 = some 40 ∧ ((s.draw 3).2.draw 3).1 = some 5 ∧ ((s.draw 3).2.draw 3).2.clxOf 3 = 0x08008C02 := by decide +kernel

/-- R205, R206, R207: the worked digest of one 8-byte store under a zero key. -/
theorem test_digest : nextMeets (exec (.st 5 1 0 .d none true) ((sGrp grp0 [(0, reg0)]).setReg q0 5 ⟨0x3F80000040000000, false⟩)) (fun t =>
    (t.group 0 3).digest == 0x3F80000040000000) = true := by decide +kernel

/-- An entry of the VE that starts with these vector registers; what a predicate says of its core afterwards. -/
def veRun (i : Instr) (vs : SMap VRegVal) (ms : SMap (BitVec 1024)) (p : Core → Bool) : Bool :=
  nextMeets (exec (.engineEntryStart 0 .ve) (withEntry .ve (entryOf0 i) fun x => { x with vregs := vs, mregs := ms })) (fun t => p (t.core 0))
def vOf (w : Nat) (l : List Nat) : VRegVal := { bits := BitVec.ofNat 4096 (l.foldr (fun e acc => e + 2 ^ w * acc) 0), tag := 0, pois := 0 }
def els (x : Core) (r w n : Nat) : List Nat := (List.range n).map fun k => ((x.vreg r).el w k).1

/-- R97, R98: the worked conversions of 300.7, -2.5, the NaN, 0x3F808001 and 0x7F7FFFFF. -/
theorem test_convert :
    (convElem .f32 .i8 .rdn false 0x4396599A).1 = 127 ∧ (convElem .f32 .i8 .rdn false 0xC0200000).1 = 0xFD ∧
    (convElem .f32 .i8 .rup false 0xC0200000).1 = 0xFE ∧ (convElem .f32 .n8 .rdn false 0xC0200000).1 = 0 ∧ (convElem .f32 .i32 .rne false 0x7FC00000).1 = 0 ∧
    (convElem .f32 .bf16 .rne false 0x3F808001).1 = 0x3F81 ∧ (convElem .f32 .bf16 .rdn false 0x3F808001).1 = 0x3F80 ∧
    (convElem .f32 .bf16 .rne false 0x7F7FFFFF).1 = 0x7F80 ∧ (convElem .f32 .bf16 .rne true 0x7F7FFFFF).1 = 0x7F7F := by decide +kernel

/-- R96, R99: the worked bx8 block, its exponents, and two of its residuals. -/
theorem test_block :
    let xs := [0x41200000, 0xBE9A0000, 0x3D800000, 0x40400000, 0xC0FC0000, 0x3C200000]
    let r := (blkFmt .bx8).encode .rne ((xs ++ List.replicate 26 0).map (numOf .f32))
    (r.1, r.2.1) = (130, 125) ∧ (r.2.2.map (·.1)).take 6 = [0x28, 0xE6, 0x88, 0x0C, 0x60, 0x81] ∧
    (residual .f32 (numOf .f32 0xBE9A0000) ((blkFmt .bx8).decode 130 125 0xE6)).1 = 0xBB800000 ∧
    (residual .f32 (numOf .f32 0xC0FC0000) ((blkFmt .bx8).decode 130 125 0x60)).1 = 0x3E000000 := by decide +kernel

/-- R151: the worked pushes and pop of the stream. -/
theorem test_stream :
    let ident := vOf 32 (List.range 128)
    veRun (.vpushc tok0 2 1 0 .n32 1) [(1, ident)] [(1, BitVec.ofNat 1024 (2 ^ 3 + 2 ^ 7 + 2 ^ 100))]
      (fun x => x.stream == [(3, false), (7, false), (100, false)] && x.mreg 2 == BitVec.ofNat 1024 (2 ^ 3 + 2 ^ 7 + 2 ^ 100)) = true ∧
    nextMeets (exec (.engineEntryStart 0 .ve) (withEntry .ve (entryOf0 (.vpopc tok0 10 4 0 .n32)) fun x =>
      { x with stream := [3, 7, 100, 1005, 1006].map fun w => (w, false) })) (fun t =>
        els (t.core 0) 10 32 6 == [3, 7, 100, 1005, 1006, 0] && (t.core 0).mreg 4 == 31 && (t.core 0).stream == []) = true := by decide +kernel

/-- R168: the worked record is legal, and the copy with bit 346 set fails at it. -/
theorem test_record :
    let ws (w5 : Nat) := [0x0210004000100000, 0x0030000000000000, 0x0006000018000028, 0x0000003000000000, 0x48000, w5, 0x01000000FF800000, 0x400000]
    let r (w5 : Nat) : BitVec 512 := BitVec.ofNat 512 ((ws w5).foldr (fun w acc => w + 2 ^ 64 * acc) 0)
    tdefFail (r 0x0200801000000000) = none ∧ tdefFail (r 0x0200801004000000) = some (3, 0x50, 346) := by decide +kernel

/-- R382, R385: the worked walk of 0x0042_0000_0100. -/
theorem test_walk :
    let m := putNats (6 * 2 ^ 36) [(0x20000000, 8, 0x20010001), (0x20010840, 8, 0x20011001), (0x20011000, 8, 0x20012001), (0x20012000, 8, 0x0040000300002507),
      (2 ^ 34 + 4 * 0x2000, 4, 1), (2 ^ 34 + 4 * 0x2001, 4, 1), (2 ^ 34 + 4 * 0x30000, 4, 0x25000002)]
    let s := { sV [] with mem := m, syc := { (sV []).syc with fatb := 0x100, cmdb := 0x3000, crmb := 0x3800 }, ctxs := [(0, { Ctx.reset with en := true, root := 0x2000 })] }
    meets (resolve (chap13 0) (.core 0) 0 .w 0x4200000100 false) s (fun t _ => t == .phys 0x300000100 { leafAt 0x300000000 1 false false with slice := 37 }) = true ∧
    fails (resolve (chap13 0) (.core 0) 0 .x 0x4200000100 false) s (fun | .fault f => f.cls == 6 && f.reason == 0xB4 | _ => false) = true := by decide +kernel
end Sys2Proof.Machine
end

section
/-! SUPPORT. What the start of a VE entry leaves beside the registers that its instruction writes. -/

namespace Sys2Proof.Machine

open Sys2Proof

/-! ## What the bookkeeping of a start keeps -/

/-- Two cores agree in what a VE entry never writes: both sequencers and the sticky flags. -/
structure Core.SameSeqs (x y : Core) : Prop where
  as : y.as = x.as
  xs : y.xs = x.xs
  cflags : y.cflags = x.cflags

/-- They agree in the vector and the mask registers too. -/
structure Core.SameRegs (x y : Core) : Prop extends x.SameSeqs y where
  vregs : y.vregs = x.vregs
  mregs : y.mregs = x.mregs

theorem Core.SameRegs.refl (x : Core) : x.SameRegs x := ⟨⟨rfl, rfl, rfl⟩, rfl, rfl⟩

theorem Core.SameRegs.trans {x y z : Core} (h : x.SameRegs y) (k : y.SameRegs z) : x.SameRegs z :=
  ⟨⟨k.as.trans h.as, k.xs.trans h.xs, k.cflags.trans h.cflags⟩, k.vregs.trans h.vregs, k.mregs.trans h.mregs⟩

/-- Between two states nothing differs but core `c` and the count of free values. -/
structure State.OnlyCoreFree (s t : State) (c : Nat) : Prop where
  rest : t = { s with cores := t.cores, free := t.free }
  others : ∀ k, k ≠ c → t.core k = s.core k

theorem State.OnlyCoreFree.trans {s t u : State} {c : Nat} (h : s.OnlyCoreFree t c) (k : t.OnlyCoreFree u c) :
    s.OnlyCoreFree u c :=
  ⟨by rw [k.rest, h.rest], fun j hj => (k.others j hj).trans (h.others j hj)⟩

theorem State.onlyCoreFree_setCore (s : State) (c : Nat) (y : Core) : s.OnlyCoreFree (s.setCore c y) c :=
  ⟨rfl, fun k hk => State.core_setCore_other s c k y hk⟩

/-- A change of the core `c` and of the count of free values that no register shows. -/
structure State.KeepsRegs (s t : State) (c : Nat) : Prop extends s.OnlyCoreFree t c where
  regs : (s.core c).SameRegs (t.core c)

theorem State.KeepsRegs.refl (s : State) (c : Nat) : s.KeepsRegs s c := ⟨⟨rfl, fun _ _ => rfl⟩, .refl _⟩

theorem State.KeepsRegs.trans {s t u : State} {c : Nat} (h : s.KeepsRegs t c) (k : t.KeepsRegs u c) : s.KeepsRegs u c :=
  ⟨h.toOnlyCoreFree.trans k.toOnlyCoreFree, h.regs.trans k.regs⟩

theorem State.keepsRegs_onCore {s : State} {c : Nat} {f : Core → Core} (h : (s.core c).SameRegs (f (s.core c))) :
    s.KeepsRegs (s.onCore c f) c :=
  ⟨s.onlyCoreFree_setCore c _, by rw [State.core_onCore_same]; exact h⟩

theorem State.keepsRegs_onEnt (s : State) (c : Nat) (e : Eng) (num : Nat) (f : Entry → Entry) :
    s.KeepsRegs (s.onEnt c e num f) c :=
  State.keepsRegs_onCore (f := fun x => x.setEq e ((x.eq e).onEnt num f))
    ⟨⟨Core.setEq_as .., Core.setEq_xs .., Core.setEq_cflags ..⟩, Core.setEq_vregs .., Core.setEq_mregs ..⟩

theorem State.keepsRegs_racing (s : State) (c : Nat) : s.KeepsRegs (s.racing c) c := by
  unfold State.racing
  split
  · exact .refl s c
  · have h : s.KeepsRegs (s.onCore c fun x => { x with race := some s.free }) c :=
      State.keepsRegs_onCore ⟨⟨rfl, rfl, rfl⟩, rfl, rfl⟩
    exact ⟨⟨rfl, h.others⟩, h.regs⟩

theorem State.keepsRegs_calm (s s₀ : State) (c : Nat) (e : Eng) (num : Nat) : s.KeepsRegs (s.calm s₀ c e num) c := by
  have quiet : s.KeepsRegs (if (s.core c).race.isNone then s else s.onCore c fun x => { x with race := none }) c := by
    split
    · exact .refl s c
    · exact State.keepsRegs_onCore ⟨⟨rfl, rfl, rfl⟩, rfl, rfl⟩
  unfold State.calm
  dsimp only
  generalize (if (s.core c).race.isNone then s else s.onCore c fun x => { x with race := none }) = u at quiet ⊢
  split
  · exact quiet
  · exact quiet.trans (State.keepsRegs_onEnt ..)

/-- Keeping the old registers beside an entry and marking it as done shows in no register. -/
theorem State.keepsRegs_settle_calm (s s₀ : State) (c : Nat) (e : Eng) (n : Entry) (num : Nat) (f : BitVec 4)
    (asy : List Stored) : s.KeepsRegs ((s.calm s₀ c e num).settle c e n (.done f asy)) c :=
  (State.keepsRegs_calm ..).trans (State.keepsRegs_onEnt ..)

/-- Popping the wait tokens and marking the entry as started shows in no register (R24). -/
theorem keepsRegs_begun (s : State) (c : CoreId) (e : Eng) (n : Entry) : s.KeepsRegs (begun s c e n) c.val :=
  (State.keepsRegs_onCore (f := (·.popToks (waitFifos e n.instr))) ⟨⟨rfl, rfl, rfl⟩, rfl, rfl⟩).trans
    (State.keepsRegs_onEnt ..)

/-- The state in which an entry that starts takes its effect. -/
abbrev reading (s : State) (c : CoreId) (e : Eng) (n : Entry) : State := (begun s c e n).racing c.val

/-- An entry as its queue holds it once it has started. -/
abbrev Entry.started (n : Entry) : Entry := { n with phase := .started, since := none }

theorem keepsRegs_reading (s : State) (c : CoreId) (e : Eng) (n : Entry) : s.KeepsRegs (reading s c e n) c.val :=
  (keepsRegs_begun s c e n).trans (State.keepsRegs_racing ..)

theorem sameRegs_readCore (s : State) (c : CoreId) (e : Eng) (n : Entry) : (s.core c.val).SameRegs (readCore s c e n) :=
  (keepsRegs_reading s c e n).regs

@[simp] theorem core_reading (s : State) (c : CoreId) (e : Eng) (n : Entry) :
    (reading s c e n).core c.val = readCore s c e n := rfl

/-- The governing mask is the one that the core holds: R125 speaks of vector registers alone. -/
@[simp] theorem mreg_readCore (s : State) (c : CoreId) (e : Eng) (n : Entry) (r : Nat) :
    (readCore s c e n).mreg r = (s.core c.val).mreg r := by
  simp only [Core.mreg, (sameRegs_readCore s c e n).mregs]

@[simp] theorem act_readCore (s : State) (c : CoreId) (e : Eng) (n : Entry) (m : MReg) (i : Nat) :
    (readCore s c e n).act m i = (s.core c.val).act m i := by
  simp only [Core.act, mreg_readCore]

/-! ## A VE entry that starts -/

/-- An entry whose tokens are there starts (R24). -/
theorem exec_engineEntryStart_of_starts {s : State} {c : CoreId} {e : Eng} {n : Entry} (h : Starts s c e n) :
    exec (.engineEntryStart c e) s = .next (s.startEntry c.val e n) := by
  show execEngineEntryStart c e s = _
  obtain ⟨hnext, htoks⟩ := h
  simp [execEngineEntryStart, hnext, htoks]

/-- A VE entry whose effect is whole at once is done in the state that its effect leaves. -/
theorem startEntry_of_runVe {s t : State} {c : CoreId} {n : Entry} {r : Nat → Entry → Mx Flg} {f : Flg}
    (hr : runVe n.instr = some r) (h : r c.val n.started (reading s c .ve n) = .ok f t) :
    s.startEntry c.val .ve n =
      (t.calm (begun s c .ve n) c.val .ve n.num).settle c.val .ve n.started (.done f.bits []) := by
  have hrun : runEntry c.val n.started (reading s c .ve n) = .ok (.done f.bits []) t := by
    simp only [runEntry, hr]
    rw [mx_bind_ok _ _ _ _ _ h]
    rfl
  simp only [State.startEntry, State.runOn]
  rw [if_neg (by decide), hrun]

/-- VE entry `n`, which starts in `s`, leaves `t`, where the registers of core `c` are those of `y` and the entry is done with flags `f`. -/
structure StartsTo (s t : State) (c : CoreId) (n : Entry) (f : Flg) (y : Core) : Prop where
  exec_eq : exec (.engineEntryStart c .ve) s = .next t
  only : s.OnlyCoreFree t c.val
  regs : y.SameRegs (t.core c.val)
  ents : ∀ o ∈ (t.core c.val).ve.ents, o.num = n.num → o.phase = .done ∧ o.flags = f.bits

/-- What is changed of the entry with a number is seen in every entry that has the number afterwards. -/
theorem State.mem_ents_onEnt {s : State} {c : Nat} {num : Nat} {f : Entry → Entry} {o : Entry}
    (ho : o ∈ ((s.onEnt c .ve num f).core c).ve.ents) (hnum : o.num = num) : ∃ o', o = f o' := by
  simp only [State.onEnt, State.onEq, State.core_onCore_same, Core.setEq, EQueue.onEnt, List.mem_map] at ho
  obtain ⟨o', -, rfl⟩ := ho
  by_cases h : o'.num = num
  · exact ⟨o', if_pos h⟩
  · rw [if_neg h] at hnum
    exact absurd hnum h

/-- An effect that changes the core alone is what the start of its entry leaves, but for bookkeeping. -/
theorem startsTo_of_runVe {s : State} {c : CoreId} {n : Entry} {r : Nat → Entry → Mx Flg} {f : Flg} {y : Core}
    (h : Starts s c .ve n) (hr : runVe n.instr = some r)
    (hrun : r c.val n.started (reading s c .ve n) = .ok f ((reading s c .ve n).setCore c.val y)) :
    ∃ t, StartsTo s t c n f y := by
  refine ⟨_, (exec_engineEntryStart_of_starts h).trans (congrArg _ (startEntry_of_runVe hr hrun)), ?_, ?_, ?_⟩
  · exact (keepsRegs_reading s c .ve n).toOnlyCoreFree.trans ((State.onlyCoreFree_setCore _ _ y).trans
      (State.keepsRegs_settle_calm ..).toOnlyCoreFree)
  · have hk := State.keepsRegs_settle_calm ((reading s c .ve n).setCore c.val y) (begun s c .ve n) c.val .ve n.started n.num f.bits []
    simpa only [State.core_setCore_same] using hk.regs
  · intro o ho hnum
    obtain ⟨o', rfl⟩ := State.mem_ents_onEnt ho hnum
    exact ⟨rfl, rfl⟩

theorem StartsTo.vreg {s t : State} {c : CoreId} {n : Entry} {f : Flg} {y : Core} (h : StartsTo s t c n f y) (r : Nat) :
    (t.core c.val).vreg r = y.vreg r := by
  simp only [Core.vreg, h.regs.vregs]

theorem StartsTo.mreg {s t : State} {c : CoreId} {n : Entry} {f : Flg} {y : Core} (h : StartsTo s t c n f y) (r : Nat) :
    (t.core c.val).mreg r = y.mreg r := by
  simp only [Core.mreg, h.regs.mregs]

/-- An effect that writes the vector registers `vs` and the mask registers `ms` of the core that it reads has the frame of these. -/
theorem StartsTo.frame {s t : State} {c : CoreId} {n : Entry} {f : Flg} {y : Core} {vs : List Nat} {ms : List MReg}
    (h : StartsTo s t c n f y) (hseqs : (readCore s c .ve n).SameSeqs y)
    (hv : ∀ r, r ∉ vs → y.vreg r = (readCore s c .ve n).vreg r)
    (hm : ∀ r : MReg, r ∉ ms → y.mreg r.val = (readCore s c .ve n).mreg r.val)
    (hm₀ : ms = [] → y.mregs = (readCore s c .ve n).mregs) : VeFrame s t c vs ms := by
  have hx := sameRegs_readCore s c .ve n
  refine ⟨h.only.rest, h.only.others, fun r hr => ?_, fun hms => ?_, fun r hr => ?_, ?_, fun q r => ?_⟩
  · rw [h.vreg, hv r hr, Core.vreg, Core.vreg, hx.vregs]
  · rw [h.regs.mregs, hm₀ hms, hx.mregs]
  · rw [h.mreg, hm r hr, mreg_readCore]
  · rw [h.regs.cflags, hseqs.cflags, hx.cflags]
  · have hseqr : t.seqr q = s.seqr q := by
      by_cases hq : q.core.val = c.val
      · simp only [State.seqr, Core.seqr, hq, h.regs.as, h.regs.xs, hseqs.as, hseqs.xs, hx.as, hx.xs]
      · simp only [State.seqr, h.only.others _ hq]
    simp only [State.reg, hseqr]

/-- An entry that raises no flag (R90). -/
theorem StartsTo.noFlags {s t : State} {c : CoreId} {n : Entry} {y : Core} (h : StartsTo s t c n Flg.none y) (N : Nat)
    (act : Nat → Bool) : VeFlags t c n N act fun _ => Flg.none := by
  intro o ho hnum
  obtain ⟨hdone, hflags⟩ := h.ents o ho hnum
  have hzero (b : Nat) : Flg.none.bits.getLsbD b = false := BitVec.getLsbD_zero
  refine ⟨hdone, fun b _ => ?_⟩
  simp [hflags, hzero]

end Sys2Proof.Machine
end

section
/-! SUPPORT. Vector registers by element: what a write of elements leaves in each element, granule and tag (R85, R127, R129, R131). -/

namespace Sys2Proof.Machine

open Sys2Proof

/-! ## Bits of a number, lowest first -/

theorem testBit_toNat_add_zero (b : Bool) (m : Nat) : (b.toNat + 2 * m).testBit 0 = b := by
  rw [Nat.testBit_zero, Nat.add_mul_mod_self_left]
  cases b <;> rfl

theorem testBit_toNat_add_succ (b : Bool) (m i : Nat) : (b.toNat + 2 * m).testBit (i + 1) = m.testBit i := by
  have hb : b.toNat < 2 := Bool.toNat_lt b
  rw [Nat.testBit_succ, Nat.add_mul_div_left _ _ (by decide), Nat.div_eq_of_lt hb, Nat.zero_add]

/-! ## Elements packed into one number -/

theorem packBits_lt (wd : Nat) (l : List Nat) : packBits wd l < 2 ^ (wd * l.length) := by
  induction l with
  | nil => simp [packBits]
  | cons v l ih =>
    have hv : v % 2 ^ wd < 2 ^ wd := Nat.mod_lt _ (Nat.two_pow_pos wd)
    calc v % 2 ^ wd + packBits wd l * 2 ^ wd
        < (packBits wd l + 1) * 2 ^ wd := by rw [Nat.succ_mul]; omega
      _ ≤ 2 ^ (wd * l.length) * 2 ^ wd := Nat.mul_le_mul_right _ ih
      _ = 2 ^ (wd * (l.length + 1)) := by rw [← Nat.pow_add, Nat.mul_succ]

theorem toNat_ofNat_packBits {wd n : Nat} {l : List Nat} (h : wd * l.length ≤ n) :
    (BitVec.ofNat n (packBits wd l)).toNat = packBits wd l := by
  rw [BitVec.toNat_ofNat, Nat.mod_eq_of_lt]
  exact Nat.lt_of_lt_of_le (packBits_lt wd l) (Nat.pow_le_pow_right (by decide) h)

/-- Each element is read back from its place. -/
theorem packBits_digit (wd : Nat) (l : List Nat) : ∀ (i : Nat) (h : i < l.length),
    packBits wd l / 2 ^ (wd * i) % 2 ^ wd = l[i] % 2 ^ wd := by
  induction l with
  | nil => intro i h; simp at h
  | cons v l ih =>
    intro i h
    show (v % 2 ^ wd + packBits wd l * 2 ^ wd) / 2 ^ (wd * i) % 2 ^ wd = _
    cases i with
    | zero => simp
    | succ i =>
      have hv : v % 2 ^ wd < 2 ^ wd := Nat.mod_lt _ (Nat.two_pow_pos wd)
      rw [Nat.mul_succ, Nat.add_comm (wd * i), Nat.pow_add, ← Nat.div_div_eq_div_mul,
        Nat.add_mul_div_right _ _ (Nat.two_pow_pos wd), Nat.div_eq_of_lt hv, Nat.zero_add]
      exact ih i (Nat.lt_of_succ_lt_succ h)

/-! ## Granules -/

/-- The poison of granule `j`: any poisoned active element, or the old poison beside an inactive element (R129). -/
theorem testBit_granules (old : BitVec 32) (per n : Nat) : ∀ (l : List (Option (Nat × Bool))) (g j : Nat), j < n →
    ((granules old per n l g).testBit j = true ↔
      (∃ v : Nat × Bool, some v ∈ (l.drop (per * j)).take per ∧ v.2 = true) ∨
        (old.getLsbD (g + j) = true ∧ none ∈ (l.drop (per * j)).take per)) := by
  induction n with
  | zero => intro l g j h; omega
  | succ n ih =>
    intro l g j h
    rw [granules]
    cases j with
    | zero =>
      rw [testBit_toNat_add_zero, Bool.or_eq_true, Bool.and_eq_true, List.any_eq_true, List.any_eq_true]
      refine or_congr ⟨?_, ?_⟩ (and_congr Iff.rfl ⟨?_, ?_⟩)
      · rintro ⟨o, ho, hp⟩
        cases o with
        | none => exact absurd hp (by simp)
        | some v => exact ⟨v, ho, hp⟩
      · rintro ⟨v, hv, hp⟩
        exact ⟨some v, hv, hp⟩
      · rintro ⟨o, ho, hn⟩
        cases Option.isNone_iff_eq_none.mp hn
        exact ho
      · exact fun ho => ⟨none, ho, rfl⟩
    | succ j =>
      rw [testBit_toNat_add_succ, ih _ _ _ (by omega), List.drop_drop, Nat.add_right_comm g 1 j, Nat.add_assoc g j 1,
        Nat.add_comm per, ← Nat.mul_succ]

/-- What stands at the places of granule `j`. -/
theorem mem_granule {α : Type} (N per : Nat) (hper : 0 < per) (f : Nat → α) (j : Nat) (o : α) :
    o ∈ (((List.range N).map f).drop (per * j)).take per ↔ ∃ i < N, i / per = j ∧ f i = o := by
  simp only [List.mem_iff_getElem?, List.getElem?_take, List.getElem?_drop]
  constructor
  · rintro ⟨k, hk⟩
    split at hk
    · next hlt =>
      obtain ⟨hlen, rfl⟩ := List.getElem?_eq_some_iff.mp hk
      refine ⟨per * j + k, by simpa using hlen, ?_, by simp⟩
      rw [Nat.mul_add_div hper, Nat.div_eq_of_lt hlt, Nat.add_zero]
    · cases hk
  · rintro ⟨i, hi, rfl, rfl⟩
    refine ⟨i % per, ?_⟩
    rw [if_pos (Nat.mod_lt _ hper), Nat.div_add_mod]
    simp [hi]

/-! ## Writing the elements of a register -/

/-- The elements of a register after a write: those that `f` gives, and the old ones where it gives none (R129). -/
def VRegVal.writtenEls (old : VRegVal) (wd : Nat) (f : Nat → Option (Nat × Bool)) : List Nat :=
  (List.range (4096 / wd)).map fun i => (f i).elim (old.el wd i).1 (·.1)

@[simp] theorem VRegVal.length_writtenEls (old : VRegVal) (wd : Nat) (f : Nat → Option (Nat × Bool)) :
    (old.writtenEls wd f).length = 4096 / wd := by
  simp [VRegVal.writtenEls]

section Write
variable {old : VRegVal} {wd : Nat} {tag : BitVec 512} {f : Nat → Option (Nat × Bool)} {i : Nat}

@[simp] theorem VRegVal.tag_write : (old.write wd tag f).tag = tag := rfl

theorem VRegVal.bits_write : (old.write wd tag f).bits = BitVec.ofNat 4096 (packBits wd (old.writtenEls wd f)) := by
  refine congrArg (fun l => BitVec.ofNat 4096 (packBits wd l)) (List.ext_getElem (by simp) fun i _ _ => ?_)
  simp only [VRegVal.writtenEls, List.getElem_map, List.getElem_zipIdx, List.getElem_range, Nat.zero_add]
  cases f i <;> rfl

theorem VRegVal.el_write (h : i < 4096 / wd) :
    ((old.write wd tag f).el wd i).1 = ((f i).elim (old.el wd i).1 (·.1)) % 2 ^ wd := by
  have hlen := old.length_writtenEls wd f
  have hwidth : wd * (old.writtenEls wd f).length ≤ 4096 := by rw [hlen]; exact Nat.mul_div_le 4096 wd
  rw [VRegVal.el, VRegVal.bits_write, toNat_ofNat_packBits hwidth, packBits_digit _ _ i (by rwa [hlen])]
  simp only [VRegVal.writtenEls, List.getElem_map, List.getElem_range]

theorem VRegVal.el_write_some {v : Nat × Bool} (h : i < 4096 / wd) (hf : f i = some v) :
    ((old.write wd tag f).el wd i).1 = v.1 % 2 ^ wd := by
  rw [VRegVal.el_write h, hf]; rfl

theorem VRegVal.el_write_none (h : i < 4096 / wd) (hf : f i = none) :
    ((old.write wd tag f).el wd i).1 = (old.el wd i).1 := by
  rw [VRegVal.el_write h, hf]
  exact Nat.mod_mod ..

theorem VRegVal.pois_write (hwd : wd ∣ 128) {g : Nat} (hg : g < 32) : (old.write wd tag f).pois.getLsbD g = true ↔
    (∃ k < 4096 / wd, wd * k / 128 = g ∧ ∃ v, f k = some v ∧ v.2 = true) ∨
      (old.pois.getLsbD g = true ∧ ∃ k < 4096 / wd, wd * k / 128 = g ∧ f k = none) := by
  obtain ⟨per, hper⟩ := hwd
  have hwd₀ : 0 < wd := Nat.pos_of_ne_zero fun h => by simp [h] at hper
  have hper₀ : 0 < per := Nat.pos_of_ne_zero fun h => by simp [h] at hper
  have hplace (k : Nat) : wd * k / 128 = k / per := by rw [hper, Nat.mul_div_mul_left _ _ hwd₀]
  have hdiv : 128 / wd = per := by rw [hper, Nat.mul_div_cancel_left _ hwd₀]
  show (BitVec.ofNat 32 (granules old.pois (128 / wd) 32 ((List.range (4096 / wd)).map f) 0)).getLsbD g = true ↔ _
  rw [BitVec.getLsbD_ofNat, decide_eq_true hg, Bool.true_and, testBit_granules _ _ _ _ _ _ hg, hdiv, Nat.zero_add]
  simp only [mem_granule _ _ hper₀, hplace]
  exact or_congr_left ⟨fun ⟨v, ⟨k, hk, hplace, hf⟩, hp⟩ => ⟨k, hk, hplace, v, hf, hp⟩,
    fun ⟨k, hk, hplace, v, hf, hp⟩ => ⟨v, ⟨k, hk, hplace, hf⟩, hp⟩⟩

end Write

/-! ## Writing a group of registers -/

/-- Each register of the group takes the elements whose number is its own modulo `w`, and no other register is written (R127). -/
theorem Core.vreg_putGroup (x : Core) (base w wd : Nat) (f : Nat → Option (Nat × Bool)) (j : Nat) :
    (x.putGroup base w wd f).vreg j =
      if base ≤ j ∧ j < base + w then (x.vreg j).write wd 0 fun k => f (k * w + (j - base)) else x.vreg j := by
  suffices h : ∀ m, (((List.range m).foldl (fun x r =>
      x.setVreg (base + r) ((x.vreg (base + r)).write wd 0 fun k => f (k * w + r))) x).vreg j) =
      if base ≤ j ∧ j < base + m then (x.vreg j).write wd 0 fun k => f (k * w + (j - base)) else x.vreg j from h w
  intro m
  induction m with
  | zero => rw [if_neg (by omega)]; rfl
  | succ m ih =>
    rw [List.range_succ, List.foldl_append, List.foldl_cons, List.foldl_nil]
    by_cases hj : j = base + m
    · subst hj
      rw [Core.vreg_setVreg_same, ih, if_neg (by omega), if_pos (by omega), Nat.add_sub_cancel_left]
    · rw [Core.vreg_setVreg_other _ _ _ _ hj, ih]
      have hrange : (base ≤ j ∧ j < base + m) ↔ (base ≤ j ∧ j < base + (m + 1)) := by omega
      simp only [hrange]

theorem Core.sameSeqs_putGroup (x : Core) (base w wd : Nat) (f : Nat → Option (Nat × Bool)) :
    x.SameSeqs (x.putGroup base w wd f) := by
  unfold Core.putGroup
  refine ⟨?_, ?_, ?_⟩
  · apply foldl_same Core.as; intros; rfl
  · apply foldl_same Core.xs; intros; rfl
  · apply foldl_same Core.cflags; intros; rfl

@[simp] theorem Core.mregs_putGroup (x : Core) (base w wd : Nat) (f : Nat → Option (Nat × Bool)) :
    (x.putGroup base w wd f).mregs = x.mregs := by
  unfold Core.putGroup
  apply foldl_same Core.mregs; intros; rfl

/-- The elements that lie in register `r` of a group of `w`, by their place in it and by their number (R127). -/
theorem exists_lane_iff {w K r : Nat} (hr : r < w) (Q : Nat → Nat → Prop) :
    (∃ k < K, Q k (k * w + r)) ↔ ∃ i < w * K, i % w = r ∧ Q (i / w) i := by
  constructor
  · rintro ⟨k, hk, hQ⟩
    refine ⟨k * w + r, ?_, ?_, ?_⟩
    · calc k * w + r < (k + 1) * w := by rw [Nat.succ_mul]; omega
        _ ≤ w * K := by rw [Nat.mul_comm w]; exact Nat.mul_le_mul_right _ hk
    · rw [Nat.mul_comm, Nat.mul_add_mod, Nat.mod_eq_of_lt hr]
    · rwa [Nat.mul_comm, Nat.mul_add_div (by omega), Nat.div_eq_of_lt hr, Nat.add_zero, Nat.mul_comm]
  · rintro ⟨i, hi, rfl, hQ⟩
    exact ⟨i / w, Nat.div_lt_of_lt_mul hi, by rwa [Nat.div_add_mod']⟩

end Sys2Proof.Machine
end

section
/-! SUPPORT. A VE entry whose effect is one write of a register group, or of a mask register (R127-R129). -/

namespace Sys2Proof.Machine

open Sys2Proof

/-! ## Vector registers -/

/-- Every element width divides a granule. -/
theorem width_dvd_granule (ty : ElemTy) : ty.width ∣ 128 := by cases ty <;> decide

/-- What a write takes of the elements `v`: the active ones (R129). -/
def activeOnly (act : Nat → Bool) (v : Nat → Nat × Bool) (i : Nat) : Option (Nat × Bool) := if act i then some (v i) else none

theorem activeOnly_eq_some {act : Nat → Bool} {v : Nat → Nat × Bool} {i : Nat} {u : Nat × Bool} :
    activeOnly act v i = some u ↔ act i = true ∧ v i = u := by
  simp [activeOnly]

theorem activeOnly_eq_none {act : Nat → Bool} {v : Nat → Nat × Bool} {i : Nat} : activeOnly act v i = none ↔ act i = false := by
  simp [activeOnly]

/-- A core that holds the group as `putGroup` writes it shows the effect of the statements: `v` gives the element and its poison
where it is active (R127, R129). -/
theorem veEffect_of_putGroup {s t : State} {c : CoreId} {d : VReg} {w wd : Nat} {act : Nat → Bool} {P : Nat → Nat → Prop}
    {pois : Nat → Bool} {x : Core} {v : Nat → Nat × Bool} (hwd : wd ∣ 128)
    (hx : ∀ r, x.vreg r = (s.core c.val).vreg r)
    (ht : ∀ r, (t.core c.val).vreg r = (x.putGroup d.val w wd (activeOnly act v)).vreg r)
    (hP : ∀ i < w * (4096 / wd), act i = true → P i ((v i).1 % 2 ^ wd)) (hp : ∀ i, (v i).2 = pois i) :
    VeEffect s t c d w wd act P pois := by
  have hreg (r : Nat) (hr : r < w) : (t.core c.val).vreg (d.val + r) =
      ((s.core c.val).vreg (d.val + r)).write wd 0 fun k => activeOnly act v (k * w + r) := by
    rw [ht, Core.vreg_putGroup, if_pos (by omega), hx, Nat.add_sub_cancel_left]
  have hpois (i : Nat) : (∃ u, activeOnly act v i = some u ∧ u.2 = true) ↔ act i = true ∧ pois i = true := by
    simp only [activeOnly_eq_some, ← hp, and_assoc, exists_and_left, exists_eq_left']
  refine ⟨fun i hi => ?_, fun r hr g hg => ?_⟩
  · have hw : 0 < w := Nat.pos_of_ne_zero fun h => by simp [h] at hi
    have hplace : i / w < 4096 / wd := Nat.div_lt_of_lt_mul hi
    simp only [grpAt, hreg _ (Nat.mod_lt i hw)]
    refine ⟨fun hact => ?_, fun hact => ?_⟩
    · rw [VRegVal.el_write_some (v := v i) hplace (by rw [Nat.div_add_mod', activeOnly_eq_some]; exact ⟨hact, rfl⟩)]
      exact hP i hi hact
    · exact VRegVal.el_write_none hplace (by rw [Nat.div_add_mod', activeOnly_eq_none]; exact hact)
  · rw [hreg r hr, VRegVal.pois_write hwd hg,
      exists_lane_iff hr fun k i => wd * k / 128 = g ∧ ∃ u, activeOnly act v i = some u ∧ u.2 = true,
      exists_lane_iff hr fun k i => wd * k / 128 = g ∧ activeOnly act v i = none]
    simp only [hpois, activeOnly_eq_none]

/-- A VE entry that writes a group of registers and raises no flag has that effect on the group, and clears its tags. -/
theorem veGroup_of_runVe {s : State} {c : CoreId} {n : Entry} {d : VReg} {w wd : Nat} {act : Nat → Bool} {P : Nat → Nat → Prop}
    {pois : Nat → Bool} {r : Nat → Entry → Mx Flg} {f : Nat → Option (Nat × Bool)} {v : Nat → Nat × Bool}
    (h : Starts s c .ve n) (hr : runVe n.instr = some r) (hwd : wd ∣ 128)
    (hrun : r c.val n.started (reading s c .ve n) =
      .ok Flg.none ((reading s c .ve n).setCore c.val ((readCore s c .ve n).putGroup d.val w wd f)))
    (hf : ∀ i, f i = activeOnly act v i)
    (hP : ∀ i < w * (4096 / wd), act i = true → P i ((v i).1 % 2 ^ wd)) (hp : ∀ i, (v i).2 = pois i) :
    VeGroup s c n d w wd act P pois fun _ => Flg.none := by
  cases funext hf
  obtain ⟨t, ht⟩ := startsTo_of_runVe h hr hrun
  have hx (r : Nat) : (readCore s c .ve n).vreg r = (s.core c.val).vreg r := by
    simp only [Core.vreg, (sameRegs_readCore s c .ve n).vregs]
  refine ⟨t, ht.exec_eq, veEffect_of_putGroup hwd hx ht.vreg hP hp, ht.noFlags _ _, fun r hr => ?_, ?_, trivial⟩
  · rw [ht.vreg, Core.vreg_putGroup, if_pos (by omega), VRegVal.tag_write]
  · refine ht.frame (Core.sameSeqs_putGroup ..) (fun r hr => ?_) (fun r _ => ?_) fun _ => Core.mregs_putGroup ..
    · rw [Core.vreg_putGroup, if_neg]
      rintro ⟨hlo, hhi⟩
      exact hr (List.mem_map.mpr ⟨r - d.val, List.mem_range.mpr (by omega), by omega⟩)
    · simp only [Core.mreg, Core.mregs_putGroup]

/-! ## Mask registers -/

/-- A mask is spelt by its bits. -/
theorem getLsbD_maskOf (bits : List Bool) {k : Nat} (hk : k < 1024) : (maskOf bits).getLsbD k = bits.getD k false := by
  rw [maskOf, BitVec.getLsbD_ofNat, decide_eq_true hk, Bool.true_and]
  clear hk
  induction bits generalizing k with
  | nil => simp
  | cons b bits ih =>
    rw [List.foldr_cons]
    cases k with
    | zero => rw [testBit_toNat_add_zero, List.getD_cons_zero]
    | succ k => rw [testBit_toNat_add_succ, ih, List.getD_cons_succ]

@[simp] theorem Core.vreg_setMreg (x : Core) (r j : Nat) (v : BitVec 1024) : (x.setMreg r v).vreg j = x.vreg j := by
  rw [Core.vreg, Core.setMreg_vregs, Core.vreg]

/-- A write of a mask register leaves every other mask register alone. -/
theorem Core.mreg_setMreg_other (x : Core) (r j : Nat) (v : BitVec 1024) (h : j ≠ r) : (x.setMreg r v).mreg j = x.mreg j :=
  sget_sset_other _ _ _ _ _ _ h

theorem Core.sameSeqs_setMreg (x : Core) (r : Nat) (v : BitVec 1024) : x.SameSeqs (x.setMreg r v) :=
  ⟨Core.setMreg_as .., Core.setMreg_xs .., Core.setMreg_cflags ..⟩

/-- A VE entry that writes one mask register changes no other, and no vector register. -/
theorem mask_of_runVe {s : State} {c : CoreId} {n : Entry} {md : MReg} {v : BitVec 1024} {r : Nat → Entry → Mx Flg}
    (h : Starts s c .ve n) (hr : runVe n.instr = some r)
    (hrun : r c.val n.started (reading s c .ve n) =
      .ok Flg.none ((reading s c .ve n).setCore c.val ((readCore s c .ve n).setMreg md.val v))) :
    ∃ t, exec (.engineEntryStart c .ve) s = .next t ∧
      (VeFrame s t c [] [md] ∧ (t.core c.val).vregs = (s.core c.val).vregs) ∧ (t.core c.val).mreg md.val = v := by
  obtain ⟨t, ht⟩ := startsTo_of_runVe h hr hrun
  refine ⟨t, ht.exec_eq, ⟨ht.frame (Core.sameSeqs_setMreg ..) (fun _ _ => Core.vreg_setMreg ..) (fun r hr => ?_) nofun, ?_⟩, ?_⟩
  · have hne : r.val ≠ md.val := fun h => hr (List.mem_singleton.mpr (Fin.ext h))
    rw [Core.mreg_setMreg_other _ _ _ _ hne]
  · rw [ht.regs.vregs, Core.setMreg_vregs, (sameRegs_readCore s c .ve n).vregs]
  · rw [ht.mreg, Core.mreg_setMreg_same]

/-! ## The lowest index -/

theorem lowest_eq_none {n : Nat} {p : Nat → Bool} : lowest n p = none ↔ ∀ i < n, p i = false := by
  simp [lowest]

theorem lowest_eq_some {n i : Nat} {p : Nat → Bool} :
    lowest n p = some i ↔ p i = true ∧ i < n ∧ ∀ j < i, p j = false := by
  simp [lowest, List.find?_range_eq_some]

/-- With the bound where there is none, the lowest index is the end of the run of refusals. -/
theorem lowest_getD_spec (n : Nat) (p : Nat → Bool) : (lowest n p).getD n ≤ n ∧
    (∀ j < (lowest n p).getD n, p j = false) ∧ ((lowest n p).getD n < n → p ((lowest n p).getD n) = true) := by
  cases hlow : lowest n p with
  | none => exact ⟨Nat.le_refl n, lowest_eq_none.mp hlow, fun h => absurd h (Nat.lt_irrefl n)⟩
  | some x =>
    obtain ⟨hset, hlt, hclear⟩ := lowest_eq_some.mp hlow
    exact ⟨Nat.le_of_lt hlt, hclear, fun _ => hset⟩

end Sys2Proof.Machine
end

section
/-! SUPPORT. The moves, selects, compares and mask instructions of the VE (R135-R138, R157). -/

namespace Sys2Proof.Machine

open Sys2Proof

/-! ## Elements -/

/-- An element is a number of its own width. -/
@[simp] theorem VRegVal.el_mod (v : VRegVal) (wd i : Nat) : (v.el wd i).1 % 2 ^ wd = (v.el wd i).1 := Nat.mod_mod ..

/-- The element at an index of a register that VE entry `n` reads; zero past the end (R137). -/
def elemOrZero (s : State) (c : CoreId) (n : Entry) (r : VReg) (ty : ElemTy) (j : Nat) : Nat × Bool :=
  if j < ty.count then elemIn s c n r ty j else (0, false)

theorem elemOrZero_mod (s : State) (c : CoreId) (n : Entry) (r : VReg) (ty : ElemTy) (j : Nat) :
    (elemOrZero s c n r ty j).1 % 2 ^ ty.width = (elemOrZero s c n r ty j).1 := by
  unfold elemOrZero
  split
  · exact VRegVal.el_mod ..
  · exact Nat.zero_mod _

/-- The element at place `j` of the registers `a` and `up` in a row, with `up` below `a` too; zero outside, or without `up` (R138). -/
def slidElem (s : State) (c : CoreId) (n : Entry) (a : VReg) (up : Option VReg) (ty : ElemTy) (j : Int) : Nat × Bool :=
  if 0 ≤ j ∧ j < ty.count then elemIn s c n a ty j.toNat
  else match up with
    | none => (0, false)
    | some r => if ty.count ≤ j ∧ j < 2 * ty.count then elemIn s c n r ty (j - ty.count).toNat
      else if -(ty.count : Int) ≤ j ∧ j < 0 then elemIn s c n r ty (j + ty.count).toNat else (0, false)

theorem slidElem_mod (s : State) (c : CoreId) (n : Entry) (a : VReg) (up : Option VReg) (ty : ElemTy) (j : Int) :
    (slidElem s c n a up ty j).1 % 2 ^ ty.width = (slidElem s c n a up ty j).1 := by
  unfold slidElem
  split
  · exact VRegVal.el_mod ..
  · cases up with
    | none => exact Nat.zero_mod _
    | some r =>
      dsimp only
      split
      · exact VRegVal.el_mod ..
      · split
        · exact VRegVal.el_mod ..
        · exact Nat.zero_mod _

/-! ## Effects that choose -/

/-- A captured operand that is not poisoned lets its instruction go on (R126). -/
theorem needClean_of_clear {k : SVal} (h : k.p = false) (R : State) : needClean k R = .ok () R := by
  simp [needClean, h]

@[simp] theorem mx_coreM (c : Nat) (R : State) : coreM c R = .ok (R.core c) R := rfl

/-- `vmov` of a type with elements of their own writes them one by one. -/
theorem runVmov_elements (d : VReg) (o : EOpd) (m : Mods) (hB : m.ty.isB = false) (c : Nat) (e : Entry) (R : State) :
    runVmov d o m c e R = .ok Flg.none (R.setCore c ((R.core c).putGroup d.val 1 m.ty.width fun i =>
      if (R.core c).act m.mask i then some ((R.core c).src m.ty m.rnd o e.a i) else none)) := by
  cases o with
  | vec r =>
    simp only [runVmov, hB, Bool.false_eq_true, if_false]
    rfl
  | _ => rfl

/-- `vmov` of a block type writes the whole register. -/
theorem runVmov_blocks (d a : VReg) (m : Mods) (hB : m.ty.isB = true) (c : Nat) (e : Entry) (R : State) :
    runVmov d (.vec a) m c e R = .ok Flg.none (R.setCore c ((R.core c).setVreg d.val (((R.core c).vsrc a.val).ofBlocks m.ty))) := by
  simp only [runVmov, hB, if_true]
  rfl

/-! ## Select, move, permute -/

section
variable (s : State) (c : CoreId) (tk : Tok) (d a b : VReg) (o o2 : EOpd) (m : Mods)

/-- `vsel` takes each element from the operand that the mask picks (R136). -/
theorem vsel_writes (ma : MReg) (ty : ElemTy) :
    let pick (n : Entry) (k : Nat) : Nat × Bool :=
      if ((s.core c.val).mreg ma.val).getLsbD k then (readCore s c .ve n).src ty .rne o n.a k
      else (readCore s c .ve n).src ty .rne o2 n.b k
    VeWrites s c (.vsel tk d o o2 ma ty) d ty (fun _ => true) (fun n k r => r = (pick n k).1 % 2 ^ ty.width)
      fun n k => (pick n k).2 := by
  intro pick n h hi
  refine veGroup_of_runVe (r := runVsel d o o2 ma ty) h (by rw [hi]; rfl) (width_dvd_granule ty) rfl (v := pick n) (fun k => ?_)
    (fun _ _ _ => rfl) (fun _ => rfl)
  refine (activeOnly_eq_some.mpr ⟨rfl, ?_⟩).symm
  simp only [pick, core_reading, mreg_readCore]

/-- `vmov` copies, element by element (R136). -/
theorem vmov_writes (hB : m.ty.isB = false) :
    VeWrites s c (.vmov tk d o m) d m.ty ((s.core c.val).act m.mask) (fun n k r => r = (srcIn s c n m o n.a k).1 % 2 ^ m.ty.width)
      fun n k => (srcIn s c n m o n.a k).2 := by
  intro n h hi
  refine veGroup_of_runVe (r := runVmov d o m) h (by rw [hi]; rfl) (width_dvd_granule m.ty)
    (runVmov_elements d o m hB _ _ _) (v := srcIn s c n m o n.a) (fun k => ?_) (fun _ _ _ => rfl) (fun _ => rfl)
  simp only [core_reading, act_readCore]
  rfl

/-- `vperm` takes each element from the place that its index names (R137). -/
theorem vperm_writes :
    VeWrites s c (.vperm tk d a b m) d m.ty ((s.core c.val).act m.mask)
      (fun n k r => r = (elemOrZero s c n a m.ty (elemIn s c n b m.ty k).1).1)
      fun n k => (elemOrZero s c n a m.ty (elemIn s c n b m.ty k).1).2 || (elemIn s c n b m.ty k).2 := by
  intro n h hi
  refine veGroup_of_runVe (r := runVperm d a b m) h (by rw [hi]; rfl) (width_dvd_granule m.ty) rfl
    (v := fun k => ((elemOrZero s c n a m.ty (elemIn s c n b m.ty k).1).1,
      (elemOrZero s c n a m.ty (elemIn s c n b m.ty k).1).2 || (elemIn s c n b m.ty k).2))
    (fun k => ?_) (fun _ _ _ => elemOrZero_mod ..) (fun _ => rfl)
  simp only [core_reading, act_readCore]
  cases hact : (s.core c.val).act m.mask k with
  | false => exact (activeOnly_eq_none.mpr hact).symm
  | true => rw [activeOnly_eq_some.mpr ⟨hact, rfl⟩]; rfl

/-- `vbcast` gives every element the one that its operand names (R137). -/
theorem vbcast_sets {n : Entry} (h : Starts s c .ve n) (hi : n.instr = .vbcast tk d a o m) (hclean : n.a.p = false) :
    VeSets s c n d m.ty ((s.core c.val).act m.mask) (fun _ r => r = (elemOrZero s c n a m.ty n.a.v.toNat).1)
      fun _ => (elemOrZero s c n a m.ty n.a.v.toNat).2 := by
  refine veGroup_of_runVe (r := runVbcast d a m) h (by rw [hi]; rfl) (width_dvd_granule m.ty)
    (mx_bind_ok _ _ _ _ () (needClean_of_clear hclean _))
    (v := fun _ => elemOrZero s c n a m.ty n.a.v.toNat) (fun k => ?_) (fun _ _ _ => elemOrZero_mod ..) (fun _ => rfl)
  simp only [core_reading, act_readCore]
  rfl

/-- `vslide` moves the elements by its operand (R138). -/
theorem vslide_sets {n : Entry} {up : Option VReg} (h : Starts s c .ve n) (hi : n.instr = .vslide tk d a o up m)
    (hclean : n.a.p = false) :
    VeSets s c n d m.ty ((s.core c.val).act m.mask) (fun k r => r = (slidElem s c n a up m.ty (k + n.a.v.toInt)).1)
      fun k => (slidElem s c n a up m.ty (k + n.a.v.toInt)).2 := by
  refine veGroup_of_runVe (r := runVslide d a up m) h (by rw [hi]; rfl) (width_dvd_granule m.ty)
    (mx_bind_ok _ _ _ _ () (needClean_of_clear hclean _))
    (v := fun k => slidElem s c n a up m.ty (k + n.a.v.toInt)) (fun k => ?_) (fun _ _ _ => slidElem_mod ..) (fun _ => rfl)
  simp only [core_reading, act_readCore]
  cases hact : (s.core c.val).act m.mask k with
  | false => exact (activeOnly_eq_none.mpr hact).symm
  | true => rw [activeOnly_eq_some.mpr ⟨hact, rfl⟩]; rfl

/-- `vmov` of a block type copies the register with the exponents that its type uses (R95, R136). -/
theorem vmov_blocks {n : Entry} (h : Starts s c .ve n) (hB : m.ty.isB = true) (hi : n.instr = .vmov tk d (.vec a) m) :
    ∃ t, exec (.engineEntryStart c .ve) s = .next t ∧ VeFrame s t c (regs d) ∧
      (t.core c.val).vreg d.val = ((readCore s c .ve n).vsrc a.val).ofBlocks m.ty := by
  obtain ⟨t, ht⟩ := startsTo_of_runVe (r := runVmov d (.vec a) m) h (by rw [hi]; rfl) (runVmov_blocks d a m hB _ _ _)
  refine ⟨t, ht.exec_eq, ht.frame ⟨Core.setVreg_as .., Core.setVreg_xs .., Core.setVreg_cflags ..⟩ (fun r hr => ?_)
    (fun r _ => ?_) fun _ => Core.setVreg_mregs .., ?_⟩
  · have hne : r ≠ d.val := by simpa [regs] using hr
    rw [Core.vreg_setVreg_other _ _ _ _ hne, core_reading]
  · rw [Core.mreg, Core.setVreg_mregs, core_reading, Core.mreg]
  · rw [ht.vreg, Core.vreg_setVreg_same, core_reading]

/-! ## Compares and masks -/

/-- A register holds at most as many elements as a mask has bits (R85). -/
theorem count_le (ty : ElemTy) : ty.count ≤ 1024 := by cases ty <;> decide

/-- A compare of elements that are not poisoned writes one bit for each (R135). -/
theorem runVcmp_of_clear {x : Core} {R : State} (hx : R.core c.val = x) (cc : Cond) (md : MReg) (e : Entry)
    (hclear : ∀ k < m.ty.count, x.act m.mask k = true →
      (x.src m.ty m.rnd o e.a k).2 = false ∧ (x.src m.ty m.rnd o2 e.b k).2 = false) :
    runVcmp cc md o o2 m c.val e R = .ok Flg.none (R.setCore c.val (x.setMreg md.val
      (maskOf ((List.range m.ty.count).map fun i =>
        if x.act m.mask i then condElem cc m.ty (x.src m.ty m.rnd o e.a i).1 (x.src m.ty m.rnd o2 e.b i).1
        else (x.mreg md.val).getLsbD i)))) := by
  subst hx
  have hnone : (lowest m.ty.count fun i => (R.core c.val).act m.mask i &&
      (((R.core c.val).src m.ty m.rnd o e.a i).2 || ((R.core c.val).src m.ty m.rnd o2 e.b i).2)) = none := by
    rw [lowest_eq_none]
    intro k hk
    cases hact : (R.core c.val).act m.mask k with
    | false => rfl
    | true =>
      obtain ⟨ha, hb⟩ := hclear k hk hact
      rw [ha, hb]; rfl
  rw [runVcmp, mx_bind_ok _ _ _ _ _ (mx_coreM c.val R)]
  simp only [hnone]
  rfl

/-- `vcmp` writes a bit for each active element and keeps the others (R135). -/
theorem vcmp_sets {n : Entry} (cc : Cond) (md : MReg) (h : Starts s c .ve n) (hi : n.instr = .vcmp tk cc md o o2 m)
    (hclear : ∀ k < m.ty.count, (s.core c.val).act m.mask k = true →
      (srcIn s c n m o n.a k).2 = false ∧ (srcIn s c n m o2 n.b k).2 = false) :
    ∃ t, exec (.engineEntryStart c .ve) s = .next t ∧
      (VeFrame s t c [] [md] ∧ (t.core c.val).vregs = (s.core c.val).vregs) ∧
      ∀ k < m.ty.count, ((t.core c.val).mreg md.val).getLsbD k =
        if (s.core c.val).act m.mask k then condElem cc m.ty (srcIn s c n m o n.a k).1 (srcIn s c n m o2 n.b k).1
        else ((s.core c.val).mreg md.val).getLsbD k := by
  have hrun := runVcmp_of_clear c o o2 m (core_reading s c .ve n) cc md n.started fun k hk hact =>
    hclear k hk (act_readCore s c .ve n m.mask k ▸ hact)
  obtain ⟨t, ht, hframe, hmask⟩ := mask_of_runVe (r := runVcmp cc md o o2 m) h (by rw [hi]; rfl) hrun
  refine ⟨t, ht, hframe, fun k hk => ?_⟩
  have hk' : k < 1024 := Nat.lt_of_lt_of_le hk (count_le m.ty)
  rw [hmask, getLsbD_maskOf _ hk', List.getD_eq_getElem?_getD, List.getElem?_map, List.getElem?_range hk]
  simp only [Option.map_some, Option.getD_some, act_readCore, mreg_readCore]
  rfl

end

section
variable (s : State) (c : CoreId) (tk : Tok) (d : VReg) (ma mb md : MReg)

/-- A row of a truth table, where the table has it (R157). -/
theorem getLsbD_row (tt j k : Nat) (w : BitVec 1024) :
    (if tt / 2 ^ j % 2 = 1 then w else 0).getLsbD k = (tt.testBit j && w.getLsbD k) := by
  rw [Nat.testBit_eq_decide_div_mod_eq]
  split <;> simp [*]

/-- `mlog` gives each bit the row of its truth table that the two masks spell (R157). -/
theorem mlog_sets {n : Entry} (tt : Fin 16) (h : Starts s c .ve n) (hi : n.instr = .mlog tk md ma mb tt) :
    ∃ t, exec (.engineEntryStart c .ve) s = .next t ∧
      (VeFrame s t c [] [md] ∧ (t.core c.val).vregs = (s.core c.val).vregs) ∧
      ∀ k < 1024, ((t.core c.val).mreg md.val).getLsbD k =
        tt.val.testBit (2 * (((s.core c.val).mreg ma.val).getLsbD k).toNat + (((s.core c.val).mreg mb.val).getLsbD k).toNat) := by
  obtain ⟨t, ht, hframe, hmask⟩ := mask_of_runVe (r := runMlog md ma mb tt) h (by rw [hi]; rfl) rfl
  refine ⟨t, ht, hframe, fun k hk => ?_⟩
  rw [hmask]
  simp only [core_reading, mreg_readCore, BitVec.getLsbD_or, BitVec.getLsbD_and, BitVec.getLsbD_not, getLsbD_row, hk, decide_true,
    Bool.true_and]
  cases ((s.core c.val).mreg ma.val).getLsbD k <;> cases ((s.core c.val).mreg mb.val).getLsbD k <;> simp

/-- A number into element 0 of a register of zeros that is clear of poison (R139, R157). -/
theorem first_writes {i : Instr} {r : Nat → Entry → Mx Flg} {x : Nat} {P : Nat → Prop} (hr : runVe i = some r)
    (hrun : ∀ n : Entry, r c.val n.started (reading s c .ve n) = .ok Flg.none ((reading s c .ve n).setCore c.val
      ((readCore s c .ve n).putGroup d.val 1 32 fun k => some (if k = 0 then (x, false) else (0, false)))))
    (hx : x < 2 ^ 32) (hP : P x) :
    VeWrites s c i d .n32 (fun _ => true) (fun _ k r => if k = 0 then P r else r = 0) fun _ _ => false := by
  intro n h hi
  refine veGroup_of_runVe h (hi ▸ hr) (width_dvd_granule .n32) (hrun n) (v := fun k => if k = 0 then (x, false) else (0, false))
    (fun _ => rfl) (fun k _ _ => ?_) (fun k => ?_)
  · by_cases hk : k = 0
    · simp only [hk, if_true]
      rwa [show x % 2 ^ ElemTy.n32.width = x from Nat.mod_eq_of_lt hx]
    · simp only [hk, if_false, Nat.zero_mod]
  · dsimp only
    split <;> rfl

/-- `mpopc` counts the bits of a mask below the element count (R157). -/
theorem mpopc_writes (ty : ElemTy) :
    VeWrites s c (.mpopc tk d ma ty) d .n32 (fun _ => true)
      (fun _ k r => if k = 0 then r = (List.range ty.count).countP ((s.core c.val).mreg ma.val).getLsbD else r = 0) fun _ _ => false := by
  have hle : (List.range ty.count).countP ((s.core c.val).mreg ma.val).getLsbD ≤ 1024 := calc
    _ ≤ (List.range ty.count).length := List.countP_le_length
    _ ≤ 1024 := by rw [List.length_range]; exact count_le ty
  refine first_writes s c d (r := runMpopc d ma ty) (P := fun r => r = _) rfl (fun n => ?_) (by omega) rfl
  rw [← mreg_readCore s c .ve n]
  rfl

/-- `mfirst` finds the lowest set bit below the element count, which it gives where there is none (R157). -/
theorem mfirst_writes (ty : ElemTy) :
    let mask (k : Nat) : Bool := ((s.core c.val).mreg ma.val).getLsbD k
    VeWrites s c (.mfirst tk d ma ty) d .n32 (fun _ => true)
      (fun _ k r => if k = 0 then r ≤ ty.count ∧ (∀ j < r, mask j = false) ∧ (r < ty.count → mask r = true) else r = 0)
      fun _ _ => false := by
  intro mask
  obtain ⟨hle, hclear, hset⟩ := lowest_getD_spec ty.count mask
  have hcount := count_le ty
  refine first_writes s c d (r := runMfirst d ma ty) rfl (fun n => ?_) (by omega) ⟨hle, hclear, hset⟩
  simp only [mask, ← mreg_readCore s c .ve n]
  rfl

end

end Sys2Proof.Machine
end

section
/-! SUPPORT. The results of the vector moves and mask instructions: every clause of the statement. -/

namespace Sys2Proof.Machine

open Sys2Proof

/-- A field of `k` bits lies whole in the low `a` bits. -/
theorem mod_two_pow_div_mod {x a b k : Nat} (h : b + k ≤ a) : x % 2 ^ a / 2 ^ b % 2 ^ k = x / 2 ^ b % 2 ^ k := by
  obtain ⟨e, rfl⟩ := Nat.exists_eq_add_of_le h
  rw [Nat.add_assoc, Nat.pow_add, Nat.mod_mul_right_div_self]
  exact Nat.mod_mod_of_dvd _ (Nat.pow_dvd_pow 2 (Nat.le_add_right k e))

@[simp] theorem VRegVal.bits_ofBlocks (v : VRegVal) (ty : ElemTy) : (v.ofBlocks ty).bits = v.bits := by
  unfold VRegVal.ofBlocks
  split <;> rfl

@[simp] theorem VRegVal.pois_ofBlocks (v : VRegVal) (ty : ElemTy) : (v.ofBlocks ty).pois = v.pois := by
  unfold VRegVal.ofBlocks
  split <;> rfl

/-- The tag bytes that a type uses, two for each of its blocks, are kept by `ofBlocks` (R95). -/
theorem VRegVal.blkExp_ofBlocks (v : VRegVal) (ty : ElemTy) {j : Nat} (hj : j < ty.count / 32) :
    (v.ofBlocks ty).blkExp j = v.blkExp j := by
  unfold VRegVal.ofBlocks
  split
  · next hty =>
    subst hty
    have htag : ((v.tag.extractLsb' 0 256).setWidth 512).toNat = v.tag.toNat % 2 ^ 256 := by
      rw [BitVec.toNat_setWidth_of_le (by omega), BitVec.extractLsb'_toNat, Nat.shiftRight_zero]
    have hfield {b : Nat} (hb : b + 8 ≤ 256) :
        ((v.tag.extractLsb' 0 256).setWidth 512).toNat / 2 ^ b % 256 = v.tag.toNat / 2 ^ b % 256 := by
      rw [htag]
      exact mod_two_pow_div_mod (k := 8) hb
    have hj' : j < 16 := hj
    exact Prod.ext (hfield (by omega)) (hfield (by omega))
  · rfl

/-- Settles O36: each clause is the rule of its instruction, and each rule follows from what the start of a VE entry leaves of one write
of a register group (`veGroup_of_runVe`), of a whole register (`vmov_blocks`) or of a mask register (`mask_of_runVe`). -/
theorem veMoveAndMaskResults : Obligations.VeMoveAndMaskResults := by
  intro s c tk cc d a b o o2 m md ma mb tt
  refine ⟨vsel_writes s c tk d o o2 ma m.ty, vmov_writes s c tk d o m, fun n h hB hi => ?_, vperm_writes s c tk d a b m,
    fun n h hi hclean => vbcast_sets s c tk d a o m h hi hclean, fun n up h hi hclean => ?_,
    fun n h hi hclear => vcmp_sets s c tk o o2 m cc md h hi hclear, fun n h hi => mlog_sets s c tk ma mb md tt h hi,
    mpopc_writes s c tk d ma m.ty, mfirst_writes s c tk d ma m.ty⟩
  · obtain ⟨t, ht, hframe, hreg⟩ := vmov_blocks s c tk d a m h hB hi
    refine ⟨t, ht, hframe, ?_⟩
    rw [hreg]
    exact ⟨VRegVal.bits_ofBlocks .., VRegVal.pois_ofBlocks .., fun j => VRegVal.blkExp_ofBlocks _ m.ty⟩
  · exact vslide_sets s c tk d a o m h hi hclean

end Sys2Proof.Machine
end

section
/-! SUPPORT. A ticket draw: the ready queues of a class in ascending index, and whose tickets the drawn number falls into (R224). -/

namespace Sys2Proof.Machine

open Sys2Proof

/-! ## The keys of a map in canonical form -/

theorem swfFrom_le_key {α : Type} [DecidableEq α] {d : Nat → α} {m : SMap α} {lo : Nat} (h : swfFrom d lo m = true) :
    ∀ k ∈ m.map (·.1), lo ≤ k := by
  induction m generalizing lo with
  | nil => simp
  | cons e m ih =>
    simp only [swfFrom, Bool.and_eq_true, decide_eq_true_eq] at h
    obtain ⟨⟨hlo, -⟩, hm⟩ := h
    intro k hk
    rcases List.mem_cons.mp hk with rfl | hk
    · exact hlo
    · have := ih hm k hk
      omega

/-- The keys of a map in canonical form rise strictly. -/
theorem pairwise_lt_keys_of_swfFrom {α : Type} [DecidableEq α] {d : Nat → α} {m : SMap α} {lo : Nat} (h : swfFrom d lo m = true) :
    (m.map (·.1)).Pairwise (· < ·) := by
  induction m generalizing lo with
  | nil => exact List.Pairwise.nil
  | cons e m ih =>
    simp only [swfFrom, Bool.and_eq_true, decide_eq_true_eq] at h
    obtain ⟨-, hm⟩ := h
    have hlt : ∀ k ∈ m.map (·.1), e.1 < k := swfFrom_le_key hm
    exact List.pairwise_cons.mpr ⟨hlt, ih hm⟩

/-- Strictly rising lists with the same members are the same. -/
theorem eq_of_pairwise_lt_of_mem_iff {l m : List Nat} (hl : l.Pairwise (· < ·)) (hm : m.Pairwise (· < ·))
    (h : ∀ a, a ∈ l ↔ a ∈ m) : l = m := by
  have hperm : l.Perm m := (List.perm_ext_iff_of_nodup (hl.imp Nat.ne_of_lt) (hm.imp Nat.ne_of_lt)).mpr h
  exact hperm.eq_of_pairwise (fun _ _ _ _ hab hba => absurd hab (Nat.lt_asymm hba)) hl hm

theorem sget_of_not_mem_keys {α : Type} {m : SMap α} {k : Nat} (d : α) (h : k ∉ m.map (·.1)) : sget m k d = d := by
  induction m with
  | nil => rfl
  | cons e m ih =>
    obtain ⟨hne, hm⟩ := not_or.mp fun hk => h (List.mem_cons.mpr hk)
    rw [sget, if_neg (Ne.symm hne), ih hm]

/-! ## The ready queues of a class -/

/-- A ready queue has an entry of its own: one without reads as after reset, and is off. -/
theorem State.mem_keys_of_queueReady {s : State} {q : Nat} (h : s.queueReady q = true) : q ∈ s.queues.map (·.1) := by
  refine Decidable.by_contra fun hq => ?_
  have hreset : s.queue q = Queue.reset := sget_of_not_mem_keys _ hq
  simp [State.queueReady, hreset, Queue.reset] at h

/-- The walk over the listed queues is R224's walk over all 256. -/
theorem State.classQueues_eq_filter_range {s : State} (c : Nat) (hwf : swf (fun _ => Queue.reset) s.queues = true)
    (hlt : ∀ e ∈ s.queues, e.1 < 256) :
    s.classQueues c = (List.range 256).filter fun q => (s.queue q).cls = c && s.queueReady q := by
  unfold State.classQueues
  refine eq_of_pairwise_lt_of_mem_iff ((pairwise_lt_keys_of_swfFrom hwf).filter _) (List.pairwise_lt_range.filter _) fun q => ?_
  rw [List.mem_filter, List.mem_filter, List.mem_range]
  refine and_congr_left fun hready => ⟨fun hq => ?_, fun _ => ?_⟩
  · obtain ⟨e, he, rfl⟩ := List.mem_map.mp hq
    exact hlt e he
  · exact s.mem_keys_of_queueReady (Bool.and_eq_true _ _ ▸ hready).2

/-! ## The walk over tickets -/

/-- A walk over whole lists of contenders: the first holds the number, or the rest of it falls to the second. -/
theorem ticketWalk_append (l m : List (Nat × Nat)) (p : Nat) :
    ticketWalk (l ++ m) p = if p < (l.map (·.2)).sum then ticketWalk l p else ticketWalk m (p - (l.map (·.2)).sum) := by
  induction l generalizing p with
  | nil => simp
  | cons e l ih =>
    simp only [List.cons_append, ticketWalk, List.map_cons, List.sum_cons, ih]
    by_cases he : p < e.2
    · simp only [if_pos he, if_pos (Nat.lt_add_right _ he)]
    · have hiff : p - e.2 < (l.map (·.2)).sum ↔ p < e.2 + (l.map (·.2)).sum := by omega
      simp only [if_neg he, hiff, Nat.sub_sub]

/-- A contender without tickets may as well stand in the walk. -/
theorem ticketWalk_filter (P : Nat → Bool) (f : Nat → Nat) (l : List Nat) (p : Nat) :
    ticketWalk ((l.filter P).map fun q => (q, f q)) p = ticketWalk (l.map fun q => (q, if P q then f q else 0)) p := by
  induction l generalizing p with
  | nil => rfl
  | cons q l ih => cases hq : P q <;> simp [hq, ticketWalk, ih]

theorem sum_map_filter (P : Nat → Bool) (f : Nat → Nat) (l : List Nat) :
    ((l.filter P).map f).sum = (l.map fun q => if P q then f q else 0).sum := by
  induction l with
  | nil => rfl
  | cons q l ih => cases hq : P q <;> simp [hq, ih]

/-- The winner of a walk over the contenders below `n` is the one whose tickets, counted on from those before it, hold the number. -/
theorem ticketWalk_range (f : Nat → Nat) {n p : Nat} (hp : p < ((List.range n).map f).sum) :
    ∃ w < n, ((List.range w).map f).sum ≤ p ∧ p < ((List.range w).map f).sum + f w ∧
      ticketWalk ((List.range n).map fun q => (q, f q)) p = some w := by
  induction n with
  | zero => simp at hp
  | succ n ih =>
    have hsum : (((List.range n).map fun q => (q, f q)).map (·.2)).sum = ((List.range n).map f).sum := by simp [Function.comp_def]
    rw [List.range_succ, List.map_append, ticketWalk_append, hsum]
    rw [List.range_succ, List.map_append, List.sum_append, List.map_singleton, List.sum_singleton] at hp
    by_cases hlast : p < ((List.range n).map f).sum
    · obtain ⟨w, hw, hlo, hhi, hwalk⟩ := ih hlast
      exact ⟨w, by omega, hlo, hhi, by rw [if_pos hlast, hwalk]⟩
    · refine ⟨n, by omega, by omega, hp, ?_⟩
      rw [if_neg hlast, List.map_singleton, ticketWalk, if_pos (by omega)]

/-! ## The draw -/

/-- The tickets with which a queue stands in a draw of class `c`: none, unless it is of the class and ready. -/
def State.classTickets (s : State) (c q : Nat) : Nat :=
  if (s.queue q).cls = c ∧ s.queueReady q = true then (s.queue q).tickets else 0

/-- The draw as R224 states it, over all 256 queues. -/
theorem State.draw_eq {s : State} (c : Nat) (hwf : swf (fun _ => Queue.reset) s.queues = true) (hlt : ∀ e ∈ s.queues, e.1 < 256) :
    s.draw c =
      if ((List.range 256).map (s.classTickets c)).sum = 0 then (none, s)
      else
        (ticketWalk ((List.range 256).map fun q => (q, s.classTickets c q))
          ((lottery (s.clxOf c)).toNat % ((List.range 256).map (s.classTickets c)).sum), s.setClx c (lottery (s.clxOf c))) := by
  have htickets : ∀ q, (if ((s.queue q).cls = c && s.queueReady q) = true then (s.queue q).tickets else 0) = s.classTickets c q := by
    simp [State.classTickets]
  simp only [State.draw, s.classQueues_eq_filter_range c hwf hlt, List.map_map, Function.comp_def, sum_map_filter, ticketWalk_filter,
    htickets]

/-- An xorshift step to the left, in arithmetic. -/
theorem toNat_xor_shiftLeft {w : Nat} (x : BitVec w) (n : Nat) :
    (x ^^^ (x <<< n)).toNat = (x.toNat ^^^ (x.toNat * 2 ^ n)) % 2 ^ w := by
  rw [BitVec.toNat_xor, BitVec.toNat_shiftLeft, Nat.shiftLeft_eq, Nat.xor_mod_two_pow, Nat.mod_eq_of_lt x.isLt]

/-- An xorshift step to the right, in arithmetic. -/
theorem toNat_xor_ushiftRight {w : Nat} (x : BitVec w) (n : Nat) : (x ^^^ (x >>> n)).toNat = x.toNat ^^^ (x.toNat / 2 ^ n) := by
  rw [BitVec.toNat_xor, BitVec.toNat_ushiftRight, Nat.shiftRight_eq_div_pow]

/-- The three steps of a lottery register in arithmetic (R224). -/
theorem toNat_lottery (x : BitVec 32) :
    let x1 := (x.toNat ^^^ (x.toNat * 2 ^ 13)) % 2 ^ 32
    let x2 := x1 ^^^ (x1 / 2 ^ 17)
    (lottery x).toNat = (x2 ^^^ (x2 * 2 ^ 5)) % 2 ^ 32 := by
  simp only [lottery, toNat_xor_shiftLeft, toNat_xor_ushiftRight]

/-! ## The lottery registers -/

/-- A lottery register after reset (R224). -/
theorem State.clxOf_reset (c : Nat) : State.reset.clxOf c = BitVec.ofNat 32 (c + 1) := rfl

/-- What a write to the word of CLX of class `c` does: 0 is ignored (R224). -/
theorem State.ipWrite_clx (s : State) {c : Nat} (hc : c < 16) (v : Word) :
    s.ipWrite (0x20000 + 8 * c) v = if (v.extractLsb' 0 32 : BitVec 32) = 0 then s else s.setClx c (v.extractLsb' 0 32) := by
  have hin : (decide (0x20000 ≤ 0x20000 + 8 * c) && decide (0x20000 + 8 * c < 0x20000 + 0x80)) = true := by simp; omega
  have hidx : (0x20000 + 8 * c - 0x20000) / 8 = c := by omega
  simp only [State.ipWrite, hin, if_true, hidx]

/-- The owner's write to a register of an interposer reaches the word that its offset lies in. -/
theorem exec_registerWrite_ip {w : Writer} {off : BitVec 34} {v : Word} {s : State} (h : s.settled.mayWrite w = true) :
    exec (.registerWrite w false off v) s = .next (s.settled.ipWrite (off.toNat / 8 * 8) v) := by
  have hexec : exec (.registerWrite w false off v) s = ownerWrite w s fun s => s.ipWrite (off.toNat / 8 * 8) v := rfl
  rw [hexec, ownerWrite_allowed h]

/-- Settles O41: the draw over the listed queues is the draw over all of them (`State.draw_eq`), and its walk ends at the queue
whose tickets hold the drawn number (`ticketWalk_range`). -/
theorem ticketDraw : Obligations.TicketDraw := by
  intro s k hwf hlt tickets before total x0 x1 x2 x
  have hdraw := s.draw_eq k hwf hlt
  have hx : (lottery (s.clxOf k)).toNat = x := toNat_lottery _
  have hreg : lottery (s.clxOf k) = BitVec.ofNat 32 x := by rw [← hx, BitVec.ofNat_toNat, BitVec.setWidth_eq]
  rw [hx, hreg] at hdraw
  refine ⟨fun hnone => hdraw.trans (if_pos hnone), fun hsome => ?_, State.clxOf_reset k, fun w v hw hk => ?_⟩
  · obtain ⟨w, hw, hlo, hhi, hwalk⟩ := ticketWalk_range tickets (Nat.mod_lt x hsome)
    exact ⟨w, hw, hlo, hhi, (hdraw.trans (if_neg (Nat.ne_of_gt hsome))).trans (congrArg (·, _) hwalk)⟩
  · have hoff : (BitVec.ofNat 34 (0x20000 + 8 * k)).toNat / 8 * 8 = 0x20000 + 8 * k := by
      rw [BitVec.toNat_ofNat]
      omega
    rw [exec_registerWrite_ip hw, hoff, State.ipWrite_clx _ hk]

end Sys2Proof.Machine
end

section
/-! SUPPORT. Sequencer arithmetic as numbers: what completes from operands that read, the values of division, bit fields and bit counts
(R250-R255), and the statements about them. -/

namespace Sys2Proof.Machine

open Sys2Proof

/-! ## An instruction that computes from its operands and writes xd (R247) -/

section Completes
variable {i : Instr} {d : Reg} {a b : SOpd} {s s1 s2 : State} {x y : SVal}

/-- A two-operand instruction writes its function of the operands, with the poison of either. -/
theorem writes_of_arith2 {f : Word → Word → Word} {P : Word → Prop} (hi : exec i s = arith2 d a b f s)
    (ha : Reads s.focus a s x s1) (hb : Reads s.focus b s1 y s2) (hP : P (f x.v y.v)) : Writes i s s2 d (x.p || y.p) P := by
  refine ⟨f x.v y.v, hi.trans (runNext_ok ?_), hP⟩
  rw [mx_bind_ok _ _ _ _ _ ha, mx_bind_ok _ _ _ _ _ hb, wr_eq]

/-- A one-operand instruction writes its function of the operand, with its poison. -/
theorem writes_of_arith1 {f : Word → Word} {P : Word → Prop} (hi : exec i s = arith1 d a f s)
    (ha : Reads s.focus a s x s1) (hP : P (f x.v)) : Writes i s s1 d x.p P := by
  refine ⟨f x.v, hi.trans (runNext_ok ?_), hP⟩
  rw [mx_bind_ok _ _ _ _ _ ha, wr_eq]

/-- `bfi` reads its old destination after its operands (R252). -/
theorem writes_bfi {wid : Fin 64} {P : Word → Prop} (ha : Reads s.focus a s x s1) (hb : Reads s.focus b s1 y s2)
    (hP : P (bfiW (s2.reg s.focus d).v x.v y.v.toNat (wid.val + 1))) :
    Writes (.bfi d a b wid) s s2 d (x.p || y.p || (s2.reg s.focus d).p) P := by
  refine ⟨_, runNext_ok ?_, hP⟩
  rw [mx_bind_ok _ _ _ _ _ ha, mx_bind_ok _ _ _ _ _ hb, mx_bind_ok _ _ _ _ _ (mx_getS s2), wr_eq]

/-- `sel` writes the operand that xc picks, with the poison of xc and of that operand (R253). -/
theorem writes_sel {c : Reg} {r : SVal} (ha : Reads s.focus a s x s1) (hb : Reads s.focus b s1 y s2)
    (hr : (if (s2.reg s.focus c).v ≠ 0 then x else y) = r) :
    Writes (.sel d a b c) s s2 d ((s2.reg s.focus c).p || r.p) (fun v => v = r.v) := by
  subst hr
  refine ⟨_, runNext_ok ?_, rfl⟩
  rw [mx_bind_ok _ _ _ _ _ ha, mx_bind_ok _ _ _ _ _ hb, mx_bind_ok _ _ _ _ _ (mx_getS s2), wr_eq]

end Completes

/-! ## Division (R251) -/

/-- Of opposite signs the quotient is not positive; where the product is 0, so is the quotient, and its sign does not matter. -/
theorem truncDiv_of_mul_nonpos {x y : Int} (h : x * y ≤ 0) : truncDiv x y = -(x.natAbs / y.natAbs : Nat) := by
  rw [truncDiv]
  split
  · next hnonneg =>
    rcases Int.mul_eq_zero.mp (Int.le_antisymm h hnonneg) with rfl | rfl <;> simp
  · rfl

/-- R251's truncated quotient is that of the library. -/
theorem truncDiv_eq_tdiv (x y : Int) : truncDiv x y = x.tdiv y := by
  have hmul (m n : Nat) : (0 : Int) ≤ m * n := Int.mul_nonneg (Int.natCast_nonneg m) (Int.natCast_nonneg n)
  rcases x.eq_nat_or_neg with ⟨m, rfl | rfl⟩ <;> rcases y.eq_nat_or_neg with ⟨n, rfl | rfl⟩
  · rw [truncDiv, if_pos (hmul m n)]
    rfl
  · rw [truncDiv_of_mul_nonpos (by rw [Int.mul_neg]; exact Int.neg_nonpos_of_nonneg (hmul m n)), Int.tdiv_neg, Int.natAbs_neg]
    rfl
  · rw [truncDiv_of_mul_nonpos (by rw [Int.neg_mul]; exact Int.neg_nonpos_of_nonneg (hmul m n)), Int.neg_tdiv, Int.natAbs_neg]
    rfl
  · rw [truncDiv, if_pos (by rw [Int.neg_mul_neg]; exact hmul m n), Int.neg_tdiv_neg, Int.natAbs_neg, Int.natAbs_neg]
    rfl

theorem divS_eq_sdiv {x y : Word} (hy : y ≠ 0) : divS x y = x.sdiv y := by
  rw [divS, if_neg hy]
  apply BitVec.eq_of_toInt_eq
  rw [BitVec.toInt_ofInt, BitVec.toInt_sdiv]

theorem remS_eq_srem (x y : Word) : remS x y = x.srem y := by
  rw [remS]
  split
  · next hy => rw [hy]; exact BitVec.srem_zero.symm
  · rw [← BitVec.toInt_srem, BitVec.ofInt_toInt]

/-- The one quotient that 64 bits do not hold wraps to the dividend. -/
theorem toInt_divS_overflow {x y : Word} (hx : x.toInt = -2 ^ 63) (hy : y.toInt = -1) : (divS x y).toInt = -2 ^ 63 := by
  have hy0 : y ≠ 0 := by rintro rfl; simp at hy
  rw [divS_eq_sdiv hy0, BitVec.toInt_sdiv, hx, hy]
  rfl

theorem toInt_divS {x y : Word} (hy : y ≠ 0) (h : ¬(x.toInt = -2 ^ 63 ∧ y.toInt = -1)) :
    (divS x y).toInt = truncDiv x.toInt y.toInt := by
  rw [divS_eq_sdiv hy, truncDiv_eq_tdiv]
  apply BitVec.toInt_sdiv_of_ne_or_ne
  by_cases hx : x = BitVec.intMin 64
  · refine .inr fun hy1 => h ?_
    rw [hx, hy1]
    decide
  · exact .inl hx

theorem toInt_remS (x y : Word) : (remS x y).toInt = x.toInt - y.toInt * truncDiv x.toInt y.toInt := by
  rw [remS_eq_srem, BitVec.toInt_srem, truncDiv_eq_tdiv, Int.tmod_def]

theorem remS_minus_one (x : Word) {y : Word} (hy : y.toInt = -1) : remS x y = 0 := by
  apply BitVec.eq_of_toInt_eq
  rw [toInt_remS, truncDiv_eq_tdiv, hy, Int.tdiv_neg, Int.tdiv_one]
  simp

theorem toNat_divU {x y : Word} (hy : y ≠ 0) : (divU x y).toNat = x.toNat / y.toNat := by
  rw [divU, if_neg hy, BitVec.toNat_ofNat, Nat.mod_eq_of_lt]
  exact Nat.lt_of_le_of_lt (Nat.div_le_self _ _) x.isLt

theorem toNat_remU {x y : Word} (hy : y ≠ 0) : (remU x y).toNat = x.toNat % y.toNat := by
  rw [remU, if_neg hy, BitVec.toNat_ofNat, Nat.mod_eq_of_lt]
  exact Nat.lt_of_le_of_lt (Nat.mod_le _ _) x.isLt

/-- Settles O2: each instruction writes its function of the operands, whose value the lemmas above give case by case. -/
theorem divisionResults : Obligations.DivisionResults := by
  intro s s1 s2 d a b x y ha hb past W
  refine ⟨writes_of_arith2 (f := divS) rfl ha hb ⟨?_, ?_, ?_⟩, writes_of_arith2 (f := remS) rfl ha hb ⟨?_, ?_, ?_⟩,
    writes_of_arith2 (f := divU) rfl ha hb ⟨?_, ?_⟩, writes_of_arith2 (f := remU) rfl ha hb ⟨?_, ?_⟩⟩
  · exact fun hy => if_pos hy
  · exact fun ⟨hx, hy⟩ => toInt_divS_overflow hx hy
  · exact fun hy hpast => toInt_divS hy hpast
  · exact fun hy => if_pos hy
  · exact fun ⟨_, hy⟩ => remS_minus_one x.v hy
  · exact fun _ _ => toInt_remS x.v y.v
  · exact fun hy => if_pos hy
  · exact fun hy => toNat_divU hy
  · exact fun hy => if_pos hy
  · exact fun hy => toNat_remU hy

/-! ## Compare and select (R253) -/

/-- Settles O3: `cmp` writes 1 exactly where its condition holds, and `sel` picks by xc. -/
theorem compareAndSelect : Obligations.CompareAndSelect := by
  intro s s1 s2 d a b c x y ha hb C
  have hcmp (cc : Cond) (P : Prop) (hP : condW cc x.v y.v = true ↔ P) : C cc P := by
    refine writes_of_arith2 (f := fun x y => if condW cc x y then 1 else 0) rfl ha hb ⟨fun h => ?_, fun h => ?_⟩
    · exact if_pos (hP.mpr h)
    · exact if_neg (mt hP.mp h)
  refine ⟨hcmp .eq _ beq_iff_eq, hcmp .ne _ bne_iff_ne, hcmp .lt _ decide_eq_true_iff, hcmp .ge _ decide_eq_true_iff,
    hcmp .ltn _ decide_eq_true_iff, hcmp .gen _ decide_eq_true_iff, fun hz => ?_, fun hz => ?_⟩
  · exact writes_sel ha hb (if_pos hz)
  · exact writes_sel ha hb (if_neg fun hne => hne hz)

/-! ## Bit fields (R252) -/

theorem toNat_bfxW (x : Word) (p : Nat) {w : Nat} (hw : w ≤ 64) : (bfxW x p w).toNat = x.toNat / 2 ^ p % 2 ^ w := by
  rw [bfxW]
  split
  · next hp =>
    have hx : x.toNat < 2 ^ p := Nat.lt_of_lt_of_le x.isLt (Nat.pow_le_pow_right (by decide) hp)
    rw [Nat.div_eq_of_lt hx, Nat.zero_mod]
    rfl
  · rw [BitVec.toNat_ofNat, Nat.mod_eq_of_lt]
    exact Nat.lt_of_lt_of_le (Nat.mod_lt _ (Nat.two_pow_pos w)) (Nat.pow_le_pow_right (by decide) hw)

/-- Bit `k` of a word with the field of `w` bits at `p` replaced. -/
theorem getLsbD_bfiW (old x : Word) (p w : Nat) {k : Nat} (hk : k < 64) :
    (bfiW old x p w).getLsbD k = if p ≤ k ∧ k < p + w then x.getLsbD (k - p) else old.getLsbD k := by
  rw [bfiW]
  split
  · rw [if_neg (by omega)]
  · simp only [BitVec.getLsbD_or, BitVec.getLsbD_and, BitVec.getLsbD_not, BitVec.getLsbD_ofNat, Nat.testBit_mul_two_pow,
      Nat.testBit_two_pow_sub_one, Nat.testBit_mod_two_pow, BitVec.testBit_toNat, hk]
    by_cases hp : p ≤ k <;> by_cases hw : k - p < w
    · simp [hp, hw, show k < p + w by omega]
    · simp [hp, hw, show ¬k < p + w by omega]
    · simp [hp]
    · simp [hp]

/-! ## Bit counts (R250) -/

theorem toNat_ne_zero {x : Word} (hx : x ≠ 0) : x.toNat ≠ 0 := fun h =>
  hx (BitVec.eq_of_toNat_eq h)

theorem log2_toNat_lt {x : Word} (hx : x ≠ 0) : x.toNat.log2 < 64 := (Nat.log2_lt (toNat_ne_zero hx)).mpr x.isLt

theorem clzW_le (x : Word) : clzW x ≤ 64 := by
  rw [clzW]
  split <;> omega

/-- Every bit above the highest 1 bit is 0. -/
theorem getLsbD_above_clzW (x : Word) {k : Nat} (hk : 64 - clzW x ≤ k) : x.getLsbD k = false := by
  by_cases hx : x = 0
  · rw [hx]; exact BitVec.getLsbD_zero
  · rw [clzW, if_neg hx] at hk
    have hlog := log2_toNat_lt hx
    have hlt : x.toNat < 2 ^ k := (Nat.log2_lt (toNat_ne_zero hx)).mp (by omega)
    rw [← BitVec.testBit_toNat, Nat.testBit_lt_two_pow hlt]

theorem getLsbD_at_clzW {x : Word} (hx : x ≠ 0) : x.getLsbD (63 - clzW x) = true := by
  have hlog := log2_toNat_lt hx
  rw [clzW, if_neg hx, show 63 - (63 - x.toNat.log2) = x.toNat.log2 by omega, ← BitVec.testBit_toNat]
  exact Nat.testBit_log2 (toNat_ne_zero hx)

/-- A word and its negative share their lowest 1 bit alone. -/
theorem and_zero_sub_eq_twoPow {x : Word} {t : Nat} (ht : x.getLsbD t = true) (hlow : ∀ k < t, x.getLsbD k = false) :
    x &&& (0 - x) = BitVec.twoPow 64 t := by
  have hneg (k : Nat) : (0 - x).getLsbD k = (x.getLsbD k ^^ (decide (k < 64) && decide (∃ j < k, x.getLsbD j = true))) := by
    rw [show 0 - x = -x from BitVec.zero_sub x, BitVec.getLsbD_neg]
  apply BitVec.eq_of_getLsbD_eq
  intro k hk
  rw [BitVec.getLsbD_and, hneg, BitVec.getLsbD_twoPow]
  rcases Nat.lt_trichotomy k t with hlt | rfl | hgt
  · simp [hlow k hlt, Nat.ne_of_gt hlt]
  · have hnone : ¬∃ j < k, x.getLsbD j = true := fun ⟨j, hj, hbit⟩ => by simp [hlow j hj] at hbit
    simp [ht, hnone, hk]
  · have hsome : ∃ j < k, x.getLsbD j = true := ⟨t, hgt, ht⟩
    simp [hsome, hk, Nat.ne_of_lt hgt]

theorem ctzW_eq {x : Word} {t : Nat} (ht : x.getLsbD t = true) (hlow : ∀ k < t, x.getLsbD k = false) : ctzW x = t := by
  have hx : x ≠ 0 := by rintro rfl; simp at ht
  rw [ctzW, if_neg hx, and_zero_sub_eq_twoPow ht hlow, BitVec.toNat_twoPow_of_lt (BitVec.lt_of_getLsbD ht), Nat.log2_two_pow]

theorem ctzW_eq_toNat_ctz {x : Word} (hx : x ≠ 0) : ctzW x = x.ctz.toNat :=
  ctzW_eq (BitVec.getLsbD_true_ctz_of_ne_zero hx) fun _ hk => BitVec.getLsbD_false_of_lt_ctz hk

theorem ctzW_zero : ctzW 0 = 64 := if_pos rfl

/-- Every bit below the lowest 1 bit is 0. -/
theorem getLsbD_below_ctzW (x : Word) {k : Nat} (hk : k < ctzW x) : x.getLsbD k = false := by
  by_cases hx : x = 0
  · rw [hx]; exact BitVec.getLsbD_zero
  · exact BitVec.getLsbD_false_of_lt_ctz (ctzW_eq_toNat_ctz hx ▸ hk)

theorem getLsbD_at_ctzW {x : Word} (hx : x ≠ 0) : x.getLsbD (ctzW x) = true := by
  rw [ctzW_eq_toNat_ctz hx]
  exact BitVec.getLsbD_true_ctz_of_ne_zero hx

theorem ctzW_le (x : Word) : ctzW x ≤ 64 := by
  by_cases hx : x = 0
  · exact hx ▸ Nat.le_of_eq ctzW_zero
  · exact Nat.le_of_lt (BitVec.lt_of_getLsbD (getLsbD_at_ctzW hx))

theorem popcW_eq_length (x : Word) : popcW x = ((List.range 64).filter fun k => x.getLsbD k).length :=
  List.countP_eq_length_filter

theorem popcW_le (x : Word) : popcW x ≤ 64 := Nat.le_trans List.countP_le_length (Nat.le_of_eq List.length_range)

/-- A count of bits fits a word. -/
theorem toNat_w64_of_le {n : Nat} (hn : n ≤ 64) : (w64 n).toNat = n := by
  rw [w64, BitVec.toNat_ofNat, Nat.mod_eq_of_lt (by omega)]

/-! ## Addresses and literals (R254, R255) -/

theorem toNat_add_shiftLeft (x y : Word) (n : Nat) : (x + y <<< n).toNat = (x.toNat + y.toNat * 2 ^ n) % 2 ^ 64 := by
  rw [BitVec.toNat_add, BitVec.toNat_shiftLeft, Nat.shiftLeft_eq, Nat.add_mod_mod]

theorem toNat_litWide (lo hi : Word32) : (BitVec.ofNat 64 (lo.toNat + hi.toNat * 2 ^ 32)).toNat = lo.toNat + hi.toNat * 2 ^ 32 := by
  rw [BitVec.toNat_ofNat, Nat.mod_eq_of_lt]
  omega

theorem bitFieldResultsRule : BitFieldResultsRule := by
  intro s s1 s2 d a b wid x y ha hb p w old
  constructor
  · exact writes_of_arith2 (f := fun x y => bfxW x y.toNat (wid.val + 1)) rfl ha hb (toNat_bfxW x.v p wid.isLt)
  · exact writes_bfi ha hb fun k hk => getLsbD_bfiW old.v x.v p w hk

theorem countsAddressesLiteralsRule : CountsAddressesLiteralsRule := by
  intro s s1 d a x ha
  have hclz := toNat_w64_of_le (clzW_le x.v)
  have hctz := toNat_w64_of_le (ctzW_le x.v)
  refine ⟨writes_of_arith1 (f := fun x => w64 (clzW x)) rfl ha ?_, writes_of_arith1 (f := fun x => w64 (ctzW x)) rfl ha ?_,
    writes_of_arith1 (f := fun x => w64 (popcW x)) rfl ha ?_, writes_of_arith1 (f := fun x => x) rfl ha rfl,
    fun b y s2 sh hb => writes_of_arith2 (f := fun x y => x + y <<< sh.val) rfl ha hb ?_, fun lo hi => ?_, runNext_ok rfl⟩
  · rw [hclz]
    exact ⟨clzW_le x.v, fun k => getLsbD_above_clzW x.v, getLsbD_at_clzW, fun hx => by rw [hx]; rfl⟩
  · rw [hctz]
    exact ⟨ctzW_le x.v, fun k => getLsbD_below_ctzW x.v, getLsbD_at_ctzW, fun hx => by rw [hx, ctzW_zero]; rfl⟩
  · rw [toNat_w64_of_le (popcW_le x.v), popcW_eq_length]
  · exact toNat_add_shiftLeft x.v y.v sh.val
  · exact ⟨_, runNext_ok (wr_eq ..), toNat_litWide lo hi⟩

/-- Settles O4: the rule of the bit fields, and that of the counts, addresses and literals. -/
theorem bitAndLiteralResults : Obligations.BitAndLiteralResults := ⟨bitFieldResultsRule, countsAddressesLiteralsRule⟩

end Sys2Proof.Machine
end

section
/-! SUPPORT. The fields of a sequencer word as its encoder writes them (R65, R74, R77), and a word of `csrw` that names a register which
software does not write (R82). -/

namespace Sys2Proof

/-! ## Fields of a Q word -/

/-- The fields of a Q word stand where its encoder puts them, with the V words of its operands behind (R65, R77). -/
theorem fields_of_encQ {op d fn w : Nat} {a b : Fields} {more cs : List Nat} (henc : encQ op d a b fn more = w :: cs)
    (hop : op < 128) (hd : d < 32) (ha : a.kind < 4 ∧ a.f < 32) (hb : b.kind < 4 ∧ b.f < 32) (hfn : fn < 64) :
    fld w 25 7 = op ∧ fld w 20 5 = d ∧ fld w 18 2 = a.kind ∧ fld w 13 5 = a.f ∧ fld w 11 2 = b.kind ∧ fld w 6 5 = b.f ∧
      fld w 0 6 = fn ∧ cs = a.v ++ b.v ++ more := by
  obtain ⟨rfl, rfl⟩ := List.cons.inj henc
  simp only [fld, and_true]
  omega

/-! ## Operands of a Q word -/

/-- The five shapes of a sequencer operand's fields: a register, a short and an escaped constant, a short and an escaped literal. -/
theorem SOpd.enc_cases (a : SOpd) :
    (∃ f < 32, a.enc = ⟨1, f, []⟩) ∨ (∃ f < 31, a.enc = ⟨2, f, []⟩) ∨ (∃ k < 8192, a.enc = ⟨2, 31, [k * 8]⟩) ∨
      (∃ f < 32, f ≠ 16 ∧ a.enc = ⟨3, f, []⟩) ∨ ∃ n, a.enc = ⟨3, 16, [n]⟩ := by
  cases a with
  | reg r => exact .inl ⟨r.val, r.isLt, rfl⟩
  | const k =>
    by_cases hk : k.val < 31
    · exact .inr (.inl ⟨k.val, hk, if_pos hk⟩)
    · exact .inr (.inr (.inl ⟨k.val, k.isLt, if_neg hk⟩))
  | lit v =>
    by_cases hv : -15 ≤ v.toInt ∧ v.toInt ≤ 15
    · refine .inr (.inr (.inr (.inl ⟨v.toNat % 32, Nat.mod_lt _ (by decide), ?_, if_pos hv⟩)))
      have hint := BitVec.toInt_eq_toNat_cond v
      split at hint <;> omega
    · exact .inr (.inr (.inr (.inr ⟨v.toNat, if_neg hv⟩)))

theorem SOpd.enc_fields_lt (a : SOpd) : a.enc.kind < 4 ∧ a.enc.f < 32 := by
  rcases a.enc_cases with ⟨f, hf, h⟩ | ⟨f, hf, h⟩ | ⟨k, hk, h⟩ | ⟨f, hf, hne, h⟩ | ⟨n, h⟩ <;> simp only [h] <;> omega

/-- An operand has a V word exactly where its field is an escape (R74, R77). -/
theorem SOpd.length_enc_v (a : SOpd) : a.enc.v.length = (isEsc 5 a.enc.kind a.enc.f).toNat := by
  rcases a.enc_cases with ⟨f, hf, h⟩ | ⟨f, hf, h⟩ | ⟨k, hk, h⟩ | ⟨f, hf, hne, h⟩ | ⟨n, h⟩
  · simp [h, isEsc]
  · simp [h, isEsc, beq_eq_false_iff_ne.mpr (Nat.ne_of_lt hf)]
  · simp [h, isEsc]
  · simp [h, isEsc, beq_eq_false_iff_ne.mpr hne]
  · simp [h, isEsc]

/-- An operand's fields pass check 8 of R82 where the form takes the kinds S, K and L. -/
theorem SOpd.check_enc (a : SOpd) (more : List Nat) :
    skl.check a.enc.kind a.enc.f (if isEsc 5 a.enc.kind a.enc.f then some ((a.enc.v ++ more).headD 0) else none) = 0 := by
  rcases a.enc_cases with ⟨f, hf, h⟩ | ⟨f, hf, h⟩ | ⟨k, hk, h⟩ | ⟨f, hf, hne, h⟩ | ⟨n, h⟩
  · simp [h, skl, OpdSpec.check, hf]
  · simp [h, skl, OpdSpec.check, isEsc, Nat.ne_of_lt hf]
  · have hlt : k * 8 < 65536 := by omega
    simp [h, skl, OpdSpec.check, isEsc, hlt]
  · simp [h, skl, OpdSpec.check]
  · simp [h, skl, OpdSpec.check]

theorem csrOf_code (k : Csr) : csrOf k.code = some k := by cases k <;> rfl

theorem Csr.code_lt (k : Csr) : k.code < 64 := by cases k <;> decide

theorem Csr.not_writable_of_notMem {k : Csr} (hk : k ∉ [Csr.cctl, .cflags, .tvec, .tepc]) : k.writable = false := by
  cases k <;> simp_all [Csr.writable]

/-! ## A word of `csrw` -/

/-- The form of `csrw` (R249). -/
def csrwRow : QRow :=
  { dLim := none, a := skl, fnUsed := 63, vals := fun w => need ((csrOf w.fn).any Csr.writable),
    make := fun w => .csrw ((csrOf w.fn).getD .pkgno) w.a }

/-- A word with the opcode of `csrw` is decoded by its form (R79). -/
theorem decodeSeq_csrw {xs : Bool} {w : Nat} (cs : List Nat) (hop : fld w 25 7 = 0x36) :
    decodeSeq xs w cs = decodeQ csrwRow w cs := by
  rw [decodeSeq, hop]
  rfl

/-- The form of `csrw` refuses a register that software does not write, with CAUSE 0x14 at the first word (R82, R275). -/
theorem decode_csrw_refused {k : Csr} (hk : k.writable = false) (a : SOpd) (xs : Bool) {w : Nat} {cs : List Nat}
    (henc : encode (.csrw k a) = w :: cs) : decode (.seq xs) w cs = .bad 2 0x14 0 := by
  obtain ⟨hop, -, hka, hfa, hkb, hfb, hfn, hcs⟩ :=
    fields_of_encQ henc (by decide) (by decide) a.enc_fields_lt (by decide) k.code_lt
  have hv : cs = a.enc.v ++ [] := hcs.trans (List.append_nil _)
  have hlen : cs.length = (isEsc 5 a.enc.kind a.enc.f).toNat := by rw [hv, List.append_nil, a.length_enc_v]
  have ha : skl.check a.enc.kind a.enc.f (if isEsc 5 a.enc.kind a.enc.f then some (cs.headD 0) else none) = 0 := by
    rw [hv, a.check_enc []]
  have hesc : isEsc 5 noOpd.kind noOpd.f = false := rfl
  have hb : OpdSpec.un.check noOpd.kind noOpd.f none = 0 := rfl
  rw [decode, decodeSeq_csrw cs hop, decodeQ]
  simp only [hka, hfa, hkb, hfb, hfn, hesc, csrwRow, csrOf_code, Option.any_some, hk, need, hlen, ha]
  simp [hb]

end Sys2Proof
end

section
/-! SUPPORT. Control registers (R275-R278): `csrr` as one equation, `csrw` by what follows its checked operand,
and the statement about them. -/

namespace Sys2Proof.Machine

open Sys2Proof

/-! ## Reads (R275, R276) -/

/-- `csrr` writes the register's value, never poisoned. -/
theorem exec_csrr (s : State) (d : Reg) (k : Csr) :
    exec (.csrr d k) s = .next ((s.setReg s.focus d { v := s.csrValue s.focus k, p := false }).advance s.focus) :=
  runNext_ok (wr_eq ..)

theorem State.csrValue_jobid {s : State} {q : SeqId} {t : Task} (ht : (s.core q.core.val).task = some t) :
    s.csrValue q .jobid = t.jobid := by
  simp only [State.csrValue, State.jobidOf, ht]

theorem State.csrValue_lidx {s : State} {q : SeqId} {t : Task} (ht : (s.core q.core.val).task = some t) :
    s.csrValue q .lidx = t.lidx := by
  simp only [State.csrValue, ht]

theorem controlRegisterReadsRule : ControlRegisterReadsRule := by
  intro s d q c x y R
  have hR (k : Csr) : R k (s.csrValue q k) := exec_csrr s d k
  refine ⟨hR .pkgno, hR .tvec, hR .tepc, hR .frec, hR .carvew, hR .cflags, hR .clock, hR .chto, hR .cbase, hR .cctl, fun t ht => ?_⟩
  rw [← State.csrValue_lidx ht, ← State.csrValue_jobid ht]
  exact ⟨hR .lidx, hR .jobid⟩

/-! ## Writes (R275, R277, R278) -/

section Write
variable {k : Csr} {a : SOpd} {s s1 t : State} {v : SVal} {m : Word → Mx Unit}

/-- What follows the checked operand of `csrw` completes: it is the whole effect. -/
theorem exec_csrw_ok (hk : exec (.csrw k a) s = runNext s.focus (chk s.focus a 1 >>= m) s) (ha : Reads s.focus a s v s1)
    (hp : v.p = false) (hm : m v.v s1 = .ok () t) : exec (.csrw k a) s = .next (t.advance s.focus) := by
  refine hk.trans (runNext_ok ?_)
  rw [mx_bind_ok _ _ _ _ _ (chk_clear ha hp), hm]

/-- What follows the checked operand of `csrw` refuses its value: the instruction is at fault. -/
theorem exec_csrw_fault {f : FaultInfo} (hk : exec (.csrw k a) s = runNext s.focus (chk s.focus a 1 >>= m) s)
    (ha : Reads s.focus a s v s1) (hp : v.p = false) (hm : m v.v s1 = .error (.fault f) t) :
    exec (.csrw k a) s = .next (t.precise s.focus f) := by
  refine hk.trans (runSeq_fault (mx_bind_error _ _ _ _ _ ?_))
  rw [mx_bind_ok _ _ _ _ _ (chk_clear ha hp), hm]

/-- A poisoned operand of `csrw` is poison-sync, whatever the register (R247). -/
theorem exec_csrw_poisoned (ha : Reads s.focus a s v s1) (hp : v.p = true) :
    exec (.csrw k a) s = .next (s1.precise s.focus (mkFault 0x0A (detailOf 0 1 0x77))) :=
  runSeq_fault (mx_bind_error _ _ _ _ _ (mx_bind_error _ _ _ _ _ (chk_poisoned ha hp)))

end Write

/-- An operation behind a check that passes. -/
theorem mx_check_bind_pass {α : Type} {c : Bool} (hc : c = true) (cls cause index aux : Nat) (m : Unit → Mx α) (s : State) :
    (check c cls cause index aux >>= m) s = m () s := by
  rw [hc]
  exact mx_bind_ok _ _ _ _ _ (mx_check_true ..)

/-- A check that fails is the fault. -/
theorem mx_check_bind_fail {α : Type} {c : Bool} (hc : c = false) (cls cause index aux : Nat) (m : Unit → Mx α) (s : State) :
    (check c cls cause index aux >>= m) s = .error (.fault (mkFault cls (detailOf aux index cause))) s := by
  rw [hc]
  exact mx_bind_error _ _ _ _ _ (mx_check_false ..)

/-- A line's address: its low five bits and those above bit 51 are 0 (R62, R277). -/
theorem lineOk_iff (v : Word) : lineOk v.toNat = true ↔ v.toNat % 32 = 0 ∧ v.toNat < 2 ^ 52 := by
  have hv := v.isLt
  simp only [lineOk, fld, Bool.and_eq_true, beq_iff_eq]
  omega

/-- A flag stays exactly where it was set and the bit written is 0 (R278). -/
theorem Core.getLsbD_clearFlags (x : Core) (a : Word) {k : Nat} (hk : k < 4) :
    (x.clearFlags a).cflags.getLsbD k = (x.cflags.getLsbD k && !a.getLsbD k) := by
  simp [Core.clearFlags, hk]

theorem controlRegisterWritesRule : ControlRegisterWritesRule := by
  intro s s1 a v ha q
  refine ⟨fun k hp => exec_csrw_poisoned ha hp, fun hp => ⟨fun hlow hhigh => ?_, fun hbad => ?_, ?_, fun hres => ?_, fun hres => ?_,
    ((s1.core q.core.val).clearFlags v.v).cflags, ?_, fun k hk => Core.getLsbD_clearFlags _ _ hk⟩, fun k xs hk w cs henc => ?_⟩
  · refine exec_csrw_ok rfl ha hp ?_
    exact mx_check_bind_pass ((lineOk_iff v.v).mpr ⟨hlow, hhigh⟩) ..
  · refine exec_csrw_fault rfl ha hp ?_
    refine mx_check_bind_fail (Bool.eq_false_iff.mpr ?_) ..
    rw [Ne, lineOk_iff]
    omega
  · exact exec_csrw_ok rfl ha hp rfl
  · refine exec_csrw_ok rfl ha hp ?_
    exact mx_check_bind_pass (beq_iff_eq.mpr hres) ..
  · refine exec_csrw_fault rfl ha hp ?_
    exact mx_check_bind_fail (beq_eq_false_iff_ne.mpr hres) ..
  · exact exec_csrw_ok rfl ha hp rfl
  · exact decode_csrw_refused (Csr.not_writable_of_notMem hk) a xs henc

/-- Settles O9: what `csrr` reads, and what each `csrw` does, refuses or cannot name. -/
theorem controlRegisters : Obligations.ControlRegisters := ⟨controlRegisterReadsRule, controlRegisterWritesRule⟩

end Sys2Proof.Machine
end
